-- ==== Sys2Proof/Word.lean ====
section
/-! DEFINITION. The word types of the machine and their plainest arithmetic (spec/00_scope.md R9 to R12). -/

namespace Sys2Proof

/-- A byte of memory. -/
abbrev Byte := BitVec 8

/-- A 64-bit word: a narrow register, an address while it is computed, an instruction word. -/
abbrev W64 := BitVec 64

/-- The 1,024 data bits of a wide register or token (R138). -/
abbrev WideBits := BitVec 1024

/-- The field `x[hi:lo]` of a number (R9, R12). -/
def bitsOf (x hi lo : Nat) : Nat := (x / 2 ^ lo) % 2 ^ (hi + 1 - lo)

/-- Bit `b` of a number (R9). -/
def bitAt (x b : Nat) : Bool := (x / 2 ^ b) % 2 == 1

/-- A truth value as the number 0 or 1. -/
def ofBool (b : Bool) : Nat := if b then 1 else 0

end Sys2Proof
end

