-- ==== Sys2Proof/Config.lean ====
section
/-! DEFINITION. What the spec leaves open or names without defining, as constants without a body: nothing can be proved about
their values. Free values are applied to the counter `fresh` of the state, which every use advances (log entry 9). -/

namespace Sys2Proof.Config

/-- A bit that the spec leaves open (R23: is a q write of another member visible yet; R299: which member of an ill-formed
contiguous group translates). -/
opaque freeNat : Nat → Nat

/-- A word that the spec leaves open: an accumulator element before ACCZ or ACCLD (R21, R273), a value without a rule. -/
opaque freeWord : Nat → BitVec 64

/-- SHA3-512 (R439 to R441): named by the spec, not defined by it. -/
opaque sha3_512 : List (BitVec 8) → BitVec 512

/-- Does an ML-DSA-87 signature (R439) verify against a public key's digest? Message, signature, fused digest. -/
opaque mldsaVerify : List (BitVec 8) → List (BitVec 8) → BitVec 512 → Bool

/-- The signature that the identity key gives a message (R441). -/
opaque mldsaSign : List (BitVec 8) → List (BitVec 8)

/-- The certificate chain of the module (R441). -/
opaque certificateChain : List (BitVec 8)

/-- The key that a KEY_EXCHANGE agrees (R441): the requester's data and the identity key decide it. -/
opaque exchangeKey : BitVec 512 → BitVec 256

/-- CRC-32 of the 256 bytes of a flit with its CRC field zero (R392, Table 14-6): the polynomial is not given. -/
opaque crc32 : List (BitVec 128) → BitVec 32

/-- The images of the boot chain (R439), by stage: 0 the Priore firmware, 1 to 4 the dies' firmware. The header fields before
the signature, the signature, the image itself, the digest and the security version in its header. -/
opaque imageHeader : Nat → List (BitVec 8)
opaque imageSignature : Nat → List (BitVec 8)
opaque imageBytes : Nat → List (BitVec 8)
opaque imageDigest : Nat → BitVec 512
opaque imageSvn : Nat → Nat

/-- The fused minimum security version (R439), and the digest of the Grensy public key. -/
opaque fusedSvn : Nat
opaque fusedKeyDigest : BitVec 512

/-- The digest of the fuse and configuration state that a reset measures (R440). -/
opaque fuseDigest : BitVec 512

/-- The hashes of the next-block predictor (R341): of a block address and an exit history for its exit table, of a block address for its
table of indirect targets; never architectural (R18). -/
opaque exitHash : Nat → Nat → Nat
opaque targetHash : Nat → Nat

end Sys2Proof.Config
end

