-- ==== Sys2Proof/Syntax.lean ====
section
/-! DEFINITION. The operations of the machine as data: one constructor of `Instr` for each row of spec/opcode_table.json.
The first 173 are the forms of the instruction word (02_block_encoding.md R60 to R65), with exactly the fields their
descriptions use; the other 130 are the events of the machine (95_what_each_step_holds.md), whose arguments say where
the event happens and, for one that comes from outside the machine, what it carries. -/

namespace Sys2Proof

/-- PM of an instruction word (R61): unpredicated, fires on true, fires on false. -/
inductive Pm where
  | always | onTrue | onFalse
  deriving DecidableEq, Repr

/-- A target (R58): nothing, an operand or the predicate input of an instruction, or a write slot. -/
inductive Target where
  | none
  | opA (i : BitVec 7) | opB (i : BitVec 7) | opC (i : BitVec 7) | pred (i : BitVec 7)
  | slot (w : BitVec 7)
  deriving DecidableEq, Repr

/-- The fields every form with results shares (R60): the predication and the two targets. -/
structure Hdr where
  pm : Pm
  t0 : Target
  t1 : Target
  deriving DecidableEq, Repr

/-- FN scheme IW (Table 2-11): the operation's width. -/
inductive Width where
  | w32 | w64
  deriving DecidableEq, Repr

/-- How an exact integer result is narrowed (Table 2-11 IWUS; R142 SAT and U). -/
inductive Narrowing where
  | wrap | ssat | usat
  deriving DecidableEq, Repr

/-- FN scheme CC (Table 2-11). -/
inductive Cond where
  | eq | ne | lt | le | gt | ge | ltu | leu | gtu | geu
  deriving DecidableEq, Repr

/-- A rounding code of FN scheme FR or of WV RND (Tables 2-10, 2-11). -/
inductive Rnd where
  | fpcsr | rne | rtz | rup | rdn
  deriving DecidableEq, Repr

/-- FN scheme FR: D selects FP64, then the rounding. -/
structure FRnd where
  d : Bool
  rnd : Rnd
  deriving DecidableEq, Repr

/-- A floating-point condition (FN scheme FC). -/
inductive FCond where
  | eq | ne | lt | le | gt | ge | un | ord
  deriving DecidableEq, Repr

/-- MOVI's shift of its constant (R82). -/
inductive MoviShift where
  | none | sh29 | sh58
  deriving DecidableEq, Repr

/-- Source width of SEXT and ZEXT (R94). -/
inductive ExtWidth where
  | b8 | b16 | b32
  deriving DecidableEq, Repr

/-- Size and extension of LD and LDS (Table 6-2). -/
inductive LdSize where
  | u8 | u16 | u32 | u64 | s8 | s16 | s32
  deriving DecidableEq, Repr

/-- Size of ST and STS (Table 6-2). -/
inductive StSize where
  | b8 | b16 | b32 | b64
  deriving DecidableEq, Repr

/-- Size of the wide loads and stores (Table 6-2). -/
inductive WideSize where
  | b16 | b32 | b64 | b128
  deriving DecidableEq, Repr

/-- Order codes of Table 2-9. -/
inductive MOrd where
  | plain | acq | rel | acqRel | acqSys | relSys | acqRelSys
  deriving DecidableEq, Repr

/-- Scope codes of Table 2-9. -/
inductive Scope where
  | slot | grid | cluster | die | device | sys
  deriving DecidableEq, Repr

/-- FENCE kinds (R190). -/
inductive FenceKind where
  | full | acq | rel | ss
  deriving DecidableEq, Repr

/-- ATOM operations (R187). -/
inductive AtomOp where
  | add | and | or | xor | min | max | minu | maxu
  deriving DecidableEq, Repr

/-- FATOM operations (R187). -/
inductive FAtomOp where
  | fadd | fmin | fmax
  deriving DecidableEq, Repr

/-- PREF levels (R189). -/
inductive PrefKind where
  | l1 | l2 | l2x
  deriving DecidableEq, Repr

/-- SREAD fields (R200). -/
inductive SyncField where
  | count | gen | target | flags
  deriving DecidableEq, Repr

/-- Retention of an OFFER (R204): a count of deliveries, or a lifetime in ticks. -/
inductive Retention where
  | byCount (n : BitVec 9)
  | byLife (n : BitVec 12)
  deriving DecidableEq, Repr

/-- Element types of wide tokens (Table 2-10, WV TYPE). -/
inductive ETy where
  | i8 | i16 | i32 | i64 | e4m3 | e5m2 | fp16 | bf16 | fp32
  deriving DecidableEq, Repr

/-- VREDI operations (R147). -/
inductive RedOp where
  | add | min | max | and | or | xor
  deriving DecidableEq, Repr

/-- Signedness of VDP4's operands (R149). -/
inductive Dp4Sign where
  | ss | uu | su | us
  deriving DecidableEq, Repr

/-- Matrix operand types (Table 2-10, WM AT and BT). -/
inductive MTy where
  | e4m3 | e5m2 | fp16 | bf16 | s8 | u8
  deriving DecidableEq, Repr

/-- The WM fields of the product forms (Table 5-5). -/
structure MmArgs where
  acc : BitVec 3
  mc : BitVec 3
  nc : BitVec 5
  aty : MTy
  bty : MTy
  aspad : Bool
  bspad : Bool
  sc : Bool
  ctx : BitVec 2
  deriving DecidableEq, Repr

/-- COPY directions (R216). -/
inductive CopyKind where
  | mm | ms | sm
  deriving DecidableEq, Repr

/-- A block in flight: slot, sequence number and iteration (R30, R44). -/
structure BRef where
  slot : Nat
  seq : Nat
  ic : BitVec 32
  deriving DecidableEq, Repr

/-- The location of a sync word at its home (R193): local address in memory of a device, with the virtual cache that the request names
(R285), or an address in the SRAM pools; with the reference by which the word was reached (R400). -/
inductive WLoc where
  | mem (dev : Nat) (la : Nat) (vc : Nat) (ref : BitVec 64)
  | pool (a : Nat) (ref : BitVec 64)
  deriving DecidableEq, Repr

/-- An Eveod message (Table 14-7); LEN is the number of payload beats. -/
structure Msg where
  dst : BitVec 12
  src : BitVec 12
  cls : BitVec 6
  tag : BitVec 13
  aux : BitVec 16
  addr : W64
  beats : List (BitVec 128)
  deriving DecidableEq, Repr

/-- A mesh direction (R369). -/
inductive Dir where
  | north | east | south | west
  deriving DecidableEq, Repr

/-- The end path of one WANT (R361): requester, destination, mask, space, sync word, and as whom its deposit writes. -/
structure EndPath where
  slot : Nat
  group : Nat
  spad : Bool
  dest : W64
  gmask : BitVec 4
  ref : W64
  word : Option WLoc
  ptbase : W64
  sup : Bool
  img : BitVec 6
  deriving DecidableEq, Repr

/-- A return path of a pending interest (R361). -/
inductive NdPath where
  | dir (d : Dir)
  | fabric (die : Nat)
  | port (p : Nat) (dev : Nat)
  | endp (e : EndPath)
  deriving DecidableEq, Repr

/-- Where a named-data packet is bound (R358, R359). -/
inductive NdGoal where
  | lookup
  | rendezvous (cl : Nat)
  | die (d : Nat)
  | dev (dev : Nat) (die : Nat) (port : Nat)
  deriving DecidableEq, Repr

/-- Who awaits the completion of a placement (R368). -/
inductive PlaceFrom where
  | engine (cl : Nat) (cmd : Nat)
  | port (p : Nat) (dev : Nat) (tag : BitVec 13)
  deriving DecidableEq, Repr

/-- A named-data packet at a stop (R360). -/
structure NdPacket where
  stop : Nat
  asid : BitVec 16
  name : W64
  weight : Nat
  deadline : Nat
  goal : NdGoal
  deriving DecidableEq, Repr

/-- An ADD at a stop, with the path it came by (R362, R369). -/
structure NdAdd extends NdPacket where
  arr : NdPath
  deriving DecidableEq, Repr

/-- The tile an OFFER places (R368). -/
structure Placement where
  origin : PlaceFrom
  ret : Retention
  data : List Byte
  deriving DecidableEq, Repr

/-- The source of a launch record that reaches a queue (R313, R317); of an INVOKE.q the port and the packet, which is answered there. -/
inductive LaunchSrc where
  | thread (slot : Nat) (va : W64) (asid : BitVec 16) (sup : Bool)
  | invoke (port : Nat) (m : Msg)
  | window
  | pager
  deriving DecidableEq, Repr

/-- Where a record stands that a die has yet to read: its global physical address, and the cache and coherence mode of its page. -/
structure RecordAt where
  pa : Nat
  vc : BitVec 6
  cmode : BitVec 2
  deriving DecidableEq, Repr

/-- A record on its way into a queue: the mclk in which it reached the die (R317), its 512 bits or the place where the die reads them when it
accepts the record (R314), g1 to g7 where they are already known (R322). -/
structure Submission where
  time : Nat
  src : LaunchSrc
  record : RecordAt ⊕ BitVec 512
  args : Option (List W64)
  deriving DecidableEq, Repr

/-- The engine command that met a translation fault (R308). -/
inductive EngRef where
  | copy (cl : Nat) (cmd : Nat)
  | matrix (grid : Nat) (ctx : Nat)
  | streamIn (slot : Nat) (port : Nat)
  | streamOut (slot : Nat) (port : Nat)
  | deposit (id : Nat)
  deriving DecidableEq, Repr

/-- Where a soft error is detected (Table 18-6). -/
inductive ErrSite where
  | correctable
  | hbm (line : Nat)
  | l2 (line : Nat)
  | l1 (cl : Nat) (line : Nat)
  | blockCache (cl : Nat) (line : Nat)
  | register (slot : Nat) (reg : BitVec 7)
  | scratchpad (b : BRef) (idx : Nat) (offset : W64)
  | accumulator (grid : Nat) (ctx : Nat)
  | tileStore (stop : Nat) (asid : BitVec 16) (name : W64)
  | buffers
  deriving DecidableEq, Repr

/-- The host's snoops of the device (Table 14-4). -/
inductive Snoop where
  | inv | data | cur
  deriving DecidableEq, Repr

/-- One constructor per row of spec/opcode_table.json. -/
inductive Instr where
  -- block control, 0x01 to 0x0A
  | mov (h : Hdr)
  | movi (sh : MoviShift) (h : Hdr) (imm : BitVec 29)
  | arg (h : Hdr) (q : BitVec 4)
  | null (h : Hdr)
  | br (pm : Pm) (ex : BitVec 3) (off : BitVec 27)
  | bri (pm : Pm) (ex : BitVec 3)
  | call (h : Hdr) (ex : BitVec 3) (off : BitVec 27)
  | ret (pm : Pm) (ex : BitVec 3)
  | iter (h : Hdr)
  | halt (pm : Pm) (ex : BitVec 3)
  -- narrow integer, 0x10 to 0x2D
  | add (w : Width) (n : Narrowing) (h : Hdr) (b : Option (BitVec 29))
  | sub (w : Width) (n : Narrowing) (h : Hdr) (b : Option (BitVec 29))
  | mul (w : Width) (n : Narrowing) (h : Hdr) (b : Option (BitVec 29))
  | mulh (w : Width) (u : Bool) (h : Hdr) (b : Option (BitVec 29))
  | div (w : Width) (u : Bool) (h : Hdr) (b : Option (BitVec 29))
  | rem (w : Width) (u : Bool) (h : Hdr) (b : Option (BitVec 29))
  | madd (w : Width) (n : Narrowing) (h : Hdr)
  | and (w : Width) (h : Hdr) (b : Option (BitVec 29))
  | or (w : Width) (h : Hdr) (b : Option (BitVec 29))
  | xor (w : Width) (h : Hdr) (b : Option (BitVec 29))
  | andn (w : Width) (h : Hdr) (b : Option (BitVec 29))
  | shl (w : Width) (h : Hdr) (b : Option (BitVec 29))
  | shr (w : Width) (h : Hdr) (b : Option (BitVec 29))
  | sra (w : Width) (h : Hdr) (b : Option (BitVec 29))
  | rotl (w : Width) (h : Hdr) (b : Option (BitVec 29))
  | min (w : Width) (u : Bool) (h : Hdr) (b : Option (BitVec 29))
  | max (w : Width) (u : Bool) (h : Hdr) (b : Option (BitVec 29))
  | abs (w : Width) (sat : Bool) (h : Hdr)
  | neg (w : Width) (sat : Bool) (h : Hdr)
  | clz (w : Width) (h : Hdr)
  | ctz (w : Width) (h : Hdr)
  | popc (w : Width) (h : Hdr)
  | brev (w : Width) (h : Hdr)
  | bswap (w : Width) (h : Hdr)
  | extr (w : Width) (u : Bool) (h : Hdr) (b : Option (BitVec 29))
  | insb (w : Width) (h : Hdr) (b : Option (BitVec 29))
  | sext (w : ExtWidth) (h : Hdr)
  | zext (w : ExtWidth) (h : Hdr)
  | lea (s : BitVec 2) (h : Hdr) (b : Option (BitVec 29))
  | addx (w : Width) (h : Hdr)
  -- compare and predicate, 0x30 to 0x38
  | cmp (c : Cond) (h : Hdr) (w : Width) (b : Option (BitVec 28))
  | tstb (clr : Bool) (h : Hdr) (b : Option (BitVec 29))
  | pand (na : Bool) (nb : Bool) (h : Hdr)
  | por (na : Bool) (nb : Bool) (h : Hdr)
  | pnot (h : Hdr)
  | sel (h : Hdr)
  | steer (h : Hdr)
  | merge (t0 : Target) (t1 : Target)
  | pget (h : Hdr)
  -- narrow floating point, 0x40 to 0x4E
  | fadd (f : FRnd) (h : Hdr)
  | fsub (f : FRnd) (h : Hdr)
  | fmul (f : FRnd) (h : Hdr)
  | ffma (f : FRnd) (h : Hdr)
  | fdiv (f : FRnd) (h : Hdr)
  | fsqrt (f : FRnd) (h : Hdr)
  | fmin (d : Bool) (h : Hdr)
  | fmax (d : Bool) (h : Hdr)
  | fcmp (d : Bool) (c : FCond) (h : Hdr)
  | fcvt (f : FRnd) (h : Hdr)
  | fcvti (f : FRnd) (h : Hdr) (i64 : Bool) (u : Bool)
  | icvtf (f : FRnd) (h : Hdr) (i64 : Bool) (u : Bool)
  | fabs (d : Bool) (h : Hdr)
  | fneg (d : Bool) (h : Hdr)
  | fclass (d : Bool) (h : Hdr)
  -- memory, 0x50 to 0x5D
  | ld (sz : LdSize) (h : Hdr) (lsid : BitVec 5) (ord : MOrd) (off : BitVec 22)
  | st (sz : StSize) (pm : Pm) (lsid : BitVec 5) (ord : MOrd) (off : BitVec 22)
  | ldw (sz : WideSize) (h : Hdr) (lsid : BitVec 5) (ord : MOrd) (off : BitVec 22)
  | stw (sz : WideSize) (pm : Pm) (lsid : BitVec 5) (ord : MOrd) (off : BitVec 22)
  | lds (sz : LdSize) (h : Hdr) (lsid : BitVec 5) (off : BitVec 22)
  | sts (sz : StSize) (pm : Pm) (lsid : BitVec 5) (off : BitVec 22)
  | ldsw (sz : WideSize) (h : Hdr) (lsid : BitVec 5) (off : BitVec 22)
  | stsw (sz : WideSize) (pm : Pm) (lsid : BitVec 5) (off : BitVec 22)
  | atom (w : Width) (op : AtomOp) (h : Hdr) (lsid : BitVec 5) (ord : MOrd) (off : BitVec 22)
  | cas (w : Width) (xchg : Bool) (h : Hdr) (lsid : BitVec 5) (ord : MOrd) (off : BitVec 22)
  | fatom (d : Bool) (op : FAtomOp) (h : Hdr) (lsid : BitVec 5) (ord : MOrd) (off : BitVec 22)
  | pref (k : PrefKind) (pm : Pm) (lsid : BitVec 5) (off : BitVec 22)
  | fence (k : FenceKind) (pm : Pm) (lsid : BitVec 5) (sc : Scope)
  | clineClean (pm : Pm) (lsid : BitVec 5) (off : BitVec 22)
  | clineInval (pm : Pm) (lsid : BitVec 5) (off : BitVec 22)
  | clineFlush (pm : Pm) (lsid : BitVec 5) (off : BitVec 22)
  | clineZero (pm : Pm) (lsid : BitVec 5) (off : BitVec 22)
  | clineReclaim (pm : Pm) (lsid : BitVec 5) (off : BitVec 22)
  -- synchronisation and named data, 0x60 to 0x66
  | sarm (pm : Pm) (lsid : BitVec 5) (ord : MOrd) (off : BitVec 22)
  | swait (t : Bool) (h : Hdr) (lsid : BitVec 5) (ord : MOrd) (off : BitVec 22)
  | sadd (pm : Pm) (lsid : BitVec 5) (ord : MOrd) (off : BitVec 22)
  | sread (f : SyncField) (h : Hdr) (lsid : BitVec 5) (ord : MOrd) (off : BitVec 22)
  | want (spad : Bool) (pm : Pm) (lsid : BitVec 5) (life : BitVec 12) (gmask : BitVec 4)
  | offer (spad : Bool) (r : Retention) (pm : Pm) (lsid : BitVec 5)
  | wdrop (pm : Pm) (lsid : BitVec 5)
  -- wide integer and data movement, 0x70 to 0x85
  | vadd (h : Hdr) (ty : ETy) (n : Narrowing)
  | vsub (h : Hdr) (ty : ETy) (n : Narrowing)
  | vmul (h : Hdr) (ty : ETy) (n : Narrowing)
  | vmulh (h : Hdr) (ty : ETy) (u : Bool)
  | vmin (h : Hdr) (ty : ETy) (u : Bool)
  | vmax (h : Hdr) (ty : ETy) (u : Bool)
  | vabs (h : Hdr) (ty : ETy) (sat : Bool)
  | vand (h : Hdr) (ty : ETy)
  | vor (h : Hdr) (ty : ETy)
  | vxor (h : Hdr) (ty : ETy)
  | vshl (h : Hdr) (ty : ETy) (cnt : Option (BitVec 7))
  | vshr (h : Hdr) (ty : ETy) (cnt : Option (BitVec 7))
  | vsra (h : Hdr) (ty : ETy) (cnt : Option (BitVec 7))
  | vcmp (c : Cond) (h : Hdr) (ty : ETy)
  | vsel (h : Hdr)
  | vrep (h : Hdr) (ty : ETy)
  | vext (h : Hdr) (ty : ETy) (u : Bool) (lane : Option (BitVec 7))
  | vins (h : Hdr) (ty : ETy) (lane : Option (BitVec 7))
  | vperm (h : Hdr) (ty : ETy)
  | vredi (op : RedOp) (h : Hdr) (ty : ETy) (u : Bool)
  | viota (h : Hdr) (ty : ETy) (imm : BitVec 13)
  | vdp4 (sg : Dp4Sign) (h : Hdr) (sat : Bool)
  -- wide floating point, 0x90 to 0x9F
  | vfadd (h : Hdr) (ty : ETy) (rnd : Rnd) (sc : Bool)
  | vfsub (h : Hdr) (ty : ETy) (rnd : Rnd) (sc : Bool)
  | vfmul (h : Hdr) (ty : ETy) (rnd : Rnd) (sc : Bool)
  | vffma (h : Hdr) (ty : ETy) (rnd : Rnd) (sc : Bool)
  | vfmin (h : Hdr) (ty : ETy) (sc : Bool)
  | vfmax (h : Hdr) (ty : ETy) (sc : Bool)
  | vfdiv (h : Hdr) (rnd : Rnd) (sc : Bool)
  | vfsqrt (h : Hdr) (rnd : Rnd) (sc : Bool)
  | vfrsq (h : Hdr) (rnd : Rnd) (sc : Bool)
  | vfexp2 (h : Hdr) (rnd : Rnd) (sc : Bool)
  | vfcmp (c : FCond) (h : Hdr) (ty : ETy) (sc : Bool)
  | vfcvt (h : Hdr) (dst : ETy) (src : ETy) (rnd : Rnd) (sc : Bool) (sat : Bool) (u : Bool) (part : BitVec 2)
  | vfreda (h : Hdr) (ty : ETy) (rnd : Rnd) (sc : Bool)
  | vfredm (mx : Bool) (h : Hdr) (ty : ETy) (sc : Bool)
  | vscaleImm (h : Hdr) (ty : ETy) (imm : BitVec 13)
  | vscaleReg (h : Hdr) (ty : ETy)
  | vscaleClear (h : Hdr) (ty : ETy) (rnd : Rnd) (sat : Bool)
  | vpackPack (h : Hdr) (dst : ETy) (src : ETy) (rnd : Rnd) (sc : Bool) (sat : Bool) (u : Bool)
  | vpackUnpack (h : Hdr) (dst : ETy) (src : ETy) (sc : Bool) (u : Bool) (half : Bool)
  -- matrix, 0xA0 to 0xA9
  | mma (ga : Bool) (gb : Bool) (h : Hdr) (x : MmArgs)
  | mmar (rb : Bool) (h : Hdr) (x : MmArgs)
  | mmac (g : Bool) (h : Hdr) (x : MmArgs)
  | accset (int : Bool) (h : Hdr) (acc : BitVec 3) (mc : BitVec 3) (nc : BitVec 5) (span : Bool)
  | accz (h : Hdr) (acc : BitVec 3) (ctx : BitVec 2)
  | accld (spad : Bool) (h : Hdr) (acc : BitVec 3) (ctx : BitVec 2)
  | accst (spad : Bool) (h : Hdr) (acc : BitVec 3) (ctx : BitVec 2)
  | accrd (h : Hdr) (acc : BitVec 3)
  | accwr (h : Hdr) (acc : BitVec 3) (ctx : BitVec 2)
  | mwait (all : Bool) (h : Hdr) (ctx : BitVec 2)
  -- engines and streams, 0xB0 to 0xB7
  | copy (k : CopyKind) (h : Hdr) (gmask : BitVec 4)
  | gather (i64 : Bool) (spad : Bool) (h : Hdr)
  | scatter (i64 : Bool) (spad : Bool) (h : Hdr)
  | strin (h : Hdr) (port : BitVec 3) (dim : BitVec 2)
  | strout (h : Hdr) (port : BitVec 3) (dim : BitVec 2)
  | srecv (h : Hdr) (port : BitVec 3)
  | ssend (h : Hdr) (port : BitVec 3)
  | cwait (h : Hdr)
  -- threads and scheduling, 0xC0 to 0xC8
  | launch (pm : Pm) (q : BitVec 12)
  | invokeQ (t : Bool) (pm : Pm) (hidx : BitVec 12)
  | invokeH (t : Bool) (pm : Pm) (hidx : BitVec 12)
  | hret (pm : Pm)
  | yield (pm : Pm)
  | fuse (pm : Pm)
  | split (pm : Pm)
  | widf (f : BitVec 4) (h : Hdr)
  | wake (pm : Pm)
  | sleep (pm : Pm)
  -- system, 0xD0 to 0xDB
  | trap (pm : Pm) (num : BitVec 12)
  | bkpt (pm : Pm) (num : BitVec 12)
  | eret (pm : Pm)
  | mfsr (h : Hdr) (code : BitVec 12)
  | mtsr (pm : Pm) (code : BitVec 12)
  | tlbinvVa (pm : Pm)
  | tlbinvAsid (pm : Pm)
  | tlbinvAll (pm : Pm)
  | tlbsync (pm : Pm)
  | vcdef (pm : Pm)
  | biasHost (pm : Pm)
  | biasDev (pm : Pm)
  | namedef (pm : Pm)
  | htdef (pm : Pm)
  | preempt (pm : Pm) (grp : Bool)
  -- block events
  | blockFetch (slot : Nat) (addr : W64)
  | mapTimeCheck (b : BRef)
  | registerForward (b : BRef)
  | blockCommit (slot : Nat)
  | residentIterationCommit (slot : Nat)
  | blockQuiescence (b : BRef)
  | trapEntry (slot : Nat)
  -- memory events
  | loadDataReturn (b : BRef) (idx : Nat)
  | storeDrain (grid : Nat)
  | atomicPerform (uid : Nat)
  | atomicResult (uid : Nat)
  | fenceWaitEnd (slot : Nat)
  | syncWordArrival (w : WLoc) (n : Nat)
  -- engine events
  | matrixCommandStart (grid : Nat) (ctx : Nat)
  | matrixCommandComplete (grid : Nat) (ctx : Nat)
  | mwaitDelivery (b : BRef) (idx : Nat)
  | accrdDelivery (b : BRef) (idx : Nat)
  | copyCommandStart (cl : Nat) (cmd : Nat)
  | copyCommandComplete (cl : Nat) (cmd : Nat)
  | cwaitDelivery (b : BRef) (idx : Nat)
  | streamPrefetch (slot : Nat) (port : Nat)
  | outputElementWrite (slot : Nat) (port : Nat)
  -- translation events
  | pageWalk (walk : Nat)
  | engineFaultPost (die : Nat) (e : EngRef)
  | pagerRetry (die : Nat) (f : Nat)
  | pagerAbandon (die : Nat) (f : Nat)
  | pagerLimitExpiry (die : Nat) (f : Nat)
  | tlbinvComplete (id : Nat)
  -- tables, virtual caches, soft errors
  | tableRecordInstall (id : Nat)
  | vcMigrationStart (die : Nat) (vc : Nat)
  | lineMove (line : Nat)
  | vcMigrationEnd (die : Nat) (vc : Nat)
  -- directory and agents
  | directoryReadMiss (cl : Nat) (line : Nat)
  | directoryWrite (line : Nat) (data : WideBits) (mask : BitVec 128)
  | directoryEntryEviction (line : Nat)
  | probeArrival (cl : Nat) (line : Nat) (stamp : BitVec 8)
  | grantArrival (cl : Nat) (line : Nat)
  | probeResponse (cl : Nat) (line : Nat)
  | homeTimeout (die : Nat) (agent : Nat)
  | requesterDeadlineExpiry (id : Nat)
  -- Eveod messages and the link
  | replayRequest (port : Nat) (fseq : BitVec 10)
  -- named data
  | interest (arr : NdPath) (p : NdPacket)
  | addPacket (p : NdAdd)
  | tile (stop : Nat) (asid : BitVec 16) (name : W64) (data : List Byte)
  | nack (stop : Nat) (asid : BitVec 16) (name : W64) (code : Byte)
  | place (stop : Nat) (asid : BitVec 16) (name : W64) (goal : NdGoal) (pl : Placement)
  | interestDeadlineExpiry (stop : Nat) (asid : BitVec 16) (name : W64)
  | depositComplete (id : Nat)
  | tileStoreFilled (stop : Nat) (asid : BitVec 16) (name : W64)
  | tileRetentionExpiry (stop : Nat) (asid : BitVec 16) (name : W64)
  | tileStoreFree (stop : Nat) (asid : BitVec 16) (name : W64)
  -- queues, distributor, pre-emption
  | recordAcceptance (die : Nat) (q : Nat) (r : Submission)
  | dependenceReady (die : Nat) (q : Nat)
  | distributorStep (die : Nat)
  | firstBlockFetch (group : Nat)
  | handlerMessageEntry (slot : Nat)
  | sleepLimitExpiry (slot : Nat)
  | slotRelease (slot : Nat)
  | groupEnd (group : Nat)
  | slotSave (slot : Nat) (word : Option WLoc)
  | groupSave (group : Nat) (word : Option WLoc)
  | resumeItemRestore (die : Nat) (q : Nat)
  -- bias and host
  | biasFlipStart (page : Nat) (toHost : Bool) (word : Option WLoc)
  | biasFlushEnd (page : Nat)
  | biasRecallEnd (page : Nat)
  -- debug
  | histogramBinOverflow (grid : Nat) (node : Nat) (bin : Nat)
  | monitorSample (die : Nat) (j : Nat)
  | traceDrain (die : Nat)
  -- platform
  | clusterRetentionEntry (cl : Nat)
  | clusterGating (cl : Nat)
  | clusterWake (cl : Nat)
  -- events that come from outside the machine or take their data from a port (their constructors stand last: the machine
  -- never posts one of them)
  | softError (site : ErrSite)
  | patrolScrub (die : Nat)
  | rd (port : Nat) (m : Msg)
  | wr (port : Nat) (m : Msg)
  | atomMessage (port : Nat) (m : Msg)
  | pgs (port : Nat) (m : Msg)
  | pgx (port : Nat) (m : Msg)
  | pginv (port : Nat) (m : Msg)
  | pgrcl (port : Nat) (m : Msg)
  | pgrsp (port : Nat) (m : Msg)
  | wbd (port : Nat) (m : Msg)
  | pggnt (port : Nat) (m : Msg)
  | data (port : Nat) (m : Msg)
  | ack (port : Nat) (m : Msg)
  | atrsp (port : Nat) (m : Msg)
  | invq (port : Nat) (m : Msg)
  | invh (port : Nat) (m : Msg)
  | invans (port : Nat) (m : Msg)
  | wakeMessage (port : Nat) (m : Msg)
  | err (port : Nat) (m : Msg)
  | agent (port : Nat) (m : Msg)
  | flitReceive (port : Nat) (beats : List (BitVec 128))
  | linkDown (port : Nat)
  | invocationWindowStore (die : Nat) (q : Nat) (bytes : BitVec 512)
  | queueConfigWrite (die : Nat) (q : Nat) (word : BitVec 3) (val : W64)
  | memrd (port : Nat) (la : Nat) (own : Bool)
  | memwr (port : Nat) (la : Nat) (data : BitVec 512) (mask : BitVec 64)
  | meminv (port : Nat) (la : Nat)
  | birsp (port : Nat) (la : Nat)
  | hostSnoop (port : Nat) (k : Snoop) (la : Nat)
  | hostLinkPowerState (port : Nat) (low : Bool)
  | gctlFreeze (grid : Nat)
  | gctlResume (grid : Nat)
  | gctlList (grid : Nat)
  | stopListRead (grid : Nat)
  | mfrz (val : W64)
  | hctlDump (die : Nat)
  | hctlClr (die : Nat)
  | windowRegisterWrite (la : Nat) (val : W64)
  | pwrctlWrite (val : W64)
  | thermalStep (up : Bool)
  | thermalTrip
  | thermalTripClear
  | coldReset
  | warmReset
  | getVersion
  | getCapabilities
  | negotiateAlgorithms (version : Nat) (mldsa : Bool) (sha3 : Bool)
  | getDigests
  | getCertificate
  | challenge (nonce : BitVec 256)
  | getMeasurements (nonce : BitVec 256)
  | keyExchange (exchange : BitVec 512)
  | moduleThaw
  | scanShift
  | hostReset
  | hostMeasurementRequest (j : Nat) (digest : BitVec 512)
  | moduleFreeze
  | powerTransition
  deriving DecidableEq, Repr

end Sys2Proof
end

