-- ==== Sys2Proof/WellFormed.lean ====
section
/-! DEFINITION. Which terms of `Instr` are legal forms of the instruction word (02_block_encoding.md R57 to R68, and the
field tables of the instruction chapters), where the forms stand, which are privileged, and how many operands they have. -/

namespace Sys2Proof

/-- R58, R59: a target that can be legal in some block (120 instructions, 24 write slots). -/
def Target.wf : Target → Bool
  | .none => true
  | .opA i => i.toNat < 120
  | .opB i => i.toNat < 120
  | .opC i => i.toNat < 120
  | .pred i => i.toNat < 120
  | .slot w => w.toNat < 24

/-- R176: the results of atomics go only to write slots. -/
def Target.slotOnly : Target → Bool
  | .none => true
  | .slot w => w.toNat < 24
  | _ => false

/-- The targets of a form with results. -/
def Hdr.wf (h : Hdr) : Bool := h.t0.wf && h.t1.wf

/-- The targets of an atomic (R176). -/
def Hdr.slotOnly (h : Hdr) : Bool := h.t0.slotOnly && h.t1.slotOnly

/-- R62: LSIDs 24 to 31 are reserved. -/
def lsidOk (l : BitVec 5) : Bool := l.toNat < 24

/-- R64: the order codes of loads. -/
def MOrd.forLoad : MOrd → Bool
  | .plain => true
  | .acq => true
  | .acqSys => true
  | _ => false

/-- R64: the order codes of stores. -/
def MOrd.forStore : MOrd → Bool
  | .plain => true
  | .rel => true
  | .relSys => true
  | _ => false

/-- Element width in bytes (Table 5-1). -/
def ETy.bytes : ETy → Nat
  | .i8 => 1 | .e4m3 => 1 | .e5m2 => 1
  | .i16 => 2 | .fp16 => 2 | .bf16 => 2
  | .i32 => 4 | .fp32 => 4
  | .i64 => 8

/-- Element width in bits. -/
def ETy.width (t : ETy) : Nat := 8 * t.bytes

/-- Lanes of a wide token (Table 5-1). -/
def ETy.lanes (t : ETy) : Nat := 128 / t.bytes

/-- An integer element type. -/
def ETy.isInt : ETy → Bool
  | .i8 => true | .i16 => true | .i32 => true | .i64 => true
  | _ => false

/-- An 8-bit floating-point element type. -/
def ETy.isFp8 : ETy → Bool
  | .e4m3 => true | .e5m2 => true
  | _ => false

/-- TYPE 6 to 8, the arithmetic floating-point types (Table 5-3). -/
def ETy.isArith : ETy → Bool
  | .fp16 => true | .bf16 => true | .fp32 => true
  | _ => false

/-- TYPE 4 to 8. -/
def ETy.isFloat (t : ETy) : Bool := !t.isInt

/-- R151: the pairs of VFCVT. Table 5-3 leaves I64 out of TYPE; that it is no source either is the model's choice (log entry 47). -/
def vfcvtPair (d s : ETy) : Bool :=
  d != .i64 && s != .i64 && d != s && (d.isFloat || s.isFloat)

/-- max(bs, bd) / min(bs, bd) (R151). -/
def widthRatio (d s : ETy) : Nat :=
  if d.bytes ≤ s.bytes then s.bytes / d.bytes else d.bytes / s.bytes

/-- R154: types of one class; TYPE 3 and TYPE 8 are not legal. -/
def vpackTypes (d s : ETy) : Bool :=
  d != .i64 && s != .i64 && d != .fp32 && s != .fp32 && (d.isInt == s.isInt)

/-- Integer operand codes of the matrix forms. -/
def MTy.isInt : MTy → Bool
  | .s8 => true | .u8 => true
  | _ => false

/-- Element width of a matrix operand in bytes. -/
def MTy.bytes : MTy → Nat
  | .fp16 => 2 | .bf16 => 2
  | _ => 1

/-- R128: the pairings of matrix operand types. -/
def mmPair (a b : MTy) : Bool := a.isInt == b.isInt && a.bytes == b.bytes

/-- R156: what every product form asks of its fields. -/
def MmArgs.wf (x : MmArgs) : Bool :=
  x.mc.toNat < 5 && mmPair x.aty x.bty && !(x.sc && x.aty.isInt)

/-- Access to a system register number (Table 7-10). -/
inductive SrAccess where
  | user | sup | none
  deriving DecidableEq, Repr

/-- Table 7-10, the MFSR column: none for a number that names nothing. -/
def mfsrAccess (c : Nat) : SrAccess :=
  if c ≤ 0x005 then .user
  else if 0x008 ≤ c ∧ c ≤ 0x00B then .user
  else if 0x010 ≤ c ∧ c ≤ 0x014 then .user
  else if c = 0x020 then .sup
  else if c = 0x021 then .user
  else if 0x030 ≤ c ∧ c ≤ 0x03F then .user
  else if 0x040 ≤ c ∧ c ≤ 0x05F then .sup
  else .none

/-- Table 7-10, the MTSR column. -/
def mtsrAccess (c : Nat) : SrAccess :=
  if c ≤ 0x001 then .user
  else if c = 0x004 then .user
  else if 0x008 ≤ c ∧ c ≤ 0x00B then .user
  else if 0x010 ≤ c ∧ c ≤ 0x014 then .sup
  else if 0x020 ≤ c ∧ c ≤ 0x021 then .sup
  else if 0x030 ≤ c ∧ c ≤ 0x03F then .sup
  else if 0x040 ≤ c ∧ c ≤ 0x05F then .sup
  else .none

/-- Bounds of the places that events name (00_scope.md, Table 0-1): 16,384 slots, 2,048 grids, 512 clusters, 4 dies. -/
def slotOk (s : Nat) : Bool := s < 16384
def gridOk (g : Nat) : Bool := g < 2048
def clusterOk (c : Nat) : Bool := c < 512
def dieOk (d : Nat) : Bool := d < 4
def ctxOk (c : Nat) : Bool := c < 4
def queueOk (q : Nat) : Bool := q < 64
/-- 32 Eveod ports and two CXL ports (14_coherence_links.md R387, R388). -/
def eveodPortOk (p : Nat) : Bool := p < 32
def cxlPortOk (p : Nat) : Bool := p < 2
def BRef.wf (b : BRef) : Bool := slotOk b.slot

/-- A legal form: every field holds a value of its legal set. -/
def Instr.wf : Instr → Bool
  | .mov h => h.wf
  | .movi _ h _ => h.wf
  | .arg h _ => h.wf
  | .null h => h.wf
  | .br _ _ _ => true
  | .bri _ _ => true
  | .call h _ _ => h.wf
  | .ret _ _ => true
  | .iter h => h.wf
  | .halt _ _ => true
  | .add _ _ h _ => h.wf
  | .sub _ _ h _ => h.wf
  | .mul _ _ h _ => h.wf
  | .mulh _ _ h _ => h.wf
  | .div _ _ h _ => h.wf
  | .rem _ _ h _ => h.wf
  | .madd _ _ h => h.wf
  | .and _ h _ => h.wf
  | .or _ h _ => h.wf
  | .xor _ h _ => h.wf
  | .andn _ h _ => h.wf
  | .shl _ h _ => h.wf
  | .shr _ h _ => h.wf
  | .sra _ h _ => h.wf
  | .rotl _ h _ => h.wf
  | .min _ _ h _ => h.wf
  | .max _ _ h _ => h.wf
  | .abs _ _ h => h.wf
  | .neg _ _ h => h.wf
  | .clz _ h => h.wf
  | .ctz _ h => h.wf
  | .popc _ h => h.wf
  | .brev _ h => h.wf
  | .bswap _ h => h.wf
  | .extr _ _ h _ => h.wf
  | .insb _ h _ => h.wf
  | .sext _ h => h.wf
  | .zext _ h => h.wf
  | .lea _ h _ => h.wf
  | .addx _ h => h.wf
  | .cmp _ h _ _ => h.wf
  | .tstb _ h _ => h.wf
  | .pand _ _ h => h.wf
  | .por _ _ h => h.wf
  | .pnot h => h.wf
  | .sel h => h.wf
  | .steer h => h.wf
  | .merge t0 t1 => t0.wf && t1.wf
  | .pget h => h.wf
  | .fadd _ h => h.wf
  | .fsub _ h => h.wf
  | .fmul _ h => h.wf
  | .ffma _ h => h.wf
  | .fdiv _ h => h.wf
  | .fsqrt _ h => h.wf
  | .fmin _ h => h.wf
  | .fmax _ h => h.wf
  | .fcmp _ _ h => h.wf
  | .fcvt _ h => h.wf
  | .fcvti _ h _ _ => h.wf
  | .icvtf _ h _ _ => h.wf
  | .fabs _ h => h.wf
  | .fneg _ h => h.wf
  | .fclass _ h => h.wf
  | .ld _ h l o _ => h.wf && lsidOk l && o.forLoad
  | .st _ _ l o _ => lsidOk l && o.forStore
  | .ldw _ h l o _ => h.wf && lsidOk l && o.forLoad
  | .stw _ _ l o _ => lsidOk l && o.forStore
  | .lds _ h l _ => h.wf && lsidOk l
  | .sts _ _ l _ => lsidOk l
  | .ldsw _ h l _ => h.wf && lsidOk l
  | .stsw _ _ l _ => lsidOk l
  | .atom _ _ h l _ _ => h.slotOnly && lsidOk l
  | .cas _ _ h l _ _ => h.slotOnly && lsidOk l
  | .fatom _ _ h l _ _ => h.slotOnly && lsidOk l
  | .pref _ _ l _ => lsidOk l
  | .fence _ _ l _ => lsidOk l
  | .clineClean _ l _ => lsidOk l
  | .clineInval _ l _ => lsidOk l
  | .clineFlush _ l _ => lsidOk l
  | .clineZero _ l _ => lsidOk l
  | .clineReclaim _ l _ => lsidOk l
  | .sarm _ l o _ => lsidOk l && o.forStore
  | .swait _ h l o _ => h.wf && lsidOk l && o.forLoad
  | .sadd _ l o _ => lsidOk l && o.forStore
  | .sread _ h l o _ => h.wf && lsidOk l && o.forLoad
  | .want spad _ l life g => lsidOk l && life != 0 && (spad || g == 0)
  | .offer _ r _ l => lsidOk l && (match r with | .byCount n => n != 0 | .byLife n => n != 0)
  | .wdrop _ l => lsidOk l
  | .vadd h t _ => h.wf && t.isInt
  | .vsub h t _ => h.wf && t.isInt
  | .vmul h t _ => h.wf && t.isInt
  | .vmulh h t _ => h.wf && t.isInt
  | .vmin h t _ => h.wf && t.isInt
  | .vmax h t _ => h.wf && t.isInt
  | .vabs h t _ => h.wf && t.isInt
  | .vand h t => h.wf && t.isInt
  | .vor h t => h.wf && t.isInt
  | .vxor h t => h.wf && t.isInt
  | .vshl h t c => h.wf && t.isInt && (match c with | .none => true | .some n => decide (n.toNat < t.width))
  | .vshr h t c => h.wf && t.isInt && (match c with | .none => true | .some n => decide (n.toNat < t.width))
  | .vsra h t c => h.wf && t.isInt && (match c with | .none => true | .some n => decide (n.toNat < t.width))
  | .vcmp _ h t => h.wf && t.isInt
  | .vsel h => h.wf
  | .vrep h _ => h.wf
  | .vext h t u c => h.wf && (!u || t.isInt) && (match c with | .none => true | .some n => decide (n.toNat < t.lanes))
  | .vins h t c => h.wf && (match c with | .none => true | .some n => decide (n.toNat < t.lanes))
  | .vperm h _ => h.wf
  | .vredi _ h t _ => h.wf && t.isInt
  | .viota h t _ => h.wf && t.isInt
  | .vdp4 _ h _ => h.wf
  | .vfadd h t _ _ => h.wf && t.isArith
  | .vfsub h t _ _ => h.wf && t.isArith
  | .vfmul h t _ _ => h.wf && t.isArith
  | .vffma h t _ _ => h.wf && t.isArith
  | .vfmin h t _ => h.wf && t.isArith
  | .vfmax h t _ => h.wf && t.isArith
  | .vfdiv h _ _ => h.wf
  | .vfsqrt h _ _ => h.wf
  | .vfrsq h _ _ => h.wf
  | .vfexp2 h _ _ => h.wf
  | .vfcmp _ h t _ => h.wf && t.isArith
  | .vfcvt h d s _ _ sat u p =>
      h.wf && vfcvtPair d s && (!sat || d.isFp8) && (!u || d.isInt || s.isInt) && decide (p.toNat < widthRatio d s)
  | .vfreda h t _ _ => h.wf && t.isFloat
  | .vfredm _ h t _ => h.wf && t.isFloat
  | .vscaleImm h t imm => h.wf && t.isFloat && decide (-128 ≤ imm.toInt ∧ imm.toInt ≤ 127)
  | .vscaleReg h t => h.wf && t.isFloat
  | .vscaleClear h t _ _ => h.wf && t.isFloat
  | .vpackPack h d s _ _ sat u =>
      h.wf && vpackTypes d s && (s.bytes == 2 * d.bytes) && (!sat || d.isInt || d.isFp8) && (!u || (d.isInt && sat))
  | .vpackUnpack h d s _ u _ => h.wf && vpackTypes d s && (d.bytes == 2 * s.bytes) && (!u || d.isInt)
  | .mma ga gb h x => h.wf && x.wf && (!ga || x.aty == .e4m3) && (!gb || x.bty == .e4m3)
  | .mmar rb h x => h.wf && x.wf && (if rb then x.nc == 0 && !x.bspad else x.mc == 0 && !x.aspad)
  | .mmac g h x => h.wf && x.wf && (!g || x.aty == .e4m3)
  | .accset _ h _ mc _ _ => h.wf && decide (mc.toNat < 5)
  | .accz h _ _ => h.wf
  | .accld _ h _ _ => h.wf
  | .accst _ h _ _ => h.wf
  | .accrd h _ => h.wf
  | .accwr h _ _ => h.wf
  | .mwait all h ctx => h.wf && (!all || ctx == 0)
  | .copy k h g => h.wf && (g == 0 || (match k with | .ms => true | _ => false))
  | .gather _ _ h => h.wf
  | .scatter _ _ h => h.wf
  | .strin h p _ => h.wf && decide (p.toNat < 4)
  | .strout h p _ => h.wf && decide (p.toNat < 2)
  | .srecv h p => h.wf && decide (p.toNat < 4)
  | .ssend h p => h.wf && decide (p.toNat < 2)
  | .cwait h => h.wf
  | .launch _ q => decide (q.toNat < 64)
  | .invokeQ _ _ _ => true
  | .invokeH _ _ _ => true
  | .hret _ => true
  | .yield _ => true
  | .fuse _ => true
  | .split _ => true
  | .widf f h => h.wf && decide (f.toNat < 6)
  | .wake _ => true
  | .sleep _ => true
  | .trap _ _ => true
  | .bkpt _ _ => true
  | .eret _ => true
  | .mfsr h c => h.wf && mfsrAccess c.toNat != .none
  | .mtsr _ c => mtsrAccess c.toNat != .none
  | .tlbinvVa _ => true
  | .tlbinvAsid _ => true
  | .tlbinvAll _ => true
  | .tlbsync _ => true
  | .vcdef _ => true
  | .biasHost _ => true
  | .biasDev _ => true
  | .namedef _ => true
  | .htdef _ => true
  | .preempt _ _ => true
  -- events: the place they name exists
  | .blockFetch s _ => slotOk s
  | .mapTimeCheck b => b.wf
  | .registerForward b => b.wf
  | .blockCommit s => slotOk s
  | .residentIterationCommit s => slotOk s
  | .blockQuiescence b => b.wf
  | .trapEntry s => slotOk s
  | .loadDataReturn b _ => b.wf
  | .storeDrain g => gridOk g
  | .atomicPerform _ => true
  | .atomicResult _ => true
  | .fenceWaitEnd s => slotOk s
  | .syncWordArrival _ _ => true
  | .matrixCommandStart g c => gridOk g && ctxOk c
  | .matrixCommandComplete g c => gridOk g && ctxOk c
  | .mwaitDelivery b _ => b.wf
  | .accrdDelivery b _ => b.wf
  | .copyCommandStart c _ => clusterOk c
  | .copyCommandComplete c _ => clusterOk c
  | .cwaitDelivery b _ => b.wf
  | .streamPrefetch s p => slotOk s && decide (p < 4)
  | .outputElementWrite s p => slotOk s && decide (p < 2)
  | .pageWalk _ => true
  | .engineFaultPost d _ => dieOk d
  | .pagerRetry d f => dieOk d && decide (f < 64)
  | .pagerAbandon d f => dieOk d && decide (f < 64)
  | .pagerLimitExpiry d f => dieOk d && decide (f < 64)
  | .tlbinvComplete _ => true
  | .tableRecordInstall _ => true
  | .vcMigrationStart d v => dieOk d && decide (v < 64)
  | .lineMove _ => true
  | .vcMigrationEnd d v => dieOk d && decide (v < 64)
  | .softError _ => true
  | .patrolScrub d => dieOk d
  | .directoryReadMiss c _ => clusterOk c
  | .directoryWrite _ _ _ => true
  | .directoryEntryEviction _ => true
  | .probeArrival c _ _ => clusterOk c
  | .grantArrival c _ => clusterOk c
  | .probeResponse c _ => clusterOk c
  | .homeTimeout d _ => dieOk d
  | .requesterDeadlineExpiry _ => true
  | .rd p _ => eveodPortOk p
  | .wr p _ => eveodPortOk p
  | .atomMessage p _ => eveodPortOk p
  | .pgs p _ => eveodPortOk p
  | .pgx p _ => eveodPortOk p
  | .pginv p _ => eveodPortOk p
  | .pgrcl p _ => eveodPortOk p
  | .pgrsp p _ => eveodPortOk p
  | .wbd p _ => eveodPortOk p
  | .pggnt p _ => eveodPortOk p
  | .data p _ => eveodPortOk p
  | .ack p _ => eveodPortOk p
  | .atrsp p _ => eveodPortOk p
  | .invq p _ => eveodPortOk p
  | .invh p _ => eveodPortOk p
  | .invans p _ => eveodPortOk p
  | .wakeMessage p _ => eveodPortOk p
  | .err p _ => eveodPortOk p
  | .agent p _ => eveodPortOk p
  | .flitReceive p _ => eveodPortOk p
  | .replayRequest p _ => eveodPortOk p
  | .linkDown p => eveodPortOk p
  | .interest _ p => clusterOk p.stop
  | .addPacket p => clusterOk p.stop
  | .tile s _ _ _ => clusterOk s
  | .nack s _ _ _ => clusterOk s
  | .place s _ _ _ _ => clusterOk s
  | .interestDeadlineExpiry s _ _ => clusterOk s
  | .depositComplete _ => true
  | .tileStoreFilled s _ _ => clusterOk s
  | .tileRetentionExpiry s _ _ => clusterOk s
  | .tileStoreFree s _ _ => clusterOk s
  | .recordAcceptance d q _ => dieOk d && queueOk q
  | .invocationWindowStore d q _ => dieOk d && queueOk q
  | .queueConfigWrite d q _ _ => dieOk d && queueOk q
  | .dependenceReady d q => dieOk d && queueOk q
  | .distributorStep d => dieOk d
  | .firstBlockFetch _ => true
  | .handlerMessageEntry s => slotOk s
  | .sleepLimitExpiry s => slotOk s
  | .slotRelease s => slotOk s
  | .groupEnd _ => true
  | .slotSave s _ => slotOk s
  | .groupSave _ _ => true
  | .resumeItemRestore d q => dieOk d && queueOk q
  | .biasFlipStart _ _ _ => true
  | .biasFlushEnd _ => true
  | .biasRecallEnd _ => true
  | .memrd p _ _ => cxlPortOk p
  | .memwr p _ _ _ => cxlPortOk p
  | .meminv p _ => cxlPortOk p
  | .birsp p _ => cxlPortOk p
  | .hostSnoop p _ _ => cxlPortOk p
  | .hostLinkPowerState p _ => cxlPortOk p
  | .gctlFreeze g => gridOk g
  | .gctlResume g => gridOk g
  | .gctlList g => gridOk g
  | .stopListRead g => gridOk g
  | .mfrz _ => true
  | .moduleFreeze => true
  | .hctlDump d => dieOk d
  | .hctlClr d => dieOk d
  | .histogramBinOverflow g n b => gridOk g && decide (n < 20) && decide (b < 16)
  | .monitorSample d j => dieOk d && decide (j < 16)
  | .traceDrain d => dieOk d
  | .windowRegisterWrite _ _ => true
  | .pwrctlWrite _ => true
  | .powerTransition => true
  | .thermalStep _ => true
  | .thermalTrip => true
  | .thermalTripClear => true
  | .coldReset => true
  | .warmReset => true
  | .getVersion => true
  | .getCapabilities => true
  | .negotiateAlgorithms _ _ _ => true
  | .getDigests => true
  | .getCertificate => true
  | .challenge _ => true
  | .getMeasurements _ => true
  | .keyExchange _ => true
  | .clusterRetentionEntry c => clusterOk c
  | .clusterGating c => clusterOk c
  | .clusterWake c => clusterOk c
  | .moduleThaw => true
  | .scanShift => true
  | .hostReset => true
  | .hostMeasurementRequest j _ => decide (j < 8)

/-- Which nodes an opcode may stand at (R56, R66). -/
inductive NodeClass where
  | any | memory | tensor
  deriving DecidableEq, Repr

/-- R66: opcodes 0x50 to 0x66 stand at memory nodes, 0xA0 to 0xB7 at tensor-issue nodes. -/
def nodeClassOf (op : Nat) : NodeClass :=
  if 0x50 ≤ op ∧ op ≤ 0x66 then .memory
  else if 0xA0 ≤ op ∧ op ≤ 0xB7 then .tensor
  else .any

/-- R56: does node `n` take forms of the class? -/
def NodeClass.fits : NodeClass → Nat → Bool
  | .any, _ => true
  | .memory, n => n % 5 == 0
  | .tensor, n => n % 5 == 4

/-- R67: the privileged forms. -/
def Instr.privileged : Instr → Bool
  | .eret _ => true
  | .tlbinvVa _ => true
  | .tlbinvAsid _ => true
  | .tlbinvAll _ => true
  | .tlbsync _ => true
  | .vcdef _ => true
  | .biasHost _ => true
  | .biasDev _ => true
  | .namedef _ => true
  | .htdef _ => true
  | .preempt _ _ => true
  | .clineReclaim _ _ _ => true
  | .mfsr _ c => mfsrAccess c.toNat == .sup
  | .mtsr _ c => mtsrAccess c.toNat == .sup
  | _ => false

/-- R68: the forms that only a resident block may hold. -/
def Instr.stream : Instr → Bool
  | .strin _ _ _ => true
  | .strout _ _ _ => true
  | .srecv _ _ => true
  | .ssend _ _ => true
  | _ => false

/-- R70: the B-format forms. -/
def Instr.exit : Instr → Bool
  | .br _ _ _ => true
  | .bri _ _ => true
  | .call _ _ _ => true
  | .ret _ _ => true
  | .halt _ _ => true
  | _ => false

/-- Class of a memory form (R69). -/
inductive MemClass where
  | load | store
  deriving DecidableEq, Repr

/-- R69: the LSID of an M- or WN-format form and its class. -/
def Instr.lsid : Instr → Option (Nat × MemClass)
  | .st _ _ l _ _ => some (l.toNat, .store)
  | .stw _ _ l _ _ => some (l.toNat, .store)
  | .sts _ _ l _ => some (l.toNat, .store)
  | .stsw _ _ l _ => some (l.toNat, .store)
  | .atom _ _ _ l _ _ => some (l.toNat, .store)
  | .cas _ _ _ l _ _ => some (l.toNat, .store)
  | .fatom _ _ _ l _ _ => some (l.toNat, .store)
  | .clineClean _ l _ => some (l.toNat, .store)
  | .clineInval _ l _ => some (l.toNat, .store)
  | .clineFlush _ l _ => some (l.toNat, .store)
  | .clineZero _ l _ => some (l.toNat, .store)
  | .clineReclaim _ l _ => some (l.toNat, .store)
  | .fence _ _ l _ => some (l.toNat, .store)
  | .sarm _ l _ _ => some (l.toNat, .store)
  | .sadd _ l _ _ => some (l.toNat, .store)
  | .want _ _ l _ _ => some (l.toNat, .store)
  | .offer _ _ _ l => some (l.toNat, .store)
  | .wdrop _ l => some (l.toNat, .store)
  | .ld _ _ l _ _ => some (l.toNat, .load)
  | .ldw _ _ l _ _ => some (l.toNat, .load)
  | .lds _ _ l _ => some (l.toNat, .load)
  | .ldsw _ _ l _ => some (l.toNat, .load)
  | .pref _ _ l _ => some (l.toNat, .load)
  | .sread _ _ l _ _ => some (l.toNat, .load)
  | .swait _ _ l _ _ => some (l.toNat, .load)
  | _ => none

end Sys2Proof
end

