-- ==== Sys2Proof/Decode.lean ====
section
/-! DEFINITION. The instruction word (02_block_encoding.md R57 to R65): its fields, the decoder, which reads every word or
rejects it under the name of the map-time check it fails (R71, Table 2-13), and the encoder, written from the same tables. -/

namespace Sys2Proof

/-- Why a word is not a legal form, in the order in which R71 tests it; each name is a check code of Table 2-13. -/
inductive Reject where
  /-- 0x20 -/
  | reservedOp
  /-- 0x21 -/
  | reservedPm
  /-- 0x22 -/
  | reservedFn
  /-- 0x23 -/
  | malformedTarget
  /-- 0x24 -/
  | mustBeZero
  /-- 0x25 -/
  | reservedValue
  deriving DecidableEq, Repr

/-- Check codes of Table 2-13. -/
def Reject.code : Reject → Nat
  | .reservedOp => 0x20
  | .reservedPm => 0x21
  | .reservedFn => 0x22
  | .malformedTarget => 0x23
  | .mustBeZero => 0x24
  | .reservedValue => 0x25

/-- What a decoding step answers. -/
abbrev Dec (α : Type) := Except Reject α

/-- The six fields of Table 2-7. -/
structure Fields where
  op : BitVec 8
  fn : BitVec 4
  pm : BitVec 2
  t0 : BitVec 10
  t1 : BitVec 10
  x : BitVec 30
  deriving DecidableEq, Repr

/-- Table 2-7, reading. -/
def fieldsOf (w : W64) : Fields :=
  ⟨w.extractLsb' 56 8, w.extractLsb' 52 4, w.extractLsb' 50 2, w.extractLsb' 40 10, w.extractLsb' 30 10, w.extractLsb' 0 30⟩

/-- Table 2-7, writing. -/
def wordOf (f : Fields) : W64 := f.op ++ f.fn ++ f.pm ++ f.t0 ++ f.t1 ++ f.x

/-! ### The codes of the small fields -/

/-- R61. -/
def Pm.code : Pm → BitVec 2
  | .always => 0 | .onTrue => 1 | .onFalse => 2

/-- R61; 0b11 is reserved. -/
def decPm (b : BitVec 2) : Dec Pm :=
  match b.toNat with
  | 0 => .ok .always
  | 1 => .ok .onTrue
  | 2 => .ok .onFalse
  | _ => .error .reservedPm

/-- Table 2-6. -/
def Target.code : Target → BitVec 10
  | .none => 0
  | .opA i => (1 : BitVec 3) ++ i
  | .opB i => (2 : BitVec 3) ++ i
  | .opC i => (3 : BitVec 3) ++ i
  | .pred i => (4 : BitVec 3) ++ i
  | .slot i => (5 : BitVec 3) ++ i

/-- Table 2-6 and R59, as far as one word shows them: which operands the named instruction has is `mapTimeCheck`'s. -/
def decTarget (t : BitVec 10) : Dec Target :=
  let i := t.extractLsb' 0 7
  match (t.extractLsb' 7 3).toNat with
  | 0 => if i = 0 then .ok .none else .error .malformedTarget
  | 1 => if i.toNat < 120 then .ok (.opA i) else .error .malformedTarget
  | 2 => if i.toNat < 120 then .ok (.opB i) else .error .malformedTarget
  | 3 => if i.toNat < 120 then .ok (.opC i) else .error .malformedTarget
  | 4 => if i.toNat < 120 then .ok (.pred i) else .error .malformedTarget
  | 5 => if i.toNat < 24 then .ok (.slot i) else .error .malformedTarget
  | _ => .error .malformedTarget

/-- T0 and T1 of a form with results. -/
def decHdr (pm : Pm) (t0 t1 : BitVec 10) : Dec Hdr := do
  let a ← decTarget t0
  let b ← decTarget t1
  .ok ⟨pm, a, b⟩

/-- T0 and T1 of a form whose result is "none" (R63, R176, R211). -/
def decBare (pm : Pm) (t0 t1 : BitVec 10) : Dec Hdr :=
  if t0 = 0 ∧ t1 = 0 then .ok ⟨pm, .none, .none⟩ else .error .malformedTarget

/-- T0 and T1 of an atomic (R176). -/
def decSlots (pm : Pm) (t0 t1 : BitVec 10) : Dec Hdr := do
  let h ← decHdr pm t0 t1
  if h.slotOnly then .ok h else .error .malformedTarget

/-- FN scheme Z. -/
def fnZ (f : BitVec 4) : Dec Unit := if f = 0 then .ok () else .error .reservedFn

/-- A field whose bits are flags of their own: any value below `n` is legal. -/
def fnBelow (n : Nat) (f : BitVec 4) : Dec (BitVec 4) := if f.toNat < n then .ok f else .error .reservedFn

def Width.code : Width → BitVec 4
  | .w32 => 0 | .w64 => 1

/-- FN scheme IW. -/
def fnIw (f : BitVec 4) : Dec Width :=
  match f.toNat with
  | 0 => .ok .w32
  | 1 => .ok .w64
  | _ => .error .reservedFn

/-- The width named by FN[0]. -/
def widthBit (f : BitVec 4) : Width := if f.getLsbD 0 then .w64 else .w32

/-- FN scheme IWU: the width, and .u. -/
def fnIwu (f : BitVec 4) : Dec (Width × Bool) :=
  if f.toNat < 4 then .ok (widthBit f, f.getLsbD 1) else .error .reservedFn

/-- FN scheme IWS: the width, and .sat. -/
def fnIws (f : BitVec 4) : Dec (Width × Bool) :=
  match f.toNat with
  | 0 => .ok (.w32, false)
  | 1 => .ok (.w64, false)
  | 4 => .ok (.w32, true)
  | 5 => .ok (.w64, true)
  | _ => .error .reservedFn

/-- FN scheme IWUS. -/
def fnIwus (f : BitVec 4) : Dec (Width × Narrowing) :=
  match f.toNat with
  | 0 => .ok (.w32, .wrap)
  | 1 => .ok (.w64, .wrap)
  | 4 => .ok (.w32, .ssat)
  | 5 => .ok (.w64, .ssat)
  | 6 => .ok (.w32, .usat)
  | 7 => .ok (.w64, .usat)
  | _ => .error .reservedFn

def codeIwu (w : Width) (u : Bool) : BitVec 4 := w.code ||| (if u then 2 else 0)
def codeIws (w : Width) (s : Bool) : BitVec 4 := w.code ||| (if s then 4 else 0)
def codeIwus (w : Width) : Narrowing → BitVec 4
  | .wrap => w.code
  | .ssat => w.code ||| 4
  | .usat => w.code ||| 6

def Cond.code : Cond → BitVec 4
  | .eq => 0 | .ne => 1 | .lt => 2 | .le => 3 | .gt => 4 | .ge => 5 | .ltu => 6 | .leu => 7 | .gtu => 8 | .geu => 9

/-- FN scheme CC. -/
def fnCc (f : BitVec 4) : Dec Cond :=
  match f.toNat with
  | 0 => .ok .eq | 1 => .ok .ne | 2 => .ok .lt | 3 => .ok .le | 4 => .ok .gt | 5 => .ok .ge
  | 6 => .ok .ltu | 7 => .ok .leu | 8 => .ok .gtu | 9 => .ok .geu
  | _ => .error .reservedFn

def Rnd.code : Rnd → BitVec 3
  | .fpcsr => 0 | .rne => 1 | .rtz => 2 | .rup => 3 | .rdn => 4

/-- The rounding codes, 5 to 7 reserved under the given check. -/
def decRnd (bad : Reject) (b : BitVec 3) : Dec Rnd :=
  match b.toNat with
  | 0 => .ok .fpcsr | 1 => .ok .rne | 2 => .ok .rtz | 3 => .ok .rup | 4 => .ok .rdn
  | _ => .error bad

def FRnd.code (f : FRnd) : BitVec 4 := BitVec.ofBool f.d ++ f.rnd.code

/-- FN scheme FR. -/
def fnFr (f : BitVec 4) : Dec FRnd := do
  let r ← decRnd .reservedFn (f.extractLsb' 0 3)
  .ok ⟨f.getLsbD 3, r⟩

/-- FN scheme FD. -/
def fnFd (f : BitVec 4) : Dec Bool :=
  match f.toNat with
  | 0 => .ok false
  | 8 => .ok true
  | _ => .error .reservedFn

def codeFd (d : Bool) : BitVec 4 := if d then 8 else 0

def FCond.code : FCond → BitVec 3
  | .eq => 0 | .ne => 1 | .lt => 2 | .le => 3 | .gt => 4 | .ge => 5 | .un => 6 | .ord => 7

def decFCond (b : BitVec 3) : FCond :=
  match b.toNat with
  | 0 => .eq | 1 => .ne | 2 => .lt | 3 => .le | 4 => .gt | 5 => .ge | 6 => .un | _ => .ord

/-- FN scheme FC: every code is legal. -/
def fnFc (f : BitVec 4) : Dec (Bool × FCond) := .ok (f.getLsbD 3, decFCond (f.extractLsb' 0 3))

/-- VFCMP: FC with FN[3] zero. -/
def fnFc3 (f : BitVec 4) : Dec FCond :=
  if f.getLsbD 3 then .error .reservedFn else .ok (decFCond (f.extractLsb' 0 3))

def MoviShift.code : MoviShift → BitVec 4
  | .none => 0 | .sh29 => 1 | .sh58 => 2

def fnMovi (f : BitVec 4) : Dec MoviShift :=
  match f.toNat with
  | 0 => .ok .none | 1 => .ok .sh29 | 2 => .ok .sh58
  | _ => .error .reservedFn

def ExtWidth.code : ExtWidth → BitVec 4
  | .b8 => 0 | .b16 => 1 | .b32 => 2

def fnExt (f : BitVec 4) : Dec ExtWidth :=
  match f.toNat with
  | 0 => .ok .b8 | 1 => .ok .b16 | 2 => .ok .b32
  | _ => .error .reservedFn

def LdSize.code : LdSize → BitVec 4
  | .u8 => 0 | .u16 => 1 | .u32 => 2 | .u64 => 3 | .s8 => 4 | .s16 => 5 | .s32 => 6

def fnLd (f : BitVec 4) : Dec LdSize :=
  match f.toNat with
  | 0 => .ok .u8 | 1 => .ok .u16 | 2 => .ok .u32 | 3 => .ok .u64 | 4 => .ok .s8 | 5 => .ok .s16 | 6 => .ok .s32
  | _ => .error .reservedFn

def StSize.code : StSize → BitVec 4
  | .b8 => 0 | .b16 => 1 | .b32 => 2 | .b64 => 3

def fnSt (f : BitVec 4) : Dec StSize :=
  match f.toNat with
  | 0 => .ok .b8 | 1 => .ok .b16 | 2 => .ok .b32 | 3 => .ok .b64
  | _ => .error .reservedFn

def WideSize.code : WideSize → BitVec 4
  | .b16 => 0 | .b32 => 1 | .b64 => 2 | .b128 => 3

def fnWide (f : BitVec 4) : Dec WideSize :=
  match f.toNat with
  | 0 => .ok .b16 | 1 => .ok .b32 | 2 => .ok .b64 | 3 => .ok .b128
  | _ => .error .reservedFn

def AtomOp.code : AtomOp → BitVec 3
  | .add => 0 | .and => 1 | .or => 2 | .xor => 3 | .min => 4 | .max => 5 | .minu => 6 | .maxu => 7

def decAtomOp (b : BitVec 3) : AtomOp :=
  match b.toNat with
  | 0 => .add | 1 => .and | 2 => .or | 3 => .xor | 4 => .min | 5 => .max | 6 => .minu | _ => .maxu

/-- ATOM: FN[3] is W, FN[2:0] the operation; every code is legal. -/
def fnAtom (f : BitVec 4) : Dec (Width × AtomOp) :=
  .ok (if f.getLsbD 3 then .w64 else .w32, decAtomOp (f.extractLsb' 0 3))

def codeAtom (w : Width) (op : AtomOp) : BitVec 4 :=
  BitVec.ofBool (match w with | .w32 => false | .w64 => true) ++ op.code

/-- CAS: FN[0] is W, FN[1] .xchg. -/
def fnCas (f : BitVec 4) : Dec (Width × Bool) := fnIwu f

def FAtomOp.code : FAtomOp → BitVec 3
  | .fadd => 0 | .fmin => 1 | .fmax => 2

/-- FATOM: FN[3] is D; FN[1:0] = 0b11 and FN[2] = 1 are reserved. -/
def fnFatom (f : BitVec 4) : Dec (Bool × FAtomOp) :=
  match (f.extractLsb' 0 3).toNat with
  | 0 => .ok (f.getLsbD 3, .fadd)
  | 1 => .ok (f.getLsbD 3, .fmin)
  | 2 => .ok (f.getLsbD 3, .fmax)
  | _ => .error .reservedFn

def PrefKind.code : PrefKind → BitVec 4
  | .l1 => 0 | .l2 => 1 | .l2x => 2

def fnPref (f : BitVec 4) : Dec PrefKind :=
  match f.toNat with
  | 0 => .ok .l1 | 1 => .ok .l2 | 2 => .ok .l2x
  | _ => .error .reservedFn

def FenceKind.code : FenceKind → BitVec 4
  | .full => 0 | .acq => 1 | .rel => 2 | .ss => 3

def fnFence (f : BitVec 4) : Dec FenceKind :=
  match f.toNat with
  | 0 => .ok .full | 1 => .ok .acq | 2 => .ok .rel | 3 => .ok .ss
  | _ => .error .reservedFn

def SyncField.code : SyncField → BitVec 4
  | .count => 0 | .gen => 1 | .target => 2 | .flags => 3

def fnSread (f : BitVec 4) : Dec SyncField :=
  match f.toNat with
  | 0 => .ok .count | 1 => .ok .gen | 2 => .ok .target | 3 => .ok .flags
  | _ => .error .reservedFn

/-- A form whose only variant bit is FN[0]. -/
def fnFlag (f : BitVec 4) : Dec Bool :=
  match f.toNat with
  | 0 => .ok false
  | 1 => .ok true
  | _ => .error .reservedFn

def codeFlag (b : Bool) : BitVec 4 := if b then 1 else 0

/-- A form whose variant bits are FN[0] and FN[1]. -/
def fnTwo (f : BitVec 4) : Dec (Bool × Bool) :=
  if f.toNat < 4 then .ok (f.getLsbD 0, f.getLsbD 1) else .error .reservedFn

def codeTwo (a b : Bool) : BitVec 4 := (if a then 1 else 0) ||| (if b then 2 else 0)

def RedOp.code : RedOp → BitVec 4
  | .add => 0 | .min => 1 | .max => 2 | .and => 3 | .or => 4 | .xor => 5

def fnRed (f : BitVec 4) : Dec RedOp :=
  match f.toNat with
  | 0 => .ok .add | 1 => .ok .min | 2 => .ok .max | 3 => .ok .and | 4 => .ok .or | 5 => .ok .xor
  | _ => .error .reservedFn

def Dp4Sign.code : Dp4Sign → BitVec 4
  | .ss => 0 | .uu => 1 | .su => 2 | .us => 3

def fnDp4 (f : BitVec 4) : Dec Dp4Sign :=
  match f.toNat with
  | 0 => .ok .ss | 1 => .ok .uu | 2 => .ok .su | 3 => .ok .us
  | _ => .error .reservedFn

def CopyKind.code : CopyKind → BitVec 4
  | .mm => 0 | .ms => 1 | .sm => 2

def fnCopy (f : BitVec 4) : Dec CopyKind :=
  match f.toNat with
  | 0 => .ok .mm | 1 => .ok .ms | 2 => .ok .sm
  | _ => .error .reservedFn

def MOrd.code : MOrd → BitVec 3
  | .plain => 0 | .acq => 1 | .rel => 2 | .acqRel => 3 | .acqSys => 4 | .relSys => 5 | .acqRelSys => 6

/-- Table 2-9, order codes. -/
def decOrd (b : BitVec 3) : Dec MOrd :=
  match b.toNat with
  | 0 => .ok .plain | 1 => .ok .acq | 2 => .ok .rel | 3 => .ok .acqRel
  | 4 => .ok .acqSys | 5 => .ok .relSys | 6 => .ok .acqRelSys
  | _ => .error .reservedValue

def Scope.code : Scope → BitVec 3
  | .slot => 0 | .grid => 1 | .cluster => 2 | .die => 3 | .device => 4 | .sys => 5

/-- Table 2-9, scope codes. -/
def decScope (b : BitVec 3) : Dec Scope :=
  match b.toNat with
  | 0 => .ok .slot | 1 => .ok .grid | 2 => .ok .cluster | 3 => .ok .die | 4 => .ok .device | 5 => .ok .sys
  | _ => .error .reservedValue

def ETy.code : ETy → BitVec 4
  | .i8 => 0 | .i16 => 1 | .i32 => 2 | .i64 => 3 | .e4m3 => 4 | .e5m2 => 5 | .fp16 => 6 | .bf16 => 7 | .fp32 => 8

/-- Table 2-10, WV TYPE. -/
def decEty (b : BitVec 4) : Dec ETy :=
  match b.toNat with
  | 0 => .ok .i8 | 1 => .ok .i16 | 2 => .ok .i32 | 3 => .ok .i64 | 4 => .ok .e4m3 | 5 => .ok .e5m2
  | 6 => .ok .fp16 | 7 => .ok .bf16 | 8 => .ok .fp32
  | _ => .error .reservedValue

def MTy.code : MTy → BitVec 3
  | .e4m3 => 0 | .e5m2 => 1 | .fp16 => 2 | .bf16 => 3 | .s8 => 4 | .u8 => 5

/-- Table 2-10, WM AT and BT. -/
def decMty (b : BitVec 3) : Dec MTy :=
  match b.toNat with
  | 0 => .ok .e4m3 | 1 => .ok .e5m2 | 2 => .ok .fp16 | 3 => .ok .bf16 | 4 => .ok .s8 | 5 => .ok .u8
  | _ => .error .reservedValue

/-! ### The X formats (R62, Table 2-8) -/

/-- A test of a used field (check code 0x25). -/
def legal (c : Bool) : Dec Unit := if c then .ok () else .error .reservedValue

/-- A run of bits that must be zero (check code 0x24). -/
def zero {n : Nat} (b : BitVec n) : Dec Unit := if b = 0 then .ok () else .error .mustBeZero

/-- Format G. -/
def xG (x : BitVec 30) : Dec (Option (BitVec 29)) :=
  if x.getLsbD 29 then .ok (some (x.extractLsb' 0 29))
  else do zero (x.extractLsb' 0 29); .ok none

def codeG : Option (BitVec 29) → BitVec 30
  | .none => 0
  | .some i => (1 : BitVec 1) ++ i

/-- Format Gk of MOVI. -/
def xGk (x : BitVec 30) : Dec (BitVec 29) := do
  legal (x.getLsbD 29)
  .ok (x.extractLsb' 0 29)

def codeGk (i : BitVec 29) : BitVec 30 := (1 : BitVec 1) ++ i

/-- Format Gk of ARG. -/
def xArg (x : BitVec 30) : Dec (BitVec 4) := do
  legal (x.getLsbD 29)
  zero (x.extractLsb' 4 25)
  .ok (x.extractLsb' 0 4)

def codeArg (i : BitVec 4) : BitVec 30 := (1 : BitVec 1) ++ (0 : BitVec 25) ++ i

/-- Format Gn, and every format of which a form uses no field. -/
def xGn (x : BitVec 30) : Dec Unit := zero x

/-- Format Gc. -/
def xGc (x : BitVec 30) : Dec (Width × Option (BitVec 28)) :=
  let w : Width := if x.getLsbD 28 then .w64 else .w32
  if x.getLsbD 29 then .ok (w, some (x.extractLsb' 0 28))
  else do zero (x.extractLsb' 0 28); .ok (w, none)

def codeGc (w : Width) : Option (BitVec 28) → BitVec 30
  | .none => (0 : BitVec 1) ++ BitVec.ofBool (w == .w64) ++ (0 : BitVec 28)
  | .some i => (1 : BitVec 1) ++ BitVec.ofBool (w == .w64) ++ i

/-- Format Gf of FCVTI and ICVTF: .i64 and .u. -/
def xGf (x : BitVec 30) : Dec (Bool × Bool) := do
  zero (x.extractLsb' 29 1)
  zero (x.extractLsb' 0 27)
  .ok (x.getLsbD 28, x.getLsbD 27)

def codeGf (i64 u : Bool) : BitVec 30 := (0 : BitVec 1) ++ BitVec.ofBool i64 ++ BitVec.ofBool u ++ (0 : BitVec 27)

/-- The LSID field of formats M and WN. -/
def decLsid (x : BitVec 30) : Dec (BitVec 5) := do
  let l := x.extractLsb' 25 5
  legal (lsidOk l)
  .ok l

/-- Format M, with the order codes the form takes (R64). -/
def xM (ok : MOrd → Bool) (x : BitVec 30) : Dec (BitVec 5 × MOrd × BitVec 22) := do
  let l ← decLsid x
  let o ← decOrd (x.extractLsb' 22 3)
  legal (ok o)
  .ok (l, o, x.extractLsb' 0 22)

def codeM (l : BitVec 5) (o : MOrd) (off : BitVec 22) : BitVec 30 := l ++ o.code ++ off

/-- Format M of the forms that take only the plain order code. -/
def xMp (x : BitVec 30) : Dec (BitVec 5 × BitVec 22) := do
  let p ← xM (fun o => o == .plain) x
  .ok (p.1, p.2.2)

/-- Format M of FENCE (R64, R176). -/
def xFence (x : BitVec 30) : Dec (BitVec 5 × Scope) := do
  let l ← decLsid x
  let s ← decScope (x.extractLsb' 22 3)
  zero (x.extractLsb' 0 22)
  .ok (l, s)

def codeFence (l : BitVec 5) (s : Scope) : BitVec 30 := l ++ s.code ++ (0 : BitVec 22)

/-- Format B of BR and CALL. -/
def xB (x : BitVec 30) : Dec (BitVec 3 × BitVec 27) := .ok (x.extractLsb' 27 3, x.extractLsb' 0 27)

def codeB (e : BitVec 3) (off : BitVec 27) : BitVec 30 := e ++ off

/-- Format B of BRI, RET and HALT (R63). -/
def xB0 (x : BitVec 30) : Dec (BitVec 3) := do
  zero (x.extractLsb' 0 27)
  .ok (x.extractLsb' 27 3)

/-- The fields of format WV. -/
structure Wv where
  ty : BitVec 4
  rnd : BitVec 3
  sc : BitVec 1
  sat : BitVec 1
  u : BitVec 1
  lane : BitVec 7
  imm : BitVec 13
  deriving DecidableEq, Repr

def wvOf (x : BitVec 30) : Wv :=
  ⟨x.extractLsb' 26 4, x.extractLsb' 23 3, x.extractLsb' 22 1, x.extractLsb' 21 1, x.extractLsb' 20 1,
   x.extractLsb' 13 7, x.extractLsb' 0 13⟩

def codeWv (v : Wv) : BitVec 30 := v.ty ++ v.rnd ++ v.sc ++ v.sat ++ v.u ++ v.lane ++ v.imm

/-- The TYPE field of a form whose types are those of `ok` (R139). -/
def decTy (ok : ETy → Bool) (b : BitVec 4) : Dec ETy := do
  let t ← decEty b
  legal (ok t)
  .ok t

/-- Integer types with SAT and U, U only with SAT (VADD, VSUB, VMUL). -/
def xWvArith (x : BitVec 30) : Dec (ETy × Narrowing) := do
  let v := wvOf x
  let t ← decTy ETy.isInt v.ty
  zero v.rnd; zero v.sc
  legal (v.sat == 1 || v.u == 0)
  zero v.lane; zero v.imm
  .ok (t, if v.sat == 1 then (if v.u == 1 then .usat else .ssat) else .wrap)

def codeWvArith (t : ETy) (n : Narrowing) : BitVec 30 :=
  codeWv ⟨t.code, 0, 0, BitVec.ofBool (n != .wrap), BitVec.ofBool (n == .usat), 0, 0⟩

/-- Integer types with U. -/
def xWvU (x : BitVec 30) : Dec (ETy × Bool) := do
  let v := wvOf x
  let t ← decTy ETy.isInt v.ty
  zero v.rnd; zero v.sc; zero v.sat
  zero v.lane; zero v.imm
  .ok (t, v.u == 1)

/-- Integer types with SAT (VABS). -/
def xWvS (x : BitVec 30) : Dec (ETy × Bool) := do
  let v := wvOf x
  let t ← decTy ETy.isInt v.ty
  zero v.rnd; zero v.sc
  zero v.u; zero v.lane; zero v.imm
  .ok (t, v.sat == 1)

/-- Types of `ok` and no other field. -/
def xWvT (ok : ETy → Bool) (x : BitVec 30) : Dec ETy := do
  let v := wvOf x
  let t ← decTy ok v.ty
  zero v.rnd; zero v.sc; zero v.sat; zero v.u; zero v.lane; zero v.imm
  .ok t

def codeWvT (t : ETy) : BitVec 30 := codeWv ⟨t.code, 0, 0, 0, 0, 0, 0⟩

/-- A form with a count or lane, from an operand (FN 0) or from LANE (FN 1, below `bound` of the type). -/
def xWvLane (ok : ETy → Bool) (bound : ETy → Nat) (imm : Bool) (x : BitVec 30) : Dec (ETy × Option (BitVec 7)) := do
  let v := wvOf x
  let t ← decTy ok v.ty
  zero v.rnd; zero v.sc; zero v.sat; zero v.u
  if imm then do
    legal (decide (v.lane.toNat < bound t))
    zero v.imm
    .ok (t, some v.lane)
  else do
    zero v.lane; zero v.imm
    .ok (t, none)

def codeWvLane (t : ETy) (c : Option (BitVec 7)) : BitVec 30 :=
  codeWv ⟨t.code, 0, 0, 0, 0, c.getD 0, 0⟩

/-- VEXT: U for integer types only. -/
def xVext (imm : Bool) (x : BitVec 30) : Dec (ETy × Bool × Option (BitVec 7)) := do
  let v := wvOf x
  let t ← decEty v.ty
  zero v.rnd; zero v.sc; zero v.sat
  legal (v.u == 0 || t.isInt)
  if imm then do
    legal (decide (v.lane.toNat < t.lanes))
    zero v.imm
    .ok (t, v.u == 1, some v.lane)
  else do
    zero v.lane; zero v.imm
    .ok (t, v.u == 1, none)

/-- VIOTA. -/
def xViota (x : BitVec 30) : Dec (ETy × BitVec 13) := do
  let v := wvOf x
  let t ← decTy ETy.isInt v.ty
  zero v.rnd; zero v.sc; zero v.sat; zero v.u; zero v.lane
  .ok (t, v.imm)

/-- VDP4: TYPE 2, SAT. -/
def xVdp4 (x : BitVec 30) : Dec Bool := do
  let v := wvOf x
  let _ ← decTy (fun t => t == .i32) v.ty
  zero v.rnd; zero v.sc; zero v.u; zero v.lane; zero v.imm
  .ok (v.sat == 1)

/-- Floating-point types with RND and SC. -/
def xWvRc (ok : ETy → Bool) (x : BitVec 30) : Dec (ETy × Rnd × Bool) := do
  let v := wvOf x
  let t ← decTy ok v.ty
  let r ← decRnd .reservedValue v.rnd
  zero v.sat; zero v.u; zero v.lane; zero v.imm
  .ok (t, r, v.sc == 1)

def codeWvRc (t : ETy) (r : Rnd) (sc : Bool) : BitVec 30 := codeWv ⟨t.code, r.code, BitVec.ofBool sc, 0, 0, 0, 0⟩

/-- Floating-point types with SC. -/
def xWvC (ok : ETy → Bool) (x : BitVec 30) : Dec (ETy × Bool) := do
  let v := wvOf x
  let t ← decTy ok v.ty
  zero v.rnd
  zero v.sat; zero v.u; zero v.lane; zero v.imm
  .ok (t, v.sc == 1)

/-- VFCVT (R151). -/
structure VfcvtX where
  d : ETy
  s : ETy
  rnd : Rnd
  sc : Bool
  sat : Bool
  u : Bool
  part : BitVec 2
  deriving DecidableEq, Repr

/-- VFCVT (R139, R151): every field for all its codes before the next. -/
def xVfcvt (x : BitVec 30) : Dec VfcvtX := do
  let v := wvOf x
  let d ← decTy (fun t => t != .i64) v.ty
  let r ← decRnd .reservedValue v.rnd
  legal (v.sat == 0 || d.isFp8)
  legal (v.u == 0 || d.isInt || decide ((v.lane.extractLsb' 0 4).toNat < 4))
  zero (v.lane.extractLsb' 4 3)
  let s ← decTy (fun s => vfcvtPair d s) (v.lane.extractLsb' 0 4)
  zero (v.imm.extractLsb' 2 11)
  legal (decide ((v.imm.extractLsb' 0 2).toNat < widthRatio d s))
  .ok ⟨d, s, r, v.sc == 1, v.sat == 1, v.u == 1, v.imm.extractLsb' 0 2⟩

/-- VSCALE.imm (R153). -/
def xVscaleImm (x : BitVec 30) : Dec (ETy × BitVec 13) := do
  let v := wvOf x
  let t ← decTy ETy.isFloat v.ty
  zero v.rnd; zero v.sc; zero v.sat; zero v.u; zero v.lane
  legal (decide (-128 ≤ v.imm.toInt ∧ v.imm.toInt ≤ 127))
  .ok (t, v.imm)

/-- VSCALE.clear (R153). -/
def xVscaleClear (x : BitVec 30) : Dec (ETy × Rnd × Bool) := do
  let v := wvOf x
  let t ← decTy ETy.isFloat v.ty
  let r ← decRnd .reservedValue v.rnd
  zero v.sc; zero v.u; zero v.lane; zero v.imm
  .ok (t, r, v.sat == 1)

/-- VPACK.pack (R154): any RND that is a rounding mode is accepted for integers too, where R154 has no use for it (log entry 45). -/
def xVpack (x : BitVec 30) : Dec (ETy × ETy × Rnd × Bool × Bool × Bool) := do
  let v := wvOf x
  let d ← decTy (fun t => t != .i64 && t != .fp32) v.ty
  let r ← decRnd .reservedValue v.rnd
  legal (v.sat == 0 || d.isInt || d.isFp8)
  legal (v.u == 0 || (d.isInt && v.sat == 1))
  zero (v.lane.extractLsb' 4 3)
  let s ← decTy (fun s => vpackTypes d s && (s.bytes == 2 * d.bytes)) (v.lane.extractLsb' 0 4)
  zero v.imm
  .ok (d, s, r, v.sc == 1, v.sat == 1, v.u == 1)

/-- VPACK.unpack (R154): RND and SAT are not used. -/
def xVunpack (x : BitVec 30) : Dec (ETy × ETy × Bool × Bool × Bool) := do
  let v := wvOf x
  let d ← decTy (fun t => t != .i64 && t != .fp32) v.ty
  zero v.rnd; zero v.sat
  legal (v.u == 0 || d.isInt)
  zero (v.lane.extractLsb' 4 3)
  let s ← decTy (fun s => vpackTypes d s && (d.bytes == 2 * s.bytes)) (v.lane.extractLsb' 0 4)
  zero (v.imm.extractLsb' 1 12)
  .ok (d, s, v.sc == 1, v.u == 1, v.imm.getLsbD 0)

/-- The fields of format WM. -/
structure Wm where
  acc : BitVec 3
  mc : BitVec 3
  nc : BitVec 5
  aty : BitVec 3
  bty : BitVec 3
  aspad : BitVec 1
  bspad : BitVec 1
  sc : BitVec 1
  ctx : BitVec 2
  low : BitVec 8
  deriving DecidableEq, Repr

def wmOf (x : BitVec 30) : Wm :=
  ⟨x.extractLsb' 27 3, x.extractLsb' 24 3, x.extractLsb' 19 5, x.extractLsb' 16 3, x.extractLsb' 13 3, x.extractLsb' 12 1,
   x.extractLsb' 11 1, x.extractLsb' 10 1, x.extractLsb' 8 2, x.extractLsb' 0 8⟩

def codeWm (v : Wm) : BitVec 30 :=
  v.acc ++ v.mc ++ v.nc ++ v.aty ++ v.bty ++ v.aspad ++ v.bspad ++ v.sc ++ v.ctx ++ v.low

/-- The product forms (R156). `ra` and `rb` say that MMAR's register side is A or B; `ga` and `gb` ask for E4M3. -/
def xMm (ra rb ga gb : Bool) (x : BitVec 30) : Dec MmArgs := do
  let v := wmOf x
  legal (decide (v.mc.toNat < 5) && (!ra || v.mc == 0))
  legal (!rb || v.nc == 0)
  let a ← decMty v.aty
  legal (!ga || a == .e4m3)
  let b ← decMty v.bty
  legal (mmPair a b && (!gb || b == .e4m3))
  zero (if ra then v.aspad else 0)
  zero (if rb then v.bspad else 0)
  legal (v.sc == 0 || !a.isInt)
  zero v.low
  .ok ⟨v.acc, v.mc, v.nc, a, b, v.aspad == 1, v.bspad == 1, v.sc == 1, v.ctx⟩

def codeMm (x : MmArgs) : BitVec 30 :=
  codeWm ⟨x.acc, x.mc, x.nc, x.aty.code, x.bty.code, BitVec.ofBool x.aspad, BitVec.ofBool x.bspad, BitVec.ofBool x.sc, x.ctx, 0⟩

/-- ACCSET. -/
def xAccset (x : BitVec 30) : Dec (BitVec 3 × BitVec 3 × BitVec 5 × Bool) := do
  let v := wmOf x
  legal (decide (v.mc.toNat < 5))
  zero v.aty; zero v.bty; zero v.bspad; zero v.sc; zero v.ctx; zero v.low
  .ok (v.acc, v.mc, v.nc, v.aspad == 1)

/-- The accumulator moves: ACC and CTX. -/
def xAcc (x : BitVec 30) : Dec (BitVec 3 × BitVec 2) := do
  let v := wmOf x
  zero v.mc; zero v.nc; zero v.aty; zero v.bty; zero v.aspad; zero v.bspad; zero v.sc; zero v.low
  .ok (v.acc, v.ctx)

def codeAcc (acc : BitVec 3) (ctx : BitVec 2) : BitVec 30 := codeWm ⟨acc, 0, 0, 0, 0, 0, 0, 0, ctx, 0⟩

/-- ACCRD: ACC only. -/
def xAccrd (x : BitVec 30) : Dec (BitVec 3) := do
  let p ← xAcc x
  zero p.2
  .ok p.1

/-- MWAIT: CTX, which .all leaves zero. -/
def xMwait (all : Bool) (x : BitVec 30) : Dec (BitVec 2) := do
  zero (wmOf x).acc
  let p ← xAcc x
  zero (if all then p.2 else 0)
  .ok p.2

/-- Format WE (R213): the bound of PORT, and whether GMASK and DIM are used. -/
def xWe (ports : Nat) (gm dim : Bool) (x : BitVec 30) : Dec (BitVec 3 × BitVec 4 × BitVec 2) := do
  let p := x.extractLsb' 27 3
  if ports = 0 then zero p else legal (decide (p.toNat < ports))
  zero (if gm then 0 else x.extractLsb' 23 4)
  zero (if dim then 0 else x.extractLsb' 21 2)
  zero (x.extractLsb' 17 4)
  zero (x.extractLsb' 0 17)
  .ok (p, x.extractLsb' 23 4, x.extractLsb' 21 2)

def codeWe (p : BitVec 3) (g : BitVec 4) (d : BitVec 2) : BitVec 30 := p ++ g ++ d ++ (0 : BitVec 4) ++ (0 : BitVec 17)

/-- WANT (R204). -/
def xWant (spad : Bool) (x : BitVec 30) : Dec (BitVec 5 × BitVec 12 × BitVec 4) := do
  let l ← decLsid x
  let life := x.extractLsb' 13 12
  legal (life != 0)
  zero (if spad then 0 else x.extractLsb' 9 4)
  zero (x.extractLsb' 0 9)
  .ok (l, life, x.extractLsb' 9 4)

def codeWn (l : BitVec 5) (life : BitVec 12) (g : BitVec 4) (n : BitVec 9) : BitVec 30 := l ++ life ++ g ++ n

/-- OFFER (R204). -/
def xOffer (byLife : Bool) (x : BitVec 30) : Dec (BitVec 5 × Retention) := do
  let l ← decLsid x
  let life := x.extractLsb' 13 12
  if byLife then legal (life != 0) else zero life
  zero (x.extractLsb' 9 4)
  let n := x.extractLsb' 0 9
  if byLife then zero n else legal (n != 0)
  .ok (l, if byLife then .byLife life else .byCount n)

/-- WDROP (R204). -/
def xWdrop (x : BitVec 30) : Dec (BitVec 5) := do
  let l ← decLsid x
  zero (x.extractLsb' 0 25)
  .ok l

/-- Format S of a form that uses CODE (R214). -/
def xCode (ok : Nat → Bool) (x : BitVec 30) : Dec (BitVec 12) := do
  let c := x.extractLsb' 18 12
  legal (ok c.toNat)
  zero (x.extractLsb' 12 6)
  zero (x.extractLsb' 0 12)
  .ok c

def codeS (c : BitVec 12) : BitVec 30 := c ++ (0 : BitVec 18)

/-- Format S of PREEMPT: SUB[0]. -/
def xPreempt (x : BitVec 30) : Dec Bool := do
  zero (x.extractLsb' 18 12)
  zero (x.extractLsb' 13 5)
  zero (x.extractLsb' 0 12)
  .ok (x.getLsbD 12)

/-! ### The opcode map (R65, Table 2-12) -/

/-- One form: PM, FN, the targets and X, in the order of R71. -/
def form {α β : Type} (f : Fields) (fn : BitVec 4 → Dec α) (tg : Pm → BitVec 10 → BitVec 10 → Dec Hdr)
    (x : α → BitVec 30 → Dec β) (k : α → Hdr → β → Instr) : Dec Instr := do
  let pm ← decPm f.pm
  let a ← fn f.fn
  let h ← tg pm f.t0 f.t1
  let b ← x a f.x
  .ok (k a h b)

/-- Opcodes 0x01 to 0x0A. -/
def decBlock (f : Fields) : Dec Instr :=
  match f.op.toNat with
  | 0x01 => form f fnZ decHdr (fun _ => xGn) (fun _ h _ => .mov h)
  | 0x02 => form f fnMovi decHdr (fun _ => xGk) (fun s h i => .movi s h i)
  | 0x03 => form f fnZ decHdr (fun _ => xArg) (fun _ h i => .arg h i)
  | 0x04 => form f fnZ decHdr (fun _ => xGn) (fun _ h _ => .null h)
  | 0x05 => form f fnZ decBare (fun _ => xB) (fun _ h b => .br h.pm b.1 b.2)
  | 0x06 => form f fnZ decBare (fun _ => xB0) (fun _ h e => .bri h.pm e)
  | 0x07 => form f fnZ decHdr (fun _ => xB) (fun _ h b => .call h b.1 b.2)
  | 0x08 => form f fnZ decBare (fun _ => xB0) (fun _ h e => .ret h.pm e)
  | 0x09 => form f fnZ decHdr (fun _ => xGn) (fun _ h _ => .iter h)
  | 0x0A => form f fnZ decBare (fun _ => xB0) (fun _ h e => .halt h.pm e)
  | _ => .error .reservedOp

/-- Opcodes 0x10 to 0x2D. -/
def decInt (f : Fields) : Dec Instr :=
  match f.op.toNat with
  | 0x10 => form f fnIwus decHdr (fun _ => xG) (fun a h b => .add a.1 a.2 h b)
  | 0x11 => form f fnIwus decHdr (fun _ => xG) (fun a h b => .sub a.1 a.2 h b)
  | 0x12 => form f fnIwus decHdr (fun _ => xG) (fun a h b => .mul a.1 a.2 h b)
  | 0x13 => form f fnIwu decHdr (fun _ => xG) (fun a h b => .mulh a.1 a.2 h b)
  | 0x14 => form f fnIwu decHdr (fun _ => xG) (fun a h b => .div a.1 a.2 h b)
  | 0x15 => form f fnIwu decHdr (fun _ => xG) (fun a h b => .rem a.1 a.2 h b)
  | 0x16 => form f fnIwus decHdr (fun _ => xGn) (fun a h _ => .madd a.1 a.2 h)
  | 0x17 => form f fnIw decHdr (fun _ => xG) (fun a h b => .and a h b)
  | 0x18 => form f fnIw decHdr (fun _ => xG) (fun a h b => .or a h b)
  | 0x19 => form f fnIw decHdr (fun _ => xG) (fun a h b => .xor a h b)
  | 0x1A => form f fnIw decHdr (fun _ => xG) (fun a h b => .andn a h b)
  | 0x1B => form f fnIw decHdr (fun _ => xG) (fun a h b => .shl a h b)
  | 0x1C => form f fnIw decHdr (fun _ => xG) (fun a h b => .shr a h b)
  | 0x1D => form f fnIw decHdr (fun _ => xG) (fun a h b => .sra a h b)
  | 0x1E => form f fnIw decHdr (fun _ => xG) (fun a h b => .rotl a h b)
  | 0x1F => form f fnIwu decHdr (fun _ => xG) (fun a h b => .min a.1 a.2 h b)
  | 0x20 => form f fnIwu decHdr (fun _ => xG) (fun a h b => .max a.1 a.2 h b)
  | 0x21 => form f fnIws decHdr (fun _ => xGn) (fun a h _ => .abs a.1 a.2 h)
  | 0x22 => form f fnIws decHdr (fun _ => xGn) (fun a h _ => .neg a.1 a.2 h)
  | 0x23 => form f fnIw decHdr (fun _ => xGn) (fun a h _ => .clz a h)
  | 0x24 => form f fnIw decHdr (fun _ => xGn) (fun a h _ => .ctz a h)
  | 0x25 => form f fnIw decHdr (fun _ => xGn) (fun a h _ => .popc a h)
  | 0x26 => form f fnIw decHdr (fun _ => xGn) (fun a h _ => .brev a h)
  | 0x27 => form f fnIw decHdr (fun _ => xGn) (fun a h _ => .bswap a h)
  | 0x28 => form f fnIwu decHdr (fun _ => xG) (fun a h b => .extr a.1 a.2 h b)
  | 0x29 => form f fnIw decHdr (fun _ => xG) (fun a h b => .insb a h b)
  | 0x2A => form f fnExt decHdr (fun _ => xGn) (fun a h _ => .sext a h)
  | 0x2B => form f fnExt decHdr (fun _ => xGn) (fun a h _ => .zext a h)
  | 0x2C => form f (fnBelow 4) decHdr (fun _ => xG) (fun a h b => .lea (a.extractLsb' 0 2) h b)
  | 0x2D => form f fnIw decHdr (fun _ => xGn) (fun a h _ => .addx a h)
  | _ => .error .reservedOp

/-- Opcodes 0x30 to 0x38. -/
def decCmp (f : Fields) : Dec Instr :=
  match f.op.toNat with
  | 0x30 => form f fnCc decHdr (fun _ => xGc) (fun c h b => .cmp c h b.1 b.2)
  | 0x31 => form f fnFlag decHdr (fun _ => xG) (fun a h b => .tstb a h b)
  | 0x32 => form f fnTwo decHdr (fun _ => xGn) (fun a h _ => .pand a.1 a.2 h)
  | 0x33 => form f fnTwo decHdr (fun _ => xGn) (fun a h _ => .por a.1 a.2 h)
  | 0x34 => form f fnZ decHdr (fun _ => xGn) (fun _ h _ => .pnot h)
  | 0x35 => form f fnZ decHdr (fun _ => xGn) (fun _ h _ => .sel h)
  | 0x36 => form f fnZ decHdr (fun _ => xGn) (fun _ h _ => .steer h)
  | 0x37 =>
    if f.pm = 0 then form f fnZ decHdr (fun _ => xGn) (fun _ h _ => .merge h.t0 h.t1)
    else .error .reservedPm
  | 0x38 => form f fnZ decHdr (fun _ => xGn) (fun _ h _ => .pget h)
  | _ => .error .reservedOp

/-- Opcodes 0x40 to 0x4E. -/
def decFp (f : Fields) : Dec Instr :=
  match f.op.toNat with
  | 0x40 => form f fnFr decHdr (fun _ => xGn) (fun a h _ => .fadd a h)
  | 0x41 => form f fnFr decHdr (fun _ => xGn) (fun a h _ => .fsub a h)
  | 0x42 => form f fnFr decHdr (fun _ => xGn) (fun a h _ => .fmul a h)
  | 0x43 => form f fnFr decHdr (fun _ => xGn) (fun a h _ => .ffma a h)
  | 0x44 => form f fnFr decHdr (fun _ => xGn) (fun a h _ => .fdiv a h)
  | 0x45 => form f fnFr decHdr (fun _ => xGn) (fun a h _ => .fsqrt a h)
  | 0x46 => form f fnFd decHdr (fun _ => xGn) (fun a h _ => .fmin a h)
  | 0x47 => form f fnFd decHdr (fun _ => xGn) (fun a h _ => .fmax a h)
  | 0x48 => form f fnFc decHdr (fun _ => xGn) (fun a h _ => .fcmp a.1 a.2 h)
  | 0x49 => form f fnFr decHdr (fun _ => xGn) (fun a h _ => .fcvt a h)
  | 0x4A => form f fnFr decHdr (fun _ => xGf) (fun a h b => .fcvti a h b.1 b.2)
  | 0x4B => form f fnFr decHdr (fun _ => xGf) (fun a h b => .icvtf a h b.1 b.2)
  | 0x4C => form f fnFd decHdr (fun _ => xGn) (fun a h _ => .fabs a h)
  | 0x4D => form f fnFd decHdr (fun _ => xGn) (fun a h _ => .fneg a h)
  | 0x4E => form f fnFd decHdr (fun _ => xGn) (fun a h _ => .fclass a h)
  | _ => .error .reservedOp

/-- The CLINE of FN (R191). -/
def clineOf (n : BitVec 4) (pm : Pm) (l : BitVec 5) (off : BitVec 22) : Instr :=
  match n.toNat with
  | 0 => .clineClean pm l off
  | 1 => .clineInval pm l off
  | 2 => .clineFlush pm l off
  | 3 => .clineZero pm l off
  | _ => .clineReclaim pm l off

/-- Opcodes 0x50 to 0x66. -/
def decMem (f : Fields) : Dec Instr :=
  match f.op.toNat with
  | 0x50 => form f fnLd decHdr (fun _ => xM MOrd.forLoad) (fun s h b => .ld s h b.1 b.2.1 b.2.2)
  | 0x51 => form f fnSt decBare (fun _ => xM MOrd.forStore) (fun s h b => .st s h.pm b.1 b.2.1 b.2.2)
  | 0x52 => form f fnWide decHdr (fun _ => xM MOrd.forLoad) (fun s h b => .ldw s h b.1 b.2.1 b.2.2)
  | 0x53 => form f fnWide decBare (fun _ => xM MOrd.forStore) (fun s h b => .stw s h.pm b.1 b.2.1 b.2.2)
  | 0x54 => form f fnLd decHdr (fun _ => xMp) (fun s h b => .lds s h b.1 b.2)
  | 0x55 => form f fnSt decBare (fun _ => xMp) (fun s h b => .sts s h.pm b.1 b.2)
  | 0x56 => form f fnWide decHdr (fun _ => xMp) (fun s h b => .ldsw s h b.1 b.2)
  | 0x57 => form f fnWide decBare (fun _ => xMp) (fun s h b => .stsw s h.pm b.1 b.2)
  | 0x58 => form f fnAtom decSlots (fun _ => xM (fun _ => true)) (fun a h b => .atom a.1 a.2 h b.1 b.2.1 b.2.2)
  | 0x59 => form f fnCas decSlots (fun _ => xM (fun _ => true)) (fun a h b => .cas a.1 a.2 h b.1 b.2.1 b.2.2)
  | 0x5A => form f fnFatom decSlots (fun _ => xM (fun _ => true)) (fun a h b => .fatom a.1 a.2 h b.1 b.2.1 b.2.2)
  | 0x5B => form f fnPref decBare (fun _ => xMp) (fun k h b => .pref k h.pm b.1 b.2)
  | 0x5C => form f fnFence decBare (fun _ => xFence) (fun k h b => .fence k h.pm b.1 b.2)
  | 0x5D => form f (fnBelow 5) decBare (fun _ => xMp) (fun n h b => clineOf n h.pm b.1 b.2)
  | 0x60 => form f fnZ decBare (fun _ => xM MOrd.forStore) (fun _ h b => .sarm h.pm b.1 b.2.1 b.2.2)
  | 0x61 => form f fnFlag decHdr (fun _ => xM MOrd.forLoad) (fun t h b => .swait t h b.1 b.2.1 b.2.2)
  | 0x62 => form f fnZ decBare (fun _ => xM MOrd.forStore) (fun _ h b => .sadd h.pm b.1 b.2.1 b.2.2)
  | 0x63 => form f fnSread decHdr (fun _ => xM MOrd.forLoad) (fun k h b => .sread k h b.1 b.2.1 b.2.2)
  | 0x64 => form f fnFlag decBare xWant (fun s h b => .want s h.pm b.1 b.2.1 b.2.2)
  | 0x65 => form f fnTwo decBare (fun a => xOffer a.2) (fun a h b => .offer a.1 b.2 h.pm b.1)
  | 0x66 => form f fnZ decBare (fun _ => xWdrop) (fun _ h l => .wdrop h.pm l)
  | _ => .error .reservedOp

/-- Opcodes 0x70 to 0x85. -/
def decVint (f : Fields) : Dec Instr :=
  match f.op.toNat with
  | 0x70 => form f fnZ decHdr (fun _ => xWvArith) (fun _ h b => .vadd h b.1 b.2)
  | 0x71 => form f fnZ decHdr (fun _ => xWvArith) (fun _ h b => .vsub h b.1 b.2)
  | 0x72 => form f fnZ decHdr (fun _ => xWvArith) (fun _ h b => .vmul h b.1 b.2)
  | 0x73 => form f fnZ decHdr (fun _ => xWvU) (fun _ h b => .vmulh h b.1 b.2)
  | 0x74 => form f fnZ decHdr (fun _ => xWvU) (fun _ h b => .vmin h b.1 b.2)
  | 0x75 => form f fnZ decHdr (fun _ => xWvU) (fun _ h b => .vmax h b.1 b.2)
  | 0x76 => form f fnZ decHdr (fun _ => xWvS) (fun _ h b => .vabs h b.1 b.2)
  | 0x77 => form f fnZ decHdr (fun _ => xWvT ETy.isInt) (fun _ h t => .vand h t)
  | 0x78 => form f fnZ decHdr (fun _ => xWvT ETy.isInt) (fun _ h t => .vor h t)
  | 0x79 => form f fnZ decHdr (fun _ => xWvT ETy.isInt) (fun _ h t => .vxor h t)
  | 0x7A => form f fnFlag decHdr (xWvLane ETy.isInt ETy.width) (fun _ h b => .vshl h b.1 b.2)
  | 0x7B => form f fnFlag decHdr (xWvLane ETy.isInt ETy.width) (fun _ h b => .vshr h b.1 b.2)
  | 0x7C => form f fnFlag decHdr (xWvLane ETy.isInt ETy.width) (fun _ h b => .vsra h b.1 b.2)
  | 0x7D => form f fnCc decHdr (fun _ => xWvT ETy.isInt) (fun c h t => .vcmp c h t)
  | 0x7E => form f fnZ decHdr (fun _ => xWvT (fun t => t == .i8)) (fun _ h _ => .vsel h)
  | 0x7F => form f fnZ decHdr (fun _ => xWvT (fun _ => true)) (fun _ h t => .vrep h t)
  | 0x80 => form f fnFlag decHdr xVext (fun _ h b => .vext h b.1 b.2.1 b.2.2)
  | 0x81 => form f fnFlag decHdr (xWvLane (fun _ => true) ETy.lanes) (fun _ h b => .vins h b.1 b.2)
  | 0x82 => form f fnZ decHdr (fun _ => xWvT (fun _ => true)) (fun _ h t => .vperm h t)
  | 0x83 => form f fnRed decHdr (fun _ => xWvU) (fun op h b => .vredi op h b.1 b.2)
  | 0x84 => form f fnZ decHdr (fun _ => xViota) (fun _ h b => .viota h b.1 b.2)
  | 0x85 => form f fnDp4 decHdr (fun _ => xVdp4) (fun sg h s => .vdp4 sg h s)
  | _ => .error .reservedOp

/-- VSCALE: three forms by FN (R153). -/
def decVscale (f : Fields) : Dec Instr :=
  match f.fn.toNat with
  | 0 => form f .ok decHdr (fun _ => xVscaleImm) (fun _ h b => .vscaleImm h b.1 b.2)
  | 1 => form f .ok decHdr (fun _ => xWvT ETy.isFloat) (fun _ h t => .vscaleReg h t)
  | 2 => form f .ok decHdr (fun _ => xVscaleClear) (fun _ h b => .vscaleClear h b.1 b.2.1 b.2.2)
  | _ => do let _ ← decPm f.pm; .error .reservedFn

/-- VPACK: two forms by FN (R154). -/
def decVpack (f : Fields) : Dec Instr :=
  match f.fn.toNat with
  | 0 => form f .ok decHdr (fun _ => xVpack)
      (fun _ h b => .vpackPack h b.1 b.2.1 b.2.2.1 b.2.2.2.1 b.2.2.2.2.1 b.2.2.2.2.2)
  | 1 => form f .ok decHdr (fun _ => xVunpack) (fun _ h b => .vpackUnpack h b.1 b.2.1 b.2.2.1 b.2.2.2.1 b.2.2.2.2)
  | _ => do let _ ← decPm f.pm; .error .reservedFn

/-- Opcodes 0x90 to 0x9F. -/
def decVfp (f : Fields) : Dec Instr :=
  match f.op.toNat with
  | 0x90 => form f fnZ decHdr (fun _ => xWvRc ETy.isArith) (fun _ h b => .vfadd h b.1 b.2.1 b.2.2)
  | 0x91 => form f fnZ decHdr (fun _ => xWvRc ETy.isArith) (fun _ h b => .vfsub h b.1 b.2.1 b.2.2)
  | 0x92 => form f fnZ decHdr (fun _ => xWvRc ETy.isArith) (fun _ h b => .vfmul h b.1 b.2.1 b.2.2)
  | 0x93 => form f fnZ decHdr (fun _ => xWvRc ETy.isArith) (fun _ h b => .vffma h b.1 b.2.1 b.2.2)
  | 0x94 => form f fnZ decHdr (fun _ => xWvC ETy.isArith) (fun _ h b => .vfmin h b.1 b.2)
  | 0x95 => form f fnZ decHdr (fun _ => xWvC ETy.isArith) (fun _ h b => .vfmax h b.1 b.2)
  | 0x96 => form f fnZ decHdr (fun _ => xWvRc (fun t => t == .fp32)) (fun _ h b => .vfdiv h b.2.1 b.2.2)
  | 0x97 => form f fnZ decHdr (fun _ => xWvRc (fun t => t == .fp32)) (fun _ h b => .vfsqrt h b.2.1 b.2.2)
  | 0x98 => form f fnZ decHdr (fun _ => xWvRc (fun t => t == .fp32)) (fun _ h b => .vfrsq h b.2.1 b.2.2)
  | 0x99 => form f fnZ decHdr (fun _ => xWvRc (fun t => t == .fp32)) (fun _ h b => .vfexp2 h b.2.1 b.2.2)
  | 0x9A => form f fnFc3 decHdr (fun _ => xWvC ETy.isArith) (fun c h b => .vfcmp c h b.1 b.2)
  | 0x9B => form f fnZ decHdr (fun _ => xVfcvt) (fun _ h b => .vfcvt h b.d b.s b.rnd b.sc b.sat b.u b.part)
  | 0x9C => form f fnZ decHdr (fun _ => xWvRc ETy.isFloat) (fun _ h b => .vfreda h b.1 b.2.1 b.2.2)
  | 0x9D => form f fnFlag decHdr (fun _ => xWvC ETy.isFloat) (fun m h b => .vfredm m h b.1 b.2)
  | 0x9E => decVscale f
  | 0x9F => decVpack f
  | _ => .error .reservedOp

/-- Opcodes 0xA0 to 0xB7. -/
def decMatEng (f : Fields) : Dec Instr :=
  match f.op.toNat with
  | 0xA0 => form f fnTwo decHdr (fun a => xMm false false a.1 a.2) (fun a h x => .mma a.1 a.2 h x)
  | 0xA1 => form f fnFlag decHdr (fun rb => xMm (!rb) rb false false) (fun rb h x => .mmar rb h x)
  | 0xA2 => form f fnFlag decHdr (fun g => xMm false false g false) (fun g h x => .mmac g h x)
  | 0xA3 => form f fnFlag decHdr (fun _ => xAccset) (fun i h b => .accset i h b.1 b.2.1 b.2.2.1 b.2.2.2)
  | 0xA4 => form f fnZ decHdr (fun _ => xAcc) (fun _ h b => .accz h b.1 b.2)
  | 0xA5 => form f fnFlag decHdr (fun _ => xAcc) (fun s h b => .accld s h b.1 b.2)
  | 0xA6 => form f fnFlag decHdr (fun _ => xAcc) (fun s h b => .accst s h b.1 b.2)
  | 0xA7 => form f fnZ decHdr (fun _ => xAccrd) (fun _ h a => .accrd h a)
  | 0xA8 => form f fnZ decHdr (fun _ => xAcc) (fun _ h b => .accwr h b.1 b.2)
  | 0xA9 => form f fnFlag decHdr xMwait (fun all h c => .mwait all h c)
  | 0xB0 => form f fnCopy decHdr (fun k => xWe 0 (k == .ms) false) (fun k h b => .copy k h b.2.1)
  | 0xB1 => form f fnTwo decHdr (fun _ => xWe 0 false false) (fun a h _ => .gather a.1 a.2 h)
  | 0xB2 => form f fnTwo decHdr (fun _ => xWe 0 false false) (fun a h _ => .scatter a.1 a.2 h)
  | 0xB3 => form f fnZ decHdr (fun _ => xWe 4 false true) (fun _ h b => .strin h b.1 b.2.2)
  | 0xB4 => form f fnZ decHdr (fun _ => xWe 2 false true) (fun _ h b => .strout h b.1 b.2.2)
  | 0xB5 => form f fnZ decHdr (fun _ => xWe 4 false false) (fun _ h b => .srecv h b.1)
  | 0xB6 => form f fnZ decHdr (fun _ => xWe 2 false false) (fun _ h b => .ssend h b.1)
  | 0xB7 => form f fnZ decHdr (fun _ => xWe 0 false false) (fun _ h _ => .cwait h)
  | _ => .error .reservedOp

/-- TLBINV by FN (R238). -/
def tlbinvOf (n : BitVec 4) (pm : Pm) : Instr :=
  match n.toNat with
  | 0 => .tlbinvVa pm
  | 1 => .tlbinvAsid pm
  | _ => .tlbinvAll pm

/-- Opcodes 0xC0 to 0xDB. -/
def decSys (f : Fields) : Dec Instr :=
  match f.op.toNat with
  | 0xC0 => form f fnZ decBare (fun _ => xCode (fun c => c < 64)) (fun _ h c => .launch h.pm c)
  | 0xC1 => form f fnTwo decBare (fun _ => xCode (fun _ => true))
      (fun a h c => if a.1 then .invokeH a.2 h.pm c else .invokeQ a.2 h.pm c)
  | 0xC2 => form f fnZ decBare (fun _ => xGn) (fun _ h _ => .hret h.pm)
  | 0xC3 => form f fnZ decBare (fun _ => xGn) (fun _ h _ => .yield h.pm)
  | 0xC4 => form f fnZ decBare (fun _ => xGn) (fun _ h _ => .fuse h.pm)
  | 0xC5 => form f fnZ decBare (fun _ => xGn) (fun _ h _ => .split h.pm)
  | 0xC6 => form f (fnBelow 6) decHdr (fun _ => xGn) (fun n h _ => .widf n h)
  | 0xC7 => form f fnZ decBare (fun _ => xGn) (fun _ h _ => .wake h.pm)
  | 0xC8 => form f fnZ decBare (fun _ => xGn) (fun _ h _ => .sleep h.pm)
  | 0xD0 => form f fnZ decBare (fun _ => xCode (fun _ => true)) (fun _ h c => .trap h.pm c)
  | 0xD1 => form f fnZ decBare (fun _ => xGn) (fun _ h _ => .eret h.pm)
  | 0xD2 => form f fnZ decHdr (fun _ => xCode (fun c => mfsrAccess c != .none)) (fun _ h c => .mfsr h c)
  | 0xD3 => form f fnZ decBare (fun _ => xCode (fun c => mtsrAccess c != .none)) (fun _ h c => .mtsr h.pm c)
  | 0xD4 => form f (fnBelow 3) decBare (fun _ => xGn) (fun n h _ => tlbinvOf n h.pm)
  | 0xD5 => form f fnZ decBare (fun _ => xGn) (fun _ h _ => .tlbsync h.pm)
  | 0xD6 => form f fnZ decBare (fun _ => xGn) (fun _ h _ => .vcdef h.pm)
  | 0xD7 => form f fnFlag decBare (fun _ => xGn) (fun d h _ => if d then .biasDev h.pm else .biasHost h.pm)
  | 0xD8 => form f fnZ decBare (fun _ => xGn) (fun _ h _ => .namedef h.pm)
  | 0xD9 => form f fnZ decBare (fun _ => xGn) (fun _ h _ => .htdef h.pm)
  | 0xDA => form f fnZ decBare (fun _ => xCode (fun _ => true)) (fun _ h c => .bkpt h.pm c)
  | 0xDB => form f fnZ decBare (fun _ => xPreempt) (fun _ h g => .preempt h.pm g)
  | _ => .error .reservedOp

/-- The decoder on the fields of a word: the group of the opcode, then the form. -/
def decodeFields (f : Fields) : Dec Instr :=
  match f.op.toNat / 16 with
  | 0x0 => decBlock f
  | 0x1 => decInt f
  | 0x2 => decInt f
  | 0x3 => decCmp f
  | 0x4 => decFp f
  | 0x5 => decMem f
  | 0x6 => decMem f
  | 0x7 => decVint f
  | 0x8 => decVint f
  | 0x9 => decVfp f
  | 0xA => decMatEng f
  | 0xB => decMatEng f
  | 0xC => decSys f
  | 0xD => decSys f
  | _ => .error .reservedOp

/-- The decoder: total on every 64-bit word. -/
def decode (w : W64) : Dec Instr := decodeFields (fieldsOf w)

/-! ### Operands named by a raw word (R59) -/

/-- How many operands, in order A, B, C, an opcode has when IB is 0 (Tables 3-1, 5-2, 5-3, 5-5, 6-1, 7-1). -/
def operandCount (op fn : Nat) : Nat :=
  if op = 0x01 then 1
  else if op ≤ 0x04 then 0
  else if op ≤ 0x08 then 1
  else if op = 0x09 then 0
  else if op = 0x0A then 1
  else if op < 0x10 then 0
  else if op = 0x16 then 3
  else if op ≤ 0x20 then 2
  else if op ≤ 0x27 then 1
  else if op = 0x28 then 2
  else if op = 0x29 then 3
  else if op ≤ 0x2B then 1
  else if op = 0x2C then 2
  else if op = 0x2D then 3
  else if op < 0x30 then 0
  else if op ≤ 0x33 then 2
  else if op = 0x34 then 1
  else if op = 0x35 then 3
  else if op ≤ 0x37 then 2
  else if op = 0x38 then 1
  else if op < 0x40 then 0
  else if op ≤ 0x42 then 2
  else if op = 0x43 then 3
  else if op = 0x44 then 2
  else if op = 0x45 then 1
  else if op ≤ 0x48 then 2
  else if op ≤ 0x4E then 1
  else if op = 0x4F then 0
  else if op = 0x50 ∨ op = 0x52 ∨ op = 0x54 ∨ op = 0x56 then 1
  else if op ≤ 0x58 then 2
  else if op = 0x59 then (if fn / 2 % 2 = 1 then 2 else 3)
  else if op = 0x5A then 2
  else if op ≤ 0x5D then 1
  else if op < 0x60 then 0
  else if op ≤ 0x62 then 2
  else if op = 0x63 then 1
  else if op ≤ 0x65 then 3
  else if op = 0x66 then 2
  else if op < 0x70 then 0
  else if op ≤ 0x75 then 2
  else if op = 0x76 then 1
  else if op ≤ 0x79 then 2
  else if op ≤ 0x7C then (if fn = 1 then 1 else 2)
  else if op = 0x7D then 2
  else if op = 0x7E then 3
  else if op = 0x7F then 1
  else if op = 0x80 then (if fn = 1 then 1 else 2)
  else if op = 0x81 then (if fn = 1 then 2 else 3)
  else if op = 0x82 then 2
  else if op = 0x83 then 1
  else if op = 0x84 then 0
  else if op = 0x85 then 3
  else if op < 0x90 then 0
  else if op ≤ 0x92 then 2
  else if op = 0x93 then 3
  else if op ≤ 0x96 then 2
  else if op ≤ 0x99 then 1
  else if op = 0x9A then 2
  else if op ≤ 0x9D then 1
  else if op = 0x9E then (if fn = 1 then 2 else 1)
  else if op = 0x9F then (if fn = 0 then 2 else 1)
  else if op ≤ 0xA2 then 3
  else if op = 0xA3 then 2
  else if op = 0xA4 then 0
  else if op ≤ 0xA6 then 2
  else if op = 0xA7 then 1
  else if op = 0xA8 then 2
  else if op = 0xA9 then 0
  else if op < 0xB0 then 0
  else if op ≤ 0xB4 then 3
  else if op = 0xB5 then 0
  else if op = 0xB6 then 1
  else if op < 0xC0 then 0
  else if op = 0xC0 then 1
  else if op = 0xC1 then 3
  else if op ≤ 0xC5 then 1
  else if op = 0xC6 then 0
  else if op ≤ 0xC8 then 1
  else if op < 0xD0 then 0
  else if op ≤ 0xD3 then 1
  else if op = 0xD4 then (if fn = 0 then 3 else 1)
  else if op = 0xD5 then 1
  else if op = 0xD6 then 3
  else if op = 0xD7 then 2
  else if op ≤ 0xD9 then 3
  else if op = 0xDA then 1
  else if op = 0xDB then 2
  else 0

/-- R59: does the word have operand `k` (0 A, 1 B, 2 C)? With IB = 1 operand B is the immediate (formats G and Gc; MADD and ADDX have no
IB). That a word with a reserved OP has no operand, and one with a reserved FN those of its OP, so that a target naming another operand of
it is malformed, is the model's choice (log entry 68). -/
def Fields.hasOperand (f : Fields) (k : Nat) : Bool :=
  let op := f.op.toNat
  let immB := k = 1 ∧ 0x10 ≤ op ∧ op ≤ 0x31 ∧ op ≠ 0x16 ∧ op ≠ 0x2D ∧ f.x.getLsbD 29
  decide (k < operandCount op f.fn.toNat) && !decide immB

/-! ### The encoder -/

/-- The fields of a form of the instruction word; an event has none. -/
def encodeFields : Instr → Option Fields
  | .mov h => some ⟨0x01, 0, h.pm.code, h.t0.code, h.t1.code, 0⟩
  | .movi s h i => some ⟨0x02, s.code, h.pm.code, h.t0.code, h.t1.code, codeGk i⟩
  | .arg h q => some ⟨0x03, 0, h.pm.code, h.t0.code, h.t1.code, codeArg q⟩
  | .null h => some ⟨0x04, 0, h.pm.code, h.t0.code, h.t1.code, 0⟩
  | .br pm e off => some ⟨0x05, 0, pm.code, 0, 0, codeB e off⟩
  | .bri pm e => some ⟨0x06, 0, pm.code, 0, 0, codeB e 0⟩
  | .call h e off => some ⟨0x07, 0, h.pm.code, h.t0.code, h.t1.code, codeB e off⟩
  | .ret pm e => some ⟨0x08, 0, pm.code, 0, 0, codeB e 0⟩
  | .iter h => some ⟨0x09, 0, h.pm.code, h.t0.code, h.t1.code, 0⟩
  | .halt pm e => some ⟨0x0A, 0, pm.code, 0, 0, codeB e 0⟩
  | .add w n h b => some ⟨0x10, codeIwus w n, h.pm.code, h.t0.code, h.t1.code, codeG b⟩
  | .sub w n h b => some ⟨0x11, codeIwus w n, h.pm.code, h.t0.code, h.t1.code, codeG b⟩
  | .mul w n h b => some ⟨0x12, codeIwus w n, h.pm.code, h.t0.code, h.t1.code, codeG b⟩
  | .mulh w u h b => some ⟨0x13, codeIwu w u, h.pm.code, h.t0.code, h.t1.code, codeG b⟩
  | .div w u h b => some ⟨0x14, codeIwu w u, h.pm.code, h.t0.code, h.t1.code, codeG b⟩
  | .rem w u h b => some ⟨0x15, codeIwu w u, h.pm.code, h.t0.code, h.t1.code, codeG b⟩
  | .madd w n h => some ⟨0x16, codeIwus w n, h.pm.code, h.t0.code, h.t1.code, 0⟩
  | .and w h b => some ⟨0x17, w.code, h.pm.code, h.t0.code, h.t1.code, codeG b⟩
  | .or w h b => some ⟨0x18, w.code, h.pm.code, h.t0.code, h.t1.code, codeG b⟩
  | .xor w h b => some ⟨0x19, w.code, h.pm.code, h.t0.code, h.t1.code, codeG b⟩
  | .andn w h b => some ⟨0x1A, w.code, h.pm.code, h.t0.code, h.t1.code, codeG b⟩
  | .shl w h b => some ⟨0x1B, w.code, h.pm.code, h.t0.code, h.t1.code, codeG b⟩
  | .shr w h b => some ⟨0x1C, w.code, h.pm.code, h.t0.code, h.t1.code, codeG b⟩
  | .sra w h b => some ⟨0x1D, w.code, h.pm.code, h.t0.code, h.t1.code, codeG b⟩
  | .rotl w h b => some ⟨0x1E, w.code, h.pm.code, h.t0.code, h.t1.code, codeG b⟩
  | .min w u h b => some ⟨0x1F, codeIwu w u, h.pm.code, h.t0.code, h.t1.code, codeG b⟩
  | .max w u h b => some ⟨0x20, codeIwu w u, h.pm.code, h.t0.code, h.t1.code, codeG b⟩
  | .abs w s h => some ⟨0x21, codeIws w s, h.pm.code, h.t0.code, h.t1.code, 0⟩
  | .neg w s h => some ⟨0x22, codeIws w s, h.pm.code, h.t0.code, h.t1.code, 0⟩
  | .clz w h => some ⟨0x23, w.code, h.pm.code, h.t0.code, h.t1.code, 0⟩
  | .ctz w h => some ⟨0x24, w.code, h.pm.code, h.t0.code, h.t1.code, 0⟩
  | .popc w h => some ⟨0x25, w.code, h.pm.code, h.t0.code, h.t1.code, 0⟩
  | .brev w h => some ⟨0x26, w.code, h.pm.code, h.t0.code, h.t1.code, 0⟩
  | .bswap w h => some ⟨0x27, w.code, h.pm.code, h.t0.code, h.t1.code, 0⟩
  | .extr w u h b => some ⟨0x28, codeIwu w u, h.pm.code, h.t0.code, h.t1.code, codeG b⟩
  | .insb w h b => some ⟨0x29, w.code, h.pm.code, h.t0.code, h.t1.code, codeG b⟩
  | .sext w h => some ⟨0x2A, w.code, h.pm.code, h.t0.code, h.t1.code, 0⟩
  | .zext w h => some ⟨0x2B, w.code, h.pm.code, h.t0.code, h.t1.code, 0⟩
  | .lea s h b => some ⟨0x2C, (0 : BitVec 2) ++ s, h.pm.code, h.t0.code, h.t1.code, codeG b⟩
  | .addx w h => some ⟨0x2D, w.code, h.pm.code, h.t0.code, h.t1.code, 0⟩
  | .cmp c h w b => some ⟨0x30, c.code, h.pm.code, h.t0.code, h.t1.code, codeGc w b⟩
  | .tstb c h b => some ⟨0x31, codeFlag c, h.pm.code, h.t0.code, h.t1.code, codeG b⟩
  | .pand a b h => some ⟨0x32, codeTwo a b, h.pm.code, h.t0.code, h.t1.code, 0⟩
  | .por a b h => some ⟨0x33, codeTwo a b, h.pm.code, h.t0.code, h.t1.code, 0⟩
  | .pnot h => some ⟨0x34, 0, h.pm.code, h.t0.code, h.t1.code, 0⟩
  | .sel h => some ⟨0x35, 0, h.pm.code, h.t0.code, h.t1.code, 0⟩
  | .steer h => some ⟨0x36, 0, h.pm.code, h.t0.code, h.t1.code, 0⟩
  | .merge t0 t1 => some ⟨0x37, 0, 0, t0.code, t1.code, 0⟩
  | .pget h => some ⟨0x38, 0, h.pm.code, h.t0.code, h.t1.code, 0⟩
  | .fadd f h => some ⟨0x40, f.code, h.pm.code, h.t0.code, h.t1.code, 0⟩
  | .fsub f h => some ⟨0x41, f.code, h.pm.code, h.t0.code, h.t1.code, 0⟩
  | .fmul f h => some ⟨0x42, f.code, h.pm.code, h.t0.code, h.t1.code, 0⟩
  | .ffma f h => some ⟨0x43, f.code, h.pm.code, h.t0.code, h.t1.code, 0⟩
  | .fdiv f h => some ⟨0x44, f.code, h.pm.code, h.t0.code, h.t1.code, 0⟩
  | .fsqrt f h => some ⟨0x45, f.code, h.pm.code, h.t0.code, h.t1.code, 0⟩
  | .fmin d h => some ⟨0x46, codeFd d, h.pm.code, h.t0.code, h.t1.code, 0⟩
  | .fmax d h => some ⟨0x47, codeFd d, h.pm.code, h.t0.code, h.t1.code, 0⟩
  | .fcmp d c h => some ⟨0x48, BitVec.ofBool d ++ c.code, h.pm.code, h.t0.code, h.t1.code, 0⟩
  | .fcvt f h => some ⟨0x49, f.code, h.pm.code, h.t0.code, h.t1.code, 0⟩
  | .fcvti f h i u => some ⟨0x4A, f.code, h.pm.code, h.t0.code, h.t1.code, codeGf i u⟩
  | .icvtf f h i u => some ⟨0x4B, f.code, h.pm.code, h.t0.code, h.t1.code, codeGf i u⟩
  | .fabs d h => some ⟨0x4C, codeFd d, h.pm.code, h.t0.code, h.t1.code, 0⟩
  | .fneg d h => some ⟨0x4D, codeFd d, h.pm.code, h.t0.code, h.t1.code, 0⟩
  | .fclass d h => some ⟨0x4E, codeFd d, h.pm.code, h.t0.code, h.t1.code, 0⟩
  | .ld s h l o off => some ⟨0x50, s.code, h.pm.code, h.t0.code, h.t1.code, codeM l o off⟩
  | .st s pm l o off => some ⟨0x51, s.code, pm.code, 0, 0, codeM l o off⟩
  | .ldw s h l o off => some ⟨0x52, s.code, h.pm.code, h.t0.code, h.t1.code, codeM l o off⟩
  | .stw s pm l o off => some ⟨0x53, s.code, pm.code, 0, 0, codeM l o off⟩
  | .lds s h l off => some ⟨0x54, s.code, h.pm.code, h.t0.code, h.t1.code, codeM l .plain off⟩
  | .sts s pm l off => some ⟨0x55, s.code, pm.code, 0, 0, codeM l .plain off⟩
  | .ldsw s h l off => some ⟨0x56, s.code, h.pm.code, h.t0.code, h.t1.code, codeM l .plain off⟩
  | .stsw s pm l off => some ⟨0x57, s.code, pm.code, 0, 0, codeM l .plain off⟩
  | .atom w op h l o off => some ⟨0x58, codeAtom w op, h.pm.code, h.t0.code, h.t1.code, codeM l o off⟩
  | .cas w x h l o off => some ⟨0x59, codeIwu w x, h.pm.code, h.t0.code, h.t1.code, codeM l o off⟩
  | .fatom d op h l o off => some ⟨0x5A, BitVec.ofBool d ++ op.code, h.pm.code, h.t0.code, h.t1.code, codeM l o off⟩
  | .pref k pm l off => some ⟨0x5B, k.code, pm.code, 0, 0, codeM l .plain off⟩
  | .fence k pm l s => some ⟨0x5C, k.code, pm.code, 0, 0, codeFence l s⟩
  | .clineClean pm l off => some ⟨0x5D, 0, pm.code, 0, 0, codeM l .plain off⟩
  | .clineInval pm l off => some ⟨0x5D, 1, pm.code, 0, 0, codeM l .plain off⟩
  | .clineFlush pm l off => some ⟨0x5D, 2, pm.code, 0, 0, codeM l .plain off⟩
  | .clineZero pm l off => some ⟨0x5D, 3, pm.code, 0, 0, codeM l .plain off⟩
  | .clineReclaim pm l off => some ⟨0x5D, 4, pm.code, 0, 0, codeM l .plain off⟩
  | .sarm pm l o off => some ⟨0x60, 0, pm.code, 0, 0, codeM l o off⟩
  | .swait t h l o off => some ⟨0x61, codeFlag t, h.pm.code, h.t0.code, h.t1.code, codeM l o off⟩
  | .sadd pm l o off => some ⟨0x62, 0, pm.code, 0, 0, codeM l o off⟩
  | .sread k h l o off => some ⟨0x63, k.code, h.pm.code, h.t0.code, h.t1.code, codeM l o off⟩
  | .want s pm l life g => some ⟨0x64, codeFlag s, pm.code, 0, 0, codeWn l life g 0⟩
  | .offer s (.byCount n) pm l => some ⟨0x65, codeTwo s false, pm.code, 0, 0, codeWn l 0 0 n⟩
  | .offer s (.byLife n) pm l => some ⟨0x65, codeTwo s true, pm.code, 0, 0, codeWn l n 0 0⟩
  | .wdrop pm l => some ⟨0x66, 0, pm.code, 0, 0, codeWn l 0 0 0⟩
  | .vadd h t n => some ⟨0x70, 0, h.pm.code, h.t0.code, h.t1.code, codeWvArith t n⟩
  | .vsub h t n => some ⟨0x71, 0, h.pm.code, h.t0.code, h.t1.code, codeWvArith t n⟩
  | .vmul h t n => some ⟨0x72, 0, h.pm.code, h.t0.code, h.t1.code, codeWvArith t n⟩
  | .vmulh h t u => some ⟨0x73, 0, h.pm.code, h.t0.code, h.t1.code, codeWv ⟨t.code, 0, 0, 0, BitVec.ofBool u, 0, 0⟩⟩
  | .vmin h t u => some ⟨0x74, 0, h.pm.code, h.t0.code, h.t1.code, codeWv ⟨t.code, 0, 0, 0, BitVec.ofBool u, 0, 0⟩⟩
  | .vmax h t u => some ⟨0x75, 0, h.pm.code, h.t0.code, h.t1.code, codeWv ⟨t.code, 0, 0, 0, BitVec.ofBool u, 0, 0⟩⟩
  | .vabs h t s => some ⟨0x76, 0, h.pm.code, h.t0.code, h.t1.code, codeWv ⟨t.code, 0, 0, BitVec.ofBool s, 0, 0, 0⟩⟩
  | .vand h t => some ⟨0x77, 0, h.pm.code, h.t0.code, h.t1.code, codeWvT t⟩
  | .vor h t => some ⟨0x78, 0, h.pm.code, h.t0.code, h.t1.code, codeWvT t⟩
  | .vxor h t => some ⟨0x79, 0, h.pm.code, h.t0.code, h.t1.code, codeWvT t⟩
  | .vshl h t c => some ⟨0x7A, codeFlag c.isSome, h.pm.code, h.t0.code, h.t1.code, codeWvLane t c⟩
  | .vshr h t c => some ⟨0x7B, codeFlag c.isSome, h.pm.code, h.t0.code, h.t1.code, codeWvLane t c⟩
  | .vsra h t c => some ⟨0x7C, codeFlag c.isSome, h.pm.code, h.t0.code, h.t1.code, codeWvLane t c⟩
  | .vcmp c h t => some ⟨0x7D, c.code, h.pm.code, h.t0.code, h.t1.code, codeWvT t⟩
  | .vsel h => some ⟨0x7E, 0, h.pm.code, h.t0.code, h.t1.code, codeWvT .i8⟩
  | .vrep h t => some ⟨0x7F, 0, h.pm.code, h.t0.code, h.t1.code, codeWvT t⟩
  | .vext h t u c => some ⟨0x80, codeFlag c.isSome, h.pm.code, h.t0.code, h.t1.code,
      codeWv ⟨t.code, 0, 0, 0, BitVec.ofBool u, c.getD 0, 0⟩⟩
  | .vins h t c => some ⟨0x81, codeFlag c.isSome, h.pm.code, h.t0.code, h.t1.code, codeWvLane t c⟩
  | .vperm h t => some ⟨0x82, 0, h.pm.code, h.t0.code, h.t1.code, codeWvT t⟩
  | .vredi op h t u => some ⟨0x83, op.code, h.pm.code, h.t0.code, h.t1.code, codeWv ⟨t.code, 0, 0, 0, BitVec.ofBool u, 0, 0⟩⟩
  | .viota h t imm => some ⟨0x84, 0, h.pm.code, h.t0.code, h.t1.code, codeWv ⟨t.code, 0, 0, 0, 0, 0, imm⟩⟩
  | .vdp4 sg h s => some ⟨0x85, sg.code, h.pm.code, h.t0.code, h.t1.code, codeWv ⟨ETy.i32.code, 0, 0, BitVec.ofBool s, 0, 0, 0⟩⟩
  | .vfadd h t r sc => some ⟨0x90, 0, h.pm.code, h.t0.code, h.t1.code, codeWvRc t r sc⟩
  | .vfsub h t r sc => some ⟨0x91, 0, h.pm.code, h.t0.code, h.t1.code, codeWvRc t r sc⟩
  | .vfmul h t r sc => some ⟨0x92, 0, h.pm.code, h.t0.code, h.t1.code, codeWvRc t r sc⟩
  | .vffma h t r sc => some ⟨0x93, 0, h.pm.code, h.t0.code, h.t1.code, codeWvRc t r sc⟩
  | .vfmin h t sc => some ⟨0x94, 0, h.pm.code, h.t0.code, h.t1.code, codeWvRc t .fpcsr sc⟩
  | .vfmax h t sc => some ⟨0x95, 0, h.pm.code, h.t0.code, h.t1.code, codeWvRc t .fpcsr sc⟩
  | .vfdiv h r sc => some ⟨0x96, 0, h.pm.code, h.t0.code, h.t1.code, codeWvRc .fp32 r sc⟩
  | .vfsqrt h r sc => some ⟨0x97, 0, h.pm.code, h.t0.code, h.t1.code, codeWvRc .fp32 r sc⟩
  | .vfrsq h r sc => some ⟨0x98, 0, h.pm.code, h.t0.code, h.t1.code, codeWvRc .fp32 r sc⟩
  | .vfexp2 h r sc => some ⟨0x99, 0, h.pm.code, h.t0.code, h.t1.code, codeWvRc .fp32 r sc⟩
  | .vfcmp c h t sc => some ⟨0x9A, (0 : BitVec 1) ++ c.code, h.pm.code, h.t0.code, h.t1.code, codeWvRc t .fpcsr sc⟩
  | .vfcvt h d s r sc sat u p => some ⟨0x9B, 0, h.pm.code, h.t0.code, h.t1.code,
      codeWv ⟨d.code, r.code, BitVec.ofBool sc, BitVec.ofBool sat, BitVec.ofBool u, (0 : BitVec 3) ++ s.code,
        (0 : BitVec 11) ++ p⟩⟩
  | .vfreda h t r sc => some ⟨0x9C, 0, h.pm.code, h.t0.code, h.t1.code, codeWvRc t r sc⟩
  | .vfredm m h t sc => some ⟨0x9D, codeFlag m, h.pm.code, h.t0.code, h.t1.code, codeWvRc t .fpcsr sc⟩
  | .vscaleImm h t imm => some ⟨0x9E, 0, h.pm.code, h.t0.code, h.t1.code, codeWv ⟨t.code, 0, 0, 0, 0, 0, imm⟩⟩
  | .vscaleReg h t => some ⟨0x9E, 1, h.pm.code, h.t0.code, h.t1.code, codeWvT t⟩
  | .vscaleClear h t r sat => some ⟨0x9E, 2, h.pm.code, h.t0.code, h.t1.code,
      codeWv ⟨t.code, r.code, 0, BitVec.ofBool sat, 0, 0, 0⟩⟩
  | .vpackPack h d s r sc sat u => some ⟨0x9F, 0, h.pm.code, h.t0.code, h.t1.code,
      codeWv ⟨d.code, r.code, BitVec.ofBool sc, BitVec.ofBool sat, BitVec.ofBool u, (0 : BitVec 3) ++ s.code, 0⟩⟩
  | .vpackUnpack h d s sc u half => some ⟨0x9F, 1, h.pm.code, h.t0.code, h.t1.code,
      codeWv ⟨d.code, 0, BitVec.ofBool sc, 0, BitVec.ofBool u, (0 : BitVec 3) ++ s.code, (0 : BitVec 12) ++ BitVec.ofBool half⟩⟩
  | .mma ga gb h x => some ⟨0xA0, codeTwo ga gb, h.pm.code, h.t0.code, h.t1.code, codeMm x⟩
  | .mmar rb h x => some ⟨0xA1, codeFlag rb, h.pm.code, h.t0.code, h.t1.code, codeMm x⟩
  | .mmac g h x => some ⟨0xA2, codeFlag g, h.pm.code, h.t0.code, h.t1.code, codeMm x⟩
  | .accset i h acc mc nc span => some ⟨0xA3, codeFlag i, h.pm.code, h.t0.code, h.t1.code,
      codeWm ⟨acc, mc, nc, 0, 0, BitVec.ofBool span, 0, 0, 0, 0⟩⟩
  | .accz h acc ctx => some ⟨0xA4, 0, h.pm.code, h.t0.code, h.t1.code, codeAcc acc ctx⟩
  | .accld s h acc ctx => some ⟨0xA5, codeFlag s, h.pm.code, h.t0.code, h.t1.code, codeAcc acc ctx⟩
  | .accst s h acc ctx => some ⟨0xA6, codeFlag s, h.pm.code, h.t0.code, h.t1.code, codeAcc acc ctx⟩
  | .accrd h acc => some ⟨0xA7, 0, h.pm.code, h.t0.code, h.t1.code, codeAcc acc 0⟩
  | .accwr h acc ctx => some ⟨0xA8, 0, h.pm.code, h.t0.code, h.t1.code, codeAcc acc ctx⟩
  | .mwait all h ctx => some ⟨0xA9, codeFlag all, h.pm.code, h.t0.code, h.t1.code, codeAcc 0 ctx⟩
  | .copy k h g => some ⟨0xB0, k.code, h.pm.code, h.t0.code, h.t1.code, codeWe 0 g 0⟩
  | .gather i s h => some ⟨0xB1, codeTwo i s, h.pm.code, h.t0.code, h.t1.code, 0⟩
  | .scatter i s h => some ⟨0xB2, codeTwo i s, h.pm.code, h.t0.code, h.t1.code, 0⟩
  | .strin h p d => some ⟨0xB3, 0, h.pm.code, h.t0.code, h.t1.code, codeWe p 0 d⟩
  | .strout h p d => some ⟨0xB4, 0, h.pm.code, h.t0.code, h.t1.code, codeWe p 0 d⟩
  | .srecv h p => some ⟨0xB5, 0, h.pm.code, h.t0.code, h.t1.code, codeWe p 0 0⟩
  | .ssend h p => some ⟨0xB6, 0, h.pm.code, h.t0.code, h.t1.code, codeWe p 0 0⟩
  | .cwait h => some ⟨0xB7, 0, h.pm.code, h.t0.code, h.t1.code, 0⟩
  | .launch pm q => some ⟨0xC0, 0, pm.code, 0, 0, codeS q⟩
  | .invokeQ t pm c => some ⟨0xC1, codeTwo false t, pm.code, 0, 0, codeS c⟩
  | .invokeH t pm c => some ⟨0xC1, codeTwo true t, pm.code, 0, 0, codeS c⟩
  | .hret pm => some ⟨0xC2, 0, pm.code, 0, 0, 0⟩
  | .yield pm => some ⟨0xC3, 0, pm.code, 0, 0, 0⟩
  | .fuse pm => some ⟨0xC4, 0, pm.code, 0, 0, 0⟩
  | .split pm => some ⟨0xC5, 0, pm.code, 0, 0, 0⟩
  | .widf n h => some ⟨0xC6, n, h.pm.code, h.t0.code, h.t1.code, 0⟩
  | .wake pm => some ⟨0xC7, 0, pm.code, 0, 0, 0⟩
  | .sleep pm => some ⟨0xC8, 0, pm.code, 0, 0, 0⟩
  | .trap pm n => some ⟨0xD0, 0, pm.code, 0, 0, codeS n⟩
  | .eret pm => some ⟨0xD1, 0, pm.code, 0, 0, 0⟩
  | .mfsr h c => some ⟨0xD2, 0, h.pm.code, h.t0.code, h.t1.code, codeS c⟩
  | .mtsr pm c => some ⟨0xD3, 0, pm.code, 0, 0, codeS c⟩
  | .tlbinvVa pm => some ⟨0xD4, 0, pm.code, 0, 0, 0⟩
  | .tlbinvAsid pm => some ⟨0xD4, 1, pm.code, 0, 0, 0⟩
  | .tlbinvAll pm => some ⟨0xD4, 2, pm.code, 0, 0, 0⟩
  | .tlbsync pm => some ⟨0xD5, 0, pm.code, 0, 0, 0⟩
  | .vcdef pm => some ⟨0xD6, 0, pm.code, 0, 0, 0⟩
  | .biasHost pm => some ⟨0xD7, 0, pm.code, 0, 0, 0⟩
  | .biasDev pm => some ⟨0xD7, 1, pm.code, 0, 0, 0⟩
  | .namedef pm => some ⟨0xD8, 0, pm.code, 0, 0, 0⟩
  | .htdef pm => some ⟨0xD9, 0, pm.code, 0, 0, 0⟩
  | .bkpt pm n => some ⟨0xDA, 0, pm.code, 0, 0, codeS n⟩
  | .preempt pm g => some ⟨0xDB, 0, pm.code, 0, 0, (0 : BitVec 17) ++ BitVec.ofBool g ++ (0 : BitVec 12)⟩
  | _ => none

/-- The word of a form of the instruction word; none for an event. -/
def encode (i : Instr) : Option W64 := (encodeFields i).map wordOf

/-- The form that the decoder reads from an instruction word of at most 64 bits, its bits numbered from the least
significant bit of the word (R10); none where it rejects the word, and none above 64 bits: no form is longer (R60). -/
def decodeTableWord (nbits w : Nat) : Option Instr :=
  if nbits ≤ 64 then (decode (BitVec.ofNat 64 w)).toOption else none

end Sys2Proof
end

