-- ==== Sys2Proof/Machine/State.lean ====
section
/-! DEFINITION. The state of the machine as plain data: threads and their blocks (01), groups, grids, clusters, dies, the
memories and their coherence (08 to 10, 14), the named-data network (13), the queues (11), the debug units (15), the links
(14) and the platform (18); the reasons for which a step can stop; and the machine right after cold reset (18 R437). -/

namespace Sys2Proof.Machine

/-- Why the machine stops. -/
inductive Fault where
  /-- Raised by a form of the instruction word when no entry of a block is being fired, or its thread, block or entry does
  not exist: the state is not one that a step fires from. Safe: nothing is claimed of such a state. -/
  | noEntry
  /-- Raised by a form when an operand it has, or its predicate, has not arrived (R74): it cannot fire yet. Safe. -/
  | notReady
  /-- Raised by an event that names a thread, block, command, walk, entry, port or other record that does not exist: the
  event cannot happen in that state. Safe. -/
  | noSuch
  deriving DecidableEq, Repr

/-- Why an instruction has no meaning here. -/
inductive Refusal where
  /-- Raised by the dispatcher for an instruction whose meaning is not written. Safe. -/
  | notModelled (mnemonic : String)
  deriving DecidableEq, Repr

/-- Numbered data: pairs of a number and a value, numbers strictly rising. -/
abbrev Table (α : Type) := List (Nat × α)

/-- Byte memory: (address, byte) pairs in canonical form, an unlisted address reading zero. -/
abbrev Memory := List Host.Cell

/-! ### Tokens, faults and blocks -/

/-- A wide token or register (R138): data, scale tag and scale exponent. -/
structure Wide where
  data : WideBits
  t : Bool
  e : BitVec 8
  deriving DecidableEq, Repr

/-- A token (R57). -/
inductive Token where
  | narrow (v : W64)
  | wide (w : Wide)
  | pred (b : Bool)
  | null
  deriving DecidableEq, Repr

/-- The causes of Table 7-13. -/
inductive Cause where
  | illegalWord | placement | priv | exitError | tokenOverrun | residue | badState
  | align | pageFault | prot | imageTag | vcFault | poison | rangeLock | timeout
  | scaleTag | matrixOperand | engineOperand | fpTrap
  | neverProduced | syncOverrun | syncError | invokeReject
  | watch | brk | trap
  deriving DecidableEq, Repr

/-- A trap as it is reported (Tables 7-11 to 7-13), but for the values fixed at entry. -/
structure Trap where
  cause : Cause
  tval : W64
  tinfo : W64
  deriving DecidableEq, Repr

/-- Which failure of a block is taken first (R243). -/
inductive Rank where
  | map | fire | matrix | fp | exitQ | commit
  deriving DecidableEq, Repr

/-- A failure held by a block (R32). -/
structure Held where
  rank : Rank
  idx : Nat
  trap : Trap
  deriving DecidableEq, Repr

/-- States of Table 1-4 between which a block moves; COMMIT and DISCARD are steps. -/
inductive BState where
  | fetch | map | fire | complete
  deriving DecidableEq, Repr

/-- Where an entry of a block stands. -/
inductive EState where
  /-- not fired -/
  | idle
  /-- fired, its result awaited -/
  | waiting
  /-- fired, its result delivered -/
  | fired
  /-- absorbed a predicate that does not match (R61) -/
  | absorbed
  deriving DecidableEq, Repr

/-- One entry of a node: the instruction word, its operand buffers and predicate input, and the times of its first and last
input (R411). -/
structure Entry where
  word : W64
  a : Option Token
  b : Option Token
  c : Option Token
  p : Option Bool
  st : EState
  first : Nat
  last : Nat
  deriving DecidableEq, Repr

/-- An entry of the read table (Table 2-3) and whether it has delivered. -/
structure ReadEnt where
  reg : BitVec 7
  t0 : Target
  t1 : Target
  done : Bool
  deriving DecidableEq, Repr

/-- A write slot (Table 2-4): its register, the token it holds, and whether the register awaits an atomic (R188). -/
structure WSlot where
  reg : BitVec 7
  tok : Option Token
  atomic : Bool
  deriving DecidableEq, Repr

/-- A leaf entry's attributes as a translation carries them (Table 10-4, R296). -/
structure Leaf where
  img : BitVec 6
  vc : BitVec 6
  cmode : BitVec 2
  g : Bool
  u : Bool
  x : Bool
  w : Bool
  r : Bool
  d : Bool
  deriving DecidableEq, Repr

/-- A piece of an access (R252): the global physical address of its first byte, its length, and its leaf. -/
structure Piece where
  pa : Nat
  len : Nat
  leaf : Leaf
  deriving DecidableEq, Repr

/-- Where an access goes. -/
inductive Space where
  | mem | spad
  deriving DecidableEq, Repr

/-- An access of a block that has passed its checks (R179, R181): a performed load, or a store-class access not yet
released; `srcs` are the drain units of sibling slots from which a load took bytes (R257). -/
structure Access where
  idx : Nat
  lsid : Nat
  store : Bool
  space : Space
  va : W64
  len : Nat
  pieces : List Piece
  data : List Byte
  srcs : List Nat
  deriving DecidableEq, Repr

/-- An effect that waits for the commit (R33): the form, its operands, the bytes of a record read at firing (R221), its sync
word, and what its address translated to. -/
structure Effect where
  idx : Nat
  ins : Instr
  a : Option Token
  b : Option Token
  c : Option Token
  bytes : List Byte
  loc : Option WLoc
  pieces : List Piece
  deriving DecidableEq, Repr

/-- An exit that fired (R86): its address, and whether it is HALT's. -/
structure FiredExit where
  idx : Nat
  addr : W64
  halt : Bool
  deriving DecidableEq, Repr

/-- How an LSID was resolved (R179). -/
inductive Resolved where
  | performed | nulled | predicatedOut
  deriving DecidableEq, Repr

/-- A block in flight, or one iteration of a resident block: `img` is the tag of the page of its header, `page2` the first byte
of its image on a second page with that page's tag; `later` says that a self-exit of the block started the iteration, `left` is the
lowest instruction that still holds a token of an earlier iteration (R48), `marked` that no watchpoint matches it (R407), `pred`
the successor that was predicted as its words came, `asked` that a successor has been requested (R341, R342), and `reserved` that the
reservations of its commit were made by the end of the last clk (R343, R409). -/
structure Block where
  seq : Nat
  addr : W64
  ic : BitVec 32
  pos : Nat
  state : BState
  image : List W64
  img : BitVec 6
  page2 : Option (W64 × BitVec 6)
  resident : Bool
  later : Bool
  left : Option Nat
  reads : List ReadEnt
  writes : List WSlot
  entries : List Entry
  exit : Option FiredExit
  held : List Held
  accs : List Access
  effs : List Effect
  lsids : List (Nat × Resolved)
  flags : BitVec 5
  fp : Option (BitVec 3)
  quiesced : Bool
  marked : Bool
  pred : Option W64
  asked : Bool
  reserved : Bool
  deriving DecidableEq, Repr

/-! ### Threads and groups -/

/-- The format of an accumulator region (R161). -/
inductive AccFmt where
  | f32 | i32
  deriving DecidableEq, Repr

/-- A bound handle (R161). -/
structure Handle where
  off : Nat
  mc : BitVec 3
  nc : BitVec 5
  fmt : AccFmt
  span : Bool
  sync : W64
  deriving DecidableEq, Repr

/-- The address space, the mode and the image that the forms of a block act for, as they stood before its commit (R26, R301), and the
time of the commit in ninths of a nanosecond (R364). -/
structure Sender where
  asid : BitVec 16
  ptbase : W64
  sup : Bool
  img : BitVec 6
  time : Nat
  deriving DecidableEq, Repr

/-- A stream pattern as it was bound (R221), by the resident block at `owner`, with which the binding ends (R224); `who` is the address
space for which an element was committed (R301), in a pattern that goes with a committed element. -/
structure Pattern where
  owner : W64
  base : W64
  recOff : W64
  ctl : W64
  dims : List (W64 × BitVec 32)
  who : Option Sender
  deriving DecidableEq, Repr

/-- An element in an input FIFO: its bytes, or the failure of its prefetch (R222). -/
inductive Elem where
  | ok (w : WideBits)
  | failed (c : Cause) (tval : W64)
  deriving DecidableEq, Repr

/-- An input stream port (R221, R222): the pattern, the next point to prefetch, the FIFO, the elements that uncommitted
iterations have taken, whether prefetching stopped at a failed element, the number of its binding, and its pager slot. -/
structure InPort where
  pat : Option Pattern
  pos : Nat
  fifo : List Elem
  taken : List (BitVec 32 × Elem)
  stopped : Bool
  order : Nat
  fslot : Option Nat
  firstPost : Option Nat
  deriving DecidableEq, Repr

/-- An output stream port (R221, R223): the pattern, the next point, uncommitted elements, committed elements not yet
written with their pattern, a binding that waits for them, the number of its binding, the write of the oldest one that awaits its homes
(its number and its bytes there), and its pager slot. -/
structure OutPort where
  pat : Option Pattern
  next : Nat
  pend : List (BitVec 32 × Nat × WideBits)
  out : List (Pattern × Nat × WideBits)
  waiting : Option Pattern
  order : Nat
  landing : Option (Nat × Nat)
  fslot : Option Nat
  firstPost : Option Nat
  deriving DecidableEq, Repr

/-- A message in the handler message queue (R229). -/
structure HMsg where
  code : W64
  a0 : W64
  a1 : W64
  sender : Nat
  deriving DecidableEq, Repr

/-- An asynchronous latch (R245). -/
structure Latch where
  set : Bool
  tval : W64
  more : Bool
  deriving DecidableEq, Repr

/-- The record of a committed matrix command that no MWAIT has covered (R173). -/
structure MRec where
  id : Nat
  ctx : Nat
  done : Bool
  err : Nat
  flags : BitVec 5
  deriving DecidableEq, Repr

/-- The record of a committed copy-engine command that no CWAIT has covered (R220). -/
structure CRec where
  id : Nat
  done : Bool
  err : Nat
  ostat : Nat
  deriving DecidableEq, Repr

/-- What a commit leaves to be released later: a fence whose condition is awaited (R190, R262), a scratchpad store or other
effect that stands behind one, or a packet that awaits the thread's older stores (R227, R234, R269). -/
inductive TailItem where
  | fence (kind : FenceKind) (scope : Scope)
  | spad (a : Access)
  | eff (e : Effect)
  deriving DecidableEq, Repr

/-- An item that a commit left, with its place among the drain units and in program order. -/
structure Tail where
  order : Nat
  seq : Nat
  ic : BitVec 32
  lsid : Nat
  sender : Sender
  item : TailItem
  deriving DecidableEq, Repr

/-- Registers of a thread (Table 1-1). -/
structure Regs where
  g : List W64
  v : List Wide
  p : List Bool
  h : List (Option Handle)
  deriving DecidableEq, Repr

/-- System registers of a thread (Table 1-3), the fields of STATUS among them; STATUS.ASYNC is derived from the latches. -/
structure SysRegs where
  mode : Bool
  img : BitVec 6
  fused : Bool
  fuseFail : Bool
  resid : Bool
  handler : Bool
  fpcsr : BitVec 32
  tvec : W64
  tpc : W64
  tcause : W64
  tval : W64
  tinfo : W64
  invst : W64
  hpc : W64
  hg1 : W64
  hg2 : W64
  hic : BitVec 32
  wid : W64
  ptbase : W64
  asid : BitVec 16
  partw : BitVec 32
  perf : List (BitVec 48)
  dbg : List W64
  deriving DecidableEq, Repr

/-- A write of a group register by another member that a thread does not see yet (R23): the register, its value before, the clk from which
it may be seen, the clk of the moment at which this member sees it, the writer, the sync words that the writer has operated on since, and
whether the thread is bound to see it. -/
structure QPend where
  reg : Nat
  old : W64
  due : Nat
  seen : Nat
  writer : Nat
  words : List WLoc
  must : Bool
  deriving DecidableEq, Repr

/-- A thread bound to a slot; `boundary` says that it stands at a block boundary where a handler message waits (R229), or a trap
that its frozen grid holds back (R409): an asynchronous one, or the post-commit trap and address of `postTrap`. `first` is CODE and IMG of
its launch record until the first block has committed (R328). `frameWait` is the clk since which the thread waits for a
frame of the pool (R37). `icDue` are the blocks that exits entered when their headers could not be read: if such a block is resident, IC is
0 as it is mapped (R85); `hicDue` are those of the thread that a handler message interrupted (R229). `perfDue` are the events of the clk
that PERF counters have still to count (R354). `acquired` is the time of its latest acquire (R186, R267). -/
structure Thread where
  pc : W64
  ic : BitVec 32
  regs : Regs
  sys : SysRegs
  inp : List InPort
  outp : List OutPort
  msgs : List HMsg
  asleep : Bool
  wakeLatch : Bool
  sleepUntil : Option Nat
  latPoison : Latch
  latReject : Latch
  blocks : List Block
  shadow : Option Block
  nextSeq : Nat
  nextPos : Nat
  boundary : Bool
  postTrap : Option (Trap × W64)
  dbgMark : Option W64
  frameWait : Option Nat
  icDue : List W64
  hicDue : List W64
  perfDue : List Nat
  tail : List Tail
  sibReads : List Nat
  syncHold : List Nat
  regWait : List (BitVec 7 × Nat)
  mrecs : List MRec
  crecs : List CRec
  qpend : List QPend
  acquired : Nat
  gid : Nat
  tidx : Nat
  widths : List Nat
  first : Option (W64 × BitVec 6)
  ending : Bool
  saving : Bool
  deriving DecidableEq, Repr

/-- A member grid of a group: its number and the pool units it gave the group (R273). -/
structure Member where
  grid : Nat
  regU : List Nat
  spadU : List Nat
  accU : List Nat
  deriving DecidableEq, Repr

/-- A thread group (R29): its registers, its pool units, and what its record gave it. -/
structure Group where
  die : Nat
  cl : Nat
  queue : Nat
  j : Nat
  n : Nat
  members : List Member
  q : List W64
  save : W64
  donew : W64
  partw : BitVec 32
  level : Nat
  base : Nat
  asid : BitVec 16
  ptbase : W64
  widths : List Nat
  live : List Nat
  saved : List Nat
  started : Bool
  accDefined : List (Nat × Nat)
  deriving DecidableEq, Repr

/-! ### Grids and clusters -/

/-- One operation in a store buffer (R254): a plain store, an atomic, a sync-word operation or a line operation. -/
inductive DrainOp where
  | store
  | zeroLine
  | atomic (w : Width) (op : AtomOp) (b : W64)
  | cas (w : Width) (xchg : Bool) (b c : W64)
  | fatom (d : Bool) (op : FAtomOp) (b : W64)
  | sarm (ctl : W64)
  | sadd (n : Nat)
  | clean
  | inval
  | flush
  | reclaim
  deriving DecidableEq, Repr

/-- A drain unit: who committed it, what it does, and its pieces with their bytes. -/
structure Unit where
  uid : Nat
  slot : Nat
  seq : Nat
  lsid : Nat
  op : DrainOp
  ord : MOrd
  va : W64
  asid : BitVec 16
  pieces : List Piece
  data : List Byte
  deriving DecidableEq, Repr

/-- A unit that has left its buffer and has not yet been acknowledged by a home outside the die, or an atomic under way. -/
structure Flying where
  u : Unit
  grid : Nat
  performed : Bool
  result : W64
  poisoned : Bool
  deriving DecidableEq, Repr

/-- A matrix command in a context (R169); `quit` says that the pager has given a translation up (R309), `landing` are its flags once its tile is written but for homes that have not answered. -/
structure MCmd where
  id : Nat
  order : Nat
  slot : Nat
  gid : Nat
  ins : Instr
  a : W64
  b : W64
  c : W64
  reg : Option Wide
  handle : Handle
  quarter : Option Nat
  started : Bool
  quit : Bool
  landing : Option (BitVec 5)
  fslot : Option Nat
  firstPost : Option Nat
  asid : BitVec 16
  sup : Bool
  img : BitVec 6
  ptbase : W64
  deriving DecidableEq, Repr

/-- What a copy-engine command does (R215 to R220, R208). -/
inductive CopyOp where
  | copy (k : CopyKind) (gmask : BitVec 4)
  | gather (i64 spad : Bool)
  | scatter (i64 spad : Bool)
  | offer (spad : Bool) (ret : Retention)
  deriving DecidableEq, Repr

/-- Where a copy-engine command stands; `quitting` once the pager has given a translation up (R309), `landing` once its bytes are written but for homes that have not answered: how many, and the code of
the error that ended it. -/
inductive CopyState where
  | queued | running | placing
  | quitting (va : W64) (wr : Bool)
  | landing (n code : Nat)
  deriving DecidableEq, Repr

/-- A copy-engine command. -/
structure CopyCmd where
  id : Nat
  order : Nat
  slot : Nat
  gid : Nat
  op : CopyOp
  a : W64
  b : W64
  c : W64
  st : CopyState
  fslot : Option Nat
  firstPost : Option Nat
  asid : BitVec 16
  sup : Bool
  img : BitVec 6
  ptbase : W64
  deriving DecidableEq, Repr

/-- An entry of a chuck (R351): a range of a space, its kind and its owning command; with a mask the range stands in the partition of each
member grid that the mask names. -/
structure ChuckEnt where
  owner : Nat
  space : Space
  who : Nat
  mask : BitVec 4
  lo : Nat
  len : Nat
  dest : Bool
  deriving DecidableEq, Repr

/-- A cached translation (R305). -/
structure TlbEnt where
  asid : BitVec 16
  va : Nat
  bits : Nat
  dev : Nat
  la : Nat
  leaf : Leaf
  deriving DecidableEq, Repr

/-- Who waits for a walk. -/
inductive WalkFor where
  | access (b : BRef) (idx : Nat)
  | fetch (slot : Nat) (addr : W64)
  | prefetch (slot : Nat) (b : BRef) (idx : Nat)
  | engine (sup : Bool) (img : BitVec 6)
  deriving DecidableEq, Repr

/-- A walk under way (R302, R306); `res` is how the walk of an engine ended, where it found a fault: at which level, and whether the entry is
malformed. -/
structure Walk where
  id : Nat
  cl : Nat
  grid : Nat
  asid : BitVec 16
  ptbase : W64
  va : W64
  store : Bool
  who : WalkFor
  res : Option (Nat × Bool)
  deriving DecidableEq, Repr

/-- Debug state of a grid (R408 to R410); `since` is the clk of its freeze. -/
structure GDbg where
  frozen : Bool
  since : Nat
  slots : BitVec 8
  cause : Nat
  listPos : Nat
  frozenClk : Nat
  deriving DecidableEq, Repr

/-- The next-block predictor of a grid (R341): the exit number last taken, by the hash of a block address and a slot's history; the target
last taken by a BRI; and for each slot of the grid its 12-bit history of exits and its return stack, newest first. -/
structure Predictor where
  exits : Table Nat
  targets : Table W64
  hist : Table (BitVec 12)
  stack : Table (List W64)
  deriving DecidableEq, Repr

/-- A grid. -/
structure Grid where
  sb : List Unit
  credits : Nat
  mx : List (List MCmd)
  tlb : List TlbEnt
  owners : Table (Nat × BitVec 16)
  lastAsid : Table (BitVec 16)
  pred : Predictor
  dbg : GDbg
  deriving DecidableEq, Repr

/-- Power state of a cluster (R443). -/
inductive ClPower where
  | on | retention | gated
  deriving DecidableEq, Repr

/-- A shaving (Table 15-2) but for its time and place, which stand beside it. -/
structure Shaving where
  ty : Nat
  time : Nat
  gslot : Nat
  tag : BitVec 32
  info : BitVec 32
  addr : W64
  value : W64
  deriving DecidableEq, Repr

/-- An entry of a die's walk cache (Table 10-7): the table that the pointer at a level (5 to 2) names, by ASID and index path. -/
structure WcEnt where
  asid : BitVec 16
  lvl : Nat
  path : Nat
  table : Nat
  deriving DecidableEq, Repr

/-- A cluster: copy engine, chuck, cluster TLB, store-wait table, trace buffer, power; `drainBy` is when the wait for the trace buffer before
gating ends (R402). -/
structure Cluster where
  copyQ : List CopyCmd
  chuck : List ChuckEnt
  tlb : List TlbEnt
  storeWait : List (W64 × Nat)
  commits : Nat
  trace : List Shaving
  lossRun : Nat
  power : ClPower
  since : Nat
  drainBy : Option Nat
  deriving DecidableEq, Repr

/-! ### Dies -/

/-- A record accepted into a queue (R312, R314). -/
structure QRec where
  bits : BitVec 512
  args : List W64
  q : List W64
  next : Nat
  pager : Bool
  deriving DecidableEq, Repr

/-- A saved thread: its index in the group, its address space and table, which Table 11-9 does not hold, and the dimensions of its
stream patterns by port (inputs 0 to 3, outputs 0 and 1; an empty list for an unbound port), as they were bound (R221), with the block
that bound them; `first`, `icDue` and `hicDue` as in the thread. -/
structure SavedThread where
  tidx : Nat
  asid : BitVec 16
  ptbase : W64
  ports : List (W64 × List (W64 × BitVec 32))
  first : Option (W64 × BitVec 6)
  icDue : List W64
  hicDue : List W64
  deriving DecidableEq, Repr

/-- A resume item (R331 to R333): of a whole group, or of one thread, which may be fused. -/
structure Resume where
  gid : Nat
  whole : Bool
  fused : Bool
  base : Nat
  level : Nat
  threads : List SavedThread
  deriving DecidableEq, Repr

/-- A resume item that has been placed and is to be restored: its slots by thread. -/
structure Restore where
  die : Nat
  q : Nat
  item : Resume
  slots : List Nat
  deriving DecidableEq, Repr

/-- A work queue (R315): QW0 to QW6 and the counters of QW7, its store, overflow area and resume items, the time of the last selection
from it, when its head became ready, and the head's dependence word once it is translated. -/
structure Queue where
  qw : List W64
  drops : BitVec 16
  errs : BitVec 16
  store : List QRec
  overf : List QRec
  resume : List Resume
  lastSel : Nat
  readyAt : Option Nat
  depLoc : Option WLoc
  deriving DecidableEq, Repr

/-- What the distributor has selected (R324). -/
inductive Sel where
  | group (r : QRec) (j : Nat)
  | resume (r : Resume)
  deriving DecidableEq, Repr

/-- A selection that is not yet bound (R324, R326). -/
structure HeldSel where
  queue : Nat
  sel : Sel
  level : Nat
  base : Nat
  deriving DecidableEq, Repr

/-- State of a virtual cache (Table 9-5). -/
inductive VcState where
  | disabled | active | resizing
  deriving DecidableEq, Repr

/-- A virtual-cache record in force (Tables 9-4, 9-5). -/
structure Vc where
  bmask : BitVec 128
  near : BitVec 128
  gen : BitVec 16
  nbank : BitVec 8
  state : VcState
  repl : BitVec 2
  wpol : BitVec 2
  lsz : BitVec 2
  spb : BitVec 5
  deriving DecidableEq, Repr

/-- A migration under way (R292): the record before it, the record to come, who awaits it, and the departing lines not yet walked. -/
structure Migration where
  vc : Nat
  old : Vc
  new : Vc
  sync : Option WLoc
  walk : List Nat
  started : Bool
  deriving DecidableEq, Repr

/-- A slot of the pager (R308): the command, its word and that word's generation when the fault was posted, the time of the
command's first posting and its limit, in ninths of a nanosecond; the address that faulted and whether it was written. -/
structure FSlot where
  eng : EngRef
  va : W64
  wr : Bool
  word : WLoc
  gen : Nat
  first : Nat
  limit : Nat
  deriving DecidableEq, Repr

/-- An invariant monitor (Table 15-7). -/
structure Monitor where
  src : W64
  const : W64
  ctl : W64
  fires : BitVec 32
  viol : Bool
  held : Bool
  deriving DecidableEq, Repr

/-- Debug registers of a die (Table 15-4); `sunk` is how many bytes of records the sink holds, at most its size (R401). -/
structure DieDbg where
  tctl : W64
  tsbase : W64
  tssize : W64
  tshead : W64
  tloss : W64
  tcmask0 : W64
  tcmask1 : W64
  hctl : W64
  hsbase : W64
  mons : List Monitor
  bb : Table Shaving
  bbNext : Nat
  bbWraps : Nat
  lossRun : Nat
  sunk : Nat
  deriving DecidableEq, Repr

/-- A die. -/
structure Die where
  queues : Table Queue
  handlers : Table (BitVec 512)
  names : Table (BitVec 512)
  vcs : Table Vc
  shares : Table Nat
  retired : List Nat
  migs : List Migration
  cp : Nat
  rr : List Nat
  held : Option HeldSel
  fslots : Table FSlot
  walkCache : List WcEnt
  agents : Table Nat
  dbg : DieDbg
  traceRr : Nat
  deriving DecidableEq, Repr

/-! ### Coherence -/

/-- A line held in an L2 (R283, R284). -/
structure L2Line where
  die : Nat
  vc : Nat
  bank : Nat
  share : Nat
  dirty : Bool
  data : WideBits
  deriving DecidableEq, Repr

/-- A clean copy of a line in the L1 slices of a cluster, or (64 bytes) in its block cache. -/
structure Copy where
  cl : Nat
  line : Nat
  data : WideBits
  stamp : BitVec 8
  deriving DecidableEq, Repr

/-- A directory entry (R377, R379). -/
structure DirEnt where
  sharers : List Nat
  seq : BitVec 8
  unacked : Nat
  deriving DecidableEq, Repr

/-- Who waits for a line. -/
inductive FillFor where
  | load (b : BRef) (idx : Nat)
  | fetch (slot : Nat) (addr : W64)
  | engine (cl : Nat)
  | hint (grid : Nat)
  | hintL2 (grid : Nat)
  deriving DecidableEq, Repr

/-- A fill outstanding at a cluster (R379): `line` is the line by global physical address; bit `i` of `code` says that its 64-byte half
`i` is wanted for the block cache (R340); `keep` says whether its data may be installed; data that were not installed, or their poison or failure, stay until every load that asked has taken them. -/
structure Fill where
  cl : Nat
  line : Nat
  vc : BitVec 6
  code : Nat
  keep : Bool
  probe : Option (BitVec 8)
  waiters : List FillFor
  issued : Nat
  data : Option WideBits
  poisoned : Bool
  failed : Bool
  deriving DecidableEq, Repr

/-- A grant on its way to a cluster. -/
structure Grant where
  cl : Nat
  line : Nat
  stamp : BitVec 8
  data : WideBits
  poisoned : Bool
  deriving DecidableEq, Repr

/-- A message that awaits its response at a home (R374). -/
structure Await where
  die : Nat
  agent : Nat
  line : Nat
  stamp : BitVec 8
  sent : Nat
  limit : Nat
  deriving DecidableEq, Repr

/-- States of a page at its home (R380). -/
inductive PgState where
  | shared | excl
  deriving DecidableEq, Repr

/-- An entry of a page directory (R380): holders are numbers 4·device + die. -/
structure PageEnt where
  st : PgState
  holders : List Nat
  overf : Bool
  seq : BitVec 8
  lastRecall : Option Nat
  waiting : List Nat
  deriving DecidableEq, Repr

/-- A page grant that a die of this module holds (R381). -/
structure Peer where
  die : Nat
  page : Nat
  excl : Bool
  stamp : BitVec 8
  deriving DecidableEq, Repr

/-- Bias states of a page (R389). -/
inductive Bias where
  | device | host | flushing | recalling
  deriving DecidableEq, Repr

/-- A flip under way (R390). -/
structure Flip where
  page : Nat
  toHost : Bool
  word : Option WLoc
  deriving DecidableEq, Repr

/-- Who issued a request to another module, to the host or to a register window, and what it asked; of an engine's write the number of the
command and of the bytes, of a placement that is passed on to a further module whence it came. -/
inductive ReqWho where
  | load (b : BRef) (idx : Nat)
  | fill (cl : Nat) (line : Nat)
  | unit (uid : Nat)
  | engine (id : Nat) (n : Nat)
  | page (die : Nat) (page : Nat) (excl : Bool)
  | invoke (slot : Nat) (thread : Nat) (hidx : Nat) (trap : Bool)
  | place (cl : Nat) (cmd : Nat)
  | relay (port : Nat) (dev : Nat) (tag : BitVec 13) (name : W64)
  | report (die : Nat) (q : Nat)
  deriving DecidableEq, Repr

/-- A request outstanding (R376); a page request keeps the newest revocation or recall of its page that has come (R379, R383). -/
structure Req where
  id : Nat
  port : Nat
  tag : BitVec 13
  who : ReqWho
  pa : Nat
  issued : Nat
  probe : Option (BitVec 8)
  deriving DecidableEq, Repr

/-- A device access that its home holds (R389): a fill, a load of a form, a drain unit, a command of an engine, a walk, an operation on a
word. -/
inductive DevWho where
  | fill (cl : Nat) (line : Nat)
  | load (b : BRef) (idx : Nat)
  | unit (uid : Nat)
  | command (id : Nat)
  | walk (id : Nat)
  | word (la : Nat)
  deriving DecidableEq, Repr

/-- A request that its home holds (R389, R390): a message, a request of the host, or the place of a device access among them. -/
inductive Parked where
  | device (who : DevWho)
  | msg (port : Nat) (m : Msg)
  | hostRead (port : Nat) (la : Nat) (own : Bool)
  | hostWrite (port : Nat) (la : Nat) (data : BitVec 512) (mask : BitVec 64)
  | hostInv (port : Nat) (la : Nat)
  | answer (port : Nat) (m : Msg) (cls line : Nat) (beats : List (BitVec 128))
  deriving DecidableEq, Repr

/-- An operation on a sync word (R195, R198). -/
inductive WordOp where
  | arrive (n : Nat)
  | setErr (code : Nat)
  | sarm (b : W64)
  deriving DecidableEq, Repr

/-- A TLBINV under way (R238, R310): its form and operands, its slot and thread (group times 64 plus thread), and, once it has acted, the
number of the drain units that it waits for and the entries that it removed. -/
structure TlbInv where
  id : Nat
  form : Instr
  a : W64
  b : W64
  c : W64
  slot : Nat
  thread : Nat
  bound : Option Nat
  gone : List TlbEnt
  deriving DecidableEq, Repr

/-- The coherence state of the module. `repl` is the replacement state of the sets of the virtual caches (R284); `filter` marks the 64-byte lines of a page that the host may hold (R389), `hostClean` those of
them that it has answered a BISnpData for and not asked for since; `lost` are bytes of an engine's writes that their homes did not take,
by command, each with the place of the line at its home (R376); `words` are operations on sync words that wait at their homes (R382, R389). -/
structure Coh where
  l2 : Table L2Line
  repl : Table Nat
  l1 : List Copy
  bc : List Copy
  dir : Table DirEnt
  fills : List Fill
  grants : List Grant
  awaits : List Await
  pages : Table PageEnt
  peers : List Peer
  bias : Table Bias
  filter : Table (BitVec 64)
  hostClean : Table (BitVec 64)
  flips : List Flip
  parked : List (Nat × Parked)
  poisonLines : List Nat
  poisonPages : List Nat
  poisonPool : List Nat
  poisonRegs : List (Nat × BitVec 7)
  reqs : List Req
  lost : List (Nat × Nat × Nat)
  words : List (WLoc × WordOp)
  flying : List Flying
  walks : List Walk
  tlbinvs : List TlbInv
  deriving DecidableEq, Repr

/-! ### Named data -/

/-- A path record of a pending-interest table (R361). -/
structure PitRec where
  stop : Nat
  asid : BitVec 16
  name : W64
  path : NdPath
  deadline : Nat
  deriving DecidableEq, Repr

/-- A router's entry for a name (R361, Table 13-3). -/
structure PitEnt where
  stop : Nat
  asid : BitVec 16
  name : W64
  fwd : Option NdPath
  goal : NdGoal
  weight : Nat
  sentDeadline : Nat
  deriving DecidableEq, Repr

/-- States of Table 13-4 but FREE. -/
inductive TsState where
  | filling | held | draining
  deriving DecidableEq, Repr

/-- Retention of a stored tile. -/
inductive TsRet where
  | count (n : Nat)
  | until (t : Nat)
  deriving DecidableEq, Repr

/-- A tile in a tile store (R367). -/
structure TsEnt where
  stop : Nat
  asid : BitVec 16
  name : W64
  st : TsState
  ret : TsRet
  data : List Byte
  origin : PlaceFrom
  readers : Nat
  deriving DecidableEq, Repr

/-- A deposit under way (R207), of which `at_` bytes have been written; `landing` as for a copy-engine command. -/
structure Deposit where
  id : Nat
  stop : Nat
  asid : BitVec 16
  ep : EndPath
  data : List Byte
  at_ : Nat
  landing : Option (Nat × Nat)
  fslot : Option Nat
  firstPost : Option Nat
  deriving DecidableEq, Repr

/-- The named-data network: path records, entries, tiles and deposits, and the placements that wait at a full tile store for an entry to
become FREE (R367), with their stop, ASID and name. -/
structure Net where
  recs : List PitRec
  ents : List PitEnt
  tiles : List TsEnt
  deposits : List Deposit
  waits : List (Nat × BitVec 16 × W64 × Placement)
  deriving DecidableEq, Repr

/-! ### Links, spill engine, platform -/

/-- An Eveod port (R392 to R395); `wire` is what it has sent, oldest first, but for idle flits that return no
credits (log entry 73). -/
structure Port where
  up : Bool
  txSeq : BitVec 10
  rxNext : BitVec 10
  rxSeen : BitVec 10
  sent : List (BitVec 10 × List (BitVec 128))
  fails : Nat
  credits : List Nat
  errors : Nat
  wantReplay : Bool
  partialMsg : List (BitVec 128)
  queue : List Msg
  hold : List Msg
  owed : List Nat
  wire : List (List (BitVec 128))
  deriving DecidableEq, Repr

/-- What a CXL port sends to the host (Table 14-4): back-invalidate snoops of one line of 64 bytes, or of two in their block forms, answers to its requests and snoops, and the
device's own reads and writes of host memory. -/
inductive HostMsg where
  | bisnpInv (la : Nat)
  | bisnpData (la : Nat)
  | bisnpInvBlk (la : Nat)
  | bisnpDataBlk (la : Nat)
  | memData (la : Nat) (data : BitVec 512) (metaInvalid poisoned : Bool)
  | memAck (la : Nat)
  | d2hRead (la : Nat) (cached : Bool)
  | d2hWrite (la : Nat) (whole : Bool)
  | snoopAnswer (la : Nat)
  | refusal (la : Nat)
  deriving DecidableEq, Repr

/-- The links: the Eveod ports, the segments of tiles that are still arriving by port, the messages that have left the module for a
switch, the next transaction tag, the CXL ports in a link low-power state (R373), and what was sent to the host, in order. -/
structure Links where
  ports : Table Port
  segs : List (Nat × Msg)
  delivered : List (Nat × Msg)
  tagNext : Nat
  cxlLow : List Nat
  toHost : List (Nat × HostMsg)
  deriving DecidableEq, Repr

/-- A save under way (R331, R332); `landing` is the number of its writes once they have been sent to another module, with the threads as they
were written. -/
structure Save where
  whole : Bool
  target : Nat
  words : List (Option WLoc)
  landing : Option (Nat × List Thread)
  deriving DecidableEq, Repr

/-- A table record to be installed (R239): the form, its slot, the table, the selector, the place of the record and the sync word. -/
structure Install where
  id : Nat
  form : Instr
  slot : Nat
  die : Nat
  idx : Nat
  piece : Piece
  sync : Option WLoc
  deriving DecidableEq, Repr

/-- What the SPDM responder answers (R441). -/
inductive SpdmAnswer where
  | version (l : List Nat)
  | capabilities
  | algorithms (mldsa87 sha3 : Bool)
  | digests (d : BitVec 512)
  | certificate (chain : List Byte)
  | challengeAuth (sig : List Byte)
  | measurements (regs : List (BitVec 512)) (sig : List Byte)
  | keyExchange (sig : List Byte)
  | unsupportedRequest
  deriving DecidableEq, Repr

/-- The SPDM responder (R441). -/
structure Spdm where
  enabled : Bool
  version : Nat
  usable : Bool
  keyed : Bool
  key : BitVec 256
  answers : List SpdmAnswer
  deriving DecidableEq, Repr

/-- What the controller reports on the management port (R439, R442): an image of the boot chain that failed, or a bank left with fewer than
two shares of VC 0. -/
inductive Report where
  | imageFailed (stage : Nat)
  | fewShares (die bank : Nat)
  deriving DecidableEq, Repr

/-- The platform (18). `bootFail` is the image at which the boot stopped (R439); `sensors` are the junction temperatures in degrees Celsius, by
sensor: one of each cluster by its number, and one of each HBM stack from 512 on (an input; what is not listed is cool), `hot` says that the
floor rises until every sensor reads below 90, and `thermAt` is the time of its last step (R432); `spdm` are the responders of the two CXL
ports, `doe` the port at whose mailbox the present request stands (an input, R441). -/
structure Plat where
  frozen : Bool
  scanned : Bool
  trip : Bool
  inReset : Bool
  thrm : Nat
  req : Nat
  act : Nat
  busy : Bool
  pendingLevel : Option Nat
  step : BitVec 8
  meas : List (BitVec 512)
  bootFail : Option Nat
  sensors : Table Nat
  hot : Bool
  thermAt : Nat
  spdm : List Spdm
  doe : Nat
  corrected : Nat
  warmResets : BitVec 64
  retireList : List Nat
  reports : List Report
  deriving DecidableEq, Repr

/-- A SWAIT that waits at the home of its word (R201): its entry, the word, the generation, and whether it is SWAIT.t. -/
structure SWaiter where
  b : BRef
  idx : Nat
  loc : WLoc
  gen : BitVec 16
  t : Bool
  ref : W64
  deriving DecidableEq, Repr

/-- The entry that is being fired. -/
structure Cursor where
  slot : Nat
  seq : Nat
  ic : BitVec 32
  idx : Nat
  deriving DecidableEq, Repr

/-- The rejection of an invocation whose sender is pre-empted: the sender (group times 64 plus thread), whether it was INVOKE.t, and what
INVST records of it (R228) as the thread is restored. -/
structure SavedReject where
  thread : Nat
  trap : Bool
  reason : Nat
  hidx : Nat
  dev : Nat
  deriving DecidableEq, Repr

/-- The machine. `phase` is the part of a cycle of the time base that has gone by, in 112ths (R434); `issued` are the entries that have
issued in the present clk, each with its node (grid times 20 plus node, R38), `committed` the grids that have committed in it, each with the
slot (R343), and `loaded` the loads that have passed their checks in it (R352); `samples` are the values of words that monitors have still to
look at, each with its die and monitor (R413). -/
structure State where
  clk : Nat
  time : Nat
  phase : Nat
  issued : List (Nat × Cursor)
  committed : List (Nat × Nat)
  loaded : List (BRef × Nat)
  samples : List (Nat × Nat × Nat)
  fresh : Nat
  uid : Nat
  cur : Option Cursor
  agenda : List Instr
  dev : Nat
  reach : List Nat
  hbm : Memory
  host : Memory
  pool : Memory
  coh : Coh
  thr : Table Thread
  grp : Table Group
  grids : Table Grid
  cls : Table Cluster
  dies : Table Die
  net : Net
  links : Links
  saves : List Save
  rejects : List SavedReject
  resumed : Table Group
  restores : List Restore
  installs : List Install
  swaits : List SWaiter
  hist : Table Nat
  plat : Plat
  deriving DecidableEq, Repr

/-! ### Values at reset (R437) -/

/-- A predictor that has learnt nothing. -/
def Predictor.reset : Predictor := { exits := [], targets := [], hist := [], stack := [] }

/-- A grid with nothing bound to it. -/
def Grid.reset : Grid :=
  { sb := [], credits := 16, mx := [[], [], [], []], tlb := [], owners := [], lastAsid := [], pred := Predictor.reset
    dbg := { frozen := false, since := 0, slots := 0, cause := 0, listPos := 0, frozenClk := 0 } }

/-- A cluster that is ON and idle (R443). -/
def Cluster.reset : Cluster :=
  { copyQ := [], chuck := [], tlb := [], storeWait := [], commits := 0, trace := [], lossRun := 0, power := .on, since := 0, drainBy := none }

/-- A queue whose configuration block is zero (R315). -/
def Queue.reset : Queue :=
  { qw := [0, 0, 0, 0, 0, 0, 0], drops := 0, errs := 0, store := [], overf := [], resume := [], lastSel := 0
    readyAt := none, depLoc := none }

/-- Tables 9-4 and 9-5: VC 0 takes every share, every other virtual cache is DISABLED. -/
def Vc.reset (v : Nat) : Vc :=
  if v = 0 then
    { bmask := BitVec.allOnes 128, near := 0, gen := 0, nbank := 0, state := .active, repl := 0, wpol := 0, lsz := 0, spb := 16 }
  else { bmask := 0, near := 0, gen := 0, nbank := 0, state := .disabled, repl := 0, wpol := 0, lsz := 0, spb := 0 }

/-- A monitor that is off (Table 15-7). -/
def Monitor.reset : Monitor := { src := 0, const := 0, ctl := 0, fires := 0, viol := false, held := true }

/-- The debug registers of a die (Table 15-4). -/
def DieDbg.reset : DieDbg :=
  { tctl := 0, tsbase := 0, tssize := 0, tshead := 0, tloss := 0, tcmask0 := 0, tcmask1 := 0, hctl := 0, hsbase := 0
    mons := List.replicate 16 Monitor.reset, bb := [], bbNext := 0, bbWraps := 0, lossRun := 0, sunk := 0 }

/-- A die whose tables have their reset values. -/
def Die.reset : Die :=
  { queues := [], handlers := [], names := [], vcs := [], shares := [], retired := [], migs := [], cp := 0
    rr := [0, 0, 0, 0, 0, 0, 0, 0], held := none, fslots := [], walkCache := [], agents := [], dbg := DieDbg.reset, traceRr := 0 }

/-- An Eveod port that has trained (R437 step 4), with all its credits (R395). -/
def Port.reset : Port :=
  { up := true, txSeq := 0, rxNext := 0, rxSeen := 0, sent := [], fails := 0, credits := [512, 512, 512, 512], errors := 0
    wantReplay := false, partialMsg := [], queue := [], hold := [], owed := [0, 0, 0, 0], wire := [] }

/-- Nothing cached, nothing under way, no poison, every page in device bias (R437 step 3). -/
def Coh.reset : Coh :=
  { l2 := [], repl := [], l1 := [], bc := [], dir := [], fills := [], grants := [], awaits := [], pages := [], peers := [], bias := []
    filter := [], hostClean := [], flips := [], parked := [], poisonLines := [], poisonPages := [], poisonPool := [], poisonRegs := []
    reqs := [], lost := [], words := [], flying := [], walks := [], tlbinvs := [] }

/-- The bytes of a 512-bit value, lowest first (R10). -/
def bytesOf512 (x : BitVec 512) : List Byte := (List.range 64).map fun i => x.extractLsb' (8 * i) 8

/-- R440: a measurement register extended with a digest. -/
def extendMeasure (m d : BitVec 512) : BitVec 512 := Config.sha3_512 (bytesOf512 m ++ bytesOf512 d)

/-- R440: the registers of a cold reset that stops after a number of images of R439: the Priore firmware extends register 0, each die's
firmware register 1 (log entry 58). -/
def bootMeasurements (n : Nat) : List (BitVec 512) :=
  [if n = 0 then 0 else extendMeasure 0 (Config.imageDigest 0),
   (List.range (n - 1)).foldl (fun m d => extendMeasure m (Config.imageDigest (d + 1))) 0,
   0, 0, 0, 0, 0, 0]

/-- R440: the registers after the stages of a cold reset. -/
def coldMeasurements : List (BitVec 512) := (bootMeasurements 5).modify 2 fun m => extendMeasure m Config.fuseDigest

/-- The SPDM responder as step 6 of a reset enables it (R437, R441). -/
def Spdm.reset : Spdm := { enabled := true, version := 0, usable := false, keyed := false, key := 0, answers := [] }

/-- The platform after a cold reset whose images all verified (R436, R437, R440). -/
def Plat.reset : Plat :=
  { frozen := false, scanned := false, trip := false, inReset := false, thrm := 0, req := 0, act := 0, busy := false
    pendingLevel := none, step := 0, meas := coldMeasurements, bootFail := none, sensors := [], hot := false, thermAt := 0
    spdm := [Spdm.reset, Spdm.reset], doe := 0, corrected := 0, warmResets := 0
    retireList := [], reports := [] }

/-- The machine right after cold reset (R437): no thread, nothing queued, memory zero, every table at its reset value. -/
def State.reset : State :=
  { clk := 0, time := 0, phase := 0, issued := [], committed := [], loaded := [], samples := [], fresh := 0, uid := 0, cur := none, agenda := [], dev := 0, reach := [], hbm := []
    host := [], pool := [], coh := Coh.reset, thr := [], grp := [], grids := [], cls := [], dies := []
    net := { recs := [], ents := [], tiles := [], deposits := [], waits := [] }
    links := { ports := [], segs := [], delivered := [], tagNext := 0, cxlLow := [], toHost := [] }
    saves := [], rejects := [], resumed := [], restores := [], installs := [], swaits := [], hist := [], plat := Plat.reset }

end Sys2Proof.Machine
end

