-- ==== Sys2Proof/Machine/Ops.lean ====
section
/-! DEFINITION. The named operations over the state that every family shares: numbered tables, byte memory in canonical form,
tokens and their delivery (01, 02), shavings (15), system registers (07), the discarding of blocks (01), taking a trap and
returning from one (07), and the queue of events under way. -/

namespace Sys2Proof.Machine

/-- What a meaning answers. -/
abbrev Out := Host.Outcome State Fault Refusal

/-! ### Numbered tables -/

/-- The value of a number, if it is listed. -/
def tget {α : Type} : Table α → Nat → Option α
  | [], _ => none
  | (m, v) :: t, n => if n = m then some v else if n < m then none else tget t n

/-- A table with one number's value set, numbers rising. -/
def tput {α : Type} : Table α → Nat → α → Table α
  | [], n, v => [(n, v)]
  | (m, w) :: t, n, v =>
    if n < m then (n, v) :: (m, w) :: t
    else if n = m then (n, v) :: t
    else (m, w) :: tput t n v

/-- A table without a number. -/
def tdel {α : Type} : Table α → Nat → Table α
  | [], _ => []
  | (m, w) :: t, n => if n = m then t else (m, w) :: tdel t n

/-- A table without the entries of a list of numbers. -/
def tdels {α : Type} (t : Table α) (l : List Nat) : Table α := l.foldl tdel t

/-- Every value of a table changed. -/
def tmap {α : Type} (f : α → α) (t : Table α) : Table α := t.map fun p => (p.1, f p.2)

/-- The first `n` of a list by a test, and the rest in order. -/
def takeFirst {α : Type} (p : α → Bool) : List α → Option α × List α
  | [] => (none, [])
  | a :: l => if p a then (some a, l) else let r := takeFirst p l; (r.1, a :: r.2)

/-! ### Byte memory -/

/-- What the listed cells say of an address; an unlisted one reads zero (R437). -/
def rd1 : Memory → Nat → Byte
  | [], _ => 0
  | (m, v) :: t, a => if a = m then v else if a < m then 0 else rd1 t a

/-- A cell in front of a canonical memory: zero is not listed. -/
def consCell (a : Nat) (v : Byte) (t : Memory) : Memory := if v = 0 then t else (a, v) :: t

/-- One byte written; the canonical form is kept. -/
def wr1 : Memory → Nat → Byte → Memory
  | [], a, v => consCell a v []
  | (m, w) :: t, a, v =>
    if a < m then consCell a v ((m, w) :: t)
    else if a = m then consCell a v t
    else (m, w) :: wr1 t a v

/-- Addresses strictly rising from a bound, no listed zero: the canonical form. -/
def wfFrom : Nat → Memory → Bool
  | _, [] => true
  | lo, (m, v) :: t => decide (lo ≤ m) && (v != 0) && wfFrom (m + 1) t

/-- The canonical form of a memory. -/
def Memory.wf (m : Memory) : Bool := wfFrom 0 m

/-- `n` bytes from an address on. -/
def rdBytes (m : Memory) (a : Nat) : Nat → List Byte
  | 0 => []
  | n + 1 => rd1 m a :: rdBytes m (a + 1) n

/-- Bytes written from an address on. -/
def wrBytes (m : Memory) (a : Nat) : List Byte → Memory
  | [] => m
  | b :: l => wrBytes (wr1 m a b) (a + 1) l

/-- Bytes written where a mask has a 1, bit `i` for byte `i`. -/
def wrMasked (m : Memory) (a : Nat) (mask : Nat) : List Byte → Memory
  | [] => m
  | b :: l => wrMasked (if mask % 2 = 1 then wr1 m a b else m) (a + 1) (mask / 2) l

/-- Little-endian (R10). -/
def leNat : List Byte → Nat
  | [] => 0
  | b :: l => b.toNat + 256 * leNat l

/-- `n` bytes of a number, lowest first (R10). -/
def leBytes (x : Nat) : Nat → List Byte
  | 0 => []
  | n + 1 => BitVec.ofNat 8 x :: leBytes (x / 256) n

/-- Sign extension of a number of `w` bits (R9). -/
def sInt (x w : Nat) : Int := if x % 2 ^ w < 2 ^ (w - 1) then (x % 2 ^ w : Nat) else ((x % 2 ^ w : Nat) : Int) - (2 ^ w : Nat)

/-- Wrap of R12. -/
def wrapN (v : Int) (w : Nat) : Nat := (v % ((2 ^ w : Nat) : Int)).toNat

/-- Sat of R12. -/
def satI (v lo hi : Int) : Int := if v < lo then lo else if hi < v then hi else v

/-! ### Accessors of the state -/

def State.grid (s : State) (g : Nat) : Grid := (tget s.grids g).getD Grid.reset
def State.cl (s : State) (c : Nat) : Cluster := (tget s.cls c).getD Cluster.reset
def State.die (s : State) (d : Nat) : Die := (tget s.dies d).getD Die.reset
def State.port (s : State) (p : Nat) : Port := (tget s.links.ports p).getD Port.reset
def State.modGrid (s : State) (g : Nat) (f : Grid → Grid) : State := { s with grids := tput s.grids g (f (s.grid g)) }
def State.modCl (s : State) (c : Nat) (f : Cluster → Cluster) : State := { s with cls := tput s.cls c (f (s.cl c)) }
def State.modDie (s : State) (d : Nat) (f : Die → Die) : State := { s with dies := tput s.dies d (f (s.die d)) }
def State.modPort (s : State) (p : Nat) (f : Port → Port) : State :=
  { s with links := { s.links with ports := tput s.links.ports p (f (s.port p)) } }
def Die.queue (d : Die) (q : Nat) : Queue := (tget d.queues q).getD Queue.reset
def Die.vc (d : Die) (v : Nat) : Vc := (tget d.vcs v).getD (Vc.reset v)
def Die.modQueue (d : Die) (q : Nat) (f : Queue → Queue) : Die := { d with queues := tput d.queues q (f (d.queue q)) }
def State.queue (s : State) (d q : Nat) : Queue := (s.die d).queue q
def State.modQueue (s : State) (d q : Nat) (f : Queue → Queue) : State := s.modDie d fun x => x.modQueue q f

/-- A thread changed, if the slot holds one. -/
def State.modThread (s : State) (slot : Nat) (f : Thread → Thread) : State :=
  match tget s.thr slot with
  | none => s
  | some t => { s with thr := tput s.thr slot (f t) }

def State.modGroup (s : State) (g : Nat) (f : Group → Group) : State :=
  match tget s.grp g with
  | none => s
  | some x => { s with grp := tput s.grp g (f x) }

/-- Events added to those under way, in order. -/
def State.post (s : State) (l : List Instr) : State := { s with agenda := s.agenda ++ l }

/-- A new number for a record of the model. -/
def State.newUid (s : State) : Nat × State := (s.uid, { s with uid := s.uid + 1 })

/-- The next free value's argument (log entry 9). -/
def State.draw (s : State) : Nat × State := (s.fresh, { s with fresh := s.fresh + 1 })

/-! ### Places (R6, R7, R39, R40) -/

def slotGrid (slot : Nat) : Nat := slot / 8
def slotInGrid (slot : Nat) : Nat := slot % 8
def slotCluster (slot : Nat) : Nat := slot / 32
def slotDie (slot : Nat) : Nat := slot / 4096
def gridCluster (g : Nat) : Nat := g / 4
def gridDie (g : Nat) : Nat := g / 512
def clusterDie (c : Nat) : Nat := c / 128

/-- The grid on which a block of a thread runs (R40). -/
def blockGrid (slot : Nat) (t : Thread) (b : Block) : Nat :=
  if t.sys.fused then 4 * (slotGrid slot / 4) + (slotGrid slot % 4 + b.pos) % 4 else slotGrid slot

/-- The node of an entry and its place there (R56). -/
def nodeOf (i : Nat) : Nat := i / 6

/-! ### Causes (Table 7-13) and the trap registers (Tables 7-11, 7-12) -/

def Cause.code : Cause → Nat
  | .illegalWord => 0x01 | .placement => 0x02 | .priv => 0x03 | .exitError => 0x04 | .tokenOverrun => 0x05
  | .residue => 0x06 | .badState => 0x07 | .align => 0x10 | .pageFault => 0x11 | .prot => 0x12 | .imageTag => 0x13
  | .vcFault => 0x14 | .poison => 0x15 | .rangeLock => 0x16 | .timeout => 0x18 | .scaleTag => 0x20
  | .matrixOperand => 0x21 | .engineOperand => 0x22 | .fpTrap => 0x23 | .neverProduced => 0x28
  | .syncOverrun => 0x29 | .syncError => 0x2A | .invokeReject => 0x2B | .watch => 0x30 | .brk => 0x31 | .trap => 0x32

/-- Class S: the handler runs as supervisor. -/
def Cause.sup : Cause → Bool
  | .illegalWord => true | .placement => true | .priv => true | .pageFault => true | .prot => true | .imageTag => true
  | .vcFault => true | .poison => true | .timeout => true | .watch => true | .brk => true | .trap => true
  | .exitError => false | .tokenOverrun => false | .residue => false | .badState => false | .align => false
  | .rangeLock => false | .scaleTag => false | .matrixOperand => false | .engineOperand => false | .fpTrap => false
  | .neverProduced => false | .syncOverrun => false | .syncError => false | .invokeReject => false

/-- Locus of a TINFO (Table 7-12). -/
structure Locus where
  kind : Nat
  lsid : Nat
  node : Nat
  index : Nat

/-- An instruction, with its LSID if it has one. -/
def Locus.ins (i : Nat) (lsid : Option Nat) : Locus := ⟨0, lsid.getD 0xFF, nodeOf i, i⟩
def Locus.slot (w : Nat) : Locus := ⟨2, 0xFF, 0x1F, w⟩
def Locus.ofLsid (l : Nat) : Locus := ⟨3, l, 0x1F, l⟩
def Locus.inPort (p : Nat) : Locus := ⟨4, 0xFF, 0x1F, p⟩
def Locus.outPort (p : Nat) : Locus := ⟨5, 0xFF, 0x1F, p⟩
def Locus.none : Locus := ⟨6, 0xFF, 0x1F, 0x7F⟩

/-- TINFO of Table 7-12. -/
def tinfo (l : Locus) (itag : Nat) (tnum check : Nat) (more : Bool) : W64 :=
  BitVec.ofNat 64 (tnum % 4096 * 2 ^ 48 + check % 256 * 2 ^ 40 + itag % 4 * 2 ^ 38 + ofBool more * 2 ^ 37
    + l.kind % 8 * 2 ^ 29 + l.lsid % 256 * 2 ^ 16 + l.node % 32 * 2 ^ 8 + l.index % 128)

/-- TCAUSE of Table 7-11. -/
def tcause (asynch pmode : Bool) (code : Nat) : W64 :=
  BitVec.ofNat 64 (ofBool asynch * 2 ^ 63 + ofBool pmode * 2 ^ 62 + code)

/-- The iteration tag of a block's loci: the IC of a resident iteration, 0 in an ordinary block (R44). -/
def Block.itag (b : Block) : Nat := if b.resident then b.ic.toNat % 4 else 0

/-- A trap that names an instruction of a block. -/
def Block.insTrap (b : Block) (c : Cause) (tval : W64) (i : Nat) (lsid : Option Nat) : Trap :=
  ⟨c, tval, tinfo (.ins i lsid) b.itag 0 0 false⟩

/-- The block address is a multiple of 64 (R51). -/
def align64 (a : W64) : W64 := a &&& ~~~(0x3F : W64)

/-! ### Tokens and operand kinds (R57, R75; Tables 3-1, 5-2, 6-1, 7-1) -/

/-- The kinds of token that an operand accepts. -/
inductive OpKind where
  /-- any kind, nulls included -/
  | any
  /-- narrow or null -/
  | narrow
  /-- a narrow token only: the address of BRI and RET (R76) -/
  | narrowOnly
  /-- wide or null -/
  | wide
  /-- predicate or null -/
  | pred
  /-- a predicate only: the control of SEL and STEER, a predicate input -/
  | predOnly
  /-- narrow, predicate or null -/
  | narrowPred
  deriving DecidableEq, Repr

/-- Does an operand of this kind accept the token? -/
def OpKind.accepts : OpKind → Token → Bool
  | .any, _ => true
  | .narrow, .narrow _ => true
  | .narrow, .null => true
  | .narrowOnly, .narrow _ => true
  | .wide, .wide _ => true
  | .wide, .null => true
  | .pred, .pred _ => true
  | .pred, .null => true
  | .predOnly, .pred _ => true
  | .narrowPred, .narrow _ => true
  | .narrowPred, .pred _ => true
  | .narrowPred, .null => true
  | _, _ => false

/-- The kind of operand `k` (0 A, 1 B, 2 C) of the form that a word holds. A predicate operand takes a null (R76 lets any computing form
receive one, Table 3-1 lists only Predicate for PAND, POR, PNOT and PGET): the model's choice (log entry 69). -/
def operandKind (f : Fields) (k : Nat) : OpKind :=
  let op := f.op.toNat
  let fn := f.fn.toNat
  if op = 0x01 then .any
  else if op = 0x05 ∨ op = 0x07 ∨ op = 0x0A then .any
  else if op = 0x06 ∨ op = 0x08 then .narrowOnly
  else if op = 0x2D then (if k = 2 then .narrowPred else .narrow)
  else if op < 0x32 then .narrow
  else if op ≤ 0x34 then .pred
  else if op = 0x35 then (if k = 2 then .predOnly else .narrowPred)
  else if op = 0x36 then (if k = 1 then .predOnly else .any)
  else if op = 0x37 then .any
  else if op = 0x38 then .pred
  else if op < 0x50 then .narrow
  else if op = 0x53 ∨ op = 0x57 then (if k = 1 then .wide else .narrow)
  -- FENCE: a trigger of any kind (Table 6-1)
  else if op = 0x5C then .any
  else if op < 0x70 then .narrow
  else if op = 0x7F then .narrow
  else if op = 0x80 then (if k = 1 then .narrow else .wide)
  else if op = 0x81 then (if k = 0 then .wide else .narrow)
  else if op < 0xA0 then
    if op = 0x9E ∧ fn = 1 ∧ k = 1 then .narrow else .wide
  else if op = 0xA1 then
    -- MMAR: the register operand is wide (R160)
    if fn = 0 then (if k = 0 then .wide else .narrow) else (if k = 1 then .wide else .narrow)
  else if op = 0xA8 then (if k = 1 then .wide else .narrow)
  else if op = 0xB6 then .wide
  else .narrow

/-- The kind of a register id (Table 2-5): a write slot takes that kind or a null (R75). -/
def regKind (r : BitVec 7) : OpKind :=
  if r.toNat < 0x20 then .narrow else if r.toNat < 0x30 then .wide else if r.toNat < 0x40 then .narrow else .pred

/-- Kind codes of a TOKEN shaving (Table 15-3). -/
def Token.kindCode : Token → Nat
  | .narrow _ => 0 | .pred _ => 1 | .wide _ => 2 | .null => 3

/-- The 64 bits of a token that the debug units see (R408). -/
def Token.bits64 : Token → W64
  | .narrow v => v
  | .pred b => if b then 1 else 0
  | .wide w => w.data.extractLsb' 0 64
  | .null => 0

/-! ### Delivery within a block (R36, R57, R61) -/

/-- A failure is held by the block (R32). -/
def Block.hold (b : Block) (r : Rank) (i : Nat) (t : Trap) : Block := { b with held := b.held ++ [⟨r, i, t⟩] }

/-- A second carrier of an LSID that performs or is nulled is TOKEN_OVERRUN (R69, R179). -/
def Block.resolveLsid (b : Block) (idx l : Nat) (r : Resolved) : Block :=
  if b.lsids.any fun p => p.1 == l && p.2 != .predicatedOut then
    b.hold .fire idx ⟨.tokenOverrun, 0, tinfo (.ofLsid l) b.itag 0 0 false⟩
  else { b with lsids := b.lsids ++ [(l, r)] }

/-- The entry of an index, changed. -/
def Block.modEntry (b : Block) (i : Nat) (f : Entry → Entry) : Block := { b with entries := b.entries.modify i f }

/-- An operand, or the predicate input (3), of an entry. -/
def Entry.operand (e : Entry) (k : Nat) : Option Token :=
  match k with
  | 0 => e.a | 1 => e.b | 2 => e.c | _ => e.p.map .pred

/-- An entry with a token at an operand or the predicate input (3), stamped with the clk (R411). -/
def Entry.fill (e : Entry) (k : Nat) (tok : Token) (now : Nat) : Entry :=
  let e := if e.a.isNone && e.b.isNone && e.c.isNone && e.p.isNone then { e with first := now, last := now }
           else { e with last := now }
  match k, tok with
  | 0, _ => { e with a := some tok }
  | 1, _ => { e with b := some tok }
  | 2, _ => { e with c := some tok }
  | _, .pred v => { e with p := some v }
  | _, _ => e

/-- The LSID field of a word whose OP is that of a memory form (R68). -/
def wordLsid (f : Fields) : Option Nat := if 0x50 ≤ f.op.toNat && f.op.toNat ≤ 0x66 then some (f.x.toNat / 2 ^ 25) else none

/-- The LSID of an entry's form, which a TINFO that names the entry carries (Table 7-12). -/
def Entry.lsid (e : Entry) : Option Nat := wordLsid (fieldsOf e.word)

/-- A token arrives at operand `k` of entry `i`: a second one is TOKEN_OVERRUN, a kind that the operand does not accept
is check code 0x2F (R36, R57, R61, R102). -/
def Block.arrive (b : Block) (now i k : Nat) (tok : Token) : Block :=
  match b.entries[i]? with
  | none => b
  | some e =>
    let f := fieldsOf e.word
    let merged := f.op == 0x37 && e.st != .idle && k != 3
    if (e.operand k).isSome || merged then b.hold .fire i (b.insTrap .tokenOverrun 0 i e.lsid)
    else if (if k = 3 then OpKind.predOnly else operandKind f k).accepts tok then b.modEntry i fun e => e.fill k tok now
    else b.hold .fire i ⟨.illegalWord, e.word, tinfo (.ins i e.lsid) b.itag 0 0x2F false⟩

/-- A token reaches write slot `w` (R36, R57, R75). Its failure names no instruction: it stands after every instruction in the order of R243
(index 127, log entry 40). -/
def Block.fillSlot (b : Block) (w : Nat) (tok : Token) : Block :=
  match b.writes[w]? with
  | none => b
  | some x =>
    if x.tok.isSome then b.hold .fire 127 ⟨.tokenOverrun, 0, tinfo (.slot w) b.itag 0 0 false⟩
    else if (regKind x.reg).accepts tok || tok == .null then
      { b with writes := b.writes.modify w fun x => { x with tok := some tok } }
    else b.hold .fire 127 ⟨.illegalWord, 0, tinfo (.slot w) b.itag 0 0x2F false⟩

/-- A token delivered to a target (R58). -/
def Block.put (b : Block) (now : Nat) (t : Target) (tok : Token) : Block :=
  match t with
  | .none => b
  | .opA i => b.arrive now i.toNat 0 tok
  | .opB i => b.arrive now i.toNat 1 tok
  | .opC i => b.arrive now i.toNat 2 tok
  | .pred i => b.arrive now i.toNat 3 tok
  | .slot w => b.fillSlot w.toNat tok

/-- Result(t) of R77: the same token to both targets. -/
def Block.result (b : Block) (now : Nat) (h : Hdr) (tok : Token) : Block := (b.put now h.t0 tok).put now h.t1 tok

/-! ### Threads and their blocks -/

/-- The position of a block of a thread, by sequence number and iteration. -/
def Thread.findBlock (t : Thread) (seq : Nat) (ic : BitVec 32) : Option Block :=
  t.blocks.find? fun b => b.seq == seq && b.ic == ic

/-- Is an opcode one of a form of chapter 07 without a result (Table 7-1)? -/
def resultless (op : Nat) : Bool := (0xC0 ≤ op && op ≤ 0xC5) || op == 0xC7 || op == 0xC8 || op == 0xD0 || op == 0xD1 || (0xD3 ≤ op && op ≤ 0xDB)

/-- The completion conditions of Table 1-4: every write slot filled or nulled, every LSID of SMASK resolved, an exit fired. A form without
a result has fired or absorbed, or the block has quiesced without it (R430 with R30 and R211), and an iteration of a resident block has
quiesced, so that the tokens that R48 looks for are those that nothing takes (R427, R428; log entry 14). -/
def Block.completes (b : Block) : Bool :=
  b.exit.isSome && b.writes.all (fun w => w.tok.isSome)
    && (b.quiesced || (!b.resident && b.entries.all fun e => e.st != .idle || !resultless (fieldsOf e.word).op.toNat))
    && (List.range 24).all fun l => !((b.image.headD 0).getLsbD l) || b.lsids.any fun r => r.1 == l

/-- A block of a thread changed. -/
def Thread.modBlock (t : Thread) (seq : Nat) (ic : BitVec 32) (f : Block → Block) : Thread :=
  { t with blocks := t.blocks.map fun b => if b.seq == seq && b.ic == ic then f b else b }

/-- A block found by its reference. -/
def State.block (s : State) (r : BRef) : Option (Thread × Block) :=
  match tget s.thr r.slot with
  | none => none
  | some t => (t.findBlock r.seq r.ic).map fun b => (t, b)

def State.modBlock (s : State) (r : BRef) (f : Block → Block) : State :=
  s.modThread r.slot fun t => t.modBlock r.seq r.ic f

/-- Is the block the oldest of its thread (R32)? -/
def Thread.isOldest (t : Thread) (b : Block) : Bool :=
  match t.blocks with
  | [] => false
  | x :: _ => x.seq == b.seq && x.ic == b.ic

/-- The blocks older than a given one. -/
def Thread.older (t : Thread) (b : Block) : List Block := t.blocks.takeWhile fun x => !(x.seq == b.seq && x.ic == b.ic)

/-- The position of a block among those of its thread. -/
def Thread.posOf (t : Thread) (b : Block) : Nat := (t.older b).length

/-- The blocks younger than a given one. -/
def Thread.younger (t : Thread) (b : Block) : List Block :=
  (t.blocks.dropWhile fun x => !(x.seq == b.seq && x.ic == b.ic)).drop 1

/-! ### Registers (Table 1-1, Table 2-5, R18) -/

/-- The value of a register id as a token; the hard-wired registers have one home. q registers are the group's. -/
def Thread.readReg (t : Thread) (q : List W64) (r : BitVec 7) : Token :=
  let n := r.toNat
  if n < 0x20 then .narrow (if n = 0 then 0 else t.regs.g.getD n 0)
  else if n < 0x30 then .wide (t.regs.v.getD (n - 0x20) ⟨0, false, 0⟩)
  else if n < 0x40 then .narrow (q.getD (n - 0x30) 0)
  else .pred (n == 0x40 || t.regs.p.getD (n - 0x40) false)

/-- A register written by a token: g0 and p0 discard, a null writes nothing (R18, R20). -/
def Regs.write (x : Regs) (r : BitVec 7) (tok : Token) : Regs :=
  let n := r.toNat
  match tok with
  | .narrow v => if 0 < n ∧ n < 24 then { x with g := x.g.set n v } else x
  | .wide v => if 0x20 ≤ n ∧ n < 0x30 then { x with v := x.v.set (n - 0x20) v } else x
  | .pred v => if 0x40 < n ∧ n < 0x50 then { x with p := x.p.set (n - 0x40) v } else x
  | .null => x

/-- What a block finds when it reads a register (R20): the youngest older block that writes it decides; a null in its slot
leaves the question to the blocks before it. `none`: the value is still awaited. -/
inductive Forward where
  | wait
  | got (tok : Token)
  | committed
  deriving DecidableEq, Repr

/-- R20 over the older blocks, youngest first. A write of g0 or p0 is discarded (R18): it forwards nothing. -/
def forwardFrom (r : BitVec 7) : List Block → Forward
  | [] => .committed
  | b :: l =>
    match b.writes.find? fun w => w.reg == r && r != 0x00 && r != 0x40 with
    | none => forwardFrom r l
    | some w =>
      match w.tok with
      | none => .wait
      | some .null => if w.atomic then .wait else forwardFrom r l
      | some tok => .got tok

/-! ### Shavings and the trace path (R398 to R402, R415) -/

/-- Which types are written into the black box whatever the controls hold (Table 15-3). -/
def alwaysBoxed (ty : Nat) : Bool := 0x11 ≤ ty && ty ≤ 0x18

/-- A record appended to a die's black box (R415). -/
def DieDbg.box (d : DieDbg) (sh : Shaving) : DieDbg :=
  { d with
    bb := tput d.bb d.bbNext sh
    bbNext := (d.bbNext + 1) % 2048
    bbWraps := if d.bbNext = 2047 then (d.bbWraps + 1) % 2 ^ 32 else d.bbWraps }

/-- A LOSS record for a run of `n` drops (R401, R402). -/
def lossShaving (time who n : Nat) : Shaving := ⟨0x13, time % 2 ^ 40, 16383, 0, BitVec.ofNat 32 who, 0, BitVec.ofNat 64 n⟩

/-- Does a die's control select a type for a cluster of it (R401)? -/
def DieDbg.selects (d : DieDbg) (c ty : Nat) : Bool :=
  d.tctl.getLsbD 63 && d.tctl.getLsbD ty && (if c % 128 < 64 then d.tcmask0.getLsbD (c % 128) else d.tcmask1.getLsbD (c % 128 - 64))

/-- A record goes to the trace buffer of a cluster; a full one drops it (R401). -/
def State.toTrace (s : State) (c : Nat) (sh : Shaving) : State :=
  if (s.cl c).trace.length < 64 then s.modCl c fun x => { x with trace := x.trace ++ [sh] }
  else
    (s.modDie (clusterDie c) fun x => { x with dbg := { x.dbg with tloss := x.dbg.tloss + 1 } }).modCl c fun x =>
      { x with lossRun := x.lossRun + 1 }

/-- A run of drops at a cluster ends: its LOSS record goes into the black box, and to the sink if that is selected (R400, R401). -/
def State.endRun (s : State) (c : Nat) : State :=
  let n := (s.cl c).lossRun
  if n = 0 then s
  else
    let sh := lossShaving s.time c n
    let s := (s.modDie (clusterDie c) fun x => { x with dbg := x.dbg.box sh }).modCl c fun x => { x with lossRun := 0 }
    if (s.die (clusterDie c)).dbg.selects c sh.ty then s.toTrace c sh else s

/-- An event of cluster `c` is shaved: into the black box if its type is written there always, and into the cluster's trace
buffer if the controls select it; a full buffer drops it (R400, R401). -/
def State.shave (s : State) (c ty gslot tag info : Nat) (addr value : W64) : State :=
  let sh : Shaving := ⟨ty, s.time % 2 ^ 40, gslot, BitVec.ofNat 32 tag, BitVec.ofNat 32 info, addr, value⟩
  let d := clusterDie c
  let s := if alwaysBoxed ty then s.modDie d fun x => { x with dbg := x.dbg.box sh } else s
  if (s.die d).dbg.selects c ty then (if (s.cl c).trace.length < 64 then s.endRun c else s).toTrace c sh else s

/-- The tag of a block event: BSEQ in [28:13] (Table 15-2). -/
def blockTag (slot : Nat) (b : Block) : Nat := slotInGrid slot * 2 ^ 29 + b.seq % 65536 * 2 ^ 13 + b.itag * 2 ^ 11

/-! ### Discarding (R30, R31, R40, R46, R222) -/

/-- A port gets back the elements that iterations had taken, oldest first at the head of the FIFO (R222). -/
def InPort.giveBack (p : InPort) (ics : List (BitVec 32)) : InPort :=
  let back := (p.taken.filter fun x => ics.contains x.1).map (·.2)
  { p with fifo := back ++ p.fifo, taken := p.taken.filter fun x => !ics.contains x.1 }

/-- A port loses the elements of iterations that are not committed (R46). -/
def OutPort.retract (p : OutPort) (ics : List (BitVec 32)) : OutPort :=
  let gone := p.pend.filter fun x => ics.contains x.1
  { p with pend := p.pend.filter fun x => !ics.contains x.1
           next := gone.foldl (fun n x => min n x.2.1) p.next }

/-- Does a thread no longer hold the load or fetch that waits for a line? -/
def FillFor.gone (slot : Nat) (t : Thread) : FillFor → Bool
  | .load r _ => r.slot == slot && (t.findBlock r.seq r.ic).isNone
  | .fetch x a => x == slot && !((t.blocks ++ t.shadow.toList).any fun b => b.addr == a && b.state == .fetch)
  | .engine _ => false
  | .hint _ => false
  | .hintL2 _ => false

/-- What discarded blocks waited for no longer waits: their loads and fetches at fills (R279), their SWAITs at their homes (R201). -/
def State.sweep (s : State) (slot : Nat) : State :=
  match tget s.thr slot with
  | none => s
  | some t =>
    { s with
      swaits := s.swaits.filter fun x => x.b.slot != slot || (t.findBlock x.b.seq x.b.ic).isSome
      coh := { s.coh with
        fills := (s.coh.fills.map fun f => { f with waiters := f.waiters.filter fun w => !w.gone slot t }).filter fun f =>
          !(f.waiters.isEmpty && (f.data.isSome || f.poisoned || f.failed)) } }

/-- The youngest block of a thread asks for its successor again (R341). -/
def Thread.askAgain (t : Thread) : Thread :=
  { t with blocks := t.blocks.zipIdx.map fun p => if p.2 + 1 = t.blocks.length then { p.1 with asked := false } else p.1 }

/-- The block in the shadow plane of a thread is discarded (R47). -/
def State.dropShadow (s : State) (slot reason : Nat) : State :=
  match (tget s.thr slot).bind (·.shadow) with
  | none => s
  | some b =>
    let s := s.shave (slotCluster slot) 0x04 slot (blockTag slot b) reason b.addr 0
    (s.modThread slot fun t => { t with shadow := none }).sweep slot

/-- The blocks from position `k` of a thread are discarded (R30), with the reason of Table 15-3; with a resident block goes the shadow plane
that it filled (R47). -/
def State.discardFrom (s : State) (slot k reason : Nat) : State :=
  match tget s.thr slot with
  | none => s
  | some t =>
    let gone := t.blocks.drop k
    match gone with
    | [] => s
    | b0 :: _ =>
      let ics := (gone.filter (·.resident)).map (·.ic)
      let stays := match (t.blocks.take k).getLast? with | some y => y.seq == b0.seq | none => false
      let s := gone.foldl (fun s b => s.shave (slotCluster slot) 0x04 slot (blockTag slot b) reason b.addr 0) s
      let s := (s.modThread slot fun t =>
        Thread.askAgain
          { t with blocks := t.blocks.take k, nextPos := if stays then b0.pos + 1 else b0.pos
                   inp := t.inp.map (·.giveBack ics), outp := t.outp.map (·.retract ics) }).sweep slot
      if stays then s else s.dropShadow slot reason

/-- Every block of the thread younger than its oldest is discarded. -/
def State.discardYounger (s : State) (slot reason : Nat) : State := s.discardFrom slot 1 reason

/-- Everything in flight of a thread is discarded, the shadow plane included. -/
def State.discardAll (s : State) (slot reason : Nat) : State := (s.discardFrom slot 0 reason).dropShadow slot reason

/-- A counter of Table 12-8 counts one. -/
def SysRegs.countPerf (x : SysRegs) (j : Nat) : SysRegs := { x with perf := x.perf.modify j (· + 1) }

/-- An event of the clk that a counter counts at its end, after the writes of the clk's commits (R354). -/
def Thread.perfEvent (t : Thread) (j : Nat) : Thread := { t with perfDue := t.perfDue ++ [j] }

/-- A block and every younger block of its thread are discarded for refetching (R41, R185, R256, R262); the event counts in
PERF9 (Table 12-8). -/
def State.replay (s : State) (slot k : Nat) : State :=
  match tget s.thr slot with
  | none => s
  | some t =>
    if k < t.blocks.length then
      (s.discardFrom slot k 2).modThread slot (·.perfEvent 9)
    else s

/-! ### Taking a trap and returning from one (R237, R242 to R246) -/

/-- R242, R245: the trap registers saved, the mode changed, the pc at TVEC. `pc` is the address that TPC takes. -/
def Thread.enterTrap (t : Thread) (asynch : Bool) (pc : W64) (x : Trap) : Thread :=
  { t with
    pc := t.sys.tvec
    sys := { t.sys with
      tpc := align64 pc
      tcause := tcause asynch t.sys.mode x.cause.code
      tval := x.tval
      tinfo := x.tinfo
      mode := t.sys.mode || x.cause.sup
      resid := false } }

/-- R237: the pc of TPC and the mode of TCAUSE.PMODE; a return from WATCH or BREAK marks the block it names (R407). -/
def Thread.trapReturn (t : Thread) : Thread :=
  let code := t.sys.tcause.toNat % 65536
  { t with
    pc := align64 t.sys.tpc
    sys := { t.sys with mode := t.sys.tcause.getLsbD 62 }
    dbgMark := if code = Cause.watch.code ∨ code = Cause.brk.code then some (align64 t.sys.tpc) else t.dbgMark }

/-- Is the oldest block of a thread one that a return has marked (R407)? -/
def Thread.headMarked (t : Thread) : Bool := match t.blocks with | b :: _ => b.marked | [] => false

/-- R242 with the discarding and the FAULT shaving: the trap of a block or of a boundary is taken. A marked block that faults is no longer
marked (R407). -/
def State.takeTrap (s : State) (slot : Nat) (asynch : Bool) (pc : W64) (x : Trap) : State :=
  let s := s.modThread slot fun t => { t with dbgMark := if !asynch && t.headMarked then none else t.dbgMark }
  let s := s.discardAll slot 3
  let s := s.modThread slot fun t => { t.enterTrap asynch pc x with asleep := false, sleepUntil := none, boundary := false, postTrap := none }
  s.shave (slotCluster slot) 0x05 slot 0 x.cause.code (align64 pc) x.tval

/-- The asynchronous latch of a cause is set; a later event only sets MORE (R245). -/
def Latch.raise (l : Latch) (v : W64) : Latch := if l.set then { l with more := true } else ⟨true, v, false⟩
def Latch.clear : Latch := ⟨false, 0, false⟩

/-- The asynchronous trap that a thread takes at a boundary (R245): POISON before INVOKE_REJECT. -/
def Thread.asyncTrap (t : Thread) : Option Trap :=
  if t.latPoison.set then some ⟨.poison, t.latPoison.tval, tinfo .none 0 0 0 t.latPoison.more⟩
  else if t.latReject.set then some ⟨.invokeReject, t.latReject.tval, tinfo .none 0 0 0 t.latReject.more⟩
  else none

/-- The pending asynchronous trap of a thread is taken, with TPC its pc; its latch is cleared (R245). -/
def State.takeAsync (s : State) (slot : Nat) : State :=
  match tget s.thr slot with
  | none => s
  | some t =>
    match t.asyncTrap with
    | none => s
    | some x =>
      (s.takeTrap slot true t.pc x).modThread slot fun t =>
        if x.cause = .poison then { t with latPoison := Latch.clear } else { t with latReject := Latch.clear }

/-- Is a grid of a thread's core frozen (R409)? -/
def State.frozenFor (s : State) (slot : Nat) (t : Thread) : Bool :=
  if t.sys.fused then (List.range 4).any fun j => (s.grid (4 * (slotGrid slot / 4) + j)).dbg.frozen
  else (s.grid (slotGrid slot)).dbg.frozen

/-- An asynchronous trap becomes pending: it ends a sleep, and is then taken, since the thread stands at a boundary (R234, R245);
a frozen grid holds it back (R409). -/
def State.wakeAsync (s : State) (slot : Nat) : State :=
  match tget s.thr slot with
  | none => s
  | some t =>
    if t.asleep && !t.saving then
      if s.frozenFor slot t then s.modThread slot fun t => { t with boundary := true } else s.takeAsync slot
    else s
def State.raisePoison (s : State) (slot : Nat) (v : W64) : State :=
  (s.modThread slot fun t => { t with latPoison := t.latPoison.raise v }).wakeAsync slot
def State.raiseReject (s : State) (slot : Nat) (v : W64) : State :=
  (s.modThread slot fun t => { t with latReject := t.latReject.raise v }).wakeAsync slot

/-! ### System registers (Tables 1-2, 1-3, 4-3, 7-8, 7-10, 10-5, 15-5) -/

/-- STATUS of Table 1-2. -/
def Thread.status (t : Thread) : W64 :=
  BitVec.ofNat 64 (ofBool t.sys.handler * 2 ^ 15 + ofBool t.sys.resid * 2 ^ 14 + ofBool t.sys.fuseFail * 2 ^ 13
    + ofBool t.sys.fused * 2 ^ 12 + t.sys.img.toNat * 2 ^ 4 + ofBool (t.latPoison.set || t.latReject.set) * 2 ^ 3 + ofBool t.sys.mode)

/-- MFSR of Table 7-10; the numbers without a register read 0 (R404). -/
def Thread.readSr (t : Thread) (c : Nat) : W64 :=
  if c = 0x000 then t.status
  else if c = 0x001 then t.sys.fpcsr.setWidth 64
  else if c = 0x002 then t.ic.setWidth 64
  else if c = 0x003 then t.sys.wid
  else if c = 0x004 then t.sys.invst
  else if c = 0x005 then t.sys.partw.setWidth 64
  else if c = 0x008 then t.sys.hpc
  else if c = 0x009 then t.sys.hg1
  else if c = 0x00A then t.sys.hg2
  else if c = 0x00B then t.sys.hic.setWidth 64
  else if c = 0x010 then t.sys.tvec
  else if c = 0x011 then t.sys.tpc
  else if c = 0x012 then t.sys.tcause
  else if c = 0x013 then t.sys.tval
  else if c = 0x014 then t.sys.tinfo
  else if c = 0x020 then t.sys.ptbase
  else if c = 0x021 then t.sys.asid.setWidth 64
  else if 0x030 ≤ c ∧ c ≤ 0x03F then (t.sys.perf.getD (c - 0x030) 0).setWidth 64
  else if 0x040 ≤ c ∧ c ≤ 0x057 then t.sys.dbg.getD (c - 0x040) 0
  else 0

/-- The bits of a debug register that hold a value (Table 15-5). -/
def dbgMask (j : Nat) : W64 :=
  if j < 8 then (if j % 2 = 0 then BitVec.allOnes 64 else 0x1F07)
  else if j < 16 then (if j % 2 = 0 then ~~~(0x3F : W64) else 1)
  else if j % 4 = 3 then 0xF
  else BitVec.allOnes 64

/-- MTSR of Table 7-10: reserved bits ignore writes (R14), STATUS takes only FUSEFAIL (R26), INVST keeps OUTST (R228). -/
def SysRegs.write (x : SysRegs) (c : Nat) (v : W64) : SysRegs :=
  if c = 0x000 then { x with fuseFail := x.fuseFail && !v.getLsbD 13 }
  else if c = 0x001 then { x with fpcsr := (v &&& 0x1FFF).setWidth 32 }
  else if c = 0x004 then { x with invst := (v &&& 0xFFFFFFFFFF000000) ||| (x.invst &&& 0xFF0000) }
  else if c = 0x008 then { x with hpc := align64 v }
  else if c = 0x009 then { x with hg1 := v }
  else if c = 0x00A then { x with hg2 := v }
  else if c = 0x00B then { x with hic := v.setWidth 32 }
  else if c = 0x010 then { x with tvec := align64 v }
  else if c = 0x011 then { x with tpc := align64 v }
  else if c = 0x012 then { x with tcause := v &&& 0xC00000000000FFFF }
  else if c = 0x013 then { x with tval := v }
  else if c = 0x014 then { x with tinfo := v &&& 0x0FFFFFE0E0FF1F7F }
  else if c = 0x020 then { x with ptbase := v &&& 0x000FFFFFFFFFF000 }
  else if c = 0x021 then { x with asid := v.setWidth 16 }
  else if 0x030 ≤ c ∧ c ≤ 0x03F then { x with perf := x.perf.set (c - 0x030) (v.setWidth 48) }
  else if 0x040 ≤ c ∧ c ≤ 0x057 then { x with dbg := x.dbg.set (c - 0x040) (v &&& dbgMask (c - 0x040)) }
  else x

/-- A thread's registers at launch (Table 1-1): zero, p0 true, handles unbound. -/
def Regs.launch (wides : Nat) : Regs :=
  { g := List.replicate 24 0, v := List.replicate wides ⟨0, false, 0⟩
    p := true :: List.replicate 15 false, h := List.replicate 8 none }

/-- An unbound input port. -/
def InPort.reset : InPort :=
  { pat := none, pos := 0, fifo := [], taken := [], stopped := false, order := 0, fslot := none, firstPost := none }
/-- An unbound output port. -/
def OutPort.reset : OutPort :=
  { pat := none, next := 0, pend := [], out := [], waiting := none, order := 0, landing := none, fslot := none, firstPost := none }

/-- System registers at launch (Table 1-3). -/
def SysRegs.launch : SysRegs :=
  { mode := false, img := 0, fused := false, fuseFail := false, resid := false, handler := false, fpcsr := 0, tvec := 0
    tpc := 0, tcause := 0, tval := 0, tinfo := 0, invst := 0, hpc := 0, hg1 := 0, hg2 := 0, hic := 0, wid := 0, ptbase := 0
    asid := 0, partw := 0, perf := List.replicate 16 0, dbg := List.replicate 24 0 }

/-- A thread at launch with nothing from its record yet (Table 1-1). -/
def Thread.launch (wides gid tidx : Nat) : Thread :=
  { pc := 0, ic := 0, regs := Regs.launch wides, sys := SysRegs.launch
    inp := List.replicate 4 InPort.reset, outp := List.replicate 2 OutPort.reset
    msgs := [], asleep := false, wakeLatch := false, sleepUntil := none, latPoison := Latch.clear, latReject := Latch.clear
    blocks := [], shadow := none, nextSeq := 0, nextPos := 0, boundary := false, postTrap := none, dbgMark := none, frameWait := none, icDue := [], hicDue := [], perfDue := [], tail := [], sibReads := [], syncHold := []
    regWait := [], mrecs := [], crecs := [], qpend := [], acquired := 0, gid := gid, tidx := tidx, widths := [0, 0, 0, 0, 0, 0], first := none
    ending := false, saving := false }

/-- The group of a thread. -/
def State.group (s : State) (g : Nat) : Option Group := tget s.grp g

/-- The member index of a thread (R29). -/
def Thread.memberIdx (t : Thread) : Nat := t.tidx / 8

/-- A device's own half of a local address: HBM below 2^40, the host window to 2^41 (Table 10-2). -/
inductive Region where
  | hbm | host | window | reserved
  deriving DecidableEq, Repr

end Sys2Proof.Machine
end

