-- ==== Sys2Proof/Machine/Fire.lean ====
section
/-! DEFINITION. Firing an entry of a block: what a form of the instruction word sees, when it fires or absorbs (02 R57 to R61,
03 R74 to R76), how its results are delivered, and what the debug units see of it (15 R398, R408 to R411). -/

namespace Sys2Proof.Machine

/-- What an instruction sees when it fires: where it stands, its thread, its block and its entry. -/
structure Site where
  c : Cursor
  t : Thread
  b : Block
  e : Entry

def Site.ref (x : Site) : BRef := ⟨x.c.slot, x.c.seq, x.c.ic⟩
def Site.slot (x : Site) : Nat := x.c.slot
def Site.idx (x : Site) : Nat := x.c.idx
/-- The operands; one that is not there counts as a null (a form asks for those it has). -/
def Site.a (x : Site) : Token := x.e.a.getD .null
def Site.b' (x : Site) : Token := x.e.b.getD .null
def Site.c' (x : Site) : Token := x.e.c.getD .null
def Site.grid (x : Site) : Nat := blockGrid x.c.slot x.t x.b

/-- The entry at the cursor, if it can fire: its block in FIRE, itself not fired (R74). -/
def State.site (s : State) : Option Site :=
  match s.cur with
  | none => none
  | some c =>
    match tget s.thr c.slot with
    | none => none
    | some t =>
      match t.findBlock c.seq c.ic with
      | none => none
      | some b =>
        match b.entries[c.idx]? with
        | none => none
        | some e => if b.state == .fire && e.st == .idle then some ⟨c, t, b, e⟩ else none

/-! ### What the debug units see -/

/-- The entry whose operand or predicate input a target names. -/
def entryOf : Target → Option Nat
  | .none => none
  | .opA i => some i.toNat
  | .opB i => some i.toNat
  | .opC i => some i.toNat
  | .pred i => some i.toNat
  | .slot _ => none

/-- The clk as a grid counts it, its frozen clks left out (R411). -/
def State.gclk (s : State) (g : Nat) : Nat := s.clk - (s.grid g).dbg.frozenClk

/-- A grid is frozen, with the slot of a token breakpoint (R408, R409); a request to a frozen grid has no effect (R410). -/
def State.freeze (s : State) (g cause : Nat) (slotBit : Option Nat) : State :=
  let d := (s.grid g).dbg
  let slots := match slotBit with
    | none => d.slots
    | some j => d.slots ||| BitVec.ofNat 8 (2 ^ j)
  if d.frozen then
    -- breakpoints of one clk cause one freeze, and each sets its bit
    (if d.cause = 1 ∧ cause = 1 ∧ d.since = s.clk then s.modGrid g fun x => { x with dbg := { x.dbg with slots := slots } } else s)
  else
    let s := s.modGrid g fun x =>
      { x with dbg := { x.dbg with frozen := true, since := s.clk, cause := cause, slots := slots, listPos := 0 } }
    s.shave (gridCluster g) 0x12 16383 0 cause (BitVec.ofNat 64 g) 0

/-- The destination of a target as tag bits [10:0] (Table 15-1). -/
def targetTag : Target → Nat
  | .none => 0
  | .opA i => nodeOf i.toNat * 64 + i.toNat % 6 * 8
  | .opB i => nodeOf i.toNat * 64 + i.toNat % 6 * 8 + 1
  | .opC i => nodeOf i.toNat * 64 + i.toNat % 6 * 8 + 2
  | .pred i => nodeOf i.toNat * 64 + i.toNat % 6 * 8 + 3
  | .slot w => w.toNat * 8 + 4

/-- Does token breakpoint `k` of a thread match (R408)? -/
def Thread.tokenBreak (t : Thread) (k tag : Nat) (tok : Token) : Bool :=
  let tb := t.sys.dbg.getD (16 + 4 * k) 0
  let val := t.sys.dbg.getD (17 + 4 * k) 0
  let msk := t.sys.dbg.getD (18 + 4 * k) 0
  let ctl := t.sys.dbg.getD (19 + 4 * k) 0
  let kind := ctl.toNat / 2 % 4
  ctl.getLsbD 0
  && ((BitVec.ofNat 32 tag ^^^ tb.extractLsb' 0 32) &&& tb.extractLsb' 32 32) == 0
  && (match tok with
      | .null => ctl.getLsbD 3
      | .narrow _ => !ctl.getLsbD 3 && (kind == 0 || kind == 1) && ((tok.bits64 ^^^ val) &&& msk) == 0
      | .pred _ => !ctl.getLsbD 3 && (kind == 0 || kind == 2) && ((tok.bits64 ^^^ val) &&& msk) == 0
      | .wide _ => !ctl.getLsbD 3 && (kind == 0 || kind == 3) && ((tok.bits64 ^^^ val) &&& msk) == 0)

/-- A delivered token is shaved and may match a token breakpoint, which freezes its grid (R398, R408). -/
def State.observe (s : State) (r : BRef) (tg : Target) (tok : Token) : State :=
  match s.block r with
  | none => s
  | some (t, b) =>
    let tag := blockTag r.slot b + targetTag tg
    let s := s.shave (slotCluster r.slot) 0x01 r.slot tag tok.kindCode b.addr tok.bits64
    if t.tokenBreak 0 tag tok || t.tokenBreak 1 tag tok then
      s.freeze (blockGrid r.slot t b) 1 (some (slotInGrid r.slot))
    else s

/-- How many inputs an entry has received; what ARG has read is none. -/
def Entry.inputs (e : Entry) : Nat := ofBool (e.a.isSome && (fieldsOf e.word).op != 0x03) + ofBool e.b.isSome + ofBool e.c.isSome + ofBool e.p.isSome

/-- Is operand `k` of entry `i` named by a read entry or by a target of the block (R86, R211)? -/
def Block.names (b : Block) (k i : Nat) : Bool :=
  let c := BitVec.ofNat 10 ((k + 1) * 128 + i)
  b.reads.any (fun r => r.t0.code == c || r.t1.code == c)
  || b.entries.any (fun e => e.word.extractLsb' 40 10 == c || e.word.extractLsb' 30 10 == c)

/-- Is operand A of the form of an opcode needed only where the block names it (R86, R211)? -/
def optionalA (op fn : Nat) : Bool :=
  op == 0x05 || op == 0x07 || op == 0x0A || op == 0x5C || (0xC2 ≤ op && op ≤ 0xC5) || op == 0xC8 || (0xD0 ≤ op && op ≤ 0xD2)
    || (op == 0xD4 && fn == 2) || op == 0xD5 || op == 0xDA

/-- Has the form of an entry operand `k`: one of its own, and an optional one only where the block names it? -/
def Block.takes (b : Block) (i : Nat) (f : Fields) (k : Nat) : Bool :=
  f.hasOperand k && (k != 0 || !optionalA f.op.toNat f.fn.toNat || b.names 0 i)

/-- How many inputs the form of an entry has among its operands and its predicate input (R411). -/
def Block.inputsOf (b : Block) (i : Nat) (e : Entry) : Nat :=
  let f := fieldsOf e.word
  ((List.range 3).filter (b.takes i f)).length + ofBool (f.pm != 0)

/-- How many of them receive a token: MERGE takes one of its two operands (Table 3-1). -/
def Block.inputsDue (b : Block) (i : Nat) (e : Entry) : Nat :=
  b.inputsOf i e - ofBool ((fieldsOf e.word).op == 0x37)

/-- The bin of a wait (R411). -/
def waitBin (w : Nat) : Nat :=
  if w = 0 then 0 else if 2 ^ 14 ≤ w then 15 else (List.range 15).foldl (fun b i => if 2 ^ i ≤ w then i + 1 else b) 0

/-- The number of a histogram bin: grid, node, bin. -/
def binKey (g n b : Nat) : Nat := (g * 20 + n) * 16 + b

/-- R411: an entry's wait is counted; a bin that would pass 0xFFFF restarts and 65,536 goes to the spill area. -/
def State.countEntry (s : State) (g i : Nat) (e : Entry) : State :=
  if (s.die (gridDie g)).dbg.hctl.getLsbD 63 then
    let b := waitBin (e.last - e.first)
    let k := binKey g (nodeOf i) b
    let v := (tget s.hist k).getD 0
    if v = 0xFFFF then { s with hist := tdel s.hist k }.post [.histogramBinOverflow g (nodeOf i) b]
    else { s with hist := tput s.hist k (v + 1) }
  else s

/-- R411: a firing or absorbing entry of a form with two inputs or more counts its wait once its last input is there. -/
def State.countWait (s : State) (g i : Nat) (b : Block) (e : Entry) : State :=
  if (s.die (gridDie g)).dbg.hctl.getLsbD 63 ∧ 2 ≤ b.inputsOf i e ∧ b.inputsDue i e ≤ e.inputs then s.countEntry g i e else s

/-- Is a wait still to be counted: has an entry absorbed before its last input came? -/
def Block.uncounted (b : Block) (i : Nat) (e : Entry) : Bool :=
  e.st == .absorbed && decide (2 ≤ b.inputsOf i e) && decide (e.inputs < b.inputsDue i e)

/-- The last input of an entry that had absorbed before it came. -/
def State.countLate (s : State) (r : BRef) (tg : Target) (before : Block) : State :=
  match entryOf tg, s.block r with
  | some i, some (t, b) =>
    (match before.entries[i]?, b.entries[i]? with
     | some x, some e => if before.uncounted i x && !b.uncounted i e then s.countEntry (blockGrid r.slot t b) i e else s
     | _, _ => s)
  | _, _ => s

/-- What a committed block leaves uncounted: entries that absorbed and whose last inputs never came count the wait of those that did (log entry
57). -/
def State.countLeft (s : State) (g : Nat) (b : Block) : State :=
  b.entries.zipIdx.foldl (fun s p => if b.uncounted p.2 p.1 then s.countEntry g p.2 p.1 else s) s

/-- A token is delivered to one target of a block in flight. -/
def State.deliver1 (s : State) (r : BRef) (tg : Target) (tok : Token) : State :=
  match tg with
  | .none => s
  | _ =>
    match s.block r with
    | none => s
    | some (t, b) =>
      (((s.modBlock r fun b => b.put (s.gclk (blockGrid r.slot t b)) tg tok).countLate r tg b).observe r tg tok)

/-- The results of a form: one token for each target. -/
def State.deliver (s : State) (r : BRef) (h : Hdr) (x y : Token) : State := (s.deliver1 r h.t0 x).deliver1 r h.t1 y

/-! ### Firing -/

/-- The entry has taken its inputs: its state changes, its wait is counted, the cursor is free. -/
def State.mark (s : State) (x : Site) (st : EState) : State :=
  ({ s with cur := none }.countWait x.grid x.idx x.b x.e).modBlock x.ref fun b => b.modEntry x.idx fun e => { e with st := st }

/-- Has the predicate input the value that PM asks for (R61)? `none`: it has not arrived. -/
def pmMatches (pm : Pm) (p : Option Bool) : Option Bool :=
  match pm, p with
  | .always, _ => some true
  | .onTrue, some v => some v
  | .onFalse, some v => some !v
  | _, none => none

/-- Do all entries that carry an LSID stand absorbed (R179)? -/
def Block.lsidAbsorbed (b : Block) (l : Nat) : Bool :=
  b.entries.all fun e =>
    match decode e.word with
    | .ok i => if i.lsid.map (·.1) == some l then e.st == .absorbed else true
    | .error _ => true

/-- R61, R179: an entry whose predicate does not match absorbs its inputs; its LSID is predicated out once every entry that
carries it is absorbed. -/
def State.absorb (s : State) (x : Site) (lsid : Option Nat) : State :=
  let s := s.mark x .absorbed
  match lsid with
  | none => s
  | some l => s.modBlock x.ref fun b =>
      if b.lsidAbsorbed l then { b with lsids := b.lsids ++ [(l, .predicatedOut)] } else b

/-- A form fires at the cursor: on a predicate that matches and when `ready` it does `k`; on one that does not match it
absorbs (R61, R74). -/
def fireWhen (pm : Pm) (lsid : Option Nat) (ready : Site → State → Bool) (k : Site → State → State) (s : State) : Out :=
  match s.site with
  | none => .fault .noEntry
  | some x =>
    match pmMatches pm x.e.p with
    | none => .fault .notReady
    | some false => .next (s.absorb x lsid)
    | some true => if ready x s then .next (k x (s.mark x .fired)) else .fault .notReady

/-- Have the operands of a list arrived? -/
def Site.has (x : Site) (l : List Nat) : Bool := l.all fun j => (x.e.operand j).isSome

/-- A form that fires with the operands it needs. -/
def fire (pm : Pm) (lsid : Option Nat) (need : Site → List Nat) (k : Site → State → State) (s : State) : Out :=
  fireWhen pm lsid (fun x _ => x.has (need x)) k s

/-- The operands of a form without options. -/
def ops (l : List Nat) : Site → List Nat := fun _ => l

/-- The operand that a trigger form needs only if the block names it (R86, R211). -/
def trigger : Site → List Nat := fun x => if x.b.names 0 x.idx then [0] else []

/-- Operands A, and B unless an immediate stands for it. -/
def opsG {n : Nat} (b : Option (BitVec n)) : Site → List Nat := fun _ => if b.isSome then [0] else [0, 1]

/-! ### The shapes of computing forms -/

/-- The narrow value of a token; a predicate counts as 0 or 1. -/
def Token.word : Token → W64
  | .narrow v => v
  | .pred b => if b then 1 else 0
  | _ => 0

/-- The truth of a predicate token. -/
def Token.truth : Token → Bool
  | .pred b => b
  | _ => false

/-- The wide value of a token. -/
def Token.wideOf : Token → Wide
  | .wide w => w
  | _ => ⟨0, false, 0⟩

/-- Is any of the operands that a firing takes a null (R76)? -/
def Site.anyNull (x : Site) (l : List Nat) : Bool := l.any fun j => x.e.operand j == some .null

/-- A computing form (R76): a null operand gives nulls, else the two results. -/
def compute (h : Hdr) (need : Site → List Nat) (f : Site → Token × Token) (s : State) : Out :=
  fire h.pm none need (fun x s =>
    if x.anyNull (need x) then s.deliver x.ref h .null .null
    else s.deliver x.ref h (f x).1 (f x).2) s

/-- A computing form with one narrow operand. -/
def compute1 (h : Hdr) (f : W64 → Token) (s : State) : Out :=
  compute h (ops [0]) (fun x => (f x.a.word, f x.a.word)) s

/-- A computing form with operand B or a sign-extended immediate (R77). -/
def compute2 {n : Nat} (h : Hdr) (b : Option (BitVec n)) (f : W64 → W64 → Token) (s : State) : Out :=
  compute h (opsG b) (fun x =>
    let v := match b with
      | none => x.b'.word
      | some i => i.signExtend 64
    (f x.a.word v, f x.a.word v)) s

/-- A computing form with three narrow operands. -/
def compute3 (h : Hdr) (f : W64 → W64 → W64 → Token) (s : State) : Out :=
  compute h (ops [0, 1, 2]) (fun x => (f x.a.word x.b'.word x.c'.word, f x.a.word x.b'.word x.c'.word)) s

/-- A failure found as a form fires: held by the block, naming the instruction (R32). -/
def State.holdAt (s : State) (x : Site) (c : Cause) (tval : W64) (lsid : Option Nat) : State :=
  s.modBlock x.ref fun b => b.hold .fire x.idx (b.insTrap c tval x.idx lsid)

/-- Floating-point flags of a firing: united in the block, and kept with their index for the trap test (R105, R123). -/
def State.raise (s : State) (x : Site) (fl : BitVec 5) : State :=
  if fl = 0 then s
  else s.modBlock x.ref fun b =>
    { b with flags := b.flags ||| fl, held := b.held ++ [⟨.fp, x.idx, b.insTrap .fpTrap (fl.setWidth 64) x.idx none⟩] }

/-- A floating-point form: flags and results. It waits until its block has taken the rounding field and FTZ (R104). -/
def computeFp (h : Hdr) (need : Site → List Nat) (f : Site → Token × BitVec 5) (s : State) : Out :=
  fireWhen h.pm none (fun x _ => x.has (need x) && x.b.fp.isSome) (fun x s =>
    if x.anyNull (need x) then s.deliver x.ref h .null .null
    else (s.raise x (f x).2).deliver x.ref h (f x).1 (f x).1) s

/-- The rounding field and FTZ that a block took at FIRE entry (R104): RM in [1:0], FTZ in [2]. -/
def Block.rm (b : Block) : Rnd :=
  match (b.fp.getD 0).toNat % 4 with
  | 0 => .rne | 1 => .rtz | 2 => .rup | _ => .rdn
def Block.ftz (b : Block) : Bool := (b.fp.getD 0).getLsbD 2

/-- The rounding that a code selects (R104). -/
def Site.rnd (x : Site) (r : Rnd) : Rnd :=
  match r with
  | .fpcsr => x.b.rm
  | r => r

/-- An effect that waits for the commit (R33). -/
def State.recordAt (s : State) (x : Site) (i : Instr) (bytes : List Byte) (loc : Option WLoc) (pieces : List Piece) : State :=
  s.modBlock x.ref fun b => { b with effs := b.effs ++ [⟨x.idx, i, x.e.a, x.e.b, x.e.c, bytes, loc, pieces⟩] }

/-- An effect without an address. -/
def State.record (s : State) (x : Site) (i : Instr) (bytes : List Byte) : State := s.recordAt x i bytes none []

/-- How an LSID stands once its instruction has fired (R179). -/
def State.resolve (s : State) (x : Site) (l : Nat) (r : Resolved) : State :=
  s.modBlock x.ref fun b => { b with lsids := b.lsids ++ [(l, r)] }

end Sys2Proof.Machine
end

