-- ==== Sys2Proof/Machine/Operands.lean ====
section
/-! DEFINITION. How operands are read and results extended: the helpers of 03_scalar_control.md R77, immediates, conditions,
and the lanes of wide tokens (05 R138, R139). -/

namespace Sys2Proof.Machine

/-- The width in bits that FN[0] names (R77). -/
def widthBits : Width → Nat
  | .w32 => 32 | .w64 => 64

/-- U(x, w) of R77. -/
def uns (x : W64) (w : Nat) : Nat := x.toNat % 2 ^ w

/-- S(x, w) of R77. -/
def sgn (x : W64) (w : Nat) : Int := sInt x.toNat w

/-- Ext(y, w, s) of R77, from the w-bit value of a number. -/
def ext (y w : Nat) (s : Bool) : W64 :=
  let z := y % 2 ^ w
  if s && w < 64 then BitVec.ofInt 64 (sInt z w) else BitVec.ofNat 64 z

/-- A narrow result token from a w-bit value. -/
def narrowTok (y w : Nat) (s : Bool) : Token := .narrow (ext y w s)

/-- The conditions of FN scheme CC (R97) over w-bit values. -/
def condHolds (c : Cond) (a b : Nat) (w : Nat) : Bool :=
  match c with
  | .eq => a % 2 ^ w == b % 2 ^ w
  | .ne => a % 2 ^ w != b % 2 ^ w
  | .lt => decide (sInt a w < sInt b w)
  | .le => decide (sInt a w ≤ sInt b w)
  | .gt => decide (sInt b w < sInt a w)
  | .ge => decide (sInt b w ≤ sInt a w)
  | .ltu => decide (a % 2 ^ w < b % 2 ^ w)
  | .leu => decide (a % 2 ^ w ≤ b % 2 ^ w)
  | .gtu => decide (b % 2 ^ w < a % 2 ^ w)
  | .geu => decide (b % 2 ^ w ≤ a % 2 ^ w)

/-- An exact integer narrowed as R91 and R142 select: the w-bit value. -/
def narrowTo (v : Int) (w : Nat) : Narrowing → Nat
  | .wrap => wrapN v w
  | .ssat => wrapN (satI v (-(2 ^ (w - 1) : Int)) (2 ^ (w - 1) - 1)) w
  | .usat => wrapN (satI v 0 (2 ^ w - 1)) w

/-- A w-bit value read as the narrowing reads its operands: unsigned for .u.sat, else signed (R91, R142). -/
def readAs (n : Narrowing) (x w : Nat) : Int :=
  match n with
  | .usat => ((x % 2 ^ w : Nat) : Int)
  | _ => sInt x w

/-- The number of a w-bit value's leading zero bits (Table 3-4). -/
def clzN (x w : Nat) : Nat := if x % 2 ^ w = 0 then w else w - 1 - (x % 2 ^ w).log2

/-- The bits of a number, lowest first. -/
def bitsList (x : Nat) : Nat → List Bool
  | 0 => []
  | n + 1 => (x % 2 == 1) :: bitsList (x / 2) n

/-- The number that bits, lowest first, stand for. -/
def bitsNat : List Bool → Nat
  | [] => 0
  | b :: l => ofBool b + 2 * bitsNat l

/-- Trailing zero bits, w if all are zero (Table 3-4). -/
def ctzN (x w : Nat) : Nat := ((bitsList x w).takeWhile (!·)).length

/-- One bits (Table 3-4). -/
def popcN (x w : Nat) : Nat := ((bitsList x w).filter id).length

/-- Bit j of the result is bit w-1-j (Table 3-4). -/
def brevN (x w : Nat) : Nat := bitsNat (bitsList x w).reverse

/-- Byte j of the result is byte w/8-1-j (Table 3-4). -/
def bswapN (x w : Nat) : Nat := leNat (leBytes x (w / 8)).reverse

/-- The length n of a bit field that a control word gives (R93). -/
def fieldLen (k w : Nat) : Nat :=
  let pos := k % 64
  let len := k / 256 % 128
  if len ≠ 0 ∧ pos < w then min len (w - pos) else 0

/-- EXTR of R93. -/
def extrN (x k w : Nat) (u : Bool) : Nat :=
  let n := fieldLen k w
  if n = 0 then 0
  else
    let f := x % 2 ^ w / 2 ^ (k % 64) % 2 ^ n
    if u then f else wrapN (sInt f n) w

/-- INSB of R93. -/
def insbN (x b k w : Nat) : Nat :=
  let n := fieldLen k w
  let y := x % 2 ^ w
  let p := k % 64
  if n = 0 then y
  else y % 2 ^ p + b % 2 ^ n * 2 ^ p + y / 2 ^ (p + n) * 2 ^ (p + n)

/-- Division by R92: quotient and remainder of w-bit values, signed or unsigned. -/
def divN (a b w : Nat) (u : Bool) : Nat :=
  if b % 2 ^ w = 0 then 2 ^ w - 1
  else if u then a % 2 ^ w / (b % 2 ^ w)
  else wrapN ((sInt a w).tdiv (sInt b w)) w

def remN (a b w : Nat) (u : Bool) : Nat :=
  if b % 2 ^ w = 0 then a % 2 ^ w
  else if u then a % 2 ^ w % (b % 2 ^ w)
  else wrapN ((sInt a w).tmod (sInt b w)) w

/-- ROTL of Table 3-4. -/
def rotlN (a n w : Nat) : Nat :=
  let x := a % 2 ^ w
  let k := n % w
  (x * 2 ^ k) % 2 ^ w + x / 2 ^ (w - k)

/-- The effective address of a memory form: A plus a sign-extended offset, wrapped (R176). -/
def effAddr (a : W64) (off : BitVec 22) : W64 := a + off.signExtend 64

/-! ### Lanes of wide tokens -/

/-- The lanes of a wide token's data, each a number of `w` bits, lane 0 lowest (R139). -/
def lanesOf (d : WideBits) (w : Nat) : List Nat := (List.range (1024 / w)).map fun j => d.toNat / 2 ^ (w * j) % 2 ^ w

/-- Lane `j`. -/
def laneOf (d : WideBits) (w j : Nat) : Nat := d.toNat / 2 ^ (w * j) % 2 ^ w

/-- The number of lanes, lowest first. -/
def packLanes (w : Nat) : List Nat → Nat
  | [] => 0
  | x :: l => x % 2 ^ w + 2 ^ w * packLanes w l

/-- Wide data from lanes. -/
def ofLanes (w : Nat) (l : List Nat) : WideBits := BitVec.ofNat 1024 (packLanes w l)

/-- An unscaled wide token (R125). -/
def unscaled (d : WideBits) : Token := .wide ⟨d, false, 0⟩

/-- The bytes of wide data, byte 0 lowest (R10). -/
def wideBytes (d : WideBits) : List Byte := leBytes d.toNat 128

/-- Wide data from bytes, the missing ones zero. -/
def ofBytes (l : List Byte) : WideBits := BitVec.ofNat 1024 (leNat l)

end Sys2Proof.Machine
end

