-- ==== Sys2Proof/Machine/Translate.lean ====
section
/-! DEFINITION. Address translation (10_translation.md R295 to R307): canonical addresses, page-table entries, the walk, the
checks of an access in their order, and the TLBs. -/

namespace Sys2Proof.Machine

/-- R295: bits [63:57] copy bit 56. -/
def canonical (va : W64) : Bool := (va.extractLsb' 0 57).signExtend 64 == va

/-- The kinds of access that translation tells apart (R303). -/
inductive AKind where
  | load | store | fetch
  deriving DecidableEq, Repr

/-- V of a page-table entry. -/
def pteV (e : W64) : Bool := e.getLsbD 0
/-- R297: a leaf has R, W or X. -/
def pteLeaf (e : W64) : Bool := e.getLsbD 1 || e.getLsbD 2 || e.getLsbD 3
/-- NEXT or FRAME as a local address. -/
def pteAddr (e : W64) : Nat := bitsOf e.toNat 51 12 * 4096

/-- The bits that a page of a level's leaf leaves as offset: 12, 21 or 30. -/
def levelBits (lvl : Nat) : Nat := 12 + 9 * (lvl - 1)

/-- R297, R298: is a valid entry malformed at a level? -/
def pteMalformed (e : W64) (lvl : Nat) : Bool :=
  if pteLeaf e then
    e.getLsbD 11 || (e.getLsbD 2 && !e.getLsbD 1) || decide (3 < lvl)
      || (pteAddr e % 2 ^ levelBits lvl != 0) || (e.getLsbD 8 && lvl == 2)
  else
    lvl == 1 || bitsOf e.toNat 63 52 != 0 || bitsOf e.toNat 11 4 != 0 || decide (2 ^ 40 ≤ pteAddr e)

/-- The attributes of a leaf (Table 10-4). -/
def leafOf (e : W64) : Leaf :=
  { img := e.extractLsb' 58 6, vc := e.extractLsb' 52 6, cmode := e.extractLsb' 9 2, g := e.getLsbD 5, u := e.getLsbD 4
    x := e.getLsbD 3, w := e.getLsbD 2, r := e.getLsbD 1, d := e.getLsbD 7 }

/-- The index of a virtual address at a level (Table 10-1). -/
def vaIndex (va : Nat) (lvl : Nat) : Nat := va / 2 ^ levelBits lvl % 512

/-! ### Reading at the home -/

/-- The number of the line that holds a local address of this module. -/
def lineOf (la : Nat) : Nat := la / 128
def pageOf (la : Nat) : Nat := la / 4096

/-- The byte of HBM of this module as its home holds it: in the L2, or in HBM (R283, R285). -/
def State.hbmByte (s : State) (la : Nat) : Byte :=
  match tget s.coh.l2 (lineOf la) with
  | some l => l.data.extractLsb' (8 * (la % 128)) 8
  | none => rd1 s.hbm la

/-- The byte at a local address: HBM or the host memory window (Table 10-2). -/
def State.laByte (s : State) (la : Nat) : Byte := if la < 2 ^ 40 then s.hbmByte la else rd1 s.host (la - 2 ^ 40)

/-- Bytes at local addresses. -/
def State.laBytes (s : State) (la : Nat) : Nat → List Byte
  | 0 => []
  | n + 1 => s.laByte la :: s.laBytes (la + 1) n

/-- Eight bytes at a table's home. -/
def State.pte (s : State) (la : Nat) : W64 := BitVec.ofNat 64 (leNat (s.laBytes la 8))

/-! ### The walk (R302) -/

/-- How a walk ends: at a level without an entry or with a malformed one, or at a leaf with its address and level. -/
inductive Walked where
  | fault (lvl : Nat) (mal : Bool)
  | leaf (addr : Nat) (e : W64) (lvl : Nat)
  deriving DecidableEq, Repr

/-- R302 from a table at a level down; the fuel is the level. -/
def State.walkFrom (s : State) (va : Nat) : Nat → Nat → Walked
  | 0, _ => .fault 1 true
  | lvl + 1, t =>
    let a := t + 8 * vaIndex va (lvl + 1)
    let e := s.pte a
    if !pteV e then .fault (lvl + 1) false
    else if pteMalformed e (lvl + 1) then .fault (lvl + 1) true
    else if pteLeaf e then .leaf a e (lvl + 1)
    else s.walkFrom va lvl (pteAddr e)

/-- The walk of an address under a root. For a root at or above 2^40 the spec gives no outcome: the model reads its entries at that local
address, in the window of host memory (log entry 71). -/
def State.walk (s : State) (ptbase : W64) (va : W64) : Walked := s.walkFrom (va.toNat % 2 ^ 57) 5 (pteAddr ptbase)

/-- The table pointers that a walk passes from a table at a level down: each pointer's level, and the table it names. -/
def State.pointers (s : State) (va : Nat) : Nat → Nat → List (Nat × Nat)
  | 0, _ => []
  | lvl + 1, t =>
    let e := s.pte (t + 8 * vaIndex va (lvl + 1))
    if pteV e && !pteMalformed e (lvl + 1) && !pteLeaf e then (lvl + 1, pteAddr e) :: s.pointers va lvl (pteAddr e) else []

/-- Where a walker of a die begins: at the table of the lowest pointer of the address that its walk cache holds, or at the root
(R305, Table 10-7: a level in the walk cache is not read). -/
def Die.walkStart (d : Die) (asid : BitVec 16) (ptbase : W64) (va : Nat) : Nat × Nat :=
  let at? (lvl : Nat) : Option (Nat × Nat) :=
    (d.walkCache.find? fun e => e.asid == asid && e.lvl == lvl && e.path == va / 2 ^ levelBits lvl).map fun e => (lvl - 1, e.table)
  ([2, 3, 4, 5].findSome? at?).getD (5, pteAddr ptbase)

/-- The pointers of a walk placed in the walk cache of 256 entries; the oldest go. -/
def State.cachePath (s : State) (die : Nat) (asid : BitVec 16) (va : Nat) (l : List (Nat × Nat)) : State :=
  if l.isEmpty then s
  else s.modDie die fun d =>
    { d with walkCache := ((l.map fun x => (⟨asid, x.1, va / 2 ^ levelBits x.1, x.2⟩ : WcEnt)) ++ d.walkCache).take 256 }

/-- The members of the contiguous group of a leaf (R299): how many, and this leaf's place. -/
def groupSize (lvl : Nat) : Nat := if lvl = 1 then 16 else 64

/-- Is the contiguous group of a leaf well formed (R299)? -/
def State.groupOk (s : State) (addr : Nat) (lvl : Nat) : Bool :=
  let n := groupSize lvl
  let base := addr / (8 * n) * (8 * n)
  let mask : W64 := 0xFFF0000000000F3F
  let e0 := s.pte base
  (List.range n).all fun j =>
    let e := s.pte (base + 8 * j)
    pteV e && e.getLsbD 8 && (e &&& mask) == (e0 &&& mask) && pteAddr e == pteAddr e0 + j * 2 ^ levelBits lvl

/-- The leaf that an access uses, at its address, with the frame that it maps (R299): its own; in a group that is not well
formed, its own or another member's with the frame moved by the distance: the choice is open. -/
def State.useLeaf (s : State) (addr : Nat) (e : W64) (lvl : Nat) : State × Nat × W64 × Int :=
  if e.getLsbD 8 && !s.groupOk addr lvl then
    let n := groupSize lvl
    let base := addr / (8 * n) * (8 * n)
    let i := (addr - base) / 8
    let (k, s') := s.draw
    let j := Config.freeNat k % n
    let f := s.pte (base + 8 * j)
    if pteV f && f.getLsbD 8 && pteLeaf f && !pteMalformed f lvl then
      (s', base + 8 * j, f, (pteAddr f : Int) + ((i : Int) - j) * (2 ^ levelBits lvl : Nat))
    else (s', addr, e, pteAddr e)
  else (s, addr, e, pteAddr e)

/-! ### Regions and the checks of an access (R296, R303) -/

/-- Region of a local address from a leaf (Table 10-2). -/
def regionOf (la : Nat) : Region :=
  if la < 2 ^ 40 then .hbm
  else if la < 2 ^ 41 then .host
  else if la < 2 ^ 41 + 2 ^ 32 then .window
  else .reserved

/-- Is the CMODE permitted for the region (Table 10-2)? -/
def cmodeOk (cmode : Nat) (la : Nat) : Bool :=
  if cmode = 1 then true
  else match regionOf la with
    | .hbm => true
    | .host => cmode == 0 || cmode == 3
    | .window => cmode == 3
    | .reserved => false

/-- The global physical address of a local address from a leaf: device times 2^52 plus local address (R296). -/
def globalPa (dev cmode la : Nat) : Nat :=
  if cmode = 1 then la / 2 ^ 40 % 4096 * 2 ^ 52 + la % 2 ^ 40 else dev * 2 ^ 52 + la

def paDev (pa : Nat) : Nat := pa / 2 ^ 52
def paLa (pa : Nat) : Nat := pa % 2 ^ 52

/-- The home die of a local address of HBM (R281). -/
def homeDie (la : Nat) : Nat := la / 2 ^ 38 % 4
/-- The stack of the home die that holds a local address of HBM (R281). -/
def homeStack (la : Nat) : Nat := la / 2 ^ 8 % 4 ^^^ la / 2 ^ 12 % 4

/-- The state of the virtual cache of a page lets it be used (R290); the write policy answers whether it is read-only. -/
def State.vcCheck (s : State) (die vc : Nat) : Bool :=
  let v := (s.die die).vc vc
  match v.state with
  | .disabled => false
  | .active => v.spb != 0
  | .resizing => v.spb != 0 || (s.die die).migs.any fun m => m.vc == vc && (m.new.spb != 0 || m.old.spb != 0)

/-- R303, items 2 to 5: the first failure of an access through a leaf. -/
def State.checkLeaf (s : State) (l : Leaf) (rawLa : Nat) (k : AKind) (sup : Bool) (img : BitVec 6) : Option Cause :=
  let perm := match k with
    | .load => l.r
    | .store => l.w
    | .fetch => l.x
  if !(perm && (sup || l.u)) then some .prot
  else if !cmodeOk l.cmode.toNat rawLa then some .prot
  else
    let pa := globalPa s.dev l.cmode.toNat rawLa
    let own := paDev pa == s.dev
    if l.cmode.toNat = 1 ∧ ¬ own ∧ ¬ s.reach.contains (paDev pa) then some .prot
    else if k != .fetch && l.img != 0 && l.img != img then some .imageTag
    else if own && paLa pa < 2 ^ 40 then
      let d := homeDie (paLa pa)
      if !s.vcCheck d l.vc.toNat then some .vcFault
      else if k == .store && ((s.die d).vc l.vc.toNat).wpol == 3 then some .prot
      else none
    else none

/-! ### TLBs (R305, R307) -/

/-- Does an entry translate an address for an ASID? -/
def TlbEnt.hits (e : TlbEnt) (asid : BitVec 16) (va : Nat) : Bool :=
  (e.leaf.g || e.asid == asid) && va / 2 ^ e.bits == e.va

/-- The first entry of the grid's L1 TLB or of the cluster TLB that translates an address; for a store-class access one whose
D bit is set (R300, R305). Engine accesses look up the cluster TLB only. -/
def State.tlbFind (s : State) (cl : Nat) (grid : Option Nat) (asid : BitVec 16) (va : W64) (store : Bool) : Option TlbEnt :=
  let l := (match grid with | some g => (s.grid g).tlb | none => []) ++ (s.cl cl).tlb
  l.find? fun e => e.hits asid (va.toNat % 2 ^ 57) && (!store || e.leaf.d)

/-- The raw local address that an entry gives an address. -/
def TlbEnt.addr (e : TlbEnt) (va : W64) : Nat := e.la + va.toNat % 2 ^ e.bits

/-- Entries of the TLBs of Table 10-7. -/
def clusterTlbSize : Nat := 8192
def gridTlbSize : Nat := 1024

/-- An entry placed in the TLBs of Table 10-7 (at the front: a newer version of a page is found first; the oldest go). -/
def State.tlbFill (s : State) (cl : Nat) (grid : Option Nat) (e : TlbEnt) : State :=
  let s := s.modCl cl fun c => { c with tlb := (e :: c.tlb).take clusterTlbSize }
  match grid with
  | some g => s.modGrid g fun x => { x with tlb := (e :: x.tlb).take gridTlbSize }
  | none => s

/-- The pieces of an access: virtual addresses and lengths within aligned 16-byte granules (R252); the fuel bounds their
number. -/
def splitPieces (va : Nat) (len : Nat) : Nat → List (Nat × Nat)
  | 0 => []
  | n + 1 =>
    if len = 0 then []
    else
      let k := min len (16 - va % 16)
      (va, k) :: splitPieces (va + k) (len - k) n

/-- The pieces of an access of at most 128 bytes, or of an engine's range of any length. -/
def piecesOf (va : W64) (len : Nat) : List (W64 × Nat) :=
  (splitPieces va.toNat len (len / 16 + 2)).map fun p => (BitVec.ofNat 64 p.1, p.2)

/-- What translation answers for an access: its pieces, the first failure with its address, or an address to walk. -/
inductive Trans where
  | ok (l : List Piece)
  | fault (c : Cause) (va : W64)
  | miss (va : W64)
  deriving DecidableEq, Repr

/-- Who accesses: the TLBs it looks up, its address space, mode and image tag. -/
structure Who where
  cl : Nat
  grid : Option Nat
  asid : BitVec 16
  ptbase : W64
  sup : Bool
  img : BitVec 6
  deriving DecidableEq, Repr

/-- The thread's side of translation. -/
def Thread.who (t : Thread) (slot grid : Nat) : Who :=
  ⟨slotCluster slot, some grid, t.sys.asid, t.sys.ptbase, t.sys.mode, t.sys.img⟩

/-- An entry's attributes and address as a piece. -/
def State.pieceOf (s : State) (e : TlbEnt) (va : W64) (n : Nat) : Piece :=
  ⟨globalPa s.dev e.leaf.cmode.toNat (e.addr va), n, e.leaf⟩

/-- R303 over the pieces of an access, lowest first. A store-class access is checked against the leaf before its D bit is
looked at (R300). -/
def State.translatePieces (s : State) (w : Who) (k : AKind) : List (W64 × Nat) → Trans
  | [] => .ok []
  | (va, n) :: l =>
    if !canonical va then .fault .pageFault va
    else
      match s.tlbFind w.cl w.grid w.asid va false with
      | none => .miss va
      | some e0 =>
        match s.checkLeaf e0.leaf (e0.addr va) k w.sup w.img with
        | some c => .fault c va
        | none =>
          match s.tlbFind w.cl w.grid w.asid va (k == .store) with
          | none => .miss va
          | some e =>
            match s.checkLeaf e.leaf (e.addr va) k w.sup w.img with
            | some c => .fault c va
            | none =>
              match s.translatePieces w k l with
              | .ok ps => .ok (s.pieceOf e va n :: ps)
              | r => r

/-- Translation of an access. -/
def State.translate (s : State) (w : Who) (k : AKind) (va : W64) (len : Nat) : Trans := s.translatePieces w k (piecesOf va len)

end Sys2Proof.Machine
end

