-- ==== Sys2Proof/Machine/Home.lean ====
section
/-! DEFINITION. The homes of memory: agents and their timeouts (14 R373 to R376), messages to other modules and to the host (14
R392 to R396), the L2 and its virtual caches (09 R281 to R289), the directory, its probes and the replay of loads (14 R377 to
R379, 08 R255, R256), page directory and bias table as they gate an access (14 R380 to R383, R389), poison (14 R386), and a
write and a read at a home. -/

namespace Sys2Proof.Machine

/-! ### Time and agents -/

/-- The time base in ninths of a nanosecond: a cycle of 1.8 GHz is 5/9 ns (R434). -/
def State.ns9 (s : State) : Nat := 5 * s.time

/-- Numbers of agents in a home's table (Table 14-1). -/
def dieAgent (dev die : Nat) : Nat := 1024 + 4 * dev + die
def hostAgent : Nat := 2 ^ 20

/-- The state of an agent: 0 LIVE, 1 SLEEPING, 2 DEAD (R373). -/
def Die.agent (d : Die) (a : Nat) : Nat := (tget d.agents a).getD 0

/-- An event of a die is shaved at its cluster 0 (Table 15-2: GSLOT 16,383). -/
def State.shaveDie (s : State) (d ty info : Nat) (addr value : W64) : State := s.shave (128 * d) ty 16383 0 info addr value

/-- An agent's state changes, and the change goes to the black box (R373). -/
def State.setAgent (s : State) (d a st : Nat) : State :=
  if (s.die d).agent a = st then s
  else
    let s := s.modDie d fun x => { x with agents := if st = 0 then tdel x.agents a else tput x.agents a st }
    let dev := if a < 1024 ∨ a = hostAgent then s.dev else (a - 1024) / 4
    s.shaveDie d 0x16 (a % 65536 * 65536 + st) (BitVec.ofNat 64 dev) 0

/-- A cluster's agent entry at every home; one that is DEAD stays so until the cluster has been reset (R375). -/
def State.clusterAgent (s : State) (c st : Nat) : State :=
  (List.range 4).foldl (fun s d => if (s.die d).agent c = 2 then s else s.setAgent d c st) s

/-- A probe that reaches a cluster in RETENTION wakes it (R374). -/
def State.wakeCluster (s : State) (c : Nat) : State :=
  if (s.cl c).power = .retention then (s.modCl c fun x => { x with power := .on, since := s.ns9 }).clusterAgent c 0 else s

/-- A response that a home awaits: 2 µs, or 20 µs of a SLEEPING agent (R374). -/
def State.await (s : State) (d a line : Nat) (stamp : BitVec 8) : State :=
  let limit := if (s.die d).agent a = 1 then 180000 else 18000
  { s with coh := { s.coh with awaits := s.coh.awaits ++ [⟨d, a, line, stamp, s.ns9, limit⟩] } }

/-- Is a response of an agent about a line or page awaited? -/
def State.awaiting (s : State) (a line : Nat) : Bool := s.coh.awaits.any fun w => w.agent == a && w.line == line

/-! ### Messages (R392 to R396) -/

/-- The header beat of Table 14-7. -/
def msgHeader (m : Msg) : BitVec 128 :=
  m.dst ++ m.src ++ m.cls ++ BitVec.ofNat 5 m.beats.length ++ m.tag ++ m.aux ++ m.addr

/-- The virtual channel of a class (Table 14-8); 3 stands for the reserved ones. -/
def classVc (c : Nat) : Nat :=
  if c = 0x01 ∨ c = 0x03 ∨ c = 0x04 ∨ c = 0x05 ∨ c = 0x06 ∨ (0x08 ≤ c ∧ c ≤ 0x0E) then 0
  else if c = 0x10 ∨ c = 0x11 then 1
  else if 0x20 ≤ c ∧ c ≤ 0x29 then 2
  else 3

/-- Beats in groups of fifteen: the message beats of successive flits. -/
def chunks15 : List (BitVec 128) → Nat → List (List (BitVec 128))
  | _, 0 => []
  | [], _ => []
  | l, n + 1 => l.take 15 :: chunks15 (l.drop 15) n

/-- A flit of a port (Table 14-6). -/
def Port.flit (p : Port) (ftype som : Nat) (body : List (BitVec 128)) : List (BitVec 128) :=
  let cred := p.owed.foldr (fun c a => a * 256 + min c 255) 0
  let h0 : BitVec 128 := BitVec.ofNat 128
    (p.txSeq.toNat * 2 ^ 118 + p.rxSeen.toNat * 2 ^ 108 + ftype * 2 ^ 104 + cred % 2 ^ 32 * 2 ^ 64 + som * 2 ^ 49)
  let beats := body ++ List.replicate (15 - body.length) 0
  (h0 ||| (Config.crc32 (h0 :: beats)).setWidth 128) :: beats

/-- A message flit is sent: kept for replay, the newest 512 of them (R393). -/
def Port.sendFlit (p : Port) (som : Nat) (body : List (BitVec 128)) : Port :=
  let f := p.flit 1 som body
  let sent := p.sent ++ [(p.txSeq, f)]
  { p with sent := sent.drop (sent.length - 512), txSeq := p.txSeq + 1, owed := p.owed.map fun c => c - min c 255, wire := p.wire ++ [f] }

/-- A flit without message beats is sent, an idle one (0) or a replay request (2): it returns credits as any flit does, and does not advance
FSEQ (Table 14-6, R395). -/
def Port.sendBare (p : Port) (ftype : Nat) : Port :=
  { p with owed := p.owed.map fun c => c - min c 255, wire := p.wire ++ [p.flit ftype 0 []] }

/-- The flits of a message, the first with a start-of-message mark. -/
def Port.sendMsg (p : Port) (m : Msg) : Port :=
  let v := classVc m.cls.toNat
  let p := { p with credits := p.credits.modify v fun c => c - (1 + m.beats.length) }
  ((chunks15 (msgHeader m :: m.beats) 2).foldl (fun (q : Port × Nat) b => (q.1.sendFlit q.2 b, 0)) (p, 1)).1

/-- The live port that a message for port `p` takes (R393). -/
def State.livePort (s : State) (p : Nat) : Option Nat :=
  if (s.port p).up then some p
  else (List.range 8).findSome? fun k => if (s.port (8 * (p / 8) + k)).up then some (8 * (p / 8) + k) else none

/-- The number that stands for the way from a stop of the module to another one: its queue holds the messages between them. -/
def localPort : Nat := 32

/-- Weight and ticks in the beat of an INTEREST or ADD (the places of the fields are the model's, log entry 11). -/
def ndBeat (weight ticks : Nat) : BitVec 128 := BitVec.ofNat 128 (ticks * 2 ^ 16 + min weight 4095)

/-- A message as it crosses a link: the deadline of an INTEREST or ADD becomes the whole ticks that remain, less one (R364). -/
def State.crossing (s : State) (m : Msg) : Msg :=
  if m.cls = 0x0B ∨ m.cls = 0x0C then
    let b := (m.beats.headD 0).toNat
    { m with beats := [ndBeat (b % 2 ^ 16) (((b / 2 ^ 16 * 576 - s.ns9) / 576 - 1) % 2 ^ 32)] }
  else m

/-- A message crosses a link. -/
def State.cross (s : State) (p : Nat) (m : Msg) : State :=
  let m := s.crossing m
  let s := s.modPort p (·.sendMsg m)
  { s with links := { s.links with delivered := s.links.delivered ++ [(p, m)] } }

/-- A message leaves by a port if the credits of its channel allow, and waits in order behind those of its channel otherwise (R395). -/
def State.transmit (s : State) (p : Nat) (m : Msg) : State :=
  if p = localPort then s.modPort localPort fun x => { x with queue := x.queue ++ [m] }
  else
  match s.livePort p with
  | none => s
  | some p =>
    let x := s.port p
    let v := classVc m.cls.toNat
    if !(x.hold.any fun h => classVc h.cls.toNat == v) && decide (1 + m.beats.length ≤ x.credits.getD v 0) then s.cross p m
    else s.modPort p fun x => { x with hold := x.hold ++ [m] }

/-- Ports of line, page and slot messages (R396). -/
def linePort (la : Nat) : Nat := 8 * homeDie la + la / 128 % 8
def pagePort (la : Nat) : Nat := 8 * homeDie la + la / 4096 % 8

/-- A request to another module: a tag, a record with its deadline, and the message (R376, R394). -/
def State.request (s : State) (who : ReqWho) (port dev cls : Nat) (aux : BitVec 16) (pa : Nat) (addr : W64)
    (beats : List (BitVec 128)) : State :=
  let (id, s) := s.newUid
  let tag := BitVec.ofNat 13 s.links.tagNext
  let s := { s with links := { s.links with tagNext := (s.links.tagNext + 1) % 8192 }
                    coh := { s.coh with reqs := s.coh.reqs ++ [{ id := id, port := port, tag := tag, who := who, pa := pa, issued := s.ns9, probe := none : Req }] } }
  s.transmit port ⟨BitVec.ofNat 12 dev, BitVec.ofNat 12 s.dev, BitVec.ofNat 6 cls, tag, aux, addr, beats⟩

/-- The response to a message leaves by the port on which it came (R396). -/
def State.respond (s : State) (port : Nat) (m : Msg) (cls : Nat) (aux : BitVec 16) (beats : List (BitVec 128)) : State :=
  s.transmit port ⟨m.src, BitVec.ofNat 12 s.dev, BitVec.ofNat 6 cls, m.tag, aux, m.addr, beats⟩

/-- Something sent to the host by CXL port `p`. -/
def State.tellHost (s : State) (p : Nat) (m : HostMsg) : State :=
  { s with links := { s.links with toHost := s.links.toHost ++ [(p, m)] } }

/-! ### Virtual caches and places in the L2 (R282 to R289) -/

/-- The 7-bit hash of R282. -/
def hashH (x : Nat) : Nat := (List.range 7).foldl (fun h j => h ^^^ (x / 2 ^ (7 * j) % 128)) 0

def Vc.lineSize (v : Vc) : Nat := 128 * 2 ^ v.lsz.toNat
/-- The banks of a mask, rising. -/
def maskBanks (m : BitVec 128) : List Nat := (List.range 128).filter fun b => m.getLsbD b

/-- The owner of a share: shares are numbered 16·bank + share; one that is not listed is VC 0's (R288). -/
def Die.shareOwner (d : Die) (sh : Nat) : Nat := (tget d.shares sh).getD 0
/-- The shares of a virtual cache in a bank that are not retired (R291). -/
def Die.sharesOf (d : Die) (v bank : Nat) : List Nat :=
  ((List.range 16).map (16 * bank + ·)).filter fun sh => d.shareOwner sh == v && !d.retired.contains sh

/-- The bank of a line under a record (R284). -/
def Vc.bankOf (v : Vc) (y : Nat) : Option Nat :=
  let l := maskBanks v.bmask
  if l.isEmpty then none else l[hashH (y * 128 / v.lineSize) % l.length]?
/-- The set of a line under a record (R284). -/
def Vc.setOf (v : Vc) (y : Nat) : Nat := y * 128 / v.lineSize / 128 % (65536 / v.lineSize)
/-- The first 128-byte piece of the line that holds `y`, and how many pieces it has. -/
def Vc.firstPiece (v : Vc) (y : Nat) : Nat := y / 2 ^ v.lsz.toNat * 2 ^ v.lsz.toNat

/-- The device and the local address of a line that clusters hold, by its number. -/
def lineDev (key : Nat) : Nat := key / 2 ^ 45
def lineLa (key : Nat) : Nat := key % 2 ^ 45 * 128

/-- The number under which an L2 of this module holds a line of another one. -/
def peerKey (key : Nat) : Nat := 2 ^ 60 + key

/-- The line number by which a line in an L2 is placed: that of its local address. -/
def l2Place (y : Nat) : Nat := if 2 ^ 60 ≤ y then (y - 2 ^ 60) % 2 ^ 45 else y

/-- The lines of a share's set. -/
def State.l2Set (s : State) (d sh set : Nat) : List Nat :=
  (s.coh.l2.filter fun e => e.2.die == d && e.2.share == sh && ((s.die d).vc e.2.vc).setOf (l2Place e.1) == set).map (·.1)

/-- The 128 bytes of a line in HBM. -/
def State.hbmLine (s : State) (y : Nat) : WideBits := ofBytes (rdBytes s.hbm (128 * y) 128)
/-- The 128 bytes of a line as its home holds it. -/
def State.homeLine (s : State) (y : Nat) : WideBits :=
  match tget s.coh.l2 y with
  | some l => l.data
  | none => s.hbmLine y

/-- AUX of a WBD: bit 15 says that the line is poisoned (R386; the place is the model's, log entry 11). -/
def State.wbdAux (s : State) (y : Nat) (aux : BitVec 16) : BitVec 16 := if s.coh.poisonLines.contains y then aux ||| 0x8000 else aux

/-- A dirty piece is written back, to HBM, or for a line of another module to its home in a WBD (R284, R383); it stays, clean. -/
def State.writeBack (s : State) (y : Nat) : State :=
  match tget s.coh.l2 y with
  | some l =>
    if !l.dirty then s
    else
      let s := { s with coh := { s.coh with l2 := tput s.coh.l2 y { l with dirty := false } } }
      if y < 2 ^ 60 then { s with hbm := wrBytes s.hbm (128 * y) (wideBytes l.data) }
      else
        let la := lineLa (y - 2 ^ 60)
        s.transmit (linePort la)
          ⟨BitVec.ofNat 12 (lineDev (y - 2 ^ 60)), BitVec.ofNat 12 s.dev, 0x24, BitVec.ofNat 13 l.die, s.wbdAux y 0, BitVec.ofNat 64 la,
           (List.range 8).map fun i => l.data.extractLsb' (128 * i) 128⟩
  | none => s

/-- The mark of poison that a line of another module has in the L2 goes with it (R386). -/
def State.clearPeer (s : State) (y : Nat) : State :=
  if 2 ^ 60 ≤ y then { s with coh := { s.coh with poisonLines := s.coh.poisonLines.filter (· != y) } } else s

/-- A line leaves the L2, written back if it is dirty. -/
def State.dropLine (s : State) (y : Nat) : State :=
  let s := (s.writeBack y).clearPeer y
  { s with coh := { s.coh with l2 := tdel s.coh.l2 y } }

/-! ### Replacement (R284, Table 9-5 REPL) -/

/-- The number under which the replacement state of a set of a virtual cache's bank is kept. -/
def replKey (d vc bank set : Nat) : Nat := ((d * 64 + vc) * 128 + bank) * 512 + set

/-- The way that tree bits point to, of `n`: at each node the half that the bit names, the lower where the upper holds no way. The fuel
counts the levels left. -/
def treeVictim (bits n : Nat) : Nat → Nat → Nat → Nat
  | 0, _, lo => lo
  | k + 1, node, lo =>
    if bitAt bits node && decide (lo + 2 ^ k < n) then treeVictim bits n k (2 * node + 1) (lo + 2 ^ k)
    else treeVictim bits n k (2 * node) lo

/-- Tree bits after a use of a way: every node on its path points to the other half, or, for a way filled at the least-recent position,
to its own. -/
def treeUse (bits way : Nat) (least : Bool) : Nat → Nat → Nat
  | 0, _ => bits
  | k + 1, node =>
    let up := bitAt way k
    let b := treeUse bits way least k (2 * node + ofBool up)
    if (up == least) == bitAt b node then b else if bitAt b node then b - 2 ^ node else b + 2 ^ node

/-- The way of `n` that the replacement policy of a cache gives up, and its state after the fill: tree pseudo-LRU (0), streaming, which
fills at the least-recent position (1), round-robin (2). -/
def replFill (repl bits n : Nat) : Nat × Nat :=
  if repl = 2 then (bits % n, bits + 1)
  else let w := treeVictim bits n 4 1 0; (w, treeUse bits w (repl == 1) 4 1)

/-- A line in the L2 is used: its set's tree says so. -/
def State.useL2 (s : State) (y : Nat) : State :=
  match tget s.coh.l2 y with
  | none => s
  | some l =>
    let v := (s.die l.die).vc l.vc
    match v.repl.toNat == 2, ((s.die l.die).sharesOf l.vc l.bank).findIdx? (· == l.share) with
    | false, some w =>
      let k := replKey l.die l.vc l.bank (v.setOf (l2Place y))
      { s with coh := { s.coh with repl := tput s.coh.repl k (treeUse ((tget s.coh.repl k).getD 0) w false 4 1) } }
    | _, _ => s

/-- A place in a virtual cache of a die for a line (R284): a share whose set is empty, else the one that the policy gives up, its lines
written back; none without a share (R291). -/
def State.placeL2 (s : State) (d vc y : Nat) : State × Option (Nat × Nat) :=
  let v := (s.die d).vc vc
  match v.bankOf (l2Place y) with
  | none => (s, none)
  | some bank =>
    let shares := (s.die d).sharesOf vc bank
    let set := v.setOf (l2Place y)
    if shares.isEmpty then (s, none)
    else
      let k := replKey d vc bank set
      let bits := (tget s.coh.repl k).getD 0
      let r := match shares.findIdx? fun sh => (s.l2Set d sh set).isEmpty with
        | some w => (w, if v.repl = 2 then bits else treeUse bits w (v.repl == 1) 4 1)
        | none => replFill v.repl.toNat bits shares.length
      let sh := shares.getD r.1 0
      let s := (s.l2Set d sh set).foldl (·.dropLine ·) s
      ({ s with coh := { s.coh with repl := tput s.coh.repl k r.2 } }, some (bank, sh))

/-- A line is allocated in a virtual cache of its home die with all pieces of its line, a victim being written back (R284,
R285); without a share it is not allocated (R291). A line that is there is used. -/
def State.allocate (s : State) (y vc : Nat) : State :=
  match tget s.coh.l2 y with
  | some _ => s.useL2 y
  | none =>
    let d := homeDie (128 * y)
    let r := s.placeL2 d vc y
    match r.2 with
    | none => r.1
    | some (bank, sh) =>
      let v := (s.die d).vc vc
      (List.range (2 ^ v.lsz.toNat)).foldl (fun s i =>
        match tget s.coh.l2 (v.firstPiece y + i) with
        | some _ => s
        | none =>
          { s with coh := { s.coh with l2 := tput s.coh.l2 (v.firstPiece y + i) ⟨d, vc, bank, sh, false, s.hbmLine (v.firstPiece y + i)⟩ } }) r.1

/-- A line of another module enters the L2 of its exclusive holder, in VC 0 (R381). -/
def State.allocatePeer (s : State) (d key : Nat) (data : WideBits) : State :=
  let r := s.placeL2 d 0 (peerKey key)
  match r.2 with
  | none => r.1
  | some (bank, sh) => { r.1 with coh := { r.1.coh with l2 := tput r.1.coh.l2 (peerKey key) ⟨d, 0, bank, sh, false, data⟩ } }

/-! ### Poison (R386) -/

def State.poisoned (s : State) (y : Nat) : Bool := s.coh.poisonLines.contains y
def State.poisonLine (s : State) (y : Nat) : State :=
  if s.poisoned y then s else { s with coh := { s.coh with poisonLines := y :: s.coh.poisonLines } }

/-- A page is poisoned in full with the page flag (R385). -/
def State.poisonPage (s : State) (pg : Nat) : State :=
  let s := (List.range 32).foldl (fun s i => s.poisonLine (32 * pg + i)) s
  if s.coh.poisonPages.contains pg then s else { s with coh := { s.coh with poisonPages := pg :: s.coh.poisonPages } }

/-! ### Copies, the directory and probes (R377 to R379) -/

/-- The number under which clusters hold a line of this module. -/
def State.ownKey (s : State) (y : Nat) : Nat := s.dev * 2 ^ 45 + y

def DirEnt.reset : DirEnt := ⟨[], 0, 0⟩
def State.dirEnt (s : State) (y : Nat) : DirEnt := (tget s.coh.dir y).getD DirEnt.reset
def State.modDir (s : State) (y : Nat) (f : DirEnt → DirEnt) : State :=
  { s with coh := { s.coh with dir := tput s.coh.dir y (f (s.dirEnt y)) } }

/-- Is a probe newer than a grant (R379)? -/
def newer (p g : BitVec 8) : Bool := decide (1 ≤ (p - g).toNat) && decide ((p - g).toNat ≤ 127)

/-- The entries of a block that are load-class and whose LSID is not resolved, below an LSID if one is given. -/
def Block.loadOpen (b : Block) (below : Option Nat) : Bool :=
  match b.state with
  | .fetch => true
  | .map => true
  | _ => b.entries.any fun e =>
      match decode e.word with
      | .ok i =>
        match i.lsid with
        | some (l, .load) => (match below with | some k => decide (l < k) | none => true) && e.st != .absorbed && !b.lsids.any (·.1 == l)
        | _ => false
      | .error _ => false

/-- Has a load of a thread before an access not performed yet? -/
def Thread.loadPending (t : Thread) (b : Block) (lsid : Nat) : Bool :=
  (t.older b).any (·.loadOpen none) || b.loadOpen (some lsid)

/-- Does a piece lie in a line (numbered by global physical address)? -/
def Piece.inLine (p : Piece) (key : Nat) : Bool := p.pa / 128 == key

/-- The grid whose store buffer holds the stores to a line for a thread: its own, or in a fused core the line's (R258). -/
def lineGrid (slot : Nat) (t : Thread) (pa : Nat) : Nat :=
  if t.sys.fused then 4 * (slotGrid slot / 4) + pa / 128 % 4 else slotGrid slot

/-- The first block of a thread with a performed load of a line while an older load is pending (R256). -/
def Thread.replayAt (t : Thread) (key : Nat) : Option Nat :=
  t.blocks.findIdx? fun b => b.accs.any fun a =>
    !a.store && a.space == .mem && !a.data.isEmpty && a.pieces.any (·.inLine key) && t.loadPending b a.lsid

/-- Does R256 order loads of a line at a cluster: is its home on the cluster's die (R260)? -/
def State.inOrder (s : State) (c key : Nat) : Bool :=
  lineDev key == s.dev && decide (lineLa key < 2 ^ 40) && homeDie (lineLa key) == clusterDie c

/-- R256: threads of a cluster whose performed loads read a line before older loads performed are replayed, those of the writing
grid excepted (R257). -/
def State.replayLoads (s : State) (c key : Nat) (writer : Option Nat) : State :=
  if !s.inOrder c key then s
  else s.thr.foldl (fun s p =>
    if slotCluster p.1 = c ∧ writer ≠ some (lineGrid p.1 p.2 (128 * key)) then
      match p.2.replayAt key with
      | some k => s.replay p.1 k
      | none => s
    else s) s

/-- The copies of a line that a cluster holds are dropped: L1 slices and block cache. -/
def State.dropCopies (s : State) (c key : Nat) : State :=
  { s with coh := { s.coh with
      l1 := s.coh.l1.filter fun x => !(x.cl == c && x.line == key)
      bc := s.coh.bc.filter fun x => !(x.cl == c && x.line / 2 == key) } }

/-- R379: a probe at a cluster is applied or discarded by its stamp. A line whose copy has been replaced is invalidated all the same
for the loads that read it (R256). -/
def State.applyProbe (s : State) (c key : Nat) (stamp : BitVec 8) (writer : Option Nat) : State :=
  let held := (s.coh.l1 ++ s.coh.bc.map (fun (x : Copy) => (⟨x.cl, x.line / 2, x.data, x.stamp⟩ : Copy))).filter fun (x : Copy) => x.cl == c && x.line == key
  let s := if held.isEmpty then s.replayLoads c key writer
    else if held.any fun x => newer stamp x.stamp then (s.dropCopies c key).replayLoads c key writer else s
  { s with coh := { s.coh with fills := s.coh.fills.map fun f =>
      if f.cl == c && f.line == key && (match f.probe with | none => true | some q => newer stamp q)
      then { f with probe := some stamp } else f } }

/-- One probe to a sharer (R378): on the home's die it is applied and acknowledged before the home goes on, and so it is at the cluster of
the writer, whose thread never reads a value older than its own store (R185, R251; log entry 41); elsewhere it is sent, and its response
awaited. A cluster in RETENTION wakes (R374); a DEAD agent gets none (R375). -/
def State.probe (s : State) (y c : Nat) (writer : Option Nat) : State :=
  let d := homeDie (128 * y)
  let stamp := (s.dirEnt y).seq + 1
  let s := s.modDir y fun e => { e with seq := stamp }
  if (s.die d).agent c = 2 then s
  else if clusterDie c = d ∨ writer.map gridCluster = some c then (s.wakeCluster c).applyProbe c (s.ownKey y) stamp writer
  else
    let s := s.modDir y fun e => { e with unacked := e.unacked + 1 }
    (s.await d c y stamp).post [.probeArrival c (s.ownKey y) stamp]

/-- Has the grid of a writer a thread whose performed load of a line may still be invalidated by a store of another grid (R256)? Its cluster
stays in the sharer set for that, without a copy. -/
def State.writerReads (s : State) (y g : Nat) : Bool :=
  s.thr.any fun p => slotCluster p.1 == gridCluster g && lineGrid p.1 p.2 (128 * s.ownKey y) == g && (p.2.replayAt (s.ownKey y)).isSome

/-- Every sharer of a line is probed; the entry is UNCACHED (Table 14-2). -/
def State.probeAll (s : State) (y : Nat) (writer : Option Nat) : State :=
  let l := (s.dirEnt y).sharers
  let s := l.foldl (fun s c => s.probe y c writer) s
  s.modDir y fun e => { e with sharers := match writer with
    | some g => if s.writerReads y g then [gridCluster g] else []
    | none => [] }

/-- Every copy of a line is invalidated before an operation on a sync word of it is applied (R194, R278). -/
def State.clearLine (s : State) (y : Nat) : State :=
  let l := (s.dirEnt y).sharers
  let s := l.foldl (fun (s : State) c =>
    let stamp := (s.dirEnt y).seq + 1
    let s := s.modDir y fun e => { e with seq := stamp }
    if (s.die (homeDie (128 * y))).agent c = 2 then s else (s.wakeCluster c).applyProbe c (s.ownKey y) stamp none) s
  s.modDir y fun e => { e with sharers := [] }

/-- The sharers on the home's die are probed (CLINE .inval and .flush). -/
def State.probeDie (s : State) (y : Nat) (writer : Option Nat) : State :=
  let d := homeDie (128 * y)
  let l := (s.dirEnt y).sharers.filter fun c => clusterDie c == d
  let s := l.foldl (fun s c => s.probe y c writer) s
  s.modDir y fun e => { e with sharers := e.sharers.filter fun c => clusterDie c != d }

/-- How many grants and probes of a line are unacknowledged (R379). -/
def State.lineLoad (s : State) (y : Nat) : Nat :=
  (s.dirEnt y).unacked + (s.coh.grants.filter fun g => g.line == s.ownKey y).length

/-- The sharers of a line on other dies than its home's. -/
def State.farSharers (s : State) (y : Nat) : List Nat :=
  (s.dirEnt y).sharers.filter fun c => clusterDie c != homeDie (128 * y) && (s.die (homeDie (128 * y))).agent c != 2

/-- Would a round of probes exceed 127 unacknowledged messages of the line (R379)? -/
def State.lineBusy (s : State) (y : Nat) : Bool := decide (127 < s.lineLoad y + (s.farSharers y).length)

/-- As many of the line's probes as may go are sent ahead of a round that would exceed the bound (R379). -/
def State.probeSome (s : State) (y : Nat) (writer : Option Nat) : State :=
  let l := (s.farSharers y).take (127 - s.lineLoad y)
  (l.foldl (fun s c => s.probe y c writer) s).modDir y fun e => { e with sharers := e.sharers.filter fun c => !l.contains c }

/-! ### Gates: bias (R389) and page directory (Table 14-3) -/

def State.biasOf (s : State) (pg : Nat) : Bias := (tget s.coh.bias pg).getD .device
/-- The filter bits of the two CXL lines of a 128-byte line: is either marked (R389)? -/
def State.hostMay (s : State) (y : Nat) : List Nat :=
  let m := (tget s.coh.filter (y / 32)).getD 0
  [2 * y, 2 * y + 1].filter fun k => m.getLsbD (k % 64)

/-- What an access finds at the home: it may go on; it waits; or the home first sends something and it waits. -/
inductive Gate where
  | go
  | wait
  | act (s : State)

/-- A recall of an EXCL page or a revocation of a holder: a page message with the next page SEQ (R380, R383); TAG names the holder
die (log entry 11). A DEAD agent gets none (R375). -/
def State.pageMsg (s : State) (pg cls holder : Nat) : State :=
  match tget s.coh.pages pg with
  | none => s
  | some e =>
    let d := homeDie (4096 * pg)
    if (s.die d).agent (dieAgent (holder / 4) (holder % 4)) = 2 then s
    else
      let seq := e.seq + 1
      let s := { s with coh := { s.coh with pages := tput s.coh.pages pg { e with seq := seq } } }
      let s := s.await d (dieAgent (holder / 4) (holder % 4)) pg seq
      s.transmit (pagePort (4096 * pg))
        ⟨BitVec.ofNat 12 (holder / 4), BitVec.ofNat 12 s.dev, BitVec.ofNat 6 cls, BitVec.ofNat 13 (holder % 4), seq.setWidth 16,
         BitVec.ofNat 64 (4096 * pg), []⟩

/-- The page directory's part of a gate: an EXCL page of a holder other than `keep` is recalled first (Table 14-3). -/
def State.pageGate (s : State) (pg : Nat) (keep : Option Nat) : Gate :=
  match tget s.coh.pages pg with
  | some e =>
    if e.st = .excl then
      match e.holders with
      | [] => .go
      | h :: _ =>
        if some h = keep then .go
        else if s.awaiting (dieAgent (h / 4) (h % 4)) pg then .wait
        else .act (s.pageMsg pg 0x11 h)
    else .go
  | none => .go

/-- Back-invalidate snoops of the lines of 64 bytes of one line of 128: of both together the block form (Table 14-4). -/
def State.snoopHost (s : State) (write : Bool) (ks : List Nat) : State :=
  match ks with
  | [] => s
  | [k] => s.tellHost 0 (if write then .bisnpInv (64 * k) else .bisnpData (64 * k))
  | k :: _ => s.tellHost 0 (if write then .bisnpInvBlk (64 * k) else .bisnpDataBlk (64 * k))

/-- The home's own module, or another one, reads or writes a line: may it go on (R382, R389)? In HOST bias the lines that the host may
hold are snooped first: for a write all of them, for a read those that it has not answered for already. -/
def State.gateFor (s : State) (y : Nat) (write : Bool) (keep : Option Nat) : Gate :=
  let pg := y / 32
  let d := homeDie (128 * y)
  match s.biasOf pg with
  | .flushing => .wait
  | .recalling => .wait
  | .device => s.pageGate pg keep
  | .host =>
    let clean := (tget s.coh.hostClean pg).getD 0
    let marked := (s.hostMay y).filter fun k => write || !clean.getLsbD (k % 64)
    if (s.die d).agent hostAgent = 2 then s.pageGate pg keep
    else if s.awaiting hostAgent (2 * y) || s.awaiting hostAgent (2 * y + 1) then .wait
    else if marked.isEmpty then s.pageGate pg keep
    else .act ((marked.foldl (fun s k => s.await d hostAgent k (if write then 0 else 1)) s).snoopHost write marked)

/-- A round of probes of a line waits until it fits under the bound of R379; those that may go are sent. -/
def State.probeGate (s : State) (y : Nat) : Gate :=
  if !s.lineBusy y then .go else if s.lineLoad y < 127 then .act (s.probeSome y none) else .wait

/-- Is a fill still without an answer? -/
def Fill.blank (f : Fill) : Bool := f.data.isNone && !f.poisoned && !f.failed

/-- Is a device access for which a page keeps a place still to come? -/
def State.toCome (s : State) : DevWho → Bool
  | .fill c k => (s.coh.fills.any fun f => f.cl == c && f.line == k && f.blank) && !(s.coh.grants.any fun g => g.cl == c && g.line == k)
  | .load b i => (match s.block b with | some (_, x) => (x.entries[i]?).any (·.st == .idle) | none => false)
  | .unit u => (s.grids.any fun g => g.2.sb.any (·.uid == u)) || s.coh.flying.any fun f => f.u.uid == u && !f.performed
  | .command id =>
    (s.cls.any fun c => c.2.copyQ.any fun x => x.id == id && x.fslot.isNone)
      || (s.grids.any fun g => g.2.mx.any fun l => l.any fun x => x.id == id && x.fslot.isNone)
      || s.net.deposits.any fun x => x.id == id && x.fslot.isNone
  | .walk id => s.coh.walks.any (·.id == id)
  | .word la => s.coh.words.any fun w => match w.1 with | .mem _ a _ _ => a == la | .pool _ _ => false

/-- Is it the turn of a device access at a page: is none of what the page held before it still to come (R389)? -/
def State.devTurn (s : State) (pg : Nat) (who : DevWho) : Bool :=
  (((s.coh.parked.filter (·.1 == pg)).map (·.2)).takeWhile (· != .device who)).all fun p =>
    match p with
    | .device w => !s.toCome w
    | _ => false

/-- A page keeps a place for a device access, and no other page does. -/
def State.keepPlace (s : State) (pg : Nat) (who : DevWho) : State :=
  { s with coh := { s.coh with parked := (s.coh.parked.filter (·.2 != .device who)) ++ [(pg, .device who)] } }

/-- The gate of an access of the home's own module. An access that is named keeps its place at a page that holds requests: they are served
in the order in which they reached the home (R389); one that is not (log entry 59) is tried again. -/
def State.gate (s : State) (y : Nat) (write : Bool) (who : Option DevWho) : Gate :=
  match who with
  | none => s.gateFor y write none
  | some w =>
    let pg := y / 32
    if s.biasOf pg != Bias.flushing && s.biasOf pg != Bias.recalling && s.devTurn pg w then s.gateFor y write none
    else if s.coh.parked.contains (pg, .device w) then .wait
    else .act (s.keepPlace pg w)

/-- The dies that a revocation of an entry goes to: its holders, or every reachable die if there were more than eight (R380). -/
def State.holdersOf (s : State) (e : PageEnt) : List Nat :=
  if e.overf then (s.reach.map fun d => (List.range 4).map (4 * d + ·)).flatten else e.holders

/-- A write of the home's module to a page that other modules share revokes every holder (Table 14-3); one that wrote through its own grant
keeps it, and is listed from then on. -/
def State.revokeHolders (s : State) (pg : Nat) (keep : Option Nat) : State :=
  match tget s.coh.pages pg with
  | none => s
  | some e =>
    let s := ((s.holdersOf e).filter fun h => some h != keep).foldl (fun s h => s.pageMsg pg 0x10 h) s
    match tget s.coh.pages pg with
    | none => s
    | some e =>
      let hs := match keep with
        | some h => if e.holders.contains h || e.overf then [h] else []
        | none => []
      { s with coh := { s.coh with pages := tput s.coh.pages pg { e with holders := hs, overf := false } } }

/-! ### Writing and reading at a home of this module -/

/-- One byte of a line's data. -/
def setByte (d : WideBits) (i : Nat) (b : Byte) : WideBits :=
  (d &&& ~~~((0xFF : WideBits) <<< (8 * i))) ||| ((b.setWidth 1024 : WideBits) <<< (8 * i))

/-! ### Sync words (06 R192 to R195, R201, R202) -/

/-- Fields of a sync word (Table 6-3). -/
structure SyncWord where
  rsv : Nat
  overrun : Bool
  never : Bool
  error : Bool
  armed : Bool
  ecode : Nat
  gen : Nat
  target : Nat
  count : Nat
  deriving DecidableEq, Repr

def SyncWord.ofNat (x : Nat) : SyncWord :=
  { rsv := bitsOf x 127 108, overrun := bitAt x 107, never := bitAt x 106, error := bitAt x 105, armed := bitAt x 104
    ecode := bitsOf x 103 96, gen := bitsOf x 95 80, target := bitsOf x 79 40, count := bitsOf x 39 0 }

def SyncWord.toNat (w : SyncWord) : Nat :=
  w.rsv * 2 ^ 108 + ofBool w.overrun * 2 ^ 107 + ofBool w.never * 2 ^ 106 + ofBool w.error * 2 ^ 105 + ofBool w.armed * 2 ^ 104
    + w.ecode * 2 ^ 96 + w.gen * 2 ^ 80 + w.target * 2 ^ 40 + w.count

/-- SetErr of R195; codes 0x20 to 0x22 set NEVER. -/
def SyncWord.setErr (w : SyncWord) (code : Nat) : SyncWord :=
  let w := if 0x20 ≤ code ∧ code ≤ 0x22 then { w with never := true } else { w with error := true }
  if w.ecode = 0 then { w with ecode := code } else w

/-- Check of R195: at most one completion. -/
def SyncWord.check (w : SyncWord) : SyncWord :=
  if w.armed ∧ w.target ≤ w.count then
    let w := if w.target < w.count then ({ w with overrun := true }).setErr 0x10 else w
    { w with count := w.count - w.target, gen := (w.gen + 1) % 65536 }
  else w

/-- Arrive of R195. -/
def SyncWord.arrive (w : SyncWord) (n : Nat) : SyncWord :=
  let v := w.count + n
  let w := if 2 ^ 40 - 1 < v then { (w.setErr 0x10) with count := 2 ^ 40 - 1, overrun := true } else { w with count := v }
  w.check

/-- SARM of R198. -/
def SyncWord.sarm (w : SyncWord) (b : W64) : SyncWord :=
  let w := if b.getLsbD 63 then { w with count := 0, error := false, never := false, overrun := false, ecode := 0 } else w
  if b.getLsbD 62 then { w with armed := false } else ({ w with target := b.toNat % 2 ^ 40, armed := true }).check

/-- Has the generation passed (R201)? -/
def genPassed (gen b : Nat) : Bool :=
  let d := (gen + 65536 - b % 65536) % 65536
  decide (1 ≤ d) && decide (d ≤ 32767)

/-- The status word of Table 6-4. -/
def SyncWord.status (w : SyncWord) : W64 :=
  BitVec.ofNat 64 (w.ecode * 2 ^ 20 + ofBool w.overrun * 2 ^ 19 + ofBool w.never * 2 ^ 18 + ofBool w.error * 2 ^ 17
    + ofBool w.armed * 2 ^ 16 + w.gen)

/-- SREAD's field (R200). -/
def SyncWord.field (w : SyncWord) (f : SyncField) : W64 :=
  BitVec.ofNat 64 (match f with
    | .count => w.count
    | .gen => w.gen
    | .target => w.target
    | .flags => w.ecode + ofBool w.armed * 2 ^ 8 + ofBool w.error * 2 ^ 9 + ofBool w.never * 2 ^ 10 + ofBool w.overrun * 2 ^ 11)

/-- The word at a location of this module. -/
def State.syncWord (s : State) (w : WLoc) : SyncWord :=
  match w with
  | .mem _ la _ _ => SyncWord.ofNat (leNat (s.laBytes la 16))
  | .pool a _ => SyncWord.ofNat (leNat (rdBytes s.pool a 16))

/-- R201: is a SWAIT satisfied? -/
def SyncWord.wakes (w : SyncWord) (gen : Nat) : Bool := genPassed w.gen gen || w.error || w.never

/-- The cause of a failing SWAIT.t (R202). -/
def SyncWord.cause (w : SyncWord) : Cause := if w.never then .neverProduced else if w.ecode = 0x10 then .syncOverrun else .syncError

/-- The same word, by whatever references. -/
def WLoc.same : WLoc → WLoc → Bool
  | .mem d a _ _, .mem e b _ _ => d == e && a == b
  | .pool a _, .pool b _ => a == b
  | _, _ => false

/-- The reference by which a word was reached. -/
def WLoc.ref : WLoc → W64
  | .mem _ _ _ r => r
  | .pool _ r => r

/-- A thread has met the writers that operated on a sync word: it is bound to see the q writes that they committed before (R23). -/
def State.meetWord (s : State) (slot : Nat) (w : WLoc) : State :=
  s.modThread slot fun t => { t with qpend := t.qpend.map fun p => if p.words.any (WLoc.same w) then { p with must := true } else p }

/-- A thread has operated on a sync word: the q writes that it has committed are tied to the word (R23). -/
def State.markWord (s : State) (slot : Nat) (w : WLoc) : State :=
  { s with thr := tmap (fun t => { t with qpend := t.qpend.map fun p =>
      if p.writer == slot && !(p.words.any (WLoc.same w)) then { p with words := p.words ++ [w] } else p }) s.thr }

/-- An acquire of a thread ends: its later loads see what others wrote before (R186, R190, R203, R265, R267). -/
def State.acquire (s : State) (slot : Nat) : State := s.modThread slot fun t => { t with acquired := s.ns9 }

/-- A SWAIT delivers its status, or faults if it is SWAIT.t and an error shows (R201, R202). -/
def State.swaitEnd (s : State) (b : BRef) (idx : Nat) (h : Hdr) (lsid : Nat) (t : Bool) (ref : W64) (w : SyncWord) : State :=
  let s := s.modBlock b fun x =>
    { ((x.modEntry idx fun e => { e with st := .fired }).resolveLsid idx lsid .performed) with
      accs := x.accs.map fun a => if a.idx == idx then { a with data := leBytes w.toNat 16 } else a }
  let s := s.acquire b.slot
  if t && (w.error || w.never) then
    s.modBlock b fun x => x.hold .fire idx (x.insTrap w.cause ref idx (some lsid))
  else s.deliver b h (.narrow w.status) (.narrow w.status)

/-- A SWAIT that waits at a word is woken if its condition holds (R195, R201). -/
def State.wakeOne (s : State) (x : SWaiter) : State :=
  let w := s.syncWord x.loc
  if !w.wakes x.gen.toNat then s
  else
    let s := { s with swaits := s.swaits.filter (· != x) }
    match s.block x.b with
    | none => s
    | some (_, b) =>
      match b.entries[x.idx]? with
      | none => s
      | some e =>
        match e.st, decode e.word with
        | .waiting, .ok (.swait t h l _ _) => (s.meetWord x.b.slot x.loc).swaitEnd x.b x.idx h l.toNat t x.ref w
        | _, _ => s

/-- Every SWAIT at a location that a test names is looked at. -/
def State.wakeWhere (s : State) (p : WLoc → Bool) : State := (s.swaits.filter fun x => p x.loc).foldl (·.wakeOne ·) s

/-- The location lies in a line of this module's memory. -/
def WLoc.inLine (y : Nat) : WLoc → Bool
  | .mem _ la _ _ => la / 128 == y
  | .pool _ _ => false

/-- Bytes written to the SRAM pools; a SWAIT on a word among them is looked at (R186, R259). A word of 8 bytes that is written whole
has a new check code (R442). -/
def State.poolWrite (s : State) (a : Nat) (l : List Byte) : State :=
  let whole (w : Nat) : Bool := decide (a ≤ 8 * w) && decide (8 * w + 8 ≤ a + l.length)
  let bad := if s.coh.poisonPool.isEmpty then [] else s.coh.poisonPool.filter fun w => !whole w
  { s with pool := wrBytes s.pool a l, coh := { s.coh with poisonPool := bad } }.wakeWhere fun w =>
    match w with
    | .pool x _ => decide (x < a + l.length) && decide (a < x + 16)
    | .mem _ _ _ _ => false

/-- Bytes, by their place in a line, written into line data. -/
def setBytes (d : WideBits) (l : List (Nat × Byte)) : WideBits := l.foldl (fun d p => setByte d p.1 p.2) d
/-- Bytes, by their place in a line, written into HBM. -/
def State.hbmPut (s : State) (y : Nat) (l : List (Nat × Byte)) : State :=
  { s with hbm := l.foldl (fun m p => wr1 m (128 * y + p.1) p.2) s.hbm }

/-- The line updated in the L2. -/
def State.l2Put (s : State) (y : Nat) (l : List (Nat × Byte)) (dirty : Bool) : State :=
  match tget s.coh.l2 y with
  | none => s.hbmPut y l
  | some x => { s with coh := { s.coh with l2 := tput s.coh.l2 y { x with data := setBytes x.data l, dirty := dirty || x.dirty } } }

/-- A write at the home under the write policies of Table 9-7 and R285. -/
def State.policyWrite (s : State) (y vc : Nat) (l : List (Nat × Byte)) : State :=
  let d := homeDie (128 * y)
  match tget s.coh.l2 y with
  | some x =>
    let s := s.useL2 y
    if ((s.die d).vc x.vc).wpol = 1 then (s.l2Put y l false).hbmPut y l else s.l2Put y l true
  | none =>
    let pol := ((s.die d).vc vc).wpol
    if pol = 2 then s.hbmPut y l
    else
      let s := s.allocate y vc
      if pol = 1 then (s.l2Put y l false).hbmPut y l else s.l2Put y l true

/-- Where a write comes from (Table 15-3 PWDROP). -/
inductive WrSrc where
  | thread (grid : Nat) | engine | deposit | host
  deriving DecidableEq, Repr

def WrSrc.code : WrSrc → Nat
  | .thread _ => 0 | .engine => 1 | .deposit => 2 | .host => 3
def WrSrc.grid : WrSrc → Option Nat
  | .thread g => some g
  | _ => none

/-- Loads of a writer's cluster do not take data of the line that are older than its store: they ask again (R251, R260). -/
def State.forgetData (s : State) (key : Nat) (writer : Option Nat) : State :=
  match writer with
  | none => s
  | some g =>
    { s with coh := { s.coh with
        fills := (s.coh.fills.map fun f =>
          if f.cl == gridCluster g && f.line == key then { f with waiters := f.waiters.filter fun w => match w with | .load _ _ => false | _ => true }
          else f).filter fun f => !(f.waiters.isEmpty && (f.data.isSome || f.poisoned || f.failed)) } }

/-- R378, R386: the home accepts a write of bytes of one line. A poisoned line drops it; else every copy is probed, the holders
of the page revoked, and the bytes written. -/
def State.homeWrite (s : State) (y vc : Nat) (l : List (Nat × Byte)) (src : WrSrc) : State :=
  if s.poisoned y then s.shaveDie (homeDie (128 * y)) 0x15 src.code (BitVec.ofNat 64 (128 * y)) 0
  else ((((s.probeAll y src.grid).forgetData (s.ownKey y) src.grid).revokeHolders (y / 32) none).policyWrite y vc l).wakeWhere (WLoc.inLine y)

/-- Bytes from an offset on, with their places. -/
def placed (off : Nat) (l : List Byte) : List (Nat × Byte) := l.zipIdx.map fun p => (off + p.2, p.1)

/-- A write of bytes at a local address of HBM that stay within one line. -/
def State.writeLa (s : State) (la vc : Nat) (l : List Byte) (src : WrSrc) : State :=
  s.homeWrite (la / 128) vc (placed (la % 128) l) src

/-! ### Setting A and D, and filling the TLBs (R300, R305) -/

/-- The result of a walk for an access: the state with A, and D for a store that the leaf admits, set and the entry cached; or
the level at which it stopped. A PREF meets a leaf with A = 0 as a failure (R189, R300). -/
inductive WalkEnd where
  | fault (lvl : Nat) (mal : Bool)
  | entry (e : TlbEnt)

/-- The lines of HBM that a walk reads from a table at a level down, the group of a contiguous leaf with it (R299, R302). -/
def State.walkLines (s : State) (va : Nat) : Nat → Nat → List Nat
  | 0, _ => []
  | lvl + 1, t =>
    let a := t + 8 * vaIndex va (lvl + 1)
    let e := s.pte a
    let n := groupSize (lvl + 1)
    if pteV e && !pteMalformed e (lvl + 1) && !pteLeaf e then (a / 128) :: s.walkLines va lvl (pteAddr e)
    else if pteV e && pteLeaf e && e.getLsbD 8 then (List.range (8 * n / 128)).map (a / (8 * n) * (8 * n) / 128 + ·)
    else [a / 128]

/-- The lines that a walk reads are allocated in VC 0 of their home, as for any read (R285, R289, R302). -/
def State.walkReads (s : State) (l : List Nat) : State := l.foldl (fun s y => if y < 2 ^ 33 then s.allocate y 0 else s) s

/-- The gates of a walk's lines at their homes: its reads, and the write of A or D in the leaf that it uses (R379, R382, R389). -/
def State.walkGateFrom (s : State) (va lvl t : Nat) (setD : Bool) (who : Option DevWho) : Gate :=
  let l := (s.walkLines va lvl t).filter (· < 2 ^ 33)
  let stop (g : Gate) : Option Gate := match g with | .go => none | g => some g
  let marks := match s.walkFrom va lvl t with
    | .leaf a e _ => if e.getLsbD 6 && (!setD || e.getLsbD 7) then [] else if a < 2 ^ 40 then [a / 128] else []
    | .fault _ _ => []
  match (l.findSome? fun y => stop (s.gate y false who)).orElse fun _ =>
      marks.findSome? fun y => (stop (s.probeGate y)).orElse fun _ => stop (s.gate y true who) with
  | some g => g
  | none => .go

/-- The gates of a walk for an access: it begins where the walk cache leaves off. -/
def State.walkGateOf (s : State) (w : Who) (va : W64) (setD : Bool) (who : Option DevWho) : Gate :=
  let v := va.toNat % 2 ^ 57
  let start := (s.die (clusterDie w.cl)).walkStart w.asid w.ptbase v
  s.walkGateFrom v start.1 start.2 setD who

/-- The gates of a walk under way. -/
def State.walkGate (s : State) (w : Walk) : Gate := 
  s.walkGateOf ⟨w.cl, some w.grid, w.asid, w.ptbase, true, 0⟩ w.va w.store (some (.walk w.id))

/-- One walk to its end (R302, R305): read from where the walk cache leaves off, set A and D in the leaf it uses, fill the walk cache
and the TLBs. -/
def State.walkAccess (s : State) (w : Who) (k : AKind) (va : W64) (setD pref : Bool) : State × WalkEnd :=
  let v := va.toNat % 2 ^ 57
  let d := clusterDie w.cl
  let start := (s.die d).walkStart w.asid w.ptbase v
  let r := s.walkFrom v start.1 start.2
  let s := s.walkReads (s.walkLines v start.1 start.2)
  let s := s.cachePath d w.asid v (s.pointers v start.1 start.2)
  match r with
  | .fault lvl mal => (s, .fault lvl mal)
  | .leaf addr0 e0 lvl =>
    let (s, addr, e, frame) := s.useLeaf addr0 e0 lvl
    if pref && !e.getLsbD 6 then (s, .fault lvl false)
    else
      let bits := levelBits lvl
      let la := frame.toNat
      let ent0 : TlbEnt := ⟨w.asid, va.toNat % 2 ^ 57 / 2 ^ bits, bits, 0, la, leafOf e⟩
      let admits := (s.checkLeaf ent0.leaf (ent0.addr va) k w.sup w.img).isNone
      let e' := (e ||| 0x40) ||| (if setD && k == .store && admits then 0x80 else 0)
      let s := if e' = e then s else s.writeLa addr 0 [e'.extractLsb' 0 8] .engine
      let ent := { ent0 with leaf := leafOf e' }
      (s.tlbFill w.cl w.grid ent, .entry ent)

/-- The copies of a line without a directory entry are dropped from the L1 slices and block caches, and its fills under way are not
installed (R255, R279). -/
def State.dropLoose (s : State) (key : Nat) (writer : Option Nat) : State :=
  let cls := (((s.coh.l1.filter fun x => x.line == key).map (·.cl)) ++ ((s.coh.bc.filter fun x => x.line / 2 == key).map (·.cl))).eraseDups
  let s := (cls.foldl (fun s c => (s.dropCopies c key).replayLoads c key writer) s).forgetData key writer
  { s with coh := { s.coh with fills := s.coh.fills.map fun f => if f.line == key then { f with keep := false } else f } }

/-- Bytes of a line of 128 bytes written to host memory through CXL: ItoMWr of each whole line of 64 bytes, WOWrInv of a part of one (Table 14-4). The host's copy of a line that clusters hold
is dropped from their L1 slices (R255). -/
def State.writeHost (s : State) (la : Nat) (l : List Byte) (src : WrSrc) : State :=
  let key := s.dev * 2 ^ 45 + la / 128
  let s := { s with host := wrBytes s.host (la - 2 ^ 40) l }
  let s := s.dropLoose key src.grid
  let half (i : Nat) : Nat × Nat := (max la ((la / 64 + i) * 64), min (la + l.length) ((la / 64 + i + 1) * 64))
  let s := ((List.range ((la % 64 + l.length + 63) / 64)).map half).foldl (fun (s : State) h =>
    s.tellHost 0 (.d2hWrite h.1 (h.2 - h.1 == 64))) s
  s.wakeWhere (WLoc.inLine (la / 128))

/-! ### Operations on a sync word at its home (R194, R195) -/

/-- The cluster and die at which a word's operations are applied. -/
def wordCluster (w : WLoc) : Nat :=
  match w with
  | .mem _ la _ _ => if la < 2 ^ 40 then 128 * homeDie la + hashH (la / 128) else 0
  | .pool a _ => gridCluster (a / 2 ^ 19)

/-- The field of a sync word that a monitor of KIND 6 looks at (R412): SEL[55:54], coded as the FN of SREAD. -/
def Monitor.fieldOf (m : Monitor) (w : SyncWord) : Nat :=
  (w.field (match bitsOf m.src.toNat 55 54 with | 0 => .count | 1 => .gen | 2 => .target | _ => .flags)).toNat

/-- What the monitors of KIND 6 of a die sample of a word at an operation on it (R412, R413). -/
def State.wordSamples (s : State) (w : WLoc) (v : SyncWord) : List (Nat × Nat × Nat) :=
  match w with
  | .mem _ la _ _ =>
    let d := homeDie la
    ((s.die d).dbg.mons.zipIdx.filter fun p =>
      p.1.ctl.getLsbD 63 && p.1.src.toNat / 2 ^ 60 == 6 && p.1.src.toNat % 2 ^ 52 / 16 * 16 == la).map fun p => (d, p.2, p.1.fieldOf v)
  | .pool _ _ => []

/-- A new value of a word at its home: copies of its line are dropped first (R194), a completion is shaved, monitors sample, and SWAITs
wake. -/
def State.setSync (s : State) (w : WLoc) (old new : SyncWord) : State :=
  let bytes := leBytes new.toNat 16
  let s := { s with samples := s.samples ++ s.wordSamples w new }
  let s := if old.gen ≠ new.gen then s.shave (wordCluster w) 0x08 16383 0 new.gen (WLoc.ref w) (BitVec.ofNat 64 new.count) else s
  match w with
  | .mem _ la vc _ => if la < 2 ^ 40 then (s.clearLine (la / 128)).writeLa la vc bytes .engine else if la < 2 ^ 41 then s.writeHost la bytes .engine else s
  | .pool a _ => s.poolWrite a bytes

/-- An operation as R195 and R198 define it on a word's value. -/
def WordOp.act (o : WordOp) (w : SyncWord) : SyncWord :=
  match o with
  | .arrive n => w.arrive n
  | .setErr code => w.setErr code
  | .sarm b => w.sarm b

/-- An operation is applied at the home of its word. -/
def State.wordNow (s : State) (w : WLoc) (o : WordOp) : State := s.setSync w (s.syncWord w) (o.act (s.syncWord w))

/-- An operation waits at the home of its word. -/
def State.holdWord (s : State) (w : WLoc) (o : WordOp) : State := { s with coh := { s.coh with words := s.coh.words ++ [(w, o)] } }

/-- Does the home hold operations on a word? -/
def State.wordHeld (s : State) (w : WLoc) : Bool := s.coh.words.any fun x => WLoc.same w x.1

/-- What an operation on a word finds at its home: in HBM the page directory and the bias of its page (R382, R389). -/
def State.opGate (s : State) (w : WLoc) : Gate :=
  match w with
  | .mem _ la _ _ => if la < 2 ^ 40 then s.gate (la / 128) true (some (.word la)) else .go
  | .pool _ _ => .go

/-- An operation reaches the home of its word: applied there, behind those that the home holds, or held with them until the page lets it go
on (R194, R382, R389). -/
def State.wordOp (s : State) (w : WLoc) (o : WordOp) : State :=
  if s.wordHeld w then s.holdWord w o
  else match s.opGate w with
    | .go => s.wordNow w o
    | .act t => t.holdWord w o
    | .wait => s.holdWord w o

/-- The first of the operations that a home holds for a word is tried again. -/
def State.retryWord (s : State) (w : WLoc) : Option State :=
  match takeFirst (fun (x : WLoc × WordOp) => WLoc.same w x.1) s.coh.words with
  | (some x, l) =>
    (match s.opGate x.1 with
      | .go => some ({ s with coh := { s.coh with words := l } }.wordNow x.1 x.2)
      | .act t => some t
      | .wait => none)
  | (none, _) => none

/-- Arrive(w, n) of R195. -/
def State.arrive (s : State) (w : WLoc) (n : Nat) : State := s.wordOp w (.arrive n)
/-- SetErr(w, code) of R195, as an operation of its own. -/
def State.setErr (s : State) (w : WLoc) (code : Nat) : State := s.wordOp w (.setErr code)
/-- SARM at the word's home (R198). -/
def State.sarmAt (s : State) (w : WLoc) (b : W64) : State := s.wordOp w (.sarm b)

end Sys2Proof.Machine
end

