-- ==== Sys2Proof/Machine/Lines.lean ====
section
/-! DEFINITION. Lines wherever they are homed: fills of a cluster (14 R379, 12 R353), pages of other modules as the requester sees them
(14 R381, R384), homes that refuse (14 R375), and reads and writes at the homes for those that have no store buffer. -/

namespace Sys2Proof.Machine

/-! ### Fills of a cluster -/

/-- A copy of a line that a cluster holds. -/
def State.l1Copy (s : State) (c key : Nat) : Option WideBits := (s.coh.l1.find? fun x => x.cl == c && x.line == key).map (·.data)

/-- The number under which clusters hold the line of a global physical address. -/
def keyOf (pa : Nat) : Nat := pa / 128

/-- The fill of a line that a load waits for and that has ended. -/
def State.fillDone (s : State) (c key : Nat) (who : FillFor) : Option Fill :=
  s.coh.fills.find? fun f => f.cl == c && f.line == key && f.waiters.contains who && !f.blank

/-- The misses outstanding on a grid: lines that a load or PREF of a thread asked for whose accesses of the line the grid owns (R345, Table 12-6). -/
def State.missesOn (s : State) (g : Nat) : Nat :=
  (s.coh.fills.filter fun f => f.blank && f.waiters.any fun w => match w with
    | .load b _ => (match tget s.thr b.slot with | some t => lineGrid b.slot t (128 * f.line) == g | none => false)
    | .hint h => h == g
    | .hintL2 h => h == g
    | _ => false).length

/-- May a line be asked for? A fill of it that a probe has reached, or whose data will not be installed, answers those only that asked
before (R379); a grid has at most 32 misses outstanding (Table 12-6). -/
def State.canAsk (s : State) (c key : Nat) (grid : Option Nat) : Bool :=
  match s.coh.fills.find? fun f => f.cl == c && f.line == key && f.blank with
  | some f => f.keep && f.probe.isNone
  | none => match grid with | some g => decide (s.missesOn g < 32) | none => true

/-- A line is asked for: a fill of the cluster that others may share (R379); for a fetch, `code` marks the 64-byte halves wanted (R340). -/
def State.askLine (s : State) (c key : Nat) (leaf : Leaf) (code : Nat) (who : FillFor) : State :=
  match s.coh.fills.find? fun f => f.cl == c && f.line == key && f.blank with
  | some _ =>
    { s with coh := { s.coh with fills := s.coh.fills.map fun f =>
        if f.cl == c && f.line == key && f.blank
        then { f with waiters := if f.waiters.contains who then f.waiters else f.waiters ++ [who], code := f.code ||| code } else f } }
  | none =>
    { s with coh := { s.coh with fills := s.coh.fills ++
        [({ cl := c, line := key, vc := leaf.vc, code := code, keep := true, probe := none, waiters := [who], issued := s.ns9, data := none, poisoned := false, failed := false } : Fill)] } }.post [.directoryReadMiss c key]

/-- One who waited no longer waits at the fills that a test names; an ended fill that nobody waits for is gone. -/
def State.dropWaiterAt (s : State) (p : Fill → Bool) (who : FillFor) : State :=
  { s with coh := { s.coh with fills := (s.coh.fills.map fun f =>
      if p f then { f with waiters := f.waiters.filter (· != who) } else f).filter fun f => !(f.waiters.isEmpty && !f.blank) } }

/-- A load has taken its data: it no longer waits. -/
def State.dropWaiter (s : State) (who : FillFor) : State := s.dropWaiterAt (fun _ => true) who

/-! ### Pages of other modules, as the requester sees them (R381, R384) -/

/-- The grant that a die holds of the page of a line. -/
def State.peerOf (s : State) (die key : Nat) : Option Peer := s.coh.peers.find? fun p => p.die == die && p.page == key / 32

/-- Is a request of this kind under way? -/
def State.asked (s : State) (p : ReqWho → Bool) : Bool := s.coh.reqs.any fun r => p r.who

/-- A page is asked for (R381). -/
def State.askPage (s : State) (die key : Nat) (excl : Bool) : State :=
  let pg := key / 32
  let la := lineLa key / 4096 * 4096
  s.request (.page die pg excl) (pagePort la) (lineDev key) (if excl then 0x06 else 0x05) (BitVec.ofNat 16 die) (key * 128)
    (BitVec.ofNat 64 la) []

/-- A line of another module is read (RD): for a fill of a cluster, or for the L2 of an exclusive holder. -/
def State.askPeer (s : State) (who : ReqWho) (key die : Nat) : State :=
  s.request who (linePort (lineLa key)) (lineDev key) 0x01 (BitVec.ofNat 16 die) (key * 128) (BitVec.ofNat 64 (lineLa key)) []

/-- May a store of a die to a line of another module go on: with an exclusive grant and the line in its L2, or as a write through
under a shared one? -/
def State.peerGate (s : State) (die key : Nat) : Gate :=
  match s.peerOf die key with
  | some p =>
    if !p.excl then .go
    else if (tget s.coh.l2 (peerKey key)).isSome then .go
    else
      let who := ReqWho.fill (128 * die) (peerKey key)
      if s.asked (· == who) then .wait else .act (s.askPeer who key die)
  | none =>
    let pg := key / 32
    if s.asked fun w => match w with | .page d p _ => d == die && p == pg | _ => false then .wait else .act (s.askPage die key true)

/-- The mask beat and the data beats of a WR. -/
def wrBeats (l : List (Nat × Byte)) : List (BitVec 128) :=
  let mask := l.foldl (fun m p => m ||| 2 ^ p.1) 0
  let d := setBytes 0 l
  BitVec.ofNat 128 mask :: (List.range 8).map fun i => d.extractLsb' (128 * i) 128

/-- Bytes of one line of another module are written: into the holder's L2, or by WR (AUX 1 marks a reclaim; log entry 11). -/
def State.peerWrite (s : State) (die key : Nat) (l : List (Nat × Byte)) (who : ReqWho) (src : WrSrc) (reclaim : Bool) : State :=
  let s := s.dropLoose key src.grid
  let send := s.request who (linePort (lineLa key)) (lineDev key) 0x03 (BitVec.ofNat 16 (4 * die + ofBool reclaim)) (key * 128)
    (BitVec.ofNat 64 (lineLa key)) (wrBeats l)
  match s.peerOf die key, tget s.coh.l2 (peerKey key) with
  | some p, some x =>
    if p.excl ∧ ¬ reclaim then
      -- a line that is poisoned in the holder's L2 takes no store (R386)
      if s.poisoned (peerKey key) then s.shaveDie die 0x15 src.code (BitVec.ofNat 64 (lineLa key)) 0
      else { s with coh := { s.coh with l2 := tput s.coh.l2 (peerKey key) { x with data := setBytes x.data l, dirty := true } } }
    else send
  | _, _ => send

/-! ### Homes to which a cluster is DEAD (R375, R376) -/

/-- Does the home of a line refuse a cluster, which is DEAD to it? -/
def State.refuses (s : State) (c key : Nat) : Bool :=
  lineDev key == s.dev && decide (lineLa key < 2 ^ 40) && (s.die (homeDie (lineLa key))).agent c == 2

/-- A drain unit is discarded, and the die writes a LOSTW record. -/
def State.lostw (s : State) (die pa : Nat) : State := s.shaveDie die 0x14 (homeDie (paLa pa)) (BitVec.ofNat 64 (paLa pa)) 0

/-- An operation of a cluster's engine or router on a sync word: a home to which the cluster is DEAD refuses it (R375). -/
def State.wordBy (s : State) (cl : Nat) (w : WLoc) (o : WordOp) : State :=
  match w with
  | .mem dev la _ _ => if s.refuses cl (dev * 2 ^ 45 + la / 128) then s.lostw (clusterDie cl) (dev * 2 ^ 52 + la) else s.wordOp w o
  | .pool _ _ => s.wordOp w o

/-! ### Gates of a line -/

/-- May an access of this module to a line go on now (R378, R379, R382, R389)? -/
def State.lineGate (s : State) (die key : Nat) (write : Bool) (who : Option DevWho) : Gate :=
  if lineDev key ≠ s.dev then s.peerGate die key
  else
    let la := lineLa key
    if la < 2 ^ 40 then
      match (if write then s.probeGate (la / 128) else .go) with
      | .go => s.gate (la / 128) write who
      | g => g
    else .go

/-- The first line of a list that holds an access back. -/
def State.gates (s : State) (die : Nat) (write : Bool) (who : Option DevWho) : List Nat → Gate
  | [] => .go
  | k :: l => match s.lineGate die k write who with
    | .go => s.gates die write who l
    | g => g

/-- Bytes of one line written by this module, wherever its memory is: its own HBM, host memory, or another module. -/
def State.writeRam (s : State) (die key : Nat) (vc : BitVec 6) (l : List (Nat × Byte)) (src : WrSrc) (who : ReqWho) : State :=
  if lineDev key ≠ s.dev then s.peerWrite die key l who src false
  else
    let la := lineLa key
    if la < 2 ^ 40 then s.homeWrite (la / 128) vc.toNat l src
    else s.writeHost (la + (l.map (·.1)).headD 0) (l.map (·.2)) src

/-! ### Attempts -/

/-- How an attempt of an engine command ends. -/
inductive EngRes (α : Type) where
  /-- it went through -/
  | done (s : State) (v : α)
  /-- an error of Table 5-8 or 6-5 -/
  | err (s : State) (code : Nat) (c : Cause) (va : W64)
  /-- a translation fault (R308): address, level, malformed, non-canonical, a write -/
  | page (va : W64) (lvl : Nat) (mal nc wr : Bool)
  /-- it must wait -/
  | wait
  /-- it waits, and something is set in motion -/
  | act (s : State)

/-- The next part of an attempt. -/
def EngRes.bind {α β : Type} (r : EngRes α) (f : State → α → EngRes β) : EngRes β :=
  match r with
  | .done s v => f s v
  | .err s c k va => .err s c k va
  | .page va lvl mal nc wr => .page va lvl mal nc wr
  | .wait => .wait
  | .act s => .act s

/-- How an attempt of a die itself ends: it has no errors of its own, what cannot be reached is an answer like any other. -/
inductive Tried (α : Type) where
  | done (s : State) (v : α)
  | wait
  | act (s : State)

/-- The next part of an attempt. -/
def Tried.bind {α β : Type} (r : Tried α) (f : State → α → Tried β) : Tried β :=
  match r with
  | .done s v => f s v
  | .wait => .wait
  | .act s => .act s

/-- The next part of an attempt that needs what this part should answer. -/
def Tried.also {α β : Type} (r : Tried (Option α)) (f : State → α → Tried (Option β)) : Tried (Option β) :=
  r.bind fun s v => match v with
    | some v => f s v
    | none => .done s none

/-- An engine's attempt as a die makes it: an error answers nothing. -/
def EngRes.tried {α : Type} (r : EngRes α) (s : State) : Tried (Option α) :=
  match r with
  | .done s v => .done s (some v)
  | .err s _ _ _ => .done s none
  | .page _ _ _ _ _ => .done s none
  | .wait => .wait
  | .act s => .act s

/-- Error codes of Table 5-8. -/
def errCode : Cause → Nat
  | .prot => 0x02 | .imageTag => 0x03 | .vcFault => 0x04 | .poison => 0x05 | .timeout => 0x05
  | _ => 0x01

/-- The lines of a piece. -/
def Piece.keys (p : Piece) : List Nat := (List.range ((p.pa % 128 + p.len + 127) / 128)).map (p.pa / 128 + ·)

/-- The bytes of a line of another module that an engine of a cluster reads: a copy of the cluster, or a fill that it asked for. -/
def State.engLine (s : State) (cl key : Nat) (leaf : Leaf) (va : W64) : EngRes WideBits :=
  match s.l1Copy cl key with
  | some d => .done s d
  | none =>
    match s.fillDone cl key (.engine cl) with
    | some f =>
      let t := s.dropWaiterAt (fun f => f.cl == cl && f.line == key) (.engine cl)
      if f.poisoned then .err t 0x05 .poison va else if f.failed then .err t 0x05 .timeout va else .done s (f.data.getD 0)
    | none =>
      if (s.coh.fills.any fun f => f.cl == cl && f.line == key && f.waiters.contains (.engine cl)) || !s.canAsk cl key none then .wait
      else .act (s.askLine cl key leaf 0 (.engine cl))

/-- The virtual address of the first byte of a piece that lies in a line. -/
def Piece.vaIn (p : Piece) (va : W64) (key : Nat) : W64 := va + BitVec.ofNat 64 (128 * key - p.pa)

/-- The lines of a piece on another module, in order. -/
def State.engLines (s : State) (cl : Nat) (p : Piece) (va : W64) : List Nat → EngRes (List (Nat × WideBits))
  | [] => .done s []
  | k :: l => (s.engLine cl k p.leaf (p.vaIn va k)).bind fun s d => (s.engLines cl p va l).bind fun s r => .done s ((k, d) :: r)

/-- The lines of a piece on another module have been used: the engine waits for them no longer. -/
def State.engUsed (s : State) (cl : Nat) (p : Piece) : State :=
  s.dropWaiterAt (fun f => f.cl == cl && p.keys.contains f.line) (.engine cl)

/-- The bytes of a piece of memory read for an engine or a die; a dry run leaves everything as it is. Own lines are allocated in the L2
as for any read (R285, R289). -/
def State.ramRead (s : State) (cl : Nat) (p : Piece) (va : W64) (dry : Bool) : EngRes (List Byte) :=
  let la := paLa p.pa
  if paDev p.pa ≠ s.dev then
    (s.engLines cl p va p.keys).bind fun s l =>
      .done (if dry then s else s.engUsed cl p)
        ((List.range p.len).map fun i =>
          match l.find? (·.1 == (p.pa + i) / 128) with
          | some x => x.2.extractLsb' (8 * ((p.pa + i) % 128)) 8
          | none => 0)
  else if la < 2 ^ 40 then
    match s.gates (clusterDie cl) false none p.keys with
    | .wait => .wait
    | .act s' => .act s'
    | .go =>
      match p.keys.find? fun k => s.poisoned (lineLa k / 128) || s.refuses cl k with
      | some k => .err s 0x05 .poison (p.vaIn va k)
      | none => .done (if dry then s else p.keys.foldl (fun s k => s.allocate (lineLa k / 128) p.leaf.vc.toNat) s) (s.laBytes la p.len)
  else .done (if dry then s else s.tellHost 0 (.d2hRead la (p.leaf.cmode != 3))) (s.laBytes la p.len)

end Sys2Proof.Machine
end

