-- ==== Sys2Proof/Machine/Pool.lean ====
section
/-! DEFINITION. The SRAM pools as groups divide them (09 R270 to R273, 01 R29): partition words, group scratchpads, and where a
sync-word reference leads (06 R193). -/

namespace Sys2Proof.Machine

/-! ### Partition words (Table 9-1) -/

def partVw (p : BitVec 32) : Nat := p.toNat / 2 ^ 30
def partAcc (p : BitVec 32) : Nat := p.toNat / 2 ^ 16 % 256
def partSpad (p : BitVec 32) : Nat := p.toNat / 2 ^ 8 % 256
def partSlots (p : BitVec 32) : Nat := p.toNat % 16
/-- Register-file units of a slot (R271). -/
def partF (p : BitVec 32) : Nat := 2 ^ partVw p
/-- Wide registers of a thread. -/
def partWides (p : BitVec 32) : Nat := 4 * 2 ^ partVw p
/-- R271; `s` is the thread-field sum of R27. -/
def partValid (p : BitVec 32) (s : Nat) : Bool :=
  partVw p != 3 && bitsOf p.toNat 29 24 == 0 && bitsOf p.toNat 7 4 == 0 && decide (partAcc p ≤ 128) && decide (partSpad p ≤ 128)
    && partSlots p == min 8 (2 ^ s) && decide (partSlots p * partF p + partSpad p + partAcc p ≤ 128)

/-! ### Group scratchpads (R29) -/

/-- P: the scratchpad partition of a member grid in bytes. -/
def Group.part (g : Group) : Nat := 4096 * partSpad g.partw
def Group.spadSize (g : Group) : Nat := g.part * g.members.length

/-- The pool address of a local offset on a member grid. -/
def Member.spadAt (m : Member) (l : Nat) : Nat := m.grid * 2 ^ 19 + m.spadU.getD (l / 4096) 0 * 4096 + l % 4096

/-- The pool address of a group scratchpad offset, if it exists. -/
def Group.spadAt (g : Group) (off : Nat) : Option Nat :=
  if g.part = 0 then none else (g.members[off / g.part]?).map fun m => m.spadAt (off % g.part)

/-- Does a range lie within the group scratchpad (R177)? -/
def Group.inSpad (g : Group) (off len : Nat) : Bool := decide (off + len ≤ g.spadSize)

/-- Bytes of a group scratchpad. -/
def State.spadRead (s : State) (g : Group) (off len : Nat) : List Byte :=
  (List.range len).map fun i =>
    match g.spadAt (off + i) with
    | some a => rd1 s.pool a
    | none => 0

/-- Bytes written to a group scratchpad, granule by granule. -/
def State.spadWrite (s : State) (g : Group) (off : Nat) (l : List Byte) : State :=
  ((splitPieces off l.length (l.length / 16 + 2)).foldl (fun (p : State × List Byte) (q : Nat × Nat) =>
    match g.spadAt q.1 with
    | some a => (p.1.poolWrite a (p.2.take q.2), p.2.drop q.2)
    | none => (p.1, p.2.drop q.2)) (s, l)).1

/-! ### Sync-word references (R193) -/

/-- What a reference leads to. -/
inductive RefTo where
  | ok (w : WLoc) (pieces : List Piece)
  | fault (c : Cause) (tval : W64)
  | reserved
  | miss (va : W64)
  deriving DecidableEq, Repr

/-- The location in a reference. -/
def refBase (r : W64) : W64 := r &&& ~~~(0xF : W64)

/-- R193: the word that a reference names, for a thread; store-class for an operation that changes it. -/
def State.refTo (s : State) (w : Who) (g : Option Group) (store : Bool) (r : W64) : RefTo :=
  if r.toNat % 16 = 0 then
    match s.translate w (if store then .store else .load) r 16 with
    | .miss va => .miss va
    | .fault c va => .fault c va
    | .ok ps =>
      match ps with
      | p :: _ =>
        if p.leaf.cmode = 0 ∨ p.leaf.cmode = 3 then .ok (.mem (paDev p.pa) (paLa p.pa) p.leaf.vc.toNat r) ps else .fault .prot r
      | [] => .fault .prot r
  else if r.toNat % 16 = 1 then
    let off := (refBase r).toNat
    match g with
    | none => .fault .prot r
    | some g =>
      match g.inSpad off 16, g.spadAt off with
      | true, some a => .ok (.pool a r) []
      | _, _ => .fault .prot r
  else .reserved

end Sys2Proof.Machine
end

