-- ==== Sys2Proof/Machine/Queues.lean ====
section
/-! DEFINITION. Work queues and invocations (11_scheduling.md R312 to R322, 07 R226 to R229): launch records, configuration
blocks, the acceptance of records, the reports to error handlers, handler-table entries, and the packets of INVOKE and WAKE. -/

namespace Sys2Proof.Machine

/-! ### Launch records (Table 11-1) -/

def recField (r : BitVec 512) (hi lo : Nat) : Nat := bitsOf r.toNat hi lo
def recCount (r : BitVec 512) : Nat := recField r 511 448
def recArgp (r : BitVec 512) : W64 := BitVec.ofNat 64 (recField r 447 390 * 64)
def recSave (r : BitVec 512) : W64 := BitVec.ofNat 64 (recField r 383 336 * 65536)
def recDepgen (r : BitVec 512) : Nat := recField r 335 320
def recDonew (r : BitVec 512) : W64 := BitVec.ofNat 64 (recField r 319 256)
def recDepw (r : BitVec 512) : W64 := BitVec.ofNat 64 (recField r 255 192)
def recPartw (r : BitVec 512) : BitVec 32 := BitVec.ofNat 32 (recField r 191 160)
def recSupv (r : BitVec 512) : Bool := r.getLsbD 135
def recZero (r : BitVec 512) : Bool := r.getLsbD 134
def recNarg (r : BitVec 512) : Nat := recField r 130 128
def recPrio (r : BitVec 512) : Nat := recField r 106 104
def recCut (r : BitVec 512) : Nat := recField r 102 100
def recWidths (r : BitVec 512) : List Nat := (List.range 6).map fun j => recField r (69 + 6 * j) (64 + 6 * j)
def recCode (r : BitVec 512) : W64 := BitVec.ofNat 64 (recField r 63 6 * 64)
def recImg (r : BitVec 512) : BitVec 6 := BitVec.ofNat 6 (recField r 5 0)
/-- S and W of R27. -/
def recS (r : BitVec 512) : Nat := ((recWidths r).take (recCut r)).sum
def recW (r : BitVec 512) : Nat := (recWidths r).sum
/-- Threads of a group (R28). -/
def recThreads (r : BitVec 512) : Nat := 2 ^ recS r

/-- R313, but for SUPV and the argument block. -/
def recValid (r : BitVec 512) : Bool :=
  recField r 389 384 == 0 && recField r 159 136 == 0 && recField r 133 131 == 0 && recField r 127 107 == 0 && recField r 103 103 == 0
    && canonical (recCode r)
    && (recWidths r).all (fun w => decide (w ≤ 32)) && decide (recW r ≤ 64) && decide (recCut r ≤ 6) && decide (recS r ≤ 5)
    && decide (1 ≤ recCount r) && decide (recCount r ≤ 2 ^ (recW r - recS r))
    && partValid (recPartw r) (recS r)
    && (recDepw r).toNat % 16 == 0 && (recDonew r).toNat % 16 == 0
    && (recArgp r != 0 || recNarg r == 0)

/-! ### Configuration blocks (Table 11-3) -/

def Queue.w (q : Queue) (i : Nat) : W64 := q.qw.getD i 0
def Queue.en (q : Queue) : Bool := (q.w 0).getLsbD 63
def Queue.hsup (q : Queue) : Bool := (q.w 0).getLsbD 62
def Queue.pol (q : Queue) : Nat := bitsOf (q.w 0).toNat 60 59
def Queue.pmax (q : Queue) : Nat := bitsOf (q.w 0).toNat 58 56
def Queue.asid (q : Queue) : BitVec 16 := (q.w 0).extractLsb' 32 16
def Queue.depth (q : Queue) : Nat := (q.w 0).toNat % 8192
def Queue.ptb (q : Queue) : W64 := q.w 1
def Queue.tvec (q : Queue) : W64 := q.w 2
def Queue.ovbase (q : Queue) : Nat := (q.w 4).toNat
def Queue.ovn (q : Queue) : Nat := (q.w 5).toNat
def Queue.ev (q : Queue) : Bool := (q.w 6).getLsbD 51
def Queue.tgt (q : Queue) : W64 := q.w 6 &&& 0xFFFFFFC00
def Queue.hidx (q : Queue) : Nat := bitsOf (q.w 6).toNat 63 52
/-- QW7.OCC: records held, resume items included. -/
def Queue.occ (q : Queue) : Nat := q.store.length + q.overf.length + q.resume.length

/-- QW0 to QW7 as they read. -/
def Queue.read (q : Queue) (i : Nat) : W64 :=
  if i < 7 then q.w i
  else BitVec.ofNat 64 (q.drops.toNat * 2 ^ 48 + q.errs.toNat * 2 ^ 32 + q.occ % 2 ^ 32)

/-- R316: a write of a word; a DEPTH that R315 does not allow is kept and used as it is written (the spec gives it no effect; log entry 62);
its reserved bits ignore it, the frozen fields keep their value unless EN = 0 and OCC = 0. -/
def Queue.write (q : Queue) (i : Nat) (v : W64) : Queue :=
  let idle := !q.en && q.occ == 0
  let mix (old keep : W64) : W64 := (old &&& keep) ||| (v &&& ~~~keep)
  match i with
  | 0 =>
    let live : W64 := 0xDF00FFFF00001FFF
    let frozen : W64 := 0x1800FFFF00001FFF
    { q with qw := q.qw.set 0 (mix (q.w 0) (if idle then 0 else frozen) &&& live) }
  | 1 => { q with qw := q.qw.set 1 v }
  | 2 => { q with qw := q.qw.set 2 (align64 v) }
  | 3 => if idle then { q with qw := q.qw.set 3 (v &&& ~~~(0xFFF : W64)) } else q
  | 4 => if idle then { q with qw := q.qw.set 4 (v &&& ~~~(0xFFF : W64)) } else q
  | 5 => if idle then { q with qw := q.qw.set 5 (v &&& 0xFFFFFFFF) } else q
  | 6 => { q with qw := q.qw.set 6 (v &&& 0xFFF8000FFFFFFC00) }
  | 7 => { q with drops := v.extractLsb' 48 16, errs := v.extractLsb' 32 16 }
  | _ => q

/-! ### A die's own accesses (R313, R323, R334: a queue's or group's address space, supervisor permission, no TLB) -/

/-- One page of a die's access: the global physical address and the leaf, or the cause of the first failure. -/
def State.dieAccess (s : State) (ptbase va : W64) (k : AKind) : State × (Cause ⊕ (Nat × Leaf)) :=
  if !canonical va then (s, .inl .pageFault)
  else
    match s.walk ptbase va with
    | .fault _ _ => (s, .inl .pageFault)
    | .leaf addr0 e0 lvl =>
      let s := s.walkReads (s.walkLines (va.toNat % 2 ^ 57) 5 (pteAddr ptbase))
      let u := s.useLeaf addr0 e0 lvl
      let s := u.1
      let addr := u.2.1
      let e := u.2.2.1
      let l := leafOf e
      let raw := u.2.2.2.toNat + va.toNat % 2 ^ levelBits lvl
      -- no image is current for a die: the page's own tag passes (R334 names none; log entry 60)
      match s.checkLeaf l raw k true l.img with
      | some c => (s, .inl c)
      | none =>
        let e' := (e ||| 0x40) ||| (if k == .store then 0x80 else 0)
        let s := if e' = e then s else s.writeLa addr 0 [e'.extractLsb' 0 8] .engine
        (s, .inr (globalPa s.dev l.cmode.toNat raw, l))

/-- What a die's own access finds at the homes of the table entries that it reads and marks (R379, R382, R389). -/
def State.dieGate (s : State) (ptbase va : W64) (store : Bool) : Gate :=
  if canonical va then s.walkGateFrom (va.toNat % 2 ^ 57) 5 (pteAddr ptbase) store none else .go

/-- A part of an attempt, once a gate lets it go on. -/
def Gate.tried {α : Type} (g : Gate) (r : Tried α) : Tried α :=
  match g with
  | .go => r
  | .wait => .wait
  | .act s => .act s

/-- An event, once a gate lets it go on. -/
def Gate.out (g : Gate) (r : Out) : Out :=
  match g with
  | .go => r
  | .wait => .fault .notReady
  | .act s => .next s

/-- The bytes of a die's read, piece by piece; nothing where one of them cannot be reached: a failed translation, a register window, a
poisoned line, a request that was not answered. Lines of another module are asked for as an engine of cluster 0 of the die asks. A dry run
keeps what has been fetched. -/
def State.dieReadPieces (s : State) (die : Nat) (ptbase : W64) (dry : Bool) : List (W64 × Nat) → Tried (Option (List Byte))
  | [] => .done s (some [])
  | (va, n) :: l =>
    (s.dieGate ptbase va false).tried <|
    let a := s.dieAccess ptbase va .load
    match a.2 with
    | .inl _ => .done a.1 none
    | .inr (pa, leaf) =>
      if paDev pa = a.1.dev ∧ 2 ^ 41 ≤ paLa pa then .done a.1 none
      else
        ((a.1.ramRead (128 * die) ⟨pa, n, leaf⟩ va dry).tried a.1).also fun s b =>
          (s.dieReadPieces die ptbase dry l).also fun s r => .done s (some (b ++ r))

/-- A die's read of ranges, in order: once every byte is there, all of them. -/
def State.dieRead (s : State) (die : Nat) (ptbase : W64) (l : List (W64 × Nat)) : Tried (Option (List Byte)) :=
  let ps := (l.map fun p => piecesOf p.1 p.2).flatten
  (s.dieReadPieces die ptbase true ps).bind fun s r =>
    match r with
    | some _ => s.dieReadPieces die ptbase false ps
    | none => .done (s.dropWaiterAt (fun f => f.cl == 128 * die) (.engine (128 * die))) none

/-- A die's write of bytes, piece by piece, `false` where one of them cannot be reached; a dry run writes none. `id` is the number under
which other modules answer. -/
def State.dieWritePieces (s : State) (die : Nat) (ptbase : W64) (id : Nat) (dry : Bool) : List (W64 × Nat) → List Byte → Tried Bool
  | [], _ => .done s true
  | (va, n) :: l, d =>
    (s.dieGate ptbase va true).tried <|
    let a := s.dieAccess ptbase va .store
    match a.2 with
    | .inl _ => .done a.1 false
    | .inr (pa, leaf) =>
      let key := pa / 128
      let own := paDev pa == a.1.dev
      if own && (decide (2 ^ 41 ≤ paLa pa) || a.1.poisoned (paLa pa / 128)) then .done a.1 false
      else
        match a.1.lineGate die key true none with
        | .wait => .wait
        | .act s => .act s
        | .go =>
          let s := if dry then a.1 else a.1.writeRam die key leaf.vc (placed (pa % 128) (d.take n)) .engine (.engine id n)
          s.dieWritePieces die ptbase id dry l (d.drop n)

/-- A die's write of ranges: once every line may be written, all of it is. -/
def State.dieWrite (s : State) (die : Nat) (ptbase : W64) (id : Nat) (l : List (W64 × List Byte)) : Tried Bool :=
  let ps := (l.map fun p => piecesOf p.1 p.2.length).flatten
  let bytes := (l.map (·.2)).flatten
  (s.dieWritePieces die ptbase id true ps bytes).bind fun s ok =>
    if ok then s.dieWritePieces die ptbase id false ps bytes else .done s false

/-- The sync word of a memory reference in an address space: its location, or the cause that makes it unusable (R323); a word that is
only waited at is reached as a load reaches it (R303). -/
def State.dieWord (s : State) (ptbase ref : W64) (k : AKind) : State × (Cause ⊕ WLoc) :=
  let a := s.dieAccess ptbase ref k
  match a.2 with
  | .inl c => (a.1, .inl c)
  | .inr (pa, l) => if l.cmode = 0 ∨ l.cmode = 3 then (a.1, .inr (.mem (paDev pa) (paLa pa) l.vc.toNat ref)) else (a.1, .inl .prot)

/-! ### Target words and packets (Table 7-7, R227, R228, R234) -/

def twDev (t : W64) : Nat := bitsOf t.toNat 35 24
def twDie (t : W64) : Nat := bitsOf t.toNat 23 22
/-- The global slot number in a target word. -/
def twSlot (t : W64) : Nat := bitsOf t.toNat 23 10

/-- The way of a packet to a device and die (R396); `sender` is the global slot number. -/
def State.packetPort (s : State) (dev die sender : Nat) : Nat := if dev = s.dev then localPort else 8 * die + sender % 8

/-- Is a device reachable (R296)? -/
def State.reachable (s : State) (dev : Nat) : Bool := dev == s.dev || s.reach.contains dev

/-- An invocation is sent (R227): class 0x08 INVQ or 0x09 INVH. An unreachable target is answered at the sender's die (R322). The
places of the fields in the two payload beats are the model's (DESIGN CHOICE, log entry 11). -/
def State.sendInvoke (s : State) (who : ReqWho) (cls hidx : Nat) (asid : BitVec 16) (tw a0 a1 : W64) (sender : Nat) : State :=
  let dev := twDev tw
  let port := s.packetPort dev (twDie tw) sender
  if s.reachable dev then
    s.request who port dev cls asid tw.toNat tw [a1 ++ a0, BitVec.ofNat 128 (sender * 2 ^ 16 + hidx)]
  else
    let tag := BitVec.ofNat 13 s.links.tagNext
    let s := s.request who localPort dev 0x3F asid tw.toNat tw []
    s.modPort localPort fun x =>
      { x with queue := (x.queue.dropLast) ++ [⟨BitVec.ofNat 12 s.dev, BitVec.ofNat 12 dev, 0x26, tag, 5, tw, []⟩] }

/-- The INVST of a rejection (Table 7-8). -/
def invstReject (v : W64) (reason hidx dev : Nat) : W64 :=
  let n := v.toNat
  let nrej := n / 2 ^ 56
  let keep := n % 2 ^ 24
  if nrej = 0 then BitVec.ofNat 64 (2 ^ 56 + reason % 256 * 2 ^ 48 + hidx % 4096 * 2 ^ 36 + dev % 4096 * 2 ^ 24 + keep)
  else BitVec.ofNat 64 (min 255 (nrej + 1) * 2 ^ 56 + n % 2 ^ 56)

def invstOutst (v : W64) : Nat := bitsOf v.toNat 23 16
/-- OUTST moved by one. -/
def invstAdd (v : W64) (up : Bool) : W64 := if up then v + 0x10000 else if invstOutst v = 0 then v else v - 0x10000

/-- A rejection is recorded in a thread's INVST (R228). -/
def Thread.reject (t : Thread) (reason hidx dev : Nat) : Thread :=
  { t with sys := { t.sys with invst := invstReject t.sys.invst reason hidx dev } }

/-! ### Reports to error handlers (R320) -/

/-- An error of a queue is counted (R319, R320). -/
def State.countErr (s : State) (d q : Nat) : State := s.modQueue d q fun x => { x with errs := if x.errs = 0xFFFF then x.errs else x.errs + 1 }

/-- An error of a queue: counted in ERRS, and sent to its handler if EV = 1. -/
def State.report (s : State) (d q code : Nat) (info : Nat) (datum : W64) : State :=
  let s := s.countErr d q
  let x := s.queue d q
  if x.ev then
    s.sendInvoke (.report d q) 0x09 x.hidx x.asid x.tgt (BitVec.ofNat 64 (info % 2 ^ 32 * 2 ^ 32 + q * 256 + code)) datum (4096 * d)
  else s

/-! ### Handler-table entries (Table 11-7) -/

def Die.handler (d : Die) (i : Nat) : BitVec 512 := (tget d.handlers i).getD 0
def hPartw (e : BitVec 512) : Nat := recField e 191 160
def hQueue (e : BitVec 512) : Nat := recField e 159 154
def hCount (e : BitVec 512) : Nat := recField e 153 128
def hAsid (e : BitVec 512) : BitVec 16 := e.extractLsb' 112 16
def hV (e : BitVec 512) : Bool := e.getLsbD 111
def hHok (e : BitVec 512) : Bool := e.getLsbD 108
def hQok (e : BitVec 512) : Bool := e.getLsbD 107
/-- G3 to G7, j from 3 to 7. -/
def hG (e : BitVec 512) (j : Nat) : W64 := e.extractLsb' (64 * j) 64

/-- The record that INVOKE.q builds from an entry (R322). -/
def hRecord (e : BitVec 512) : BitVec 512 :=
  BitVec.ofNat 512 (hCount e * 2 ^ 448 + hPartw e * 2 ^ 160 + ofBool (e.getLsbD 110) * 2 ^ 135 + ofBool (e.getLsbD 109) * 2 ^ 134
    + recField e 106 104 * 2 ^ 104 + recField e 102 64 * 2 ^ 64 + recField e 63 0)
/-- g1 to g7 of that launch. -/
def hArgs (e : BitVec 512) (a0 a1 : W64) : List W64 := [a0, a1, hG e 3, hG e 4, hG e 5, hG e 6, hG e 7]

/-! ### Acceptance (R313, R314, R317) -/

/-- The fields of an invocation packet. -/
def invA0 (m : Msg) : W64 := (m.beats.getD 0 0).extractLsb' 0 64
def invA1 (m : Msg) : W64 := (m.beats.getD 0 0).extractLsb' 64 64
def invHidx (m : Msg) : Nat := bitsOf (m.beats.getD 1 0).toNat 11 0
def invSender (m : Msg) : Nat := bitsOf (m.beats.getD 1 0).toNat 29 16

/-- How a submission ends. -/
inductive Accept where
  | accepted
  | invalid (code : Nat) (datum : W64)
  | refused (reason : Nat)
  deriving DecidableEq, Repr

/-- The ASID that acceptance compares, if any (R317: LAUNCH and INVOKE.q only), and whether SUPV is permitted (R313). -/
def LaunchSrcAsid : LaunchSrc → Option (BitVec 16)
  | .thread _ _ a _ => some a
  | .invoke _ m => some m.aux
  | .window => none
  | .pager => none
def launchSup (q : Queue) : LaunchSrc → Bool
  | .thread _ _ _ sup => sup
  | .invoke _ _ => true
  | .window => q.hsup
  | .pager => true

/-- Is a record built from handler-table entry 4,095 (R324)? -/
def launchPager : LaunchSrc → Bool
  | .pager => true
  | .invoke _ m => invHidx m == 4095
  | _ => false

/-- The datum of an invalid-record report (Table 11-6, codes 0x01 and 0x03). -/
def launchDatum : LaunchSrc → W64
  | .thread _ va _ _ => va
  | _ => 0

/-- May the die use the overflow record at an index of a queue (R317)? -/
def State.overOk (s : State) (q : Queue) (i : Nat) : Bool :=
  let la := q.ovbase + 256 * i
  decide (la + 256 ≤ 2 ^ 40) && !s.poisoned (la / 128) && !s.poisoned (la / 128 + 1)

/-- R317 with Table 11-4: a valid record takes its place. -/
def State.enqueue (s : State) (d q : Nat) (r : QRec) : State × Accept :=
  let x := s.queue d q
  if x.store.length < x.depth ∧ x.overf.isEmpty then
    (s.modQueue d q fun x => { x with store := x.store ++ [r] }, .accepted)
  else if x.pol = 1 then
    if x.ovn ≤ x.overf.length then (s, .refused 1)
    else if s.overOk x x.overf.length then (s.modQueue d q fun x => { x with overf := x.overf ++ [r] }, .accepted)
    else (s.report d q 5 0 (BitVec.ofNat 64 (x.ovbase + 256 * x.overf.length)), .accepted)
  else if x.pol = 2 then
    (s.modQueue d q fun x => { x with drops := if x.drops = 0xFFFF then x.drops else x.drops + 1 }, .accepted)
  else (s, .refused 1)

/-- The argument block of a record (R314): g1 to g7 and q0 to q15, or nothing where it cannot be read. -/
def State.argBlock (s : State) (d : Nat) (x : Queue) (r : BitVec 512) : Tried (Option (List W64 × List W64)) :=
  if recArgp r = 0 then .done s (some (List.replicate 7 0, List.replicate 16 0))
  else
    (s.dieRead d x.ptb [(recArgp r, 192)]).also fun s l =>
      let word (j : Nat) : W64 := BitVec.ofNat 64 (leNat ((l.drop (8 * j)).take 8))
      .done s (some ((List.range 7).map (fun j => if j < recNarg r then word j else 0), (List.range 16).map fun j => word (8 + j)))

/-- The leaf of an access that a die makes for itself, of which a read uses the cache and the coherence mode. -/
def dieLeaf (vc : BitVec 6) (cmode : BitVec 2) : Leaf :=
  { img := 0, vc := vc, cmode := cmode, g := false, u := false, x := false, w := false, r := true, d := false }

/-- The 64 bytes of a record that a die reads (R239, R314); nothing where they cannot be read (log entry 44). -/
def State.recordRead (s : State) (die : Nat) (p : Piece) : Tried (Option (BitVec 512)) :=
  if paDev p.pa = s.dev ∧ 2 ^ 41 ≤ paLa p.pa then .done s none
  else ((s.ramRead (128 * die) p 0 false).tried s).also fun s b => .done s (some (BitVec.ofNat 512 (leNat b)))

/-- The bits of a submitted record. -/
def State.recordBits (s : State) (die : Nat) : RecordAt ⊕ BitVec 512 → Tried (Option (BitVec 512))
  | .inr r => .done s (some r)
  | .inl a => s.recordRead die ⟨a.pa, 64, dieLeaf a.vc a.cmode⟩

/-- The place of a sender among those of one mclk (R317): by device and global slot, the pager after the threads of its device, the window
after all. -/
def State.senderPlace (s : State) : LaunchSrc → Nat
  | .thread slot _ _ _ => s.dev * 2 ^ 15 + slot
  | .invoke _ m => m.src.toNat * 2 ^ 15 + invSender m
  | .pager => s.dev * 2 ^ 15 + 2 ^ 14
  | .window => 2 ^ 27

/-- The mclk, two clks of the module. -/
def State.mclk (s : State) : Nat := s.clk / 2

/-- Is a submission to a queue under way that comes before this one, or may one still reach the die in the same mclk (R317)? -/
def State.submitsBefore (s : State) (d q : Nat) (r : Submission) : Bool :=
  (r.time == s.mclk && s.clk % 2 == 0) || s.agenda.any fun i => match i with
    | .recordAcceptance e k x => e == d && k == q
        && (decide (x.time < r.time) || (x.time == r.time && decide (s.senderPlace x.src < s.senderPlace r.src)))
    | _ => false

/-- R317: the tests in order, then the queue. -/
def State.accept (s : State) (d q : Nat) (r : Submission) : Tried Accept :=
  let x := s.queue d q
  let fits (p : State × Accept) : Tried Accept := .done p.1 p.2
  if s.submitsBefore d q r then .wait
  else if !x.en then .done s (.refused 7)
  else if (match LaunchSrcAsid r.src with | some a => a != x.asid | none => false) then .done s (.refused 6)
  else
    (s.recordBits d r.record).bind fun s v =>
      match v with
      | none => .done s (.invalid 1 (launchDatum r.src))
      | some bits =>
        if !recValid bits || (recSupv bits && !launchSup x r.src) then .done s (.invalid 1 (launchDatum r.src))
        else
          match r.args with
          | some g => fits (s.enqueue d q ⟨bits, g, List.replicate 16 0, 0, launchPager r.src⟩)
          | none =>
            (s.argBlock d x bits).bind fun s v =>
              match v with
              | none => .done s (.invalid 3 (recArgp bits))
              | some (g, qs) => fits (s.enqueue d q ⟨bits, g, qs, 0, false⟩)

/-- RECORD_ACCEPTANCE (R317): an invalid record is reported; a refused LAUNCH is recorded in INVST (R226), a refused window store
counted and reported (R319), and the packet of an INVOKE.q is answered: code 0x02 of a record that fails R313 goes to the handler of the
entry's queue (R322; log entry 61). -/
def execRecordAcceptance (die q : Nat) (r : Submission) (s : State) : Out :=
  match s.accept die q r with
  | .wait => .fault .notReady
  | .act t => .next { t with agenda := .recordAcceptance die q r :: t.agenda }
  | .done t a =>
    .next (match a with
      | .accepted =>
        (match r.src with
        | .invoke port m => t.respond port m 0x26 0 []
        | _ => t)
      | .invalid code datum =>
        (match r.src with
        | .invoke port m => (t.report die q 2 m.src.toNat (BitVec.ofNat 64 (invHidx m))).respond port m 0x26 0 []
        | _ => t.report die q code 0 datum)
      | .refused reason =>
        match r.src with
        | .thread slot _ _ _ => t.modThread slot (·.reject reason q s.dev)
        | .invoke port m => t.respond port m 0x26 (BitVec.ofNat 16 reason) []
        | .window => t.report die q 6 reason (BitVec.ofNat 64 q)
        | .pager => t)

/-- A 64-byte store at an invocation page (R319). -/
def State.windowLaunch (s : State) (die q : Nat) (bytes : BitVec 512) : State :=
  s.post [.recordAcceptance die q ⟨s.mclk, .window, .inr bytes, none⟩]

/-- INVOCATION_WINDOW_STORE (R319): the bytes are submitted to the page's queue. -/
def execInvocationWindowStore (die q : Nat) (bytes : BitVec 512) (s : State) : Out := .next (s.windowLaunch die q bytes)

/-- QUEUE_CONFIG_WRITE (R315, R316). -/
def execQueueConfigWrite (die q : Nat) (word : BitVec 3) (val : W64) (s : State) : Out :=
  .next (s.modQueue die q fun x => x.write word.toNat val)

/-! ### Packets at their target (R322, R228, R234) -/

/-- INVQ (R322): the target die reads its handler-table entry and submits the launch that it describes; an entry that cannot be used is
reported to the error handler of queue 0, since the entry names none that could be trusted (log entry 61). -/
def execInvq (port : Nat) (m : Msg) (s : State) : Out :=
  let d := twDie m.addr
  let e := (s.die d).handler (invHidx m)
  let bad (s : State) : State :=
    (s.report d 0 2 m.src.toNat (BitVec.ofNat 64 (invHidx m))).respond port m 0x26 0 []
  if !hV e || !hQok e then .next (bad s)
  else if m.aux ≠ hAsid e then .next (s.respond port m 0x26 6 [])
  else if (s.queue d (hQueue e)).asid ≠ hAsid e then .next (bad s)
  else .next (s.post [.recordAcceptance d (hQueue e)
    ⟨s.mclk, .invoke port m, .inr (hRecord e), some (hArgs e (invA0 m) (invA1 m))⟩])

/-- INVH (R322, R229): a handler message is appended to the slot's queue; it ends a sleep. -/
def execInvh (port : Nat) (m : Msg) (s : State) : Out :=
  let d := twDie m.addr
  let slot := twSlot m.addr
  let e := (s.die d).handler (invHidx m)
  .next (
    if !hV e || !hHok e then (s.report d 0 2 m.src.toNat (BitVec.ofNat 64 (invHidx m))).respond port m 0x26 0 []
    else if m.aux ≠ hAsid e then s.respond port m 0x26 6 []
    else
      match tget s.thr slot with
      | none => s.respond port m 0x26 4 []
      | some t =>
        if t.ending then s.respond port m 0x26 4 []
        else if t.sys.asid ≠ hAsid e then s.respond port m 0x26 6 []
        else if 4 ≤ t.msgs.length then s.respond port m 0x26 2 []
        else
          (s.modThread slot fun t =>
            { t with msgs := t.msgs ++ [⟨recCode e, invA0 m, invA1 m, invSender m⟩], asleep := false, sleepUntil := none
                     boundary := t.boundary || (t.asleep && !t.sys.handler) }).respond
            port m 0x26 0 [])

/-- Is a thread pre-empted, its context in its save area or on its way back? -/
def State.preempted (s : State) (thread : Nat) : Bool :=
  (match s.group (thread / 64) with | some g => g.saved.contains (thread % 64) | none => (tget s.resumed (thread / 64)).isSome)
    || s.thr.any fun p => p.2.gid * 64 + p.2.tidx == thread && p.2.ending && p.2.saving

/-- The answer of an invocation has come (R228), from a device about a target word: a refusal goes to INVST, and of INVOKE.t to the latch.
A pre-empted sender finds it as it is restored; the answer of an ended thread is discarded (R329). -/
def State.invokeAnswered (s : State) (thread hidx : Nat) (trap : Bool) (reason dev : Nat) (tw : W64) : State :=
  if s.preempted thread then
    if reason = 0 then s else { s with rejects := s.rejects ++ [⟨thread, trap, reason, hidx, dev⟩] }
  else
    match s.thr.find? fun p => p.2.gid * 64 + p.2.tidx == thread && !p.2.ending with
    | none => s
    | some (slot, _) =>
      let s := s.modThread slot fun t => { t with sys := { t.sys with invst := invstAdd t.sys.invst false } }
      let s := s.shave (slotCluster slot) 0x07 slot 0 (2 ^ 31 + reason * 2 ^ 16 + hidx) tw 0
      if reason = 0 then s
      else
        let s := s.modThread slot (·.reject reason hidx dev)
        if trap then
          match tget s.thr slot with
          | some t => s.raiseReject slot t.sys.invst
          | none => s
        else s

/-- INVANS (R228): the answer of an invocation, or of a report to a queue's handler. -/
def execInvans (_port : Nat) (m : Msg) (s : State) : Out :=
  match s.coh.reqs.find? fun r => r.tag == m.tag with
  | none => .next s
  | some r =>
    let s := { s with coh := { s.coh with reqs := s.coh.reqs.filter (·.id != r.id) } }
    .next (match r.who with
      | .invoke _ thread hidx trap => s.invokeAnswered thread hidx trap m.aux.toNat m.src.toNat m.addr
      | .report d q => if m.aux = 0 then s else s.countErr d q
      | _ => s)

/-- WAKE at its slot (R234): a sleeping thread of the sender's ASID wakes; one that is awake keeps the latch. -/
def State.wakeSlot (s : State) (slot : Nat) (asid : BitVec 16) : State :=
  match tget s.thr slot with
  | none => s
  | some t =>
    if t.sys.asid ≠ asid ∨ t.ending then s
    else if t.asleep then s.modThread slot fun t => { t with asleep := false, sleepUntil := none }
    else s.modThread slot fun t => { t with wakeLatch := true }

/-- WAKE_MESSAGE (R234). -/
def execWakeMessage (_port : Nat) (m : Msg) (s : State) : Out := .next (s.wakeSlot (twSlot m.addr) m.aux)

end Sys2Proof.Machine
end

