-- ==== Sys2Proof/Machine/Debug.lean ====
section
/-! DEFINITION. Debug, trace and profiling (15_debug_trace.md): the debug window of a die, frozen grids and the stop list, wait
histograms, invariant monitors, the trace sink, and the request of a module freeze. -/

namespace Sys2Proof.Machine

/-! ### Module freeze (R414) -/

/-- A module freeze with its cause (3: a monitor): every clock of the dies stops; each die's black box gets a FREEZE record (Table 15-3). -/
def State.freezeModule (s : State) (cause : Nat) : State :=
  if s.plat.frozen then s
  else
    let s := (List.range 4).foldl (fun s d => s.shaveDie d 0x12 (0x10 + cause) 0 0) s
    { s with plat := { s.plat with frozen := true } }

/-- A grid that a monitor freezes, unless it is frozen already (R408, R410). -/
def Grid.freezeFor (g : Grid) (clk : Nat) : Grid :=
  if g.dbg.frozen then g else { g with dbg := { g.dbg with frozen := true, since := clk, cause := 3, slots := 0, listPos := 0 } }

/-- A monitor action freezes the module, and every grid of it with CAUSE 3 (R408, R413): after a thaw the grids stay frozen until they are
resumed (log entry 55). -/
def State.freezeAll (s : State) : State :=
  if s.plat.frozen then s
  else { s with grids := (List.range 2048).map fun g => (g, (s.grid g).freezeFor s.clk) }.freezeModule 3

/-- MODULE_FREEZE (R414). -/
def execModuleFreeze (s : State) : Out := .next (s.freezeModule 0)

/-- MFRZ (Table 15-4): writing 1 requests module freeze. -/
def execMfrz (val : W64) (s : State) : Out := .next (if val.getLsbD 0 then s.freezeModule 0 else s)

/-- MODULE_THAW (R414): only if no scan shift has run. -/
def execModuleThaw (s : State) : Out :=
  if s.plat.frozen ∧ ¬ s.plat.scanned ∧ ¬ s.plat.trip then
    .next { ((List.range 4).foldl (fun s d => s.shaveDie d 0x12 0x30 0 0) s) with plat := { s.plat with frozen := false } }
  else .next s

/-- SCAN_SHIFT (R414): the scan image of a frozen module is read; only a warm reset restarts it. -/
def execScanShift (s : State) : Out :=
  if s.plat.frozen then .next { s with plat := { s.plat with scanned := true } } else .next s

/-! ### Frozen grids and the stop list (R408 to R410) -/

/-- A grid resumes: its entries issue again (R410). -/
def State.resumeGrid (s : State) (g : Nat) : State :=
  let d := (s.grid g).dbg
  if d.frozen then
    (s.modGrid g fun x => { x with dbg := { x.dbg with frozen := false, slots := 0, cause := 0 } }).shave (gridCluster g) 0x12 16383 0 0x20
      (BitVec.ofNat 64 g) 0
  else s

/-- GCTL_FREEZE, GCTL_RESUME, GCTL_LIST (Table 15-6). -/
def execGctlFreeze (grid : Nat) (s : State) : Out := .next (s.freeze grid 2 none)
def execGctlResume (grid : Nat) (s : State) : Out := .next (s.resumeGrid grid)
def execGctlList (grid : Nat) (s : State) : Out := .next (s.modGrid grid fun x => { x with dbg := { x.dbg with listPos := 0 } })

/-- The tokens that an entry holds, as operand and token. -/
def Entry.held (e : Entry) : List (Nat × Token) :=
  (match e.a with | some t => if (fieldsOf e.word).op == 0x03 then [] else [(0, t)] | none => []) ++ (match e.b with | some t => [(1, t)] | none => [])
    ++ (match e.c with | some t => [(2, t)] | none => []) ++ (match e.p with | some v => [(3, .pred v)] | none => [])

/-- The HELD records of a block: tokens of entries that have not issued, by node, entry and operand (R409). -/
def Block.heldList (s : State) (slot : Nat) (t : Thread) (b : Block) : List Shaving :=
  (b.entries.zipIdx.map fun p =>
    if p.1.st = .idle then
      p.1.held.map fun (k, tok) =>
        let tag := blockTag slot b + nodeOf p.2 * 64 + p.2 % 6 * 8 + k
        let brk := t.tokenBreak 0 tag tok || t.tokenBreak 1 tag tok
        (⟨0x10, s.time % 2 ^ 40, slot, BitVec.ofNat 32 tag, BitVec.ofNat 32 (tok.kindCode + ofBool brk * 4), b.addr, tok.bits64⟩ : Shaving)
    else []).flatten

/-- The stop list of a grid (R409). -/
def State.stopList (s : State) (g : Nat) : List Shaving :=
  (s.thr.map fun p => (p.2.blocks.map fun b => if blockGrid p.1 p.2 b = g then b.heldList s p.1 p.2 else []).flatten).flatten

/-- Does a block of a grid, or a frame of it, still wait for words, a line or a walk (R409)? -/
def State.unsettled (s : State) (slot : Nat) (b : Block) : Bool :=
  (b.state == .fetch && b.held.isEmpty)
    || (s.coh.fills.any fun f => f.waiters.any fun w => match w with
        | .load r _ => r.slot == slot && r.seq == b.seq && r.ic == b.ic
        | _ => false)
    || b.accs.any fun a => !a.store && a.space == .mem && a.data.isEmpty && (match b.entries[a.idx]? with | some e => e.st == .waiting | none => false)

/-- Is a frozen grid quiet: have its frames, and the loads of its blocks, settled? -/
def State.quiet (s : State) (g : Nat) : Bool :=
  (s.grid g).dbg.frozen
    && !s.thr.any fun p => (p.2.blocks ++ p.2.shadow.toList).any fun b => blockGrid p.1 p.2 b == g && s.unsettled p.1 b

/-- GSTAT (Table 15-6). -/
def State.gstat (s : State) (g : Nat) : W64 :=
  let d := (s.grid g).dbg
  let q := s.quiet g
  let n := if q then (s.stopList g).length else 0
  BitVec.ofNat 64 (n % 65536 * 2 ^ 16 + d.slots.toNat * 2 ^ 8 + d.cause * 2 ^ 4 + ofBool q * 2 + ofBool d.frozen)

/-- The 32 bytes of a shaving (Table 15-2). -/
def Shaving.bits (x : Shaving) : Nat :=
  x.ty * 2 ^ 250 + x.time * 2 ^ 208 + x.gslot * 2 ^ 194 + x.tag.toNat * 2 ^ 160 + x.info.toNat * 2 ^ 128 + x.addr.toNat * 2 ^ 64 + x.value.toNat

/-- The record at the stop-list port; 0 after the last or while the grid is not quiet. -/
def State.stopRecord (s : State) (g : Nat) : Nat :=
  if s.quiet g then (match (s.stopList g)[(s.grid g).dbg.listPos]? with | some x => x.bits | none => 0) else 0

/-- STOP_LIST_READ (R409): a read of the upper 16 bytes takes the record, and the port goes on to the next. -/
def execStopListRead (grid : Nat) (s : State) : Out :=
  .next (if s.quiet grid then s.modGrid grid fun x => { x with dbg := { x.dbg with listPos := x.dbg.listPos + 1 } } else s)

/-! ### Wait histograms (R411) -/

/-- The spill doubleword of a bin: an offset from HSBASE of the die. -/
def binOffset (g n b : Nat) : Nat := 8 * (16 * (20 * (g % 512) + n) + b)

/-- A far atomic add to a doubleword of this module's HBM. -/
def State.addAt (s : State) (la n : Nat) : State :=
  let v := leNat (s.laBytes la 8)
  s.writeLa la 0 (leBytes ((v + n) % 2 ^ 64) 8) .engine

def State.spillBin (s : State) (g n b v : Nat) : State := s.addAt ((s.die (gridDie g)).dbg.hsbase.toNat + binOffset g n b) v

/-- HISTOGRAM_BIN_OVERFLOW: 65,536 is added to the spill area for a bin that restarted at 0. -/
def execHistogramBinOverflow (grid node bin : Nat) (s : State) : Out := .next (s.spillBin grid node bin 65536)

/-- The bins of a die: key and count. -/
def State.dieBins (s : State) (d : Nat) : List (Nat × Nat) := s.hist.filter fun p => p.1 / 320 / 512 == d

def State.clearBins (s : State) (d : Nat) : State := { s with hist := s.hist.filter fun p => p.1 / 320 / 512 != d }

/-- HCTL_DUMP: every bin's value goes to the spill area, and the bins are cleared. -/
def State.dumpBins (s : State) (d : Nat) : State :=
  (s.dieBins d).foldl (fun s p => s.spillBin (p.1 / 320) (p.1 / 16 % 20) (p.1 % 16) p.2) (s.clearBins d)

def execHctlDump (die : Nat) (s : State) : Out := .next (s.dumpBins die)
def execHctlClr (die : Nat) (s : State) : Out := .next (s.clearBins die)

/-! ### Invariant monitors (R412, R413) -/

def Monitor.kind (m : Monitor) : Nat := m.src.toNat / 2 ^ 60
def Monitor.sel (m : Monitor) : Nat := m.src.toNat % 2 ^ 60
def Monitor.on (m : Monitor) : Bool := m.ctl.getLsbD 63 && decide (1 ≤ m.kind) && decide (m.kind ≤ 6)

/-- Blocks of 256 bytes that a tile takes in a tile store. -/
def tileBlocks (l : List Byte) : Nat := (l.length + 255) / 256

/-- The sampled value of a monitor's source. -/
def State.monitorValue (s : State) (d : Nat) (m : Monitor) : Nat :=
  let sel := m.sel
  match m.kind with
  | 1 => (s.queue d (sel % 64)).occ
  | 2 => (s.port (8 * d + sel % 8)).credits.getD (sel / 8 % 4) 0
  | 3 => (s.net.recs.filter fun r => r.stop == 128 * d + sel % 128).length
  | 4 => (s.cl (128 * d + sel % 128)).chuck.length
  | 5 => 2048 - ((s.net.tiles.filter fun t => t.stop == 128 * d + sel % 128).map fun t => tileBlocks t.data).sum
  | 6 => m.fieldOf (s.syncWord (.mem s.dev (sel % 2 ^ 52 / 16 * 16) 0 0))
  | _ => 0

/-- Does the relation of a monitor hold of a value? -/
def Monitor.holds (m : Monitor) (v : Nat) : Bool :=
  let k := m.const.toNat
  match bitsOf m.ctl.toNat 62 60 with
  | 0 => decide (v < k)
  | 1 => decide (v ≤ k)
  | 2 => v == k
  | 4 => decide (k ≤ v)
  | 5 => decide (k < v)
  | _ => v != k

def State.modMon (s : State) (d j : Nat) (f : Monitor → Monitor) : State :=
  s.modDie d fun x => { x with dbg := { x.dbg with mons := x.dbg.mons.modify j f } }

/-- What a monitor does as it fires (R413). -/
def State.monitorAct (s : State) (d j : Nat) (m : Monitor) (v : Nat) : State :=
  let s := s.modMon d j fun m => { m with fires := if m.fires = 0xFFFFFFFF then m.fires else m.fires + 1 }
  let s := s.shaveDie d 0x11 j m.src (BitVec.ofNat 64 v)
  match bitsOf m.ctl.toNat 59 58 with
  | 1 => s.sendInvoke (.report d 0) 0x09 (bitsOf m.ctl.toNat 57 46) (s.queue d 0).asid
           (BitVec.ofNat 64 (bitsOf m.ctl.toNat 45 20 * 1024)) (BitVec.ofNat 64 j) (BitVec.ofNat 64 v) (4096 * d)
  | 2 => s.freezeAll
  | _ => s

/-- R413: a monitor that is on takes a sample; it fires when the relation goes from holding to failing. -/
def State.sampleValue (s : State) (d j v : Nat) : State :=
  match (s.die d).dbg.mons[j]? with
  | none => s
  | some m =>
    if !m.on then s
    else
      let ok := m.holds v
      let t := s.modMon d j fun m => { m with viol := !ok, held := ok }
      if !ok && m.held then t.monitorAct d j m v else t

/-- R413: a monitor that is on samples its source as it is now. -/
def State.sampleMonitor (s : State) (d j : Nat) : State :=
  match (s.die d).dbg.mons[j]? with
  | none => s
  | some m => s.sampleValue d j (s.monitorValue d m)

/-- MONITOR_SAMPLE (R413): of KIND 1 to 5, every mclk; of KIND 6, the value that an operation on the word left, if one is still to be looked
at. -/
def execMonitorSample (die j : Nat) (s : State) : Out :=
  match takeFirst (fun x => x.1 == die && x.2.1 == j) s.samples with
  | (some x, rest) => .next ({ s with samples := rest }.sampleValue die j x.2.2)
  | (none, _) => .next (s.sampleMonitor die j)

/-- Would a sample of a monitor change anything? -/
def State.monitorDue (s : State) (d j : Nat) : Bool :=
  match (s.die d).dbg.mons[j]? with
  | none => false
  | some m => m.on && m.kind != 6 && (m.holds (s.monitorValue d m) != m.held)

/-! ### The trace sink (R401) -/

/-- Is the sink of a die full: is STOP set, and is there no place left in the ring (R401)? -/
def DieDbg.sinkFull (g : DieDbg) : Bool := g.tssize == 0 || (g.tctl.getLsbD 62 && decide (g.tssize.toNat ≤ g.sunk))

/-- A record is written at the head of the sink's ring, over its oldest if it is full; where it must not be, it is dropped (R401). -/
def State.sinkRec (s : State) (d : Nat) (x : Shaving) : State :=
  let g := (s.die d).dbg
  let size := g.tssize.toNat
  if g.sinkFull then s.modDie d fun y => { y with dbg := { y.dbg with tloss := y.dbg.tloss + 1, lossRun := y.dbg.lossRun + 1 } }
  else
    let head := if size ≤ g.tshead.toNat then 0 else g.tshead.toNat
    let s := s.writeLa (g.tsbase.toNat + head) 0 (leBytes x.bits 32) .engine
    s.modDie d fun y => { y with dbg := { y.dbg with
      tshead := BitVec.ofNat 64 (if size ≤ head + 32 then 0 else head + 32), sunk := min size (g.sunk + 32) } }

/-- A run of drops at the sink ends: its LOSS record goes into the black box, and to the sink if that is selected (R400, R401). -/
def State.endSinkRun (s : State) (d : Nat) : State :=
  let g := (s.die d).dbg
  if g.lossRun = 0 ∨ g.sinkFull then s
  else
    let sh := lossShaving s.time 0xFFFF g.lossRun
    let s := s.modDie d fun y => { y with dbg := { y.dbg.box sh with lossRun := 0 } }
    if g.tctl.getLsbD 63 && g.tctl.getLsbD sh.ty then s.sinkRec d sh else s

/-- One record of a cluster's trace buffer goes to the die's sink. -/
def State.sinkOne (s : State) (d c : Nat) : State :=
  match (s.cl c).trace with
  | [] => s
  | x :: rest => ((s.modCl c fun y => { y with trace := rest }).endSinkRun d).sinkRec d x

/-- The stop whose buffer drains next: the first that holds a record, in rotating order. -/
def State.traceStop (s : State) (d : Nat) : Option Nat :=
  (List.range 128).findSome? fun i =>
    let c := 128 * d + ((s.die d).traceRr + i) % 128
    match tget s.cls c with
    | some x => if x.trace.isEmpty then none else some c
    | none => none

/-- TRACE_DRAIN (R401). -/
def execTraceDrain (die : Nat) (s : State) : Out :=
  match s.traceStop die with
  | none => .fault .notReady
  | some c => .next ((s.sinkOne die c).modDie die fun y => { y with traceRr := (c % 128 + 1) % 128 })

/-! ### The debug window (Table 15-4) -/

/-- A 64-bit read of a debug window. Reads of the stop-list port's upper half also advance it: the caller does that. -/
def State.readDebug (s : State) (d off : Nat) : W64 :=
  let g := (s.die d).dbg
  if off = 0 then g.tctl
  else if off = 0x08 then g.tsbase
  else if off = 0x10 then g.tssize
  else if off = 0x18 then g.tshead
  else if off = 0x20 then g.tloss
  else if off = 0x28 then g.tcmask0
  else if off = 0x30 then g.tcmask1
  else if off = 0x38 then g.hctl
  else if off = 0x40 then g.hsbase
  else if off = 0x48 then BitVec.ofNat 64 (g.bbWraps % 2 ^ 32 * 2 ^ 32 + g.bbNext % 2048)
  else if 0x1000 ≤ off ∧ off < 0x1200 then
    match g.mons[(off - 0x1000) / 32]? with
    | none => 0
    | some m =>
      match (off - 0x1000) % 32 / 8 with
      | 0 => m.src
      | 1 => m.const
      | 2 => m.ctl
      | _ => BitVec.ofNat 64 (m.fires.toNat * 2 ^ 32 + ofBool m.viol * 2 ^ 31)
  else if 0x10000 ≤ off ∧ off < 0x12000 then
    if off % 16 = 8 then s.gstat (512 * d + (off - 0x10000) / 16) else 0
  else if 0x20000 ≤ off ∧ off < 0x24000 then
    BitVec.ofNat 64 (s.stopRecord (512 * d + (off - 0x20000) / 32) / 2 ^ (8 * (off % 32)))
  else if 0x40000 ≤ off ∧ off < 0x50000 then
    match tget g.bb ((off - 0x40000) / 32) with
    | none => 0
    | some x => BitVec.ofNat 64 (x.bits / 2 ^ (8 * (off % 32)))
  else 0

def State.modDbg (s : State) (d : Nat) (f : DieDbg → DieDbg) : State := s.modDie d fun x => { x with dbg := f x.dbg }

/-- A 64-bit write of a debug window. -/
def State.writeDebug (s : State) (d off : Nat) (v : W64) : State :=
  if off = 0 then s.modDbg d fun g => { g with tctl := v &&& 0xC0000000FFFFFFFF }
  -- a write of its base or size gives the die another ring, which holds nothing (log entry 56)
  else if off = 0x08 then s.modDbg d fun g => { g with tsbase := v &&& ~~~(0xFFF : W64), sunk := 0 }
  else if off = 0x10 then s.modDbg d fun g => { g with tssize := v &&& ~~~(0xFFF : W64), sunk := 0 }
  else if off = 0x28 then s.modDbg d fun g => { g with tcmask0 := v }
  else if off = 0x30 then s.modDbg d fun g => { g with tcmask1 := v }
  else if off = 0x38 then
    let s := s.modDbg d fun g => { g with hctl := v &&& 0x8000000000000000 }
    let s := if v.getLsbD 61 then s.dumpBins d else s
    if v.getLsbD 62 then s.clearBins d else s
  else if off = 0x40 then s.modDbg d fun g => { g with hsbase := v &&& ~~~(0x1FFFFF : W64) }
  else if off = 0x50 then (if v.getLsbD 0 then s.freezeModule 0 else s)
  else if 0x1000 ≤ off ∧ off < 0x1200 then
    let j := (off - 0x1000) / 32
    match (off - 0x1000) % 32 / 8 with
    | 0 => s.modMon d j fun m => { m with src := v }
    | 1 => s.modMon d j fun m => { m with const := v }
    | 2 =>
      let was := match (s.die d).dbg.mons[j]? with | some m => m.ctl.getLsbD 63 | none => false
      let s := s.modMon d j fun m =>
        { m with ctl := v &&& 0xFFFFFFFFFFF00000, held := if v.getLsbD 63 && !was then true else m.held }
      if v.getLsbD 63 && !was then s.sampleMonitor d j else s
    | _ => s
  else if 0x10000 ≤ off ∧ off < 0x12000 ∧ off % 16 = 0 then
    let g := 512 * d + (off - 0x10000) / 16
    let s := if v.getLsbD 0 then s.freeze g 2 none else s
    let s := if v.getLsbD 1 then s.resumeGrid g else s
    if v.getLsbD 2 then s.modGrid g fun x => { x with dbg := { x.dbg with listPos := 0 } } else s
  else s

end Sys2Proof.Machine
end

