-- ==== Sys2Proof/Machine/Platform.lean ====
section
/-! DEFINITION. The platform (18_platform.md): power levels, thermal steps and trips, reset and the boot chain, measurement and
the SPDM responder, cluster power states, and the register windows as software and the host reach them (R318, R403, R436). -/

namespace Sys2Proof.Machine

def State.modPlat (s : State) (f : Plat → Plat) : State := { s with plat := f s.plat }

/-! ### Power levels (R433 to R436) -/

/-- The effective level (R433). -/
def Plat.effective (p : Plat) : Nat := max (min p.req 4) p.thrm

/-- A transition begins if the effective level is not in force and none is under way (R435). -/
def Plat.begin (p : Plat) : Plat :=
  if p.busy then p
  else if p.effective = p.act then p
  else { p with busy := true, pendingLevel := some p.effective }

/-- The transition under way ends; the newest request then applies (R435). -/
def Plat.finish (p : Plat) : Plat :=
  match p.pendingLevel with
  | none => { p with busy := false }
  | some l => ({ p with act := l, busy := false, pendingLevel := none }).begin

/-- PWRCTL_WRITE (Table 18-4): only REQ is written. -/
def State.writePwrctl (s : State) (v : W64) : State := s.modPlat fun p => ({ p with req := v.toNat % 8 }).begin
def execPwrctlWrite (val : W64) (s : State) : Out := .next (s.writePwrctl val)

/-- POWER_TRANSITION (R435). -/
def execPowerTransition (s : State) : Out := .next (s.modPlat Plat.finish)

/-- Does any sensor read above a temperature; do all read below one? -/
def Plat.above (p : Plat) (c : Nat) : Bool := p.sensors.any fun x => decide (c < x.2)
def Plat.below (p : Plat) (c : Nat) : Bool := p.sensors.all fun x => decide (x.2 < c)

/-- Does the thermal floor rise: has a sensor read above 95 °C, and has not every sensor read below 90 °C since? -/
def Plat.heats (p : Plat) : Bool := p.above 95 || (p.hot && !p.below 90)

/-- Is a step of the thermal floor due (R432): up each 1 ms, to 4, while it rises; down each 10 ms, to 0, once every sensor reads below 90 °C? -/
def Plat.stepDue (p : Plat) (up : Bool) (now : Nat) : Bool :=
  if up then p.heats && decide (p.thrm < 4) && decide (p.thermAt + 9000000 ≤ now)
  else p.below 90 && decide (0 < p.thrm) && decide (p.thermAt + 90000000 ≤ now)

/-- THERMAL_STEP (R432): THRM by one level, between 0 and 4, when its step is due. -/
def execThermalStep (up : Bool) (s : State) : Out :=
  if s.plat.stepDue up s.ns9 then
    .next (s.modPlat fun p => ({ p with thrm := if up then p.thrm + 1 else p.thrm - 1, hot := up, thermAt := s.ns9 }).begin)
  else .fault .notReady

/-- THERMAL_TRIP (R432): a sensor above 105 °C; module freeze, and the module is held in reset. -/
def execThermalTrip (s : State) : Out :=
  if s.plat.above 105 then .next ((s.freezeModule 0).modPlat fun p => { p with trip := true, inReset := true }) else .fault .notReady

/-- THERMAL_TRIP_CLEAR (R432): an operator clears the trip; the module is no longer held in reset for it. -/
def execThermalTripClear (s : State) : Out := .next (s.modPlat fun p => { p with trip := false, inReset := p.bootFail.isSome })

/-! ### Reset and the boot chain (R437 to R440) -/

/-- R439: does an image pass? -/
def imagePasses (j : Nat) : Bool :=
  Config.sha3_512 (Config.imageBytes j) == Config.imageDigest j
    && Config.mldsaVerify (Config.imageHeader j) (Config.imageSignature j) Config.fusedKeyDigest
    && decide (Config.fusedSvn ≤ Config.imageSvn j)

/-- The first image that fails, of the Priore controller and the four dies: the boot stops there. -/
def bootStop : Option Nat := (List.range 5).find? fun j => !imagePasses j

/-- The AGENT message that clears the sleep flag, on every live port (R438). -/
def State.announce (s : State) : State :=
  (List.range 32).foldl (fun s p =>
    if (s.port p).up then s.transmit p ⟨0, BitVec.ofNat 12 s.dev, 0x0E, 0, 0, 0, []⟩ else s) s

/-- The shares that the retirement list names, in force on every die (R442). -/
def State.retireAll (s : State) : State :=
  s.plat.retireList.foldl (fun s n => s.modDie (n / 2048) fun d => { d with retired := n % 2048 :: d.retired }) s

/-- A boot that stops at an image (R439): the module stays in reset, what was measured before stands, and the failure is reported. -/
def State.bootStopped (s : State) (j : Nat) : State :=
  s.modPlat fun p =>
    { p with inReset := true, bootFail := some j, meas := bootMeasurements j, reports := p.reports ++ [.imageFailed j] }

/-- COLD_RESET (R437): the reset state with the module's identity, the host's memory, the fused step and the retirement list; or,
where an image fails, the module stays in reset (R439), as it does while a thermal trip holds it there (R432). -/
def execColdReset (s : State) : Out :=
  if s.plat.trip then .next s
  else
    match bootStop with
    | some j => .next (s.bootStopped j)
    | none =>
      let r := State.reset
      .next (({ r with dev := s.dev, reach := s.reach, host := s.host
                       plat := { r.plat with step := s.plat.step, retireList := s.plat.retireList, sensors := s.plat.sensors } }).retireAll.announce)

/-- The bias of a page after a warm reset: its bias bit, which a flip that did not end has not changed (R437). -/
def Bias.settled : Bias → Bias
  | .device => .device
  | .flushing => .device
  | .host => .host
  | .recalling => .host

/-- WARM_RESET (R437, R438): steps 3 to 6. Memory as its homes hold it, poison, bias, black box and TLOSS are kept; threads,
groups, queues, tables, caches and everything under way are not. A trip, or an image that failed, holds the module in reset (R432, R439). -/
def execWarmReset (s : State) : Out :=
  if s.plat.trip ∨ s.plat.bootFail.isSome then .next s
  else
    let s := s.coh.l2.foldl (fun s p => s.writeBack p.1) s
    let r := State.reset
    let die (d : Nat) : Die :=
      { Die.reset with dbg := { DieDbg.reset with tloss := (s.die d).dbg.tloss, bb := (s.die d).dbg.bb, bbNext := (s.die d).dbg.bbNext
                                                  bbWraps := (s.die d).dbg.bbWraps } }
    let n := s.plat.warmResets + 1
    let t : State :=
      { r with
        clk := s.clk, time := s.time, phase := s.phase, fresh := s.fresh, uid := s.uid, dev := s.dev, reach := s.reach, hbm := s.hbm
        host := s.host
        dies := (List.range 4).map fun d => (d, die d)
        -- every cluster is ON, and idle from now on (R443)
        cls := (List.range 512).map fun c => (c, { Cluster.reset with since := s.ns9 })
        coh := { Coh.reset with bias := tmap Bias.settled s.coh.bias, filter := s.coh.filter, hostClean := s.coh.hostClean
                                poisonLines := s.coh.poisonLines.filter (· < 2 ^ 60), poisonPages := s.coh.poisonPages, pages := s.coh.pages }
        plat := { s.plat with frozen := false, scanned := false, inReset := false, warmResets := n, spdm := s.plat.spdm.map fun _ => Spdm.reset
                              meas := s.plat.meas.modify 2 fun m => extendMeasure m Config.fuseDigest } }
    let t := (List.range 4).foldl (fun t d => t.shaveDie d 0x18 0 0 n) t
    .next (t.retireAll.announce)

/-- HOST_RESET (R375): the host is marked LIVE at every home. -/
def execHostReset (s : State) : Out := .next ((List.range 4).foldl (fun s d => s.setAgent d hostAgent 0) s)

/-- HOST_MEASUREMENT_REQUEST (R440): one of registers 3 to 7 is extended. -/
def execHostMeasurementRequest (j : Nat) (digest : BitVec 512) (s : State) : Out :=
  .next (if 3 ≤ j ∧ j ≤ 7 then s.modPlat fun p => { p with meas := p.meas.modify j fun m => extendMeasure m digest } else s)

/-! ### SPDM (R441): the responder at the mailbox of the CXL port at which the request stands -/

/-- The responder that the present request meets. -/
def Plat.responder (p : Plat) : Spdm := p.spdm.getD p.doe Spdm.reset

def State.modSpdm (s : State) (f : Spdm → Spdm) : State := s.modPlat fun p => { p with spdm := p.spdm.modify p.doe f }

def State.answer (s : State) (a : SpdmAnswer) : State :=
  if s.plat.responder.enabled then s.modSpdm fun x => { x with answers := x.answers ++ [a] } else s

/-- An answer that needs the negotiated algorithms. -/
def State.signedAnswer (s : State) (a : SpdmAnswer) : State := s.answer (if s.plat.responder.usable then a else .unsupportedRequest)

/-- GET_VERSION: 1.2, 1.3 and 1.4 are offered. -/
def execGetVersion (s : State) : Out := .next (s.answer (.version [0x12, 0x13, 0x14]))
def execGetCapabilities (s : State) : Out := .next (s.answer .capabilities)

/-- NEGOTIATE_ALGORITHMS: ML-DSA-87 with SHA3-512 at version 1.4 only; anything else selects no asymmetric algorithm. -/
def execNegotiateAlgorithms (version : Nat) (mldsa sha3 : Bool) (s : State) : Out :=
  let ok := version == 0x14 && mldsa && sha3
  .next ((s.modSpdm fun x => { x with version := version, usable := ok }).answer (.algorithms ok sha3))

def execGetDigests (s : State) : Out := .next (s.signedAnswer (.digests (Config.sha3_512 Config.certificateChain)))
def execGetCertificate (s : State) : Out := .next (s.signedAnswer (.certificate Config.certificateChain))
def execChallenge (nonce : BitVec 256) (s : State) : Out :=
  .next (s.signedAnswer (.challengeAuth (Config.mldsaSign (leBytes nonce.toNat 32))))

/-- GET_MEASUREMENTS: registers 0 to 7, signed with the nonce. -/
def execGetMeasurements (nonce : BitVec 256) (s : State) : Out :=
  .next (s.signedAnswer (.measurements s.plat.meas
    (Config.mldsaSign (leBytes nonce.toNat 32 ++ (s.plat.meas.map bytesOf512).flatten))))

/-- KEY_EXCHANGE: keys IDE (R388) of its port. -/
def execKeyExchange (exchange : BitVec 512) (s : State) : Out :=
  let s := if s.plat.responder.enabled && s.plat.responder.usable then
      s.modSpdm fun x => { x with keyed := true, key := Config.exchangeKey exchange }
    else s
  .next (s.signedAnswer (.keyExchange (Config.mldsaSign (bytesOf512 exchange))))

/-! ### Cluster power states (R443) -/

/-- Is a cluster idle: no bound slot, no group, no command, no chuck entry, no matrix command? -/
def State.clusterIdle (s : State) (c : Nat) : Bool :=
  !(s.thr.any fun p => slotCluster p.1 == c) && !(s.grp.any fun p => 128 * p.2.die + p.2.cl == c)
    && (s.cl c).copyQ.isEmpty && (s.cl c).chuck.isEmpty
    && (List.range 4).all fun g => (s.grid (4 * c + g)).mx.all (·.isEmpty)

/-- CLUSTER_RETENTION_ENTRY: an idle cluster after 100 µs. -/
def execClusterRetentionEntry (cl : Nat) (s : State) : Out :=
  if (s.cl cl).power = .on ∧ s.clusterIdle cl ∧ (s.cl cl).since + 900000 ≤ s.ns9 then
    .next ((s.modCl cl fun x => { x with power := .retention, since := s.ns9 }).clusterAgent cl 1)
  else .fault .notReady

/-- The copies of a cluster leave every directory entry of the module. -/
def State.forgetCluster (s : State) (c : Nat) : State :=
  { s with coh := { s.coh with
      l1 := s.coh.l1.filter fun x => x.cl != c
      bc := s.coh.bc.filter fun x => x.cl != c
      dir := s.coh.dir.map fun p => (p.1, { p.2 with sharers := p.2.sharers.filter (· != c) }) } }

/-- R402: the records left in a trace buffer 2 µs after its draining began are dropped, and a LOSS record names the cluster. -/
def State.dropTrace (s : State) (c : Nat) : State :=
  let d := clusterDie c
  let n := (s.cl c).trace.length
  let sh := lossShaving s.time c (n + (s.cl c).lossRun)
  let s := (s.modDie d fun y => { y with dbg := { y.dbg.box sh with tloss := y.dbg.tloss + BitVec.ofNat 64 n } }).modCl c fun y =>
    { y with trace := [], lossRun := 0 }
  if (s.die d).dbg.selects c sh.ty then s.sinkRec d sh else s

/-- A cluster is gated: copies are invalidated at their slices, pool units and predictors lost. A GATED cluster is not SLEEPING (Table 14-1);
its moving is one step here. -/
def State.gateCluster (s : State) (cl : Nat) : State :=
  let s := s.modCl cl fun x => { x with power := .gated, since := s.ns9, drainBy := none, tlb := [], storeWait := [], trace := [] }
  let s := (List.range 4).foldl (fun s g => s.modGrid (4 * cl + g) fun x => { x with tlb := [], pred := Predictor.reset }) s
  { s with pool := s.pool.filter fun p => p.1 / 2 ^ 21 != cl
           coh := { s.coh with poisonPool := s.coh.poisonPool.filter fun w => 8 * w / 2 ^ 21 != cl } }.clusterAgent cl 0

/-- CLUSTER_GATING: after 10 ms in RETENTION, once the trace buffer is drained, for which the controller waits up to 2 µs (R402). -/
def execClusterGating (cl : Nat) (s : State) : Out :=
  let x := s.cl cl
  if x.power = .retention ∧ s.clusterIdle cl ∧ x.since + 90000000 ≤ s.ns9 then
    if x.trace.isEmpty then .next ((s.forgetCluster cl).gateCluster cl)
    else
      match x.drainBy with
      | none => .next (s.modCl cl fun y => { y with drainBy := some (s.ns9 + 18000) })
      | some t => if t ≤ s.ns9 then .next (((s.forgetCluster cl).dropTrace cl).gateCluster cl) else .fault .notReady
  else .fault .notReady

/-- CLUSTER_WAKE: by a probe or a binding. -/
def execClusterWake (cl : Nat) (s : State) : Out :=
  if (s.cl cl).power = .on then .fault .noSuch
  else .next ((s.modCl cl fun x => { x with power := .on, since := s.ns9, drainBy := none }).clusterAgent cl 0)

/-! ### The register windows (R318, R403, R436) -/

/-- The invocation page that a local address lies in: die, queue and offset (Table 11-5). -/
def invocationPage (la : Nat) : Option (Nat × Nat × Nat) :=
  let o := la - 0x20010000000
  if 0x20010000000 ≤ la ∧ o < 0x4000000 then
    let w := o % 0x1000000
    if 0x10000 ≤ w ∧ w < 0x50000 then some (o / 0x1000000, (w - 0x10000) / 0x1000, w % 0x1000) else none
  else none

/-- PLATID (Table 18-3) and PWRCTL (Table 18-4). -/
def State.platid (s : State) : W64 := BitVec.ofNat 64 (0x4800 * 2 ^ 48 + s.plat.step.toNat * 2 ^ 40 + s.dev % 4096 * 2 ^ 24)
def State.pwrctl (s : State) : W64 :=
  BitVec.ofNat 64 (ofBool s.plat.busy * 2 ^ 63 + s.plat.act * 2 ^ 32 + s.plat.thrm * 2 ^ 24 + s.plat.req)

/-- A 64-bit register of the windows; what no window maps reads as zero. -/
def State.readWindow (s : State) (la : Nat) : W64 :=
  if la < 0x20010000000 then
    if la = 0x20000000000 then s.platid else if la = 0x20000000008 then s.pwrctl else 0
  else if la < 0x20014000000 then
    let o := la - 0x20010000000
    let d := o / 0x1000000
    let w := o % 0x1000000
    if w < 0x1000 then (s.queue d (w / 64)).read (w % 64 / 8)
    else match invocationPage la with
      | some (d, q, _) => (s.queue d q).read 7
      | none => 0
  else if 0x20020000000 ≤ la ∧ la < 0x20024000000 then
    let o := la - 0x20020000000
    s.readDebug (o / 0x1000000) (o % 0x1000000)
  else 0

/-- A 64-bit register write of the windows; one to an invocation page is of another size than a record, and is counted (R319). -/
def State.writeWindow (s : State) (la : Nat) (v : W64) : State :=
  if la < 0x20010000000 then (if la = 0x20000000008 then s.writePwrctl v else s)
  else if la < 0x20014000000 then
    let o := la - 0x20010000000
    let d := o / 0x1000000
    let w := o % 0x1000000
    if w < 0x1000 then s.modQueue d (w / 64) fun x => x.write (w % 64 / 8) v
    else match invocationPage la with
      | some (d, q, _) => s.countErr d q
      | none => s
  else if 0x20020000000 ≤ la ∧ la < 0x20024000000 then
    let o := la - 0x20020000000
    s.writeDebug (o / 0x1000000) (o % 0x1000000) v
  else s

/-- WINDOW_REGISTER_WRITE (R403, R436). -/
def execWindowRegisterWrite (la : Nat) (val : W64) (s : State) : Out := .next (s.writeWindow (la / 8 * 8) val)

/-- The byte of a window at a local address. -/
def State.windowByte (s : State) (la : Nat) : Byte := (s.readWindow (la / 8 * 8)).extractLsb' (8 * (la % 8)) 8

/-- Bytes read from the windows; a read of the upper half of a stop-list port takes its record (R409). -/
def State.windowLoad (s : State) (la len : Nat) : State × List Byte :=
  let l := (List.range len).map fun i => s.windowByte (la + i)
  let o := la - 0x20020000000
  let w := o % 0x1000000
  if 0x20020000000 ≤ la ∧ la < 0x20024000000 ∧ 0x20000 ≤ w ∧ w < 0x24000 ∧ 16 ≤ w % 32 then
    let g := 512 * (o / 0x1000000) + (w - 0x20000) / 32
    (if s.quiet g then s.modGrid g fun x => { x with dbg := { x.dbg with listPos := x.dbg.listPos + 1 } } else s, l)
  else (s, l)

/-- Bytes stored to the windows. An invocation page takes exactly 64 bytes at its start, and counts any other write in ERRS (R319);
elsewhere each doubleword that the store touches is written, its other bytes as they read. -/
def State.windowStore (s : State) (la : Nat) (l : List Byte) : State :=
  match invocationPage la with
  | some (d, q, off) =>
    if off = 0 ∧ l.length = 64 then s.windowLaunch d q (BitVec.ofNat 512 (leNat l))
    else s.countErr d q
  | none =>
    let first := la / 8
    let n := (la + l.length + 7) / 8 - first
    (List.range n).foldl (fun s i =>
      let a := 8 * (first + i)
      let v := (List.range 8).map fun k =>
        if la ≤ a + k ∧ a + k < la + l.length then l.getD (a + k - la) 0 else s.windowByte (a + k)
      s.writeWindow a (BitVec.ofNat 64 (leNat v))) s

end Sys2Proof.Machine
end

