-- ==== Sys2Proof/Machine/Access.lean ====
section
/-! DEFINITION. Accesses of threads: when one may perform (06 R186, R190, R201, 08 R256 to R265), what a load finds in stores that
are not yet in memory (06 R185, 08 R257), watchpoints and range locks (15 R405, 06 R181, R182), how a load ends, and the
violation that an older store causes (12 R345). -/

namespace Sys2Proof.Machine

/-! ### Classes of forms -/

/-- Does an order code acquire (R186)? -/
def acquires : MOrd → Bool
  | .acq => true | .acqRel => true | .acqSys => true | .acqRelSys => true
  | .plain => false | .rel => false | .relSys => false
/-- Does an order code release? -/
def releases : MOrd → Bool
  | .rel => true | .acqRel => true | .relSys => true | .acqRelSys => true
  | .plain => false | .acq => false | .acqSys => false
def sysOrd : MOrd → Bool
  | .acqSys => true | .relSys => true | .acqRelSys => true
  | .plain => false | .acq => false | .rel => false | .acqRel => false

/-- Forms whose result holds back the thread's later accesses until it is delivered (R186, R203, R267). -/
def acquiring : Instr → Bool
  | .ld _ _ _ o _ => acquires o
  | .ldw _ _ _ o _ => acquires o
  | .sread _ _ _ o _ => acquires o
  | .swait _ _ _ _ _ => true
  | .cwait _ => true
  | .mwait _ _ _ => true
  | _ => false

/-- The order code of an atomic. -/
def atomicOrd : Instr → Option MOrd
  | .atom _ _ _ _ o _ => some o
  | .cas _ _ _ _ o _ => some o
  | .fatom _ _ _ _ o _ => some o
  | _ => none

def isFence : Instr → Option (FenceKind × Scope)
  | .fence k _ _ sc => some (k, sc)
  | _ => none

/-- Is the form load-class, with PREF left out: it performs no access that an order covers (R189)? -/
def loadClass (i : Instr) : Bool :=
  match i with
  | .pref _ _ _ _ => false
  | i => (i.lsid.map (·.2)) == some .load
def storeClass (i : Instr) : Bool := (i.lsid.map (·.2)) == some .store

def lsidOf (i : Instr) : Nat := (i.lsid.map (·.1)).getD 0

/-- The forms of a block with their entries. -/
def Block.forms (b : Block) : List (Nat × Entry × Instr) :=
  (b.entries.zipIdx.filterMap fun p =>
    match decode p.1.word with
    | .ok i => some (p.2, p.1, i)
    | .error _ => none)

/-- How an LSID of a block stands. -/
def Block.resolved (b : Block) (l : Nat) : Option Resolved := (b.lsids.find? (·.1 == l)).map (·.2)

/-- Program order within the thread, below a place (R185): the blocks before, and the forms of lower LSID of the block itself. -/
def Thread.formsBefore (t : Thread) (b : Block) (lsid : Nat) : List (Block × Bool × Nat × Entry × Instr) :=
  ((t.older b).map fun x => x.forms.map fun f => (x, false, f)).flatten
    ++ (b.forms.filter fun f => (f.2.2.lsid.map (·.1)).any (· < lsid)).map fun f => (b, true, f)

/-- Is every older block mapped, so that its forms are known? -/
def Thread.olderMapped (t : Thread) (b : Block) : Bool :=
  (t.older b).all fun x => x.state == .fire || x.state == .complete

/-! ### What is on its way to memory -/

/-- The grids of a slot's cluster: their store buffers may hold its stores, those of a fused core spread over all four (R258), and they
stay there when the core splits. -/
def clusterGrids (slot : Nat) : List Nat := (List.range 4).map (4 * (slotGrid slot / 4) + ·)

/-- Committed operations of a slot that are not yet visible at their homes, older than a number. -/
def State.buffered (s : State) (slot : Nat) (before : Nat) : List Unit :=
  ((clusterGrids slot).map fun g => (s.grid g).sb.filter fun u => u.slot == slot && decide (u.uid < before)).flatten
def State.flyingOf (s : State) (slot : Nat) (before : Nat) : List Flying :=
  s.coh.flying.filter fun f => f.u.slot == slot && decide (f.u.uid < before)

/-- Is an operation an atomic on memory at its home (R187), or a sync-word operation, whose bytes a load cannot forward? -/
def DrainOp.opaqueOp : DrainOp → Bool
  | .store => false | .zeroLine => false | .clean => false | .inval => false | .flush => false
  | .atomic _ _ _ => true | .cas _ _ _ _ => true | .fatom _ _ _ => true | .sarm _ => true | .sadd _ => true | .reclaim => true
/-- Is an operation on a line counted as a read (R191)? It writes no byte of the line. -/
def DrainOp.readOp : DrainOp → Bool
  | .clean => true | .inval => true | .flush => true
  | _ => false
def DrainOp.isAtomic : DrainOp → Bool
  | .atomic _ _ _ => true | .cas _ _ _ _ => true | .fatom _ _ _ => true
  | _ => false

/-- Are the units with these numbers visible at their homes? -/
def State.visible (s : State) (l : List Nat) : Bool :=
  !(s.grids.any fun g => g.2.sb.any fun u => l.contains u.uid) && !(s.coh.flying.any fun f => l.contains f.u.uid)

/-- Is what a commit left an operation on a scratchpad sync word, or a scratchpad store at all? -/
def TailItem.word : TailItem → Bool
  | .eff e => (match e.ins with | .sarm _ _ _ _ => true | .sadd _ _ _ _ => true | _ => false)
  | _ => false
def TailItem.stores : TailItem → Bool
  | .spad _ => true
  | i => i.word

/-- R262, Table 8-3, for a fence of a kind and scope that stands before number `order` of the drain units, given whether the
accesses of older, uncommitted forms that it orders are done. -/
def State.fenceMet (s : State) (slot : Nat) (t : Thread) (order : Nat) (kind : FenceKind) (sc : Scope) (sibs : List Nat) : Bool :=
  let buf := s.buffered slot order
  let fly := s.flyingOf slot order
  let wide := match sc with | .slot => false | .grid => false | _ => true
  let far := match sc with | .device => true | .sys => true | _ => false
  let atoms := !(buf.any fun u => u.op.isAtomic) && !(fly.any fun f => f.u.op.isAtomic && !f.performed)
  let stores := kind == .acq ||
    ((!wide || buf.isEmpty) && (!far || (fly.isEmpty && s.coh.awaits.isEmpty))
      && !(t.tail.any fun x => decide (x.order < order) && x.item.stores))
  atoms && stores && (!wide || s.visible sibs)

/-- The siblings' units from which the older accesses of a place took bytes. -/
def Thread.sibsBefore (t : Thread) (b : Block) (lsid : Nat) : List Nat :=
  t.sibReads ++ (((t.older b).map fun x => (x.accs.map (·.srcs)).flatten).flatten)
    ++ ((b.accs.filter fun a => decide (a.lsid < lsid)).map (·.srcs)).flatten

/-- A fence of an uncommitted form: has its condition been met (R190, R262)? -/
def State.formFenceMet (s : State) (slot : Nat) (t : Thread) (b : Block) (lsid : Nat) (kind : FenceKind) (sc : Scope) : Bool :=
  let before := t.formsBefore b lsid
  let loads := kind == .ss || !t.loadPending b lsid
  let atoms := !(before.any fun f => (atomicOrd f.2.2.2.2).isSome &&
    (match f.1.resolved (lsidOf f.2.2.2.2) with | some .performed => true | none => f.2.2.2.1.st != .absorbed | _ => false))
  let stores := kind == .acq || sc == .slot || !(before.any fun f => storeClass f.2.2.2.2 && (isFence f.2.2.2.2).isNone &&
    (match f.1.resolved (lsidOf f.2.2.2.2) with | some .performed => true | none => f.2.2.2.1.st != .absorbed | _ => false))
  loads && atoms && stores && s.fenceMet slot t s.uid kind sc (t.sibsBefore b lsid)

/-- May a later access of the kinds that loads are pass a fence? -/
def holdsLoads : FenceKind → Bool
  | .full => true | .acq => true | .rel => false | .ss => false

/-- R186, R190, R201, R265, R267: may a load-class access at a place of the program order perform now? -/
def State.loadGate (s : State) (slot : Nat) (t : Thread) (b : Block) (lsid : Nat) : Bool :=
  t.olderMapped b
  && (t.formsBefore b lsid).all (fun f =>
      let x := f.1
      let e := f.2.2.2.1
      let i := f.2.2.2.2
      let open_ := e.st == .idle || e.st == .waiting
      let unres := match i.lsid with | some (l, _) => (x.resolved l).isNone | none => true
      -- an acquiring form that has not delivered; of a complete block nothing more fires
      !(acquiring i && open_ && unres && x.state != .complete)
      -- an acquiring atomic of an uncommitted block
      && (match atomicOrd i with
          | some o => !acquires o || (match x.resolved (lsidOf i) with | some .performed => false | some _ => true | none => e.st == .absorbed)
          | none => true)
      -- a fence
      && (match isFence i with
          | some (k, sc) => !(holdsLoads k) ||
            (match x.resolved (lsidOf i) with
             | some .performed => s.formFenceMet slot t x (lsidOf i) k sc
             | some _ => true
             | none => e.st == .absorbed)
          | none => true))
  -- committed atomics that acquire, and committed fences
  && !((s.buffered slot s.uid).any fun u => u.op.isAtomic && acquires u.ord)
  && !((s.flyingOf slot s.uid).any fun f => f.u.op.isAtomic && acquires f.u.ord && !f.performed)
  && t.tail.all fun x =>
      match x.item with
      | .fence k sc => !(holdsLoads k) || s.fenceMet slot t x.order k sc t.sibReads
      | _ => true

/-- R422: may a store-class access at a place be translated: does no fence of an older block hold back what comes after it? A fence of the
access's own block ends only after that block's commit. -/
def State.fenceGate (s : State) (slot : Nat) (t : Thread) (b : Block) : Bool :=
  t.olderMapped b
  && (t.older b).all (fun x => x.forms.all fun f =>
      match isFence f.2.2 with
      | some (k, sc) =>
        (match x.resolved (lsidOf f.2.2) with
          | some .performed => s.formFenceMet slot t x (lsidOf f.2.2) k sc
          | some _ => true
          | none => f.2.1.st == .absorbed)
      | none => true)
  && t.tail.all fun x => match x.item with
      | .fence k sc => s.fenceMet slot t x.order k sc t.sibReads
      | _ => true

/-! ### Bytes of stores that are not yet in memory (R185, R257) -/

/-- The byte that pieces with their data hold for an address. -/
def pieceByte : List Piece → List Byte → Nat → Option Byte
  | [], _, _ => none
  | p :: ps, d, a => if p.pa ≤ a ∧ a < p.pa + p.len then d[a - p.pa]? else pieceByte ps (d.drop p.len) a

/-- Do the pieces cover an address? -/
def pieceHas (ps : List Piece) (a : Nat) : Bool := ps.any fun p => decide (p.pa ≤ a) && decide (a < p.pa + p.len)

/-- Where a load's byte comes from. -/
inductive Src where
  | byte (b : Byte) (uid : Option Nat)
  | wait
  | mem
  deriving DecidableEq, Repr

/-- The older, uncommitted store-class accesses of a thread before a place, youngest first. -/
def Thread.storesBefore (t : Thread) (b : Block) (lsid : Nat) : List (Block × Access) :=
  let own := (b.accs.filter fun a => a.store && decide (a.lsid < lsid)).mergeSort fun x y => decide (y.lsid ≤ x.lsid)
  own.map (fun a => (b, a)) ++ (((t.older b).reverse.map fun x =>
    ((x.accs.filter (·.store)).mergeSort fun p q => decide (q.lsid ≤ p.lsid)).map fun a => (x, a)).flatten)

/-- Does the form of an access hold back a load of its bytes until it has performed (R265)? -/
def Block.opaqueAccess (b : Block) (a : Access) : Bool :=
  match (b.entries[a.idx]?).map fun e => decode e.word with
  | some (.ok (.st _ _ _ _ _)) => false
  | some (.ok (.stw _ _ _ _ _)) => false
  | some (.ok (.sts _ _ _ _)) => false
  | some (.ok (.stsw _ _ _ _)) => false
  | some (.ok (.clineZero _ _ _)) => false
  | some (.ok (.clineClean _ _ _)) => false
  | some (.ok (.clineInval _ _ _)) => false
  | some (.ok (.clineFlush _ _ _)) => false
  | _ => true

/-- Is a byte of pieces one of an uncached page? Such a byte is never forwarded (R263). -/
def pieceUncached (ps : List Piece) (a : Nat) : Bool :=
  ps.any fun p => decide (p.pa ≤ a) && decide (a < p.pa + p.len) && p.leaf.cmode == 3

/-- A byte of memory among the thread's own older stores, the store buffer, and its units on their way (R185, R257). A load of a byte that a
store of its own thread to an uncached page holds waits for that store (R251, R263; log entry 54). -/
def State.byteSrc (s : State) (slot : Nat) (t : Thread) (b : Block) (lsid : Nat) (pa : Nat) : Src :=
  let own := (t.storesBefore b lsid).findSome? fun p =>
    if p.2.space == .mem && pieceHas p.2.pieces pa then
      (if p.1.opaqueAccess p.2 || pieceUncached p.2.pieces pa then some Src.wait else (pieceByte p.2.pieces p.2.data pa).map fun v => .byte v none)
    else none
  -- the youngest entry of the buffer that owns the line, or of the slot's own in any buffer of its cluster
  let units := ((clusterGrids slot).map fun g => (s.grid g).sb.filter fun u =>
    pieceHas u.pieces pa && !u.op.readOp
      && (u.slot == slot || (g == lineGrid slot t pa && !u.op.opaqueOp && !pieceUncached u.pieces pa))).flatten
  let buf := (units.foldl (fun (best : Option Unit) u => match best with
    | some v => if v.uid < u.uid then some u else best
    | none => some u) none).bind fun u =>
      if u.op.opaqueOp || pieceUncached u.pieces pa then some Src.wait
      else (pieceByte u.pieces u.data pa).map fun v => .byte v (if u.slot = slot then none else some u.uid)
  let fly := s.coh.flying.reverse.findSome? fun f =>
    if f.u.slot == slot && pieceHas f.u.pieces pa then
      (if f.u.op.opaqueOp then (if f.performed then none else some Src.wait)
       else if pieceUncached f.u.pieces pa then some Src.wait
       else (pieceByte f.u.pieces f.u.data pa).map fun v => .byte v none)
    else none
  ((own.orElse fun _ => buf).orElse fun _ => fly).getD .mem

/-! ### Watchpoints and range locks -/

/-- R405: the lowest byte of an access that a data watchpoint of the thread matches. -/
def Thread.watch (t : Thread) (b : Block) (load store : Bool) (va : W64) (len : Nat) : Option W64 :=
  if b.marked then none
  else
    (List.range 4).foldl (fun (best : Option W64) j =>
      let ctl := t.sys.dbg.getD (2 * j + 1) 0
      let sz := min 21 (bitsOf ctl.toNat 12 8)
      let lo := (t.sys.dbg.getD (2 * j) 0).toNat / 2 ^ sz * 2 ^ sz
      if ctl.getLsbD 0 && ((load && ctl.getLsbD 1) || (store && ctl.getLsbD 2)) then
        let first := max lo va.toNat
        if first < lo + 2 ^ sz ∧ first < va.toNat + len then
          (match best with
           | none => some (BitVec.ofNat 64 first)
           | some x => if first < x.toNat then some (BitVec.ofNat 64 first) else some x)
        else best
      else best) none

/-- The places at which the range of a chuck entry begins: one, or one in each member grid's partition that its mask names. -/
def State.chuckPlaces (s : State) (r : ChuckEnt) : List Nat :=
  if r.mask = 0 then [r.lo]
  else match s.group r.who with
    | some g => ((List.range 4).filter fun j => r.mask.getLsbD j).map fun j => j * g.part + r.lo
    | none => []

/-- Does an access overlap a range that a chuck of the cluster holds: a destination, or for a write a source as well (R182)? Ranges are held
in granules of 16 bytes (R351). -/
def State.rangeLocked (s : State) (c : Nat) (space : Space) (who lo len : Nat) (write : Bool) : Bool :=
  (s.cl c).chuck.any fun r =>
    r.space == space && r.who == who && (r.dest || write)
      && (s.chuckPlaces r).any fun a => decide (a / 16 * 16 < lo + len) && decide (lo < (a + r.len + 15) / 16 * 16)

/-! ### How an access is recorded, and violations -/

/-- An LSID of a block is resolved. -/
def State.resolveAt (s : State) (r : BRef) (idx l : Nat) (x : Resolved) : State := s.modBlock r fun b => b.resolveLsid idx l x

/-- Two accesses overlap. -/
def Access.overlaps (a c : Access) : Bool :=
  a.space == c.space &&
  (match a.space with
   | .mem => a.pieces.any fun p => c.pieces.any fun q => decide (p.pa < q.pa + q.len) && decide (q.pa < p.pa + p.len)
   | .spad => decide (a.va.toNat < c.va.toNat + c.len) && decide (c.va.toNat < a.va.toNat + a.len))

/-- The LSIDs of a block's loads that performed too early for a store-class access just fired. -/
def Block.violates (b : Block) (a : Access) : Option Nat :=
  (b.accs.find? fun c => !c.store && !c.data.isEmpty && c.overlaps a).map (·.lsid)

/-- R345, R41, R185: a store whose address arrives discards the block of a younger load that read its bytes, and every younger
block; the load goes to the store-wait table. A load of the store's own block goes with the whole block. -/
def State.violation (s : State) (slot : Nat) (r : BRef) (a : Access) : State :=
  match tget s.thr slot with
  | none => s
  | some t =>
    let k := t.blocks.findIdx? fun b => b.seq == r.seq && b.ic == r.ic
    match k with
    | none => s
    | some k =>
      let hit := (t.blocks.zipIdx.drop k).findSome? fun p =>
        if p.2 = k then
          (p.1.accs.find? fun c => !c.store && !c.data.isEmpty && decide (a.lsid < c.lsid) && c.overlaps a).map fun c => (p.2, p.1, c.lsid)
        else (p.1.violates a).map fun l => (p.2, p.1, l)
      match hit with
      | none => s
      | some (j, b, l) =>
        let s := s.modCl (slotCluster slot) fun c =>
          { c with storeWait := (b.addr, l) :: (c.storeWait.filter (· != (b.addr, l))).take 255 }
        s.replay slot j

/-- R345: a load that the store-wait table names waits until every older store of its thread has its address. -/
def State.storeWaits (s : State) (slot : Nat) (t : Thread) (b : Block) (lsid : Nat) : Bool :=
  (s.cl (slotCluster slot)).storeWait.contains (b.addr, lsid)
  && (t.formsBefore b lsid).any fun f =>
      storeClass f.2.2.2.2 && (f.1.resolved (lsidOf f.2.2.2.2)).isNone && f.2.2.2.1.st != .absorbed

/-! ### The load-store queues (R345) -/

/-- Is an opcode one of a memory-node access: the forms with an LSID but FENCE (Table 6-1)? -/
def memOp (op : Nat) : Bool := decide (0x50 ≤ op) && decide (op ≤ 0x66) && op != 0x5C

/-- The grid whose queue an access takes an entry of: the one that owns its line, or the one that runs its block. -/
def accessGrid (slot : Nat) (t : Thread) (b : Block) (ps : List Piece) : Nat :=
  match ps with
  | p :: _ => lineGrid slot t p.pa
  | [] => blockGrid slot t b

/-- The grid whose queue a memory form takes an entry of: a PREF, which records no access, that of the line it names. -/
def queueGrid (slot : Nat) (t : Thread) (b : Block) (i : Nat) (e : Entry) : Nat :=
  match decode e.word with
  | .ok (.pref _ _ _ off) => lineGrid slot t (effAddr (match e.a with | some (.narrow v) => v | _ => 0) off).toNat
  | _ => accessGrid slot t b (match b.accs.find? fun a => a.idx == i with | some a => a.pieces | none => [])

/-- The accesses of a block that hold an entry of a grid's queue: those that have fired, but for nulled ones. -/
def Block.queued (b : Block) (slot : Nat) (t : Thread) (g : Nat) : Nat :=
  (b.entries.zipIdx.filter fun p =>
    memOp (fieldsOf p.1.word).op.toNat && (p.1.st == .waiting || p.1.st == .fired)
      && (match p.1.lsid with | some l => b.resolved l != some .nulled | none => false)
      && queueGrid slot t b p.2 p.1 == g).length

/-- The entries of a grid's load-store queue that are taken; it has 192. -/
def State.queueLen (s : State) (g : Nat) : Nat :=
  (s.thr.map fun p => if slotCluster p.1 == gridCluster g then (p.2.blocks.map fun b => b.queued p.1 p.2 g).sum else 0).sum

/-- Has the queue that an access needs no entry left? -/
def State.queueFull (s : State) (slot : Nat) (t : Thread) (b : Block) (ps : List Piece) : Bool :=
  decide (192 ≤ s.queueLen (accessGrid slot t b ps))

/-- Has the queue of a form without pieces no entry left? -/
def State.formFull (s : State) (x : Site) : Bool := decide (192 ≤ s.queueLen (queueGrid x.slot x.t x.b x.idx x.e))

/-- Does an entry wait for a place in the queue: a memory form whose queue is full? -/
def State.noPlace (s : State) (x : Site) (ps : List Piece) : Bool :=
  memOp (fieldsOf x.e.word).op.toNat && s.queueFull x.slot x.t x.b ps

/-! ### Walks for an entry -/

/-- Is a walk for an entry under way? -/
def State.walking (s : State) (r : BRef) (idx : Nat) : Bool :=
  s.coh.walks.any fun w => match w.who with
    | .access b i => b == r && i == idx
    | .prefetch _ b i => b == r && i == idx
    | .fetch _ _ => false
    | .engine _ _ => false

/-- As whom an entry accesses memory: the image tag is that of its own block's header (R303). -/
def Site.who (x : Site) : Who := { x.t.who x.slot x.grid with img := x.b.img }

/-- The miss of a walk: its cluster, address space and 4 KiB page; walks of one miss are one (R306). -/
def Walk.miss (w : Walk) : Nat × BitVec 16 × Nat := (w.cl, w.asid, w.va.toNat / 4096)

/-- The walks that have not ended. -/
def State.openWalks (s : State) : List Walk := s.coh.walks.filter (·.res.isNone)

/-- The distinct misses of a cluster, oldest first. -/
def State.misses (s : State) (c : Nat) : List (Nat × BitVec 16 × Nat) := ((s.openWalks.filter fun w => w.cl == c).map Walk.miss).eraseDups

/-- Is there room for a miss: it merges with one under way, or the 16 walks and the 32 places of the queue are not all taken? -/
def State.walkRoom (s : State) (c : Nat) (asid : BitVec 16) (va : W64) : Bool :=
  let l := s.misses c
  l.contains (c, asid, va.toNat / 4096) || decide (l.length < 48)

/-- Is a walk among those that may run: the oldest 16 of its cluster, of these the oldest 64 of its die? -/
def State.walkRuns (s : State) (w : Walk) : Bool :=
  let may := ((s.openWalks.map Walk.miss).eraseDups).filter fun m =>
    clusterDie m.1 == clusterDie w.cl && ((s.misses m.1).take 16).contains m
  (may.take 64).contains w.miss

/-- A walk is requested (R302, R306). -/
def State.startWalk (s : State) (w : Who) (va : W64) (store : Bool) (who : WalkFor) : State :=
  let id := s.uid
  let s := { s with uid := s.uid + 1, coh := { s.coh with walks := s.coh.walks ++
    [{ id := id, cl := w.cl, grid := w.grid.getD 0, asid := w.asid, ptbase := w.ptbase, va := va, store := store, who := who, res := none : Walk }] } }
  s.post [.pageWalk id]

/-- The entry waits for a walk: it stays as it was, and the cursor is free. -/
def State.walkFor (s : State) (x : Site) (va : W64) (store : Bool) : State :=
  { s with cur := none }.startWalk x.who va store (.access x.ref x.idx)

/-! ### Firing a memory form -/

/-- What a memory form finds once its operands are there. -/
inductive Found where
  /-- it cannot go on yet -/
  | wait
  /-- it stays idle while something else is set in motion -/
  | stay (s : State)
  /-- it fails (R181) -/
  | fail (c : Cause) (tval : W64)
  /-- it fires -/
  | go (k : State → State)

/-- A memory form fires: its predicate, a null on an operand (R180), then what it finds. A store-class form delivers nulls only if
it has targets. -/
def fireMem (pm : Pm) (h : Option Hdr) (lsid : Nat) (need : List Nat) (f : Site → State → Found) (s : State) : Out :=
  match s.site with
  | none => .fault .noEntry
  | some x =>
    match pmMatches pm x.e.p with
    | none => .fault .notReady
    | some false => .next (s.absorb x (some lsid))
    | some true =>
      if !x.has need then .fault .notReady
      else if x.anyNull need then
        let s := (s.mark x .fired).resolveAt x.ref x.idx lsid .nulled
        .next (match h with
          | none => s
          | some h => s.deliver x.ref h .null .null)
      else
        match f x s with
        | .wait => .fault .notReady
        | .stay s => .next s
        | .fail c tval => .next ((s.mark x .fired).holdAt x c tval (some lsid))
        | .go k => .next (k (s.mark x .fired))

/-- An access of memory is translated for a form: its pieces, or what else it finds. A store-class access through a leaf with
D = 0 waits until its block is oldest (R300). -/
def State.reach' (s : State) (x : Site) (k : AKind) (va : W64) (len : Nat) (go : List Piece → Found) : Found :=
  if s.walking x.ref x.idx then .wait
  else
    let w := x.who
    match s.translate w k va len with
    | .fault c a => .fail c a
    | .ok ps => if s.noPlace x ps then .wait else go ps
    | .miss a =>
      if (k == .store && (s.tlbFind w.cl w.grid w.asid a false).isSome && !x.t.isOldest x.b) || !s.walkRoom w.cl w.asid a then .wait
      else .stay (s.walkFor x a (k == .store && x.t.isOldest x.b))

/-! ### Loads -/

/-- What a load delivers: a narrow value with its extension (R184), or a wide unscaled one. -/
inductive LoadAs where
  | narrow (n : Nat) (signed : Bool)
  | wide
  deriving DecidableEq, Repr

def LoadAs.token (l : LoadAs) (bytes : List Byte) : Token :=
  match l with
  | .narrow n sg => narrowTok (leNat bytes) (8 * n) sg
  | .wide => unscaled (ofBytes bytes)

/-- Sizes of Table 6-2. -/
def ldBytes : LdSize → Nat
  | .u8 => 1 | .u16 => 2 | .u32 => 4 | .u64 => 8 | .s8 => 1 | .s16 => 2 | .s32 => 4
def ldSigned : LdSize → Bool
  | .s8 => true | .s16 => true | .s32 => true
  | .u8 => false | .u16 => false | .u32 => false | .u64 => false
def stBytes : StSize → Nat
  | .b8 => 1 | .b16 => 2 | .b32 => 4 | .b64 => 8
def wideLen : WideSize → Nat
  | .b16 => 16 | .b32 => 32 | .b64 => 64 | .b128 => 128

/-- The load form of an instruction: header, LSID, length and what it delivers. -/
def loadForm : Instr → Option (Hdr × Nat × Nat × LoadAs)
  | .ld sz h l _ _ => some (h, l.toNat, ldBytes sz, .narrow (ldBytes sz) (ldSigned sz))
  | .ldw sz h l _ _ => some (h, l.toNat, wideLen sz, .wide)
  | .lds sz h l _ => some (h, l.toNat, ldBytes sz, .narrow (ldBytes sz) (ldSigned sz))
  | .ldsw sz h l _ => some (h, l.toNat, wideLen sz, .wide)
  | _ => none

/-! Loads of one thread of overlapping bytes stay in program order (R251, R257). -/

/-- The bytes of an access with their addresses. -/
def Access.cells (a : Access) : List (Nat × Byte) :=
  (match a.space with
    | .mem => (a.pieces.map fun (p : Piece) => (List.range p.len).map (p.pa + ·)).flatten
    | .spad => (List.range a.len).map (a.va.toNat + ·)).zip a.data

/-- Is a place of a thread, a block and an LSID, after another? -/
def Thread.after (t : Thread) (b : Block) (l : Nat) (c : Block) (k : Nat) : Bool :=
  let x := t.posOf b
  let y := t.posOf c
  decide (y < x) || (x == y && decide (k < l))

/-- Has a younger load a byte of another value than a load that has just performed, with no store of the thread's own between them? -/
def Thread.crossed (t : Thread) (b : Block) (a : Access) (c : Block) (x : Access) : Bool :=
  x.space == a.space && !x.store && t.after c x.lsid b a.lsid
    && (x.cells.any fun p => (a.cells.any fun q => q.1 == p.1 && q.2 != p.2)
      && !((t.storesBefore c x.lsid).any fun y => y.2.space == a.space && t.after y.1 y.2.lsid b a.lsid && y.2.cells.any fun q => q.1 == p.1))

/-- The first block with a load that a load just performed shows to have performed too early. -/
def Thread.reordered (t : Thread) (b : Block) (a : Access) : Option Nat := t.blocks.findIdx? fun c => c.accs.any fun x => t.crossed b a c x

/-- Has the form of an entry acquired (R186, R203, R267)? -/
def Entry.acquires (e : Entry) : Bool := match decode e.word with | .ok i => acquiring i | .error _ => false

/-- What a load meets before its data are looked at (R181): a held range, or a watchpoint. -/
def State.loadStopped (s : State) (slot : Nat) (t : Thread) (b : Block) (space : Space) (va : W64) (len : Nat) : Option (Cause × W64) :=
  let c := slotCluster slot
  if (match space with
      | .mem => s.rangeLocked c .mem t.sys.asid.toNat va.toNat len false
      | .spad => s.rangeLocked c .spad t.gid va.toNat len false) then some (.rangeLock, va)
  else (if space = .mem then t.watch b true false va len else none).map fun v => (.watch, v)

/-- A load has passed its checks in this clk (R352). -/
def State.markLoaded (s : State) (r : BRef) (idx : Nat) : State := { s with loaded := s.loaded ++ [(r, idx)] }

/-- A load has performed: one that acquires says from when later loads see what others wrote, and one that has read a newer value than a
younger load did discards the younger one. -/
def State.loadDone (s : State) (r : BRef) (idx : Nat) (a : Access) : State :=
  match s.block r with
  | none => s
  | some (t, b) =>
    let s := s.markLoaded r idx
    let s := if ((b.entries[idx]?).map Entry.acquires).getD false then s.acquire r.slot else s
    match t.reordered b a with
    | some k => s.replay r.slot k
    | none => s

/-- The value of a load is fixed: range lock, watchpoint and poison are looked at in that order (R181), else it is performed and
delivered. -/
def State.finishLoad (s : State) (r : BRef) (idx : Nat) (h : Hdr) (lsid : Nat) (tok : Token) (a : Access) (poison timeout : Bool) :
    State :=
  match s.block r with
  | none => s
  | some (t, b) =>
    let s := s.modBlock r fun b => b.modEntry idx fun e => { e with st := .fired }
    let fail (c : Cause) (v : W64) : State := s.modBlock r fun b => b.hold .fire idx (b.insTrap c v idx (some lsid))
    match s.loadStopped r.slot t b a.space a.va a.len with
    | some (c, v) => fail c v
    | none =>
      if poison then fail .poison a.va
      else if timeout then fail .timeout a.va
      else
        let s := s.modBlock r fun b =>
          { (b.resolveLsid idx lsid .performed) with accs := (b.accs.filter fun y => y.idx != idx) ++ [a] }
        (s.deliver r h tok tok).loadDone r idx a

/-- What the pieces of a cacheable load come to: their bytes, lines still missing, poison, an expired request, whether data that
was not installed was used, and the siblings' units that gave bytes. -/
structure Gather where
  bytes : List Byte
  missing : List (Nat × Leaf)
  wait : Bool
  poison : Bool
  timeout : Bool
  loose : Bool
  srcs : List Nat

/-- The time up to which a load must see what others have written: that of the thread's latest acquire, or now where an acquiring fence
stands before it (R186, R190, R203). -/
def State.acquiredAt (s : State) (slot : Nat) (t : Thread) (b : Block) (lsid : Nat) : Nat :=
  if (t.formsBefore b lsid).any (fun f => match isFence f.2.2.2.2 with | some (k, _) => holdsLoads k && f.2.2.2.1.st != .absorbed | none => false)
      || t.tail.any (fun x => match x.item with | .fence k _ => holdsLoads k | _ => false) then s.ns9
  else match tget s.thr slot with | some y => y.acquired | none => t.acquired

/-- Is the invalidation of a cluster's copy of a line on its way, from before a time? A load that has acquired since does not read it. -/
def State.stale (s : State) (c key time : Nat) : Bool :=
  lineDev key == s.dev && s.coh.awaits.any fun w => w.agent == c && w.line == key % 2 ^ 45 && decide (w.sent ≤ time)

/-- The bytes of a cacheable load, one by one. -/
def State.gather (s : State) (r : BRef) (idx : Nat) (t : Thread) (b : Block) (lsid : Nat) (ps : List Piece) : Gather :=
  let c := slotCluster r.slot
  let who := FillFor.load r idx
  ps.foldl (fun acc p =>
    (List.range p.len).foldl (fun acc i =>
      let a := p.pa + i
      match s.byteSrc r.slot t b lsid a with
      | .wait => { acc with wait := true }
      | .byte v u => { acc with bytes := acc.bytes ++ [v], srcs := match u with | some n => (if acc.srcs.contains n then acc.srcs else acc.srcs ++ [n]) | none => acc.srcs }
      | .mem =>
        match s.l1Copy c (keyOf a) with
        | some d => if s.stale c (keyOf a) (s.acquiredAt r.slot t b lsid) then { acc with wait := true } else { acc with bytes := acc.bytes ++ [d.extractLsb' (8 * (a % 128)) 8] }
        | none =>
          match s.fillDone c (keyOf a) who with
          | some f =>
            if f.poisoned then { acc with bytes := acc.bytes ++ [0], poison := true }
            else if f.failed then { acc with bytes := acc.bytes ++ [0], timeout := true }
            else { acc with bytes := acc.bytes ++ [(f.data.getD 0).extractLsb' (8 * (a % 128)) 8], loose := true }
          | none => { acc with missing := if acc.missing.any (·.1 == keyOf a) then acc.missing else acc.missing ++ [(keyOf a, p.leaf)] })
      acc) ⟨[], [], false, false, false, false, []⟩

/-- A cacheable load goes on: it performs if its bytes are there; else it asks for the missing lines and waits. -/
def State.tryLoad (s : State) (r : BRef) (idx : Nat) (h : Hdr) (lsid : Nat) (as_ : LoadAs) (va : W64) (len : Nat) (ps : List Piece) :
    State :=
  match s.block r with
  | none => s
  | some (t, b) =>
    let g := s.gather r idx t b lsid ps
    let pendingAcc : Access := ⟨idx, lsid, false, .mem, va, len, ps, [], []⟩
    if g.wait ∨ ¬ g.missing.isEmpty then
      let s := s.modBlock r fun b =>
        { (b.modEntry idx fun e => { e with st := .waiting }) with accs := (b.accs.filter fun y => y.idx != idx) ++ [pendingAcc] }
      g.missing.foldl (fun s m =>
        if s.canAsk (slotCluster r.slot) m.1 (some (lineGrid r.slot t (128 * m.1))) then s.askLine (slotCluster r.slot) m.1 m.2 0 (.load r idx) else s) s
    else
      let s := s.dropWaiter (.load r idx)
      let hit := (t.blocks.findIdx? fun y => y.seq == r.seq && y.ic == r.ic).getD 0
      -- data that answers a load and is not installed counts as invalidated at that moment (R379, R256)
      if g.loose ∧ (ps.any fun p => s.inOrder (slotCluster r.slot) (keyOf p.pa)) ∧ t.loadPending b lsid ∧ ¬ g.poison ∧ ¬ g.timeout then s.replay r.slot hit
      else s.finishLoad r idx h lsid (as_.token g.bytes) ⟨idx, lsid, false, .mem, va, len, ps, g.bytes, g.srcs⟩ g.poison g.timeout

/-- The offset and length of a form's access of memory. -/
def memAddr : Instr → Option (BitVec 22 × Nat)
  | .ld sz _ _ _ o => some (o, ldBytes sz)
  | .ldw sz _ _ _ o => some (o, wideLen sz)
  | .st sz _ _ _ o => some (o, stBytes sz)
  | .stw sz _ _ _ o => some (o, wideLen sz)
  | .atom w _ _ _ _ o => some (o, widthBits w / 8)
  | .cas w _ _ _ _ o => some (o, widthBits w / 8)
  | .fatom d _ _ _ _ o => some (o, if d then 8 else 4)
  | _ => none

/-- The offset of a form on a sync word. -/
def wordOff : Instr → Option (BitVec 22)
  | .sarm _ _ _ o => some o
  | .sadd _ _ _ o => some o
  | .sread _ _ _ _ o => some o
  | .swait _ _ _ _ o => some o
  | _ => none

/-- May an unresolved form of a block be an uncached access? It may until its address is there and shows a page that is not. -/
def State.maybeUncached (s : State) (w : Who) (g : Option Group) (e : Entry) (i : Instr) : Bool :=
  match wordOff i, e.a with
  | some o, some (.narrow v) =>
    (match s.refTo w g false (effAddr v o) with
     | .ok _ ps => ps.any fun p => p.leaf.cmode == 3
     | .miss _ => true
     | _ => false)
  | some _, some _ => false
  | some _, none => true
  | none, _ =>
  match memAddr i, e.a with
  | some (o, n), some (.narrow v) =>
    (match s.translate w .load (effAddr v o) n with
     | .ok ps => ps.any fun p => p.leaf.cmode == 3
     | _ => true)
  | some _, some _ => false
  | some _, none => true
  | none, _ => false

/-- Has the thread uncached accesses before a place of its oldest block that have not performed at their homes (R263)? -/
def State.uncachedBefore (s : State) (slot : Nat) (t : Thread) (b : Block) (lsid : Nat) : Bool :=
  (s.buffered slot s.uid).any (fun u => u.pieces.any fun p => p.leaf.cmode == 3)
    || (s.flyingOf slot s.uid).any (fun f => f.u.pieces.any fun p => p.leaf.cmode == 3)
    || ((t.formsBefore b lsid).any fun f => f.1.accs.any fun a =>
        a.idx == f.2.2.1 && (a.store || a.data.isEmpty) && a.pieces.any fun p => p.leaf.cmode == 3)
    || (t.formsBefore b lsid).any fun f => f.2.1 && (b.resolved (lsidOf f.2.2.2.2)).isNone && f.2.2.2.1.st != .absorbed
        && !(b.accs.any fun a => a.idx == f.2.2.1)
        && s.maybeUncached { (t.who slot (blockGrid slot t b)) with img := b.img } (s.group t.gid) f.2.2.2.1 f.2.2.2.2

/-- Are the bytes of an uncached load at their home: does no older store of its own thread still hold one (R251)? -/
def State.bytesHome (s : State) (slot : Nat) (t : Thread) (b : Block) (lsid : Nat) (ps : List Piece) : Bool :=
  ps.all fun p => (List.range p.len).all fun i => match s.byteSrc slot t b lsid (p.pa + i) with
    | .wait => false
    | .byte _ u => u.isSome
    | .mem => true

/-- An uncached load reads its home when its block is the oldest (R263): HBM, host memory, or a register window. -/
def State.uncachedLoad (s : State) (x : Site) (h : Hdr) (lsid : Nat) (as_ : LoadAs) (va : W64) (len : Nat) (ps : List Piece) : Found :=
  if !x.t.isOldest x.b || s.uncachedBefore x.slot x.t x.b lsid || !s.bytesHome x.slot x.t x.b lsid ps then .wait
  else if (s.loadStopped x.slot x.t x.b .mem va len).isSome then
    -- nothing is asked of the home (R181, R405)
    .go fun s => s.finishLoad x.ref x.idx h lsid .null ⟨x.idx, lsid, false, .mem, va, len, ps, [], []⟩ false false
  else
    let gates := (ps.map fun p => paLa p.pa / 128).eraseDups.filter fun y => y * 128 < 2 ^ 40
    match gates.findSome? fun y => (match s.gate y false (some (.load x.ref x.idx)) with | .go => none | g => some g) with
    | some .wait => .wait
    | some (.act s') => .stay { s' with cur := none }
    | _ => .go fun s =>
      -- a read miss allocates (Table 9-7)
      let s := ps.foldl (fun s p => if paLa p.pa < 2 ^ 40 then s.allocate (paLa p.pa / 128) p.leaf.vc.toNat else s) s
      let r := ps.foldl (fun (q : State × List Byte) p =>
        let la := paLa p.pa
        if la < 2 ^ 41 then (if 2 ^ 40 ≤ la then q.1.tellHost 0 (.d2hRead la false) else q.1, q.2 ++ q.1.laBytes la p.len)
        else let w := q.1.windowLoad la p.len; (w.1, q.2 ++ w.2)) (s, [])
      let poison := gates.any fun y => s.poisoned y
      -- the home refuses a cluster that is DEAD to it (R375, R376)
      let dead := gates.any fun y => (s.die (homeDie (128 * y))).agent (slotCluster x.slot) == 2
      r.1.finishLoad x.ref x.idx h lsid (as_.token r.2) ⟨x.idx, lsid, false, .mem, va, len, ps, r.2, []⟩ poison dead

/-- Must a cacheable load stay at its node: bytes that cannot be had yet, or no miss of its grid left for a line (Table 12-6)? -/
def State.loadHeld (s : State) (x : Site) (lsid : Nat) (ps : List Piece) : Bool :=
  let g := s.gather x.ref x.idx x.t x.b lsid ps
  g.wait || g.missing.any fun m => !s.canAsk (slotCluster x.slot) m.1 (some (lineGrid x.slot x.t (128 * m.1)))

/-- Does a ready load that may perform stay at its node for want of a queue entry or of a miss (Table 12-8, PERF6)? -/
def State.loadStalls (s : State) (x : Site) : Bool :=
  match decode x.e.word, x.e.a with
  | .ok i, some (.narrow v) =>
    (match loadForm i, memAddr i with
     | some (_, lsid, _, _), some (off, n) =>
       s.loadGate x.slot x.t x.b lsid && (match s.translate x.who .load (effAddr v off) n with
         | .ok ps => s.noPlace x ps || (ps.all (fun p => p.leaf.cmode != 3) && s.loadHeld x lsid ps)
         | _ => false)
     | some (_, lsid, _, _), none => s.loadGate x.slot x.t x.b lsid && s.noPlace x []
     | none, _ => false)
  | _, _ => false

/-- Does a ready access stay at its node because its translation has missed and no walk can be asked for (Table 12-8, PERF8)? -/
def State.xlateStalls (s : State) (x : Site) : Bool :=
  match decode x.e.word, x.e.a with
  | .ok i, some (.narrow v) =>
    (match memAddr i with
     | some (off, n) =>
       (match s.translate x.who (if storeClass i then .store else .load) (effAddr v off) n with
         | .miss a => !s.walkRoom x.who.cl x.who.asid a
         | _ => false)
     | none => false)
  | _, _ => false

/-- LD and LDW (R184, R181). -/
def loadMem (h : Hdr) (lsid : Nat) (len : Nat) (as_ : LoadAs) (off : BitVec 22) (s : State) : Out :=
  fireMem h.pm (some h) lsid [0] (fun x s =>
    let va := effAddr x.a.word off
    if !s.loadGate x.slot x.t x.b lsid || s.storeWaits x.slot x.t x.b lsid then .wait
    else s.reach' x .load va len fun ps =>
      if ps.any fun p => p.leaf.cmode == 3 then s.uncachedLoad x h lsid as_ va len ps
      else if s.loadHeld x lsid ps then .wait
      else .go fun s => s.tryLoad x.ref x.idx h lsid as_ va len ps) s

/-- A byte of the group scratchpad as a thread's load finds it: its own older stores, those left behind a fence, the pool. -/
def State.spadByte (s : State) (t : Thread) (b : Block) (g : Group) (lsid off : Nat) : Byte :=
  let inAcc (a : Access) : Option Byte :=
    if a.store && a.space == .spad && decide (a.va.toNat ≤ off) && decide (off < a.va.toNat + a.len) then a.data[off - a.va.toNat]? else none
  let own := (t.storesBefore b lsid).findSome? fun p => inAcc p.2
  let tail := t.tail.reverse.findSome? fun x => match x.item with | .spad a => inAcc a | _ => none
  (own.orElse fun _ => tail).getD (match g.spadAt off with | some a => rd1 s.pool a | none => 0)

/-- A sync-word operation on the scratchpad of an older, uncommitted form of the thread overlaps the bytes: they cannot be
forwarded (R185, R194). -/
def Thread.spadOpaque (t : Thread) (b : Block) (lsid off len : Nat) : Bool :=
  (t.tail.any fun x => x.item.word)
  || (t.storesBefore b lsid).any fun p =>
    p.2.space == .spad && p.1.opaqueAccess p.2 && decide (p.2.va.toNat < off + len) && decide (off < p.2.va.toNat + p.2.len)

/-- LDS and LDSW (R177, R178, R184). -/
def loadSpad (h : Hdr) (lsid : Nat) (len align : Nat) (as_ : LoadAs) (off : BitVec 22) (s : State) : Out :=
  fireMem h.pm (some h) lsid [0] (fun x s =>
    let ea := effAddr x.a.word off
    match s.group x.t.gid with
    | none => .fail .prot ea
    | some g =>
      if !s.loadGate x.slot x.t x.b lsid || s.storeWaits x.slot x.t x.b lsid then .wait
      else if ea.toNat % align ≠ 0 then .fail .align ea
      else if !g.inSpad ea.toNat len then .fail .prot ea
      else if x.t.spadOpaque x.b lsid ea.toNat len || s.noPlace x [] then .wait
      else
        let bytes := (List.range len).map fun i => s.spadByte x.t x.b g lsid (ea.toNat + i)
        let bad := (List.range len).any fun i => match g.spadAt (ea.toNat + i) with | some a => s.coh.poisonPool.contains (a / 8) | none => false
        .go fun s => s.finishLoad x.ref x.idx h lsid (as_.token bytes) ⟨x.idx, lsid, false, .spad, ea, len, [], bytes, []⟩ bad false) s

end Sys2Proof.Machine
end

