-- ==== Sys2Proof/Machine/Flags.lean ====
section
/-! DEFINITION. Floating-point values, rounding and the flags that it raises (04_number_formats.md R114 to R121): every number is
held exactly as sign, magnitude and power of two, and is rounded once. -/

namespace Sys2Proof.Machine

/-- The five flags in the order of TVAL[4:0] (R105). -/
abbrev Flags := BitVec 5
def fNV : Flags := 16
def fDZ : Flags := 8
def fOF : Flags := 4
def fUF : Flags := 2
def fNX : Flags := 1

/-- A format of Table 4-1: exponent and mantissa bits, bias, and whether it is E4M3, which has no infinity. -/
structure Fmt where
  eb : Nat
  mb : Nat
  bias : Nat
  e4m3 : Bool
  /-- FPCSR.FTZ flushes its subnormals (R121) -/
  flushes : Bool
  deriving DecidableEq, Repr

def fmtE4M3 : Fmt := ⟨4, 3, 7, true, false⟩
def fmtE5M2 : Fmt := ⟨5, 2, 15, false, false⟩
def fmtFP16 : Fmt := ⟨5, 10, 15, false, false⟩
def fmtBF16 : Fmt := ⟨8, 7, 127, false, false⟩
def fmtFP32 : Fmt := ⟨8, 23, 127, false, true⟩
def fmtFP64 : Fmt := ⟨11, 52, 1023, false, true⟩

/-- FP64 for D = 1, else FP32 (R104). -/
def fmtD (d : Bool) : Fmt := if d then fmtFP64 else fmtFP32

/-- The width of a format. -/
def Fmt.width (f : Fmt) : Nat := 1 + f.eb + f.mb

/-- An exact value: a NaN, an infinity, or sign, magnitude `m`, exponent `e`; with `st` the magnitude lies strictly between
`m` and `m + 1` units of 2^e. -/
inductive Val where
  | nan (signalling : Bool)
  | inf (neg : Bool)
  | fin (neg : Bool) (m : Nat) (e : Int) (st : Bool)
  deriving DecidableEq, Repr

/-- The value of an encoding (R114, R115). -/
def Fmt.decode (f : Fmt) (x : Nat) : Val :=
  let m := x % 2 ^ f.mb
  let e := x / 2 ^ f.mb % 2 ^ f.eb
  let s := x / 2 ^ (f.mb + f.eb) % 2 == 1
  if f.e4m3 && e == 15 && m == 7 then .nan false
  else if !f.e4m3 && e == 2 ^ f.eb - 1 then
    if m = 0 then .inf s else .nan (m < 2 ^ (f.mb - 1))
  else if e = 0 then .fin s m (1 - (f.bias : Int) - f.mb) false
  else .fin s (m + 2 ^ f.mb) ((e : Int) - f.bias - f.mb) false

/-- R121: a subnormal input of FP32 or FP64 is a zero of its sign under FTZ. -/
def Fmt.read (f : Fmt) (ftz : Bool) (x : Nat) : Val :=
  if ftz && f.flushes && (x / 2 ^ f.mb % 2 ^ f.eb == 0) then .fin (x / 2 ^ (f.mb + f.eb) % 2 == 1) 0 0 false
  else f.decode x

/-- The canonical NaN (Table 4-1). -/
def Fmt.qnan (f : Fmt) : Nat := if f.e4m3 then 0x7F else (2 ^ f.eb - 1) * 2 ^ f.mb + 2 ^ (f.mb - 1)

/-- The encoding of an infinity; E4M3 has its NaN in that place (R120). -/
def Fmt.infinity (f : Fmt) (neg : Bool) : Nat :=
  if f.e4m3 then 0x7F else ofBool neg * 2 ^ (f.mb + f.eb) + (2 ^ f.eb - 1) * 2 ^ f.mb

/-- The largest finite encoding of a sign. -/
def Fmt.largest (f : Fmt) (neg : Bool) : Nat :=
  ofBool neg * 2 ^ (f.mb + f.eb) + (if f.e4m3 then 0x7E else (2 ^ f.eb - 1) * 2 ^ f.mb - 1)

/-- Does a magnitude with a remainder round up? `twice` is twice the remainder against one unit. -/
def roundsUp (md : Rnd) (neg odd : Bool) (rem unit : Nat) (st : Bool) : Bool :=
  let inexact := rem != 0 || st
  match md with
  | .rtz => false
  | .rup => inexact && !neg
  | .rdn => inexact && neg
  | _ => decide (unit < 2 * rem) || (2 * rem == unit && (st || odd))

/-- A magnitude `m` · 2^e (and a little more with `st`) rounded to a multiple of 2^q: how many, and whether inexact. With
`st` the caller gives a magnitude far finer than 2^q. -/
def roundAt (md : Rnd) (neg : Bool) (m : Nat) (e : Int) (st : Bool) (q : Int) : Nat × Bool :=
  if q ≤ e then
    let n := m * 2 ^ (e - q).toNat
    (if roundsUp md neg (n % 2 == 1) 0 1 st then n + 1 else n, st)
  else
    let u := 2 ^ (q - e).toNat
    let n := m / u
    let r := m % u
    (if roundsUp md neg (n % 2 == 1) r u st then n + 1 else n, r != 0 || st)

/-- A sign and a number of units of 2^q, at most one above the precision, as an encoding. -/
def Fmt.encode (f : Fmt) (neg : Bool) (n : Nat) (q : Int) : Nat :=
  let s := ofBool neg * 2 ^ (f.mb + f.eb)
  if n < 2 ^ f.mb then s + n
  else if n < 2 ^ (f.mb + 1) then s + (q + f.bias + f.mb).toNat * 2 ^ f.mb + (n - 2 ^ f.mb)
  else s + (q + 1 + f.bias + f.mb).toNat * 2 ^ f.mb + (n / 2 - 2 ^ f.mb)

/-- What an overflow delivers (R118). -/
def Fmt.overflow (f : Fmt) (md : Rnd) (neg : Bool) : Nat :=
  match md with
  | .rtz => f.largest neg
  | .rup => if neg then f.largest neg else f.infinity neg
  | .rdn => if neg then f.infinity neg else f.largest neg
  | _ => f.infinity neg

/-- Is a number of units of 2^q beyond the largest finite magnitude? -/
def Fmt.beyond (f : Fmt) (n : Nat) (q : Int) : Bool :=
  let top : Int := if f.e4m3 then 8 else f.bias
  let lead : Int := q + (n.log2 : Nat)
  n != 0 && (decide (top < lead) || (f.e4m3 && lead == 8 && n / 2 ^ (n.log2 - 3) == 15))

/-- Round of R118 with the flush of R121: the encoding and the flags. A NaN gives the canonical NaN, with no flag of its own. -/
def Fmt.round (f : Fmt) (md : Rnd) (ftz : Bool) (v : Val) : Nat × Flags :=
  match v with
  | .nan _ => (f.qnan, 0)
  | .inf n => (f.infinity n, 0)
  | .fin neg m e st =>
    if m = 0 ∧ ¬ st then (ofBool neg * 2 ^ (f.mb + f.eb), 0)
    else
      let lead : Int := e + (m.log2 : Nat)
      let emin : Int := 1 - (f.bias : Int)
      let free := lead - f.mb
      let q := max free (emin - f.mb)
      let r := roundAt md neg m e st q
      let t := roundAt md neg m e st free
      -- rounded with an unbounded exponent range: below the smallest normal magnitude?
      let tiny := decide (lead < emin) && !(t.1 == 2 ^ (f.mb + 1) && lead == emin - 1)
      if f.beyond r.1 q then (f.overflow md neg, fOF ||| fNX)
      else if tiny && ftz && f.flushes then (ofBool neg * 2 ^ (f.mb + f.eb), fUF ||| fNX)
      else (f.encode neg r.1 q, if r.2 then (if tiny then fUF ||| fNX else fNX) else 0)

/-- A NaN among operands: is one signalling? -/
def Val.isSig : Val → Bool
  | .nan s => s
  | _ => false

def Val.isNan : Val → Bool
  | .nan _ => true
  | _ => false

def Val.isZero : Val → Bool
  | .fin _ 0 _ false => true
  | _ => false

def Val.negative : Val → Bool
  | .nan _ => false
  | .inf n => n
  | .fin n _ _ _ => n

/-- A value times a power of two, exactly (R125). -/
def Val.scale (v : Val) (k : Int) : Val :=
  match v with
  | .fin n m e st => .fin n m (e + k) st
  | v => v

/-- A value with its sign turned. -/
def Val.neg : Val → Val
  | .nan s => .nan s
  | .inf n => .inf (!n)
  | .fin n m e st => .fin (!n) m e st

/-- A finite magnitude in units of 2^q, q at or below its exponent. -/
def magAt (m : Nat) (e q : Int) : Nat := m * 2 ^ (e - q).toNat

/-- NV for a signalling NaN. -/
def sigFlag (l : List Val) : Flags := if l.any Val.isSig then fNV else 0

/-- The exact sum; the sign of an exact zero is that of R118. -/
def addVal (md : Rnd) (a b : Val) : Val × Flags :=
  match a, b with
  | .nan s, y => (.nan false, sigFlag [.nan s, y])
  | x, .nan s => (.nan false, sigFlag [x, .nan s])
  | .inf m, .inf n => if m = n then (.inf m, 0) else (.nan false, fNV)
  | .inf m, _ => (.inf m, 0)
  | _, .inf n => (.inf n, 0)
  | .fin s m e _, .fin t n d _ =>
    let q := min e d
    let x : Int := (if s then -1 else 1) * (magAt m e q : Int) + (if t then -1 else 1) * (magAt n d q : Int)
    if x = 0 then (.fin (if s = t then s else md == .rdn) 0 0 false, 0)
    else (.fin (decide (x < 0)) x.natAbs q false, 0)

/-- The exact product. -/
def mulVal (a b : Val) : Val × Flags :=
  match a, b with
  | .nan s, y => (.nan false, sigFlag [.nan s, y])
  | x, .nan s => (.nan false, sigFlag [x, .nan s])
  | .inf m, .inf n => (.inf (m != n), 0)
  | .inf m, .fin t n _ _ => if n = 0 then (.nan false, fNV) else (.inf (m != t), 0)
  | .fin s m _ _, .inf n => if m = 0 then (.nan false, fNV) else (.inf (s != n), 0)
  | .fin s m e _, .fin t n d _ => (.fin (s != t) (m * n) (e + d) false, 0)

/-- A · B + C; 0 · ∞ raises NV even beside a quiet NaN (Table 3-7). -/
def fmaVal (md : Rnd) (a b c : Val) : Val × Flags :=
  let p := mulVal a b
  let zi := (match a, b with
    | .inf _, y => y.isZero
    | x, .inf _ => x.isZero
    | _, _ => false)
  if a.isNan || b.isNan || c.isNan then (.nan false, (if zi then fNV else 0) ||| sigFlag [a, b, c])
  else
    let r := addVal md p.1 c
    (r.1, p.2 ||| r.2)

/-- The quotient, its first 128 bits and more and whether anything follows. -/
def divVal (a b : Val) : Val × Flags :=
  match a, b with
  | .nan s, y => (.nan false, sigFlag [.nan s, y])
  | x, .nan s => (.nan false, sigFlag [x, .nan s])
  | .inf _, .inf _ => (.nan false, fNV)
  | .inf m, .fin t _ _ _ => (.inf (m != t), 0)
  | .fin s _ _ _, .inf n => (.fin (s != n) 0 0 false, 0)
  | .fin s m e _, .fin t n d _ =>
    if n = 0 then (if m = 0 then (.nan false, fNV) else (.inf (s != t), fDZ))
    else (.fin (s != t) (m * 2 ^ 128 / n) (e - 128 - d) (m * 2 ^ 128 % n != 0), 0)

/-- The integer square root by its bits, from bit `n` - 1 down. -/
def isqrtFrom (x : Nat) : Nat → Nat → Nat
  | 0, r => r
  | n + 1, r => isqrtFrom x n (if (r + 2 ^ n) * (r + 2 ^ n) ≤ x then r + 2 ^ n else r)

/-- floor of the square root of a number below 4^n. -/
def isqrt (n x : Nat) : Nat := isqrtFrom x n 0

/-- The square root of Table 3-7. -/
def sqrtVal (a : Val) : Val × Flags :=
  match a with
  | .nan s => (.nan false, if s then fNV else 0)
  | .inf n => if n then (.nan false, fNV) else (.inf false, 0)
  | .fin s m e _ =>
    if m = 0 then (.fin s 0 0 false, 0)
    else if s then (.nan false, fNV)
    else
      let k : Nat := 128 + (e % 2).toNat
      let x := m * 2 ^ k
      let r := isqrt 96 x
      (.fin false r ((e - k) / 2) (r * r != x), 0)

/-- 1/√A of Table 4-4. -/
def rsqVal (a : Val) : Val × Flags :=
  match a with
  | .nan s => (.nan false, if s then fNV else 0)
  | .inf n => if n then (.nan false, fNV) else (.fin false 0 0 false, 0)
  | .fin s m e _ =>
    if m = 0 then (.inf s, fDZ)
    else if s then (.nan false, fNV)
    else
      let k : Nat := (e % 2).toNat
      let x := m * 2 ^ k
      let r := isqrt 101 (2 ^ 200 / x)
      (.fin false r (-100 - (e - k) / 2) (r * r * x != 2 ^ 200), 0)

/-- ln 2 in units of 2^-440, from the series of 1/(k 2^k). -/
def ln2Fixed : Nat := (List.range 440).foldl (fun a k => a + 2 ^ 440 / ((k + 1) * 2 ^ (k + 1))) 0

/-- 2^f for f in units of 2^-440, 0 ≤ f < 1, in the same units: the exponential series. -/
def exp2Fixed (f : Nat) : Nat :=
  let t := f * ln2Fixed / 2 ^ 440
  ((List.range 110).foldl (fun (a : Nat × Nat) n => let u := a.2 * t / 2 ^ 440 / (n + 1); (a.1 + u, u)) (2 ^ 440, 2 ^ 440)).1

/-- 2^A of Table 4-4: exact for integers; otherwise 2^A is irrational, so its first 320 bits are followed by more. -/
def exp2Val (a : Val) : Val × Flags :=
  match a with
  | .nan s => (.nan false, if s then fNV else 0)
  | .inf n => (if n then .fin false 0 0 false else .inf false, 0)
  | .fin s m e _ =>
    if m = 0 then (.fin false 1 0 false, 0)
    else if (10 : Int) ≤ e + (m.log2 : Nat) then (.fin false (2 ^ 64) (if s then -1064 else 936) true, 0)
    else
      -- A in units of 2^-440; its exponent is at least -300
      let x : Int := (if s then -1 else 1) * (magAt m e (-440) : Int)
      let j := x / ((2 ^ 440 : Nat) : Int)
      let f := (x % ((2 ^ 440 : Nat) : Int)).toNat
      if f = 0 then (.fin false 1 j false, 0)
      else (.fin false (exp2Fixed f / 2 ^ 120) (j - 320) true, 0)

/-- Order of two values that are not NaN: less, equal, greater; zeros are equal. -/
def cmpVal (a b : Val) : Ordering :=
  match a, b with
  | .inf m, .inf n => if m = n then .eq else if m then .lt else .gt
  | .inf m, _ => if m then .lt else .gt
  | _, .inf n => if n then .gt else .lt
  | .fin s m e _, .fin t n d _ =>
    let q := min e d
    compare ((if s then -1 else 1) * (magAt m e q : Int)) ((if t then -1 else 1) * (magAt n d q : Int))
  | _, _ => .eq

/-- minimumNumber and maximumNumber of R107; -0 orders below +0. -/
def minMaxVal (mx : Bool) (a b : Val) : Val × Flags :=
  let fl := sigFlag [a, b]
  match a, b with
  | .nan _, .nan _ => (.nan false, fl)
  | .nan _, y => (y, fl)
  | x, .nan _ => (x, fl)
  | x, y =>
    let xLess := match cmpVal x y with
      | .lt => true
      | .gt => false
      | .eq => x.negative && !y.negative
    let yLess := match cmpVal x y with
      | .lt => false
      | .gt => true
      | .eq => y.negative && !x.negative
    (if mx then (if xLess then y else x) else (if yLess then y else x), fl)

/-- FCMP of R108. -/
def fcondHolds (c : FCond) (a b : Val) : Bool × Flags :=
  let un := a.isNan || b.isNan
  let o := cmpVal a b
  match c with
  | .eq => (!un && o == .eq, sigFlag [a, b])
  | .ne => (un || o != .eq, sigFlag [a, b])
  | .lt => (!un && o == .lt, if un then fNV else 0)
  | .le => (!un && o != .gt, if un then fNV else 0)
  | .gt => (!un && o == .gt, if un then fNV else 0)
  | .ge => (!un && o != .lt, if un then fNV else 0)
  | .un => (un, sigFlag [a, b])
  | .ord => (!un, sigFlag [a, b])

/-- A value rounded to an integer by a mode: the integer and whether it is inexact (R110). -/
def roundInt (md : Rnd) (neg : Bool) (m : Nat) (e : Int) : Int × Bool :=
  let r := roundAt md neg m e false 0
  (if neg then -(r.1 : Int) else r.1, r.2)

/-- A value converted to an integer of a range: NaN gives 0, and what lies beyond the range its bound, both with NV (R110, R151). -/
def toInt (md : Rnd) (lo hi : Int) (v : Val) : Int × Flags :=
  match v with
  | .nan _ => (0, fNV)
  | .inf n => (if n then lo else hi, fNV)
  | .fin s m e _ =>
    let r := if (200 : Int) ≤ e + (m.log2 : Nat) ∧ m ≠ 0 then (if s then -(2 ^ 200 : Int) else 2 ^ 200, false) else roundInt md s m e
    if r.1 < lo then (lo, fNV)
    else if hi < r.1 then (hi, fNV)
    else (r.1, if r.2 then fNX else 0)

/-- An integer as a value. -/
def ofIntVal (i : Int) : Val := .fin (decide (i < 0)) i.natAbs 0 false

/-- Conversion to FP8 under SAT (R120, Table 4-2). -/
def roundFp8 (f : Fmt) (sat : Bool) (md : Rnd) (v : Val) : Nat × Flags :=
  match v with
  | .nan s => (f.qnan, if s then fNV else 0)
  | .inf n => if sat then (f.largest n, 0) else if f.e4m3 then (f.qnan, fNV) else (f.infinity n, 0)
  | v =>
    let r := f.round md false v
    if sat && (r.2 &&& fOF) != 0 then (f.largest v.negative, r.2) else r

/-- Conversion to any format: FP8 by Table 4-2, another by Round; a signalling NaN raises NV (R119, R120). A BF16 subnormal widened to
FP32 under FTZ is flushed with UF and NX, as R121 has it of every tiny FP32 result, although R119 and R151 call the widening exact and
without flags: the model's choice (log entry 46). -/
def convertVal (f : Fmt) (sat : Bool) (md : Rnd) (ftz : Bool) (v : Val) : Nat × Flags :=
  if f.mb < 4 then roundFp8 f sat md v
  else
    let r := f.round md ftz v
    (r.1, r.2 ||| sigFlag [v])

/-- The class bit of FCLASS (R112). -/
def classBit (f : Fmt) (x : Nat) : Nat :=
  match f.decode x with
  | .nan s => if s then 8 else 9
  | .inf n => if n then 0 else 7
  | .fin n m _ _ =>
    if m = 0 then (if n then 3 else 4)
    else if m < 2 ^ f.mb then (if n then 2 else 5)
    else (if n then 1 else 6)

end Sys2Proof.Machine
end

