-- ==== Sys2Proof/Machine/Vector.lean ====
section
/-! DEFINITION. Wide-integer and data-movement forms, opcodes 0x70 to 0x85 (05_vector_matrix.md R138 to R149). -/

namespace Sys2Proof.Machine

/-- The first operand of a list that holds a scaled token (R126): its letter and token. -/
def Site.scaledAt (x : Site) : List Nat → Option (Nat × Wide)
  | [] => none
  | j :: l =>
    match x.e.operand j with
    | some (.wide w) => if w.t then some (j, w) else x.scaledAt l
    | _ => x.scaledAt l

/-- TVAL of a SCALE_TAG at an operand (R126). -/
def scaleTval (j : Nat) (e : BitVec 8) : W64 := BitVec.ofNat 64 (e.toNat + 256 * j)

/-- A wide form: a null operand gives nulls and no scale check; a scaled token at one of the operands that must be unscaled
is SCALE_TAG at the lowest letter (R126, R141). -/
def computeWide (h : Hdr) (need : List Nat) (unscaledAt : List Nat) (f : Site → Token) (s : State) : Out :=
  fire h.pm none (ops need) (fun x s =>
    if x.anyNull need then s.deliver x.ref h .null .null
    else match x.scaledAt unscaledAt with
      | some (j, w) => s.holdAt x .scaleTag (scaleTval j w.e) none
      | none => s.deliver x.ref h (f x) (f x)) s

/-- A lane-wise integer form of one operand (R143). -/
def laneOp1 (h : Hdr) (ty : ETy) (f : Nat → Nat → Nat) (s : State) : Out :=
  computeWide h [0] [0] (fun x =>
    unscaled (ofLanes ty.width ((lanesOf x.a.wideOf.data ty.width).map fun a => f a ty.width))) s

/-- A lane-wise integer form of two operands (R142, R143). -/
def laneOp2 (h : Hdr) (ty : ETy) (f : Nat → Nat → Nat → Nat) (s : State) : Out :=
  computeWide h [0, 1] [0, 1] (fun x =>
    unscaled (ofLanes ty.width (List.zipWith (fun a b => f a b ty.width)
      (lanesOf x.a.wideOf.data ty.width) (lanesOf x.b'.wideOf.data ty.width)))) s

/-- The exact lane result narrowed (R142). -/
def vArith (n : Narrowing) (op : Int → Int → Int) (a b w : Nat) : Nat := narrowTo (op (readAs n a w) (readAs n b w)) w n

/-- VADD, VSUB, VMUL (R142). -/
def execVadd (h : Hdr) (ty : ETy) (n : Narrowing) (s : State) : Out := laneOp2 h ty (vArith n (· + ·)) s
def execVsub (h : Hdr) (ty : ETy) (n : Narrowing) (s : State) : Out := laneOp2 h ty (vArith n (· - ·)) s
def execVmul (h : Hdr) (ty : ETy) (n : Narrowing) (s : State) : Out := laneOp2 h ty (vArith n (· * ·)) s

/-- VMULH (R143): bits [2w-1:w] of the exact product. -/
def vmulhLane (u : Bool) (a b w : Nat) : Nat :=
  if u then a % 2 ^ w * (b % 2 ^ w) / 2 ^ w else wrapN (sInt a w * sInt b w / ((2 ^ w : Nat) : Int)) w

def execVmulh (h : Hdr) (ty : ETy) (u : Bool) (s : State) : Out := laneOp2 h ty (vmulhLane u) s

/-- The smaller or larger lane (R143). -/
def vPick (mx u : Bool) (a b w : Nat) : Nat :=
  let less := if u then decide (a % 2 ^ w < b % 2 ^ w) else decide (sInt a w < sInt b w)
  if less = mx then b else a

/-- VMIN, VMAX (R143). -/
def execVmin (h : Hdr) (ty : ETy) (u : Bool) (s : State) : Out := laneOp2 h ty (vPick false u) s
def execVmax (h : Hdr) (ty : ETy) (u : Bool) (s : State) : Out := laneOp2 h ty (vPick true u) s

/-- VABS (R143): wrapped or saturated. -/
def execVabs (h : Hdr) (ty : ETy) (sat : Bool) (s : State) : Out :=
  laneOp1 h ty (fun a w => narrowTo (sInt a w).natAbs w (if sat then .ssat else .wrap)) s

/-- VAND, VOR, VXOR (R143): over all 1,024 bits. -/
def vBits (h : Hdr) (f : WideBits → WideBits → WideBits) (s : State) : Out :=
  computeWide h [0, 1] [0, 1] (fun x => unscaled (f x.a.wideOf.data x.b'.wideOf.data)) s

def execVand (h : Hdr) (_ty : ETy) (s : State) : Out := vBits h (· &&& ·) s
def execVor (h : Hdr) (_ty : ETy) (s : State) : Out := vBits h (· ||| ·) s
def execVxor (h : Hdr) (_ty : ETy) (s : State) : Out := vBits h (· ^^^ ·) s

/-- A shift (R143): the count from the lane of B, or from LANE. -/
def vShift (h : Hdr) (ty : ETy) (cnt : Option (BitVec 7)) (f : Nat → Nat → Nat → Nat) (s : State) : Out :=
  match cnt with
  | some n => laneOp1 h ty (fun a w => f a n.toNat w) s
  | none => laneOp2 h ty (fun a b w => f a (b % w) w) s

/-- VSHL, VSHR, VSRA (R143). -/
def execVshl (h : Hdr) (ty : ETy) (cnt : Option (BitVec 7)) (s : State) : Out := vShift h ty cnt (fun a n w => a * 2 ^ n % 2 ^ w) s
def execVshr (h : Hdr) (ty : ETy) (cnt : Option (BitVec 7)) (s : State) : Out := vShift h ty cnt (fun a n _ => a / 2 ^ n) s
def execVsra (h : Hdr) (ty : ETy) (cnt : Option (BitVec 7)) (s : State) : Out :=
  vShift h ty cnt (fun a n w => wrapN (sInt a w / ((2 ^ n : Nat) : Int)) w) s

/-- All ones of a lane, or zero (R144). -/
def maskLane (b : Bool) (w : Nat) : Nat := if b then 2 ^ w - 1 else 0

/-- VCMP (R144). -/
def execVcmp (c : Cond) (h : Hdr) (ty : ETy) (s : State) : Out := laneOp2 h ty (fun a b w => maskLane (condHolds c a b w) w) s

/-- VSEL (R141, R144): (A and C) or (B and not C); the scale is A's, B must carry the same, C must be unscaled. -/
def execVsel (h : Hdr) (s : State) : Out :=
  fire h.pm none (ops [0, 1, 2]) (fun x s =>
    let a := x.a.wideOf
    let b := x.b'.wideOf
    let c := x.c'.wideOf
    if x.anyNull [0, 1, 2] then s.deliver x.ref h .null .null
    else if a.t ≠ b.t ∨ a.e ≠ b.e then s.holdAt x .scaleTag (scaleTval 1 b.e) none
    else if c.t then s.holdAt x .scaleTag (scaleTval 2 c.e) none
    else
      let y := Token.wide ⟨(a.data &&& c.data) ||| (b.data &&& ~~~c.data), a.t, a.e⟩
      s.deliver x.ref h y y) s

/-- VREP (R145). -/
def execVrep (h : Hdr) (ty : ETy) (s : State) : Out :=
  compute h (ops [0]) (fun x =>
    let y := unscaled (ofLanes ty.width (List.replicate ty.lanes x.a.word.toNat))
    (y, y)) s

/-- The lane that VEXT and VINS name (R145). -/
def laneIndex (lane : Option (BitVec 7)) (t : Token) (ty : ETy) : Nat :=
  match lane with
  | some n => n.toNat
  | none => t.word.toNat % ty.lanes

/-- VEXT (R145): the scale is dropped. -/
def execVext (h : Hdr) (ty : ETy) (u : Bool) (lane : Option (BitVec 7)) (s : State) : Out :=
  compute h (opsG lane) (fun x =>
    let v := laneOf x.a.wideOf.data ty.width (laneIndex lane x.b' ty)
    let y := Token.narrow (if ty.isInt && !u then BitVec.ofInt 64 (sInt v ty.width) else BitVec.ofNat 64 v)
    (y, y)) s

/-- VINS (R145): A with one lane replaced, its scale kept (R141). -/
def execVins (h : Hdr) (ty : ETy) (lane : Option (BitVec 7)) (s : State) : Out :=
  compute h (fun _ => if lane.isSome then [0, 1] else [0, 1, 2]) (fun x =>
    let a := x.a.wideOf
    let l := (lanesOf a.data ty.width).set (laneIndex lane x.c' ty) x.b'.word.toNat
    let y := Token.wide ⟨ofLanes ty.width l, a.t, a.e⟩
    (y, y)) s

/-- VPERM (R146): the scale of A, an unscaled index token. -/
def execVperm (h : Hdr) (ty : ETy) (s : State) : Out :=
  computeWide h [0, 1] [1] (fun x =>
    let a := x.a.wideOf
    let l := lanesOf a.data ty.width
    .wide ⟨ofLanes ty.width ((lanesOf x.b'.wideOf.data ty.width).map fun i => l.getD (i % ty.lanes) 0), a.t, a.e⟩) s

/-- The combination of VREDI over w-bit lanes (R147). -/
def redLane (op : RedOp) (u : Bool) (w a b : Nat) : Nat :=
  match op with
  | .add => (a + b) % 2 ^ w
  | .min => vPick false u a b w
  | .max => vPick true u a b w
  | .and => a &&& b
  | .or => a ||| b
  | .xor => a ^^^ b

/-- VREDI (R147). -/
def execVredi (op : RedOp) (h : Hdr) (ty : ETy) (u : Bool) (s : State) : Out :=
  computeWide h [0] [0] (fun x =>
    match lanesOf x.a.wideOf.data ty.width with
    | [] => .narrow 0
    | a :: l => narrowTok (l.foldl (redLane op u ty.width) a) ty.width false |> fun t =>
        if u then t else .narrow (BitVec.ofInt 64 (sInt t.word.toNat ty.width))) s

/-- VIOTA (R148). -/
def execViota (h : Hdr) (ty : ETy) (imm : BitVec 13) (s : State) : Out :=
  compute h (ops []) (fun _ =>
    let y := unscaled (ofLanes ty.width ((List.range ty.lanes).map fun (j : Nat) => wrapN (imm.toInt + (j : Int)) ty.width))
    (y, y)) s

/-- A byte of VDP4's operands by its signedness (R149). -/
def dp4Read (signed : Bool) (v : Nat) : Int := if signed then sInt v 8 else (v : Nat)

/-- VDP4 (R149): four-way dot products of bytes into I32 lanes. -/
def vdp4Lane (sg : Dp4Sign) (sat : Bool) (a b c : Nat) : Nat :=
  let sa := match sg with | .ss => true | .su => true | _ => false
  let sb := match sg with | .ss => true | .us => true | _ => false
  let t := (List.range 4).foldl (fun (z : Int) i => z + dp4Read sa (a / 256 ^ i % 256) * dp4Read sb (b / 256 ^ i % 256)) 0
  narrowTo (sInt c 32 + t) 32 (if sat then .ssat else .wrap)

def execVdp4 (sg : Dp4Sign) (h : Hdr) (sat : Bool) (s : State) : Out :=
  computeWide h [0, 1, 2] [0, 1, 2] (fun x =>
    unscaled (ofLanes 32 (List.zipWith (fun (p : Nat × Nat) c => vdp4Lane sg sat p.1 p.2 c)
      (List.zip (lanesOf x.a.wideOf.data 32) (lanesOf x.b'.wideOf.data 32)) (lanesOf x.c'.wideOf.data 32)))) s

end Sys2Proof.Machine
end

