-- ==== Sys2Proof/Machine/Memory.lean ====
section
/-! DEFINITION. The memory forms 0x50 to 0x5D (06 R176 to R191) as they fire: loads, stores, atomics, prefetch, fence and line
maintenance. What a store-class form does when it is released stands in Drain.lean and Commit.lean. -/

namespace Sys2Proof.Machine

/-! ### Loads (R184) -/

/-- LD (R184). -/
def execLd (sz : LdSize) (h : Hdr) (lsid : BitVec 5) (_ord : MOrd) (off : BitVec 22) (s : State) : Out :=
  loadMem h lsid.toNat (ldBytes sz) (.narrow (ldBytes sz) (ldSigned sz)) off s

/-- LDW (R184). -/
def execLdw (sz : WideSize) (h : Hdr) (lsid : BitVec 5) (_ord : MOrd) (off : BitVec 22) (s : State) : Out :=
  loadMem h lsid.toNat (wideLen sz) .wide off s

/-- LDS (R184): aligned to its size (R178). -/
def execLds (sz : LdSize) (h : Hdr) (lsid : BitVec 5) (off : BitVec 22) (s : State) : Out :=
  loadSpad h lsid.toNat (ldBytes sz) (ldBytes sz) (.narrow (ldBytes sz) (ldSigned sz)) off s

/-- LDSW (R184): aligned to 16 bytes (R178). -/
def execLdsw (sz : WideSize) (h : Hdr) (lsid : BitVec 5) (off : BitVec 22) (s : State) : Out :=
  loadSpad h lsid.toNat (wideLen sz) 16 .wide off s

/-! ### Stores (R184) -/

/-- A store-class access has passed its checks: it is recorded, its LSID is performed, and a younger load that read its bytes too
early is discarded (R179, R345). -/
def State.addStore (s : State) (x : Site) (a : Access) (writes : Bool) : State :=
  let s := s.modBlock x.ref fun b => { (b.resolveLsid x.idx a.lsid .performed) with accs := b.accs ++ [a] }
  if writes then s.violation x.slot x.ref a else s

/-- A store-class access of memory (R181): translation, watchpoints, then its record. `load` says that it counts as both classes
(R405). -/
def State.storeMem (s : State) (x : Site) (lsid : Nat) (va : W64) (data : List Byte) (len : Nat) (both : Bool) : Found :=
  if !s.fenceGate x.slot x.t x.b then .wait
  else s.reach' x .store va len fun ps =>
    match x.t.watch x.b both true va len with
    | some v => .fail .watch v
    | none => .go fun s => s.addStore x ⟨x.idx, lsid, true, .mem, va, len, ps, data, []⟩ true

/-- ST (R184, R181). -/
def execSt (sz : StSize) (pm : Pm) (lsid : BitVec 5) (_ord : MOrd) (off : BitVec 22) (s : State) : Out :=
  fireMem pm none lsid.toNat [0, 1] (fun x s =>
    s.storeMem x lsid.toNat (effAddr x.a.word off) (leBytes x.b'.word.toNat (stBytes sz)) (stBytes sz) false) s

/-- STW (R184): a scaled token is SCALE_TAG at operand B. -/
def execStw (sz : WideSize) (pm : Pm) (lsid : BitVec 5) (_ord : MOrd) (off : BitVec 22) (s : State) : Out :=
  fireMem pm none lsid.toNat [0, 1] (fun x s =>
    let w := x.b'.wideOf
    if w.t then .fail .scaleTag (scaleTval 1 w.e)
    else s.storeMem x lsid.toNat (effAddr x.a.word off) (leBytes w.data.toNat (wideLen sz)) (wideLen sz) false) s

/-- A scratchpad store (R177, R178, R184). -/
def State.storeSpad (s : State) (x : Site) (lsid : Nat) (ea : W64) (align : Nat) (data : List Byte) : Found :=
  if ea.toNat % align ≠ 0 then .fail .align ea
  else
    match s.group x.t.gid with
    | none => .fail .prot ea
    | some g =>
      if !g.inSpad ea.toNat data.length then .fail .prot ea
      else if s.noPlace x [] then .wait
      else .go fun s => s.addStore x ⟨x.idx, lsid, true, .spad, ea, data.length, [], data, []⟩ true

/-- STS (R184). -/
def execSts (sz : StSize) (pm : Pm) (lsid : BitVec 5) (off : BitVec 22) (s : State) : Out :=
  fireMem pm none lsid.toNat [0, 1] (fun x s =>
    s.storeSpad x lsid.toNat (effAddr x.a.word off) (stBytes sz) (leBytes x.b'.word.toNat (stBytes sz))) s

/-- STSW (R184). -/
def execStsw (sz : WideSize) (pm : Pm) (lsid : BitVec 5) (off : BitVec 22) (s : State) : Out :=
  fireMem pm none lsid.toNat [0, 1] (fun x s =>
    let w := x.b'.wideOf
    if w.t then .fail .scaleTag (scaleTval 1 w.e)
    else s.storeSpad x lsid.toNat (effAddr x.a.word off) 16 (leBytes w.data.toNat (wideLen sz))) s

/-! ### Atomics (R187) -/

/-- The write slots of a form count as filled once it has performed; their registers await the home (R188). -/
def Block.awaitAtomic (b : Block) (tg : Target) : Block :=
  match tg with
  | .slot w =>
    let free := match b.writes[w.toNat]? with | some x => x.tok.isNone | none => false
    let b := b.fillSlot w.toNat .null
    if free then { b with writes := b.writes.modify w.toNat fun x => { x with atomic := true } } else b
  | _ => b

/-- An atomic fires (R178, R181, R188). -/
def fireAtomic (h : Hdr) (lsid : BitVec 5) (off : BitVec 22) (need : List Nat) (n : Nat) (s : State) : Out :=
  fireMem h.pm (some h) lsid.toNat need (fun x s =>
    let ea := effAddr x.a.word off
    if ea.toNat % n ≠ 0 then .fail .align ea
    else if !s.fenceGate x.slot x.t x.b then .wait
    else s.reach' x .store ea n fun ps =>
      match x.t.watch x.b true true ea n with
      | some v => .fail .watch v
      | none => .go fun s =>
        (s.addStore x ⟨x.idx, lsid.toNat, true, .mem, ea, n, ps, [], []⟩ true).modBlock x.ref fun b =>
          (b.awaitAtomic h.t0).awaitAtomic h.t1) s

/-- ATOM (R187). -/
def execAtom (w : Width) (_op : AtomOp) (h : Hdr) (lsid : BitVec 5) (_ord : MOrd) (off : BitVec 22) (s : State) : Out :=
  fireAtomic h lsid off [0, 1] (widthBits w / 8) s

/-- CAS and CAS.xchg (R187). -/
def execCas (w : Width) (xchg : Bool) (h : Hdr) (lsid : BitVec 5) (_ord : MOrd) (off : BitVec 22) (s : State) : Out :=
  fireAtomic h lsid off (if xchg then [0, 1] else [0, 1, 2]) (widthBits w / 8) s

/-- FATOM (R187). -/
def execFatom (d : Bool) (_op : FAtomOp) (h : Hdr) (lsid : BitVec 5) (_ord : MOrd) (off : BitVec 22) (s : State) : Out :=
  fireAtomic h lsid off [0, 1] (if d then 8 else 4) s

/-! ### Prefetch, fence, lines (R189 to R191) -/

/-- A hint asks for a line of a cluster, as a miss of the grid that owns the line (R189, Table 12-6). -/
def State.hintLine (s : State) (c : Nat) (p : Piece) (grid : Nat) (who : FillFor) : State :=
  if s.canAsk c (keyOf p.pa) (some grid) then s.askLine c (keyOf p.pa) p.leaf 0 who else s

/-- What PREF asks for once its address is translated (R189): nothing of an uncached page; a copy in the cluster's L1; the line in the L2 of
its home, which for a line of another module is read there; and for .l2x, that no other module holds its page: the holders of an own page
are revoked, the page of another module is asked for as exclusive (log entry 42). -/
def State.prefetch (s : State) (c grid : Nat) (k : PrefKind) (p : Piece) : State :=
  let key := keyOf p.pa
  let y := paLa p.pa / 128
  if p.leaf.cmode = 3 ∨ s.refuses c key then s
  else
    match k with
    | .l1 => if (s.l1Copy c key).isSome then s else s.hintLine c p grid (.hint grid)
    | .l2 | .l2x =>
      if paDev p.pa ≠ s.dev then
        let die := clusterDie c
        let held := match s.peerOf die key with | some x => x.excl | none => false
        let asked := s.asked fun w => match w with | .page d q _ => d == die && q == key / 32 | _ => false
        let s := if k == .l2x && !held && !asked then s.askPage die key true else s
        if (tget s.coh.l2 (peerKey key)).isSome then s else s.hintLine c p grid (.hintL2 grid)
      else if paLa p.pa < 2 ^ 40 then
        match s.gate y (k == .l2x) none with
        | .go => (if k == .l2x then s.revokeHolders (y / 32) none else s).allocate y p.leaf.vc.toNat
        | .act s' => s'
        | .wait => s
      else s

/-- The grid that owns the line of a PREF, whose miss it is (R345). -/
def Site.prefGrid (x : Site) (off : BitVec 22) : Nat := lineGrid x.slot x.t (effAddr x.a.word off).toNat

/-- Has a PREF what it needs to go on: an entry of its queue, a miss of its grid, a place for its walk (Table 12-6)? -/
def State.prefRoom (s : State) (x : Site) (off : BitVec 22) : Bool :=
  !s.formFull x && (match s.translate x.who .load (effAddr x.a.word off) 1 with
    | .ok _ => decide (s.missesOn (x.prefGrid off) < 32)
    | .fault _ _ => true
    | .miss a => s.walkRoom x.who.cl x.who.asid a)

/-- PREF (R189): it never faults; a translation that fails drops it, one that misses walks for it. -/
def execPref (k : PrefKind) (pm : Pm) (lsid : BitVec 5) (off : BitVec 22) (s : State) : Out :=
  fireWhen pm (some lsid.toNat) (fun x s => x.has [0] && (x.anyNull [0] || s.prefRoom x off)) (fun x s =>
    if x.anyNull [0] then s.resolveAt x.ref x.idx lsid.toNat .nulled
    else
      let s := s.resolveAt x.ref x.idx lsid.toNat .performed
      let w := x.who
      let va := effAddr x.a.word off
      match s.translate w .load va 1 with
      | .ok ps => ps.foldl (fun s p => s.prefetch w.cl (x.prefGrid off) k p) s
      | .fault _ _ => s
      | .miss a => s.startWalk w a false (.prefetch x.slot x.ref x.idx)) s

/-- FENCE (R190) as it fires: it acts at commit; a null on operand A is a trigger like any other (R180). -/
def execFence (_k : FenceKind) (pm : Pm) (lsid : BitVec 5) (_sc : Scope) (s : State) : Out :=
  fireWhen pm (some lsid.toNat) (fun x _ => x.has (trigger x)) (fun x s => s.resolveAt x.ref x.idx lsid.toNat .performed) s

/-- The bytes of a line of a page's virtual cache (R191); pages homed elsewhere have lines of 128 bytes. -/
def State.lineBytes (s : State) (p : Piece) : Nat :=
  if paDev p.pa = s.dev ∧ paLa p.pa < 2 ^ 40 then ((s.die (homeDie (paLa p.pa))).vc p.leaf.vc.toNat).lineSize else 128

/-- A CLINE form fires (R191): read or store permission at EA, then the watchpoints on the whole line. -/
def fireLine (pm : Pm) (lsid : BitVec 5) (off : BitVec 22) (writes zeros : Bool) (s : State) : Out :=
  fireMem pm none lsid.toNat [0] (fun x s =>
    let ea := effAddr x.a.word off
    if !s.fenceGate x.slot x.t x.b then .wait
    else s.reach' x (if writes then .store else .load) ea 1 fun ps =>
      match ps with
      | [] => .fail .prot ea
      | p :: _ =>
        let n := s.lineBytes p
        let va := BitVec.ofNat 64 (ea.toNat / n * n)
        match x.t.watch x.b (!writes) writes va n with
        | some v => .fail .watch v
        | none => .go fun s =>
          s.addStore x ⟨x.idx, lsid.toNat, true, .mem, va, n, [{ p with pa := p.pa / n * n, len := n }],
            if zeros then List.replicate n 0 else [], []⟩ writes) s

/-- CLINE.clean, .inval, .flush, .zero, .reclaim (R191). -/
def execClineClean (pm : Pm) (lsid : BitVec 5) (off : BitVec 22) (s : State) : Out := fireLine pm lsid off false false s
def execClineInval (pm : Pm) (lsid : BitVec 5) (off : BitVec 22) (s : State) : Out := fireLine pm lsid off false false s
def execClineFlush (pm : Pm) (lsid : BitVec 5) (off : BitVec 22) (s : State) : Out := fireLine pm lsid off false false s
def execClineZero (pm : Pm) (lsid : BitVec 5) (off : BitVec 22) (s : State) : Out := fireLine pm lsid off true true s
def execClineReclaim (pm : Pm) (lsid : BitVec 5) (off : BitVec 22) (s : State) : Out := fireLine pm lsid off true false s

/-! ### The return of load data (R181, R346) -/

/-- LOAD_DATA_RETURN: a waiting load takes what its lines now hold, and performs once every byte is there. -/
def execLoadDataReturn (b : BRef) (idx : Nat) (s : State) : Out :=
  match s.block b with
  | none => .fault .noSuch
  | some (t, x) =>
    match x.entries[idx]?, x.accs.find? (fun a => a.idx == idx) with
    | some e, some a =>
      if e.st ≠ .waiting then .fault .noSuch
      else
        match decode e.word with
        | .error _ => .fault .noSuch
        | .ok i =>
          match loadForm i with
          | none => .fault .noSuch
          | some (h, lsid, len, as_) =>
            let g := s.gather b idx t x lsid a.pieces
            if g.wait ∨ g.missing.any (fun m =>
                (s.coh.fills.any fun f => f.cl == slotCluster b.slot && f.line == m.1 && f.blank && f.waiters.contains (.load b idx))
                  || !s.canAsk (slotCluster b.slot) m.1 (some (lineGrid b.slot t (128 * m.1)))) then .fault .notReady
            else .next (s.tryLoad b idx h lsid as_ a.va len a.pieces)
    | _, _ => .fault .noSuch

/-! ### Walks (R300, R302, R306) -/

/-- A walk leaves the list. -/
def State.endWalk (s : State) (id : Nat) : State :=
  { s with coh := { s.coh with walks := s.coh.walks.filter (·.id != id) } }

/-- The end of a walk for one of those it answers (R306): the first walks, the others find what it put into the TLBs, or fail as it did. -/
def State.walkFound (s : State) (w : Who) (k : AKind) (va : W64) (setD pref merged : Bool) : State × WalkEnd :=
  match merged, s.tlbFind w.cl w.grid w.asid va setD with
  | true, some e => (s, .entry e)
  | _, _ => s.walkAccess w k va setD pref

/-- PAGE_WALK for an entry of a block: its leaf goes to the TLBs, or PAGE_FAULT is held (R302, R303). -/
def State.walkEntry (s : State) (w : Walk) (b : BRef) (idx : Nat) (merged : Bool) : State :=
  match s.block b with
  | none => s
  | some (t, x) =>
    match x.entries[idx]? with
    | none => s
    | some e =>
      if e.st ≠ .idle then s
      else
        let who : Who := ⟨w.cl, some w.grid, w.asid, w.ptbase, t.sys.mode, x.img⟩
        let r := s.walkFound who (if w.store then .store else .load) w.va w.store false merged
        match r.2 with
        | .entry _ => r.1
        | .fault _ _ =>
          r.1.modBlock b fun y => (y.modEntry idx fun e => { e with st := .fired }).hold .fire idx (y.insTrap .pageFault w.va idx e.lsid)

/-- The grid whose miss the line of a walk for a PREF is (R345). -/
def State.walkGrid (s : State) (w : Walk) : Nat :=
  match w.who with
  | .prefetch slot _ _ => (match tget s.thr slot with | some t => lineGrid slot t w.va.toNat | none => w.grid)
  | _ => w.grid

/-- PAGE_WALK for a PREF: a leaf with A = 0 drops it (R189, R300). -/
def State.walkPref (s : State) (w : Walk) (slot : Nat) (b : BRef) (idx : Nat) (merged : Bool) : State :=
  match tget s.thr slot with
  | none => s
  | some t =>
    let img := match s.block b with | some (_, x) => x.img | none => t.sys.img
    let who : Who := ⟨w.cl, some w.grid, w.asid, w.ptbase, t.sys.mode, img⟩
    let r := s.walkFound who .load w.va false true merged
    match r.2, s.block b with
    | .entry _, some (_, x) =>
      match (x.entries[idx]?).map fun e => decode e.word, r.1.translate who .load w.va 1 with
      | some (.ok (.pref k _ _ _)), .ok ps => ps.foldl (fun s p => s.prefetch w.cl (s.walkGrid w) k p) r.1
      | _, _ => r.1
    | _, _ => r.1

/-- A fetch fault (R304): held with the frame; TINFO names no place. -/
def Block.fetchFault (b : Block) (c : Cause) (va : W64) : Block := b.hold .map 127 ⟨c, va, tinfo .none 0 0 0 false⟩

/-- Is a frame still being fetched at an address? -/
def Block.fetching (b : Block) (addr : W64) : Bool := b.state == .fetch && b.addr == addr && b.held.isEmpty

/-- The frames of a slot that are being fetched at an address, changed: in flight, or in the shadow plane. -/
def State.modFetch (s : State) (slot : Nat) (addr : W64) (f : Block → Block) : State :=
  s.modThread slot fun t =>
    { t with blocks := t.blocks.map (fun b => if b.fetching addr then f b else b)
             shadow := t.shadow.map fun b => if b.fetching addr then f b else b }

/-- PAGE_WALK for an engine: its leaf goes to the cluster TLB; a fault stays until it has been posted (R308), and so does the end of the walk
where the TLB, being full, may not hold the leaf until the engine has used it. -/
def State.walkEngine (s : State) (w : Walk) (sup : Bool) (img : BitVec 6) (merged : Bool) : State :=
  let r := s.walkFound ⟨w.cl, none, w.asid, w.ptbase, sup, img⟩ (if w.store then .store else .load) w.va w.store false merged
  let keep (lvl : Nat) (mal : Bool) : State :=
    { r.1 with coh := { r.1.coh with walks := r.1.coh.walks ++ [{ w with res := some (lvl, mal) }] } }
  match r.2 with
  | .fault lvl mal => keep lvl mal
  | .entry _ => if (r.1.cl w.cl).tlb.length < clusterTlbSize then r.1 else keep 0 false

/-- The end of a walk for one of those it answers: an entry, a PREF, or a block fetch, which looks again and holds a fault with its frame
(R304). -/
def State.walkOne (s : State) (w : Walk) (merged : Bool) : State :=
  match w.who with
  | .access b idx => s.walkEntry w b idx merged
  | .prefetch slot b idx => s.walkPref w slot b idx merged
  | .fetch slot addr =>
    match tget s.thr slot with
    | none => s
    | some t =>
      let r := s.walkFound ⟨w.cl, some w.grid, w.asid, w.ptbase, t.sys.mode, t.sys.img⟩ .fetch w.va false false merged
      match r.2 with
      | .entry _ => r.1
      | .fault _ _ => r.1.modFetch slot addr fun b => b.fetchFault .pageFault w.va
  | .engine sup img => s.walkEngine w sup img merged

/-- Does a walk for a PREF wait for a miss of its grid (Table 12-6)? -/
def State.walkHeld (s : State) (w : Walk) : Bool :=
  match w.who with
  | .prefetch _ _ _ => decide (32 ≤ s.missesOn (s.walkGrid w))
  | _ => false

/-- PAGE_WALK (R302, R306): a walk that may run ends for every access that missed as it did. -/
def execPageWalk (walk : Nat) (s : State) : Out :=
  match s.openWalks.find? (·.id == walk) with
  | none => .fault .noSuch
  | some w =>
    if !s.walkRuns w || s.openWalks.any (fun x => x.miss == w.miss && s.walkHeld x) then .fault .notReady
    else
    match s.walkGate w with
    | .wait => .fault .notReady
    | .act s' => .next s'
    | .go =>
      let others := s.openWalks.filter fun x => x.miss == w.miss && x.id != walk
      .next ((others.foldl (fun s x => (s.endWalk x.id).walkOne x true) ((s.endWalk walk).walkOne w false)))

end Sys2Proof.Machine
end

