-- ==== Sys2Proof/Machine/SyncForms.lean ====
section
/-! DEFINITION. The sync-word forms 0x60 to 0x63 as they fire (06 R192 to R203): SARM and SADD are recorded and act when they are
released; SREAD and SWAIT read or wait at the home of the word. SYNC_WORD_ARRIVAL (R195). -/

namespace Sys2Proof.Machine

/-- The word that a reference names, for a form (R193): a reserved space code is ALIGN with the reference. -/
def State.reachWord (s : State) (x : Site) (store : Bool) (ref : W64) (go : WLoc → List Piece → Found) : Found :=
  if s.walking x.ref x.idx then .wait
  else
    let w := x.who
    match s.refTo w (s.group x.t.gid) store ref with
    | .ok l ps => if s.noPlace x ps then .wait else go l ps
    | .fault c v => .fail c v
    | .reserved => .fail .align ref
    | .miss a =>
      if (store && (s.tlbFind w.cl w.grid w.asid a false).isSome && !x.t.isOldest x.b) || !s.walkRoom w.cl w.asid a then .wait
      else .stay (s.walkFor x a (store && x.t.isOldest x.b))

/-- The access of a form on a sync word: in memory by its pieces, in the scratchpad by its offset. -/
def wordAccess (x : Site) (lsid : Nat) (store : Bool) (ref : W64) (ps : List Piece) : Access :=
  ⟨x.idx, lsid, store, if ps.isEmpty then .spad else .mem, refBase ref, 16, ps, [], []⟩

/-- SARM and SADD fire: the word is reached, watchpoints are looked at, and the operation waits for its release (R198, R199). -/
def fireWord (pm : Pm) (lsid : BitVec 5) (off : BitVec 22) (i : Instr) (s : State) : Out :=
  fireMem pm none lsid.toNat [0, 1] (fun x s =>
    let ref := effAddr x.a.word off
    if !s.fenceGate x.slot x.t x.b then .wait
    else s.reachWord x true ref fun l ps =>
      match (if ps.isEmpty then none else x.t.watch x.b false true (refBase ref) 16) with
      | some v => .fail .watch v
      | none => .go fun s => (s.addStore x (wordAccess x lsid.toNat true ref ps) true).recordAt x i [] (some l) ps) s

/-- SARM (R198) as it fires. -/
def execSarm (pm : Pm) (lsid : BitVec 5) (ord : MOrd) (off : BitVec 22) (s : State) : Out :=
  fireWord pm lsid off (.sarm pm lsid ord off) s

/-- SADD (R199) as it fires. -/
def execSadd (pm : Pm) (lsid : BitVec 5) (ord : MOrd) (off : BitVec 22) (s : State) : Out :=
  fireWord pm lsid off (.sadd pm lsid ord off) s

/-- The bytes of a word in memory for a form of the thread: its own older stores and its grid's store buffer first (R185, R257),
then the home; `none` where one of them cannot be forwarded. -/
def State.wordMem (s : State) (x : Site) (lsid : Nat) (pa : Nat) : Option (List Byte) :=
  (List.range 16).foldl (fun acc i =>
    match acc with
    | none => none
    | some l =>
      match s.byteSrc x.slot x.t x.b lsid (pa + i) with
      | .wait => none
      | .byte v _ => some (l ++ [v])
      | .mem => some (l ++ [s.laByte (paLa pa + i)])) (some [])

/-- Has the thread no store on its way to a word, those of the block itself left out (R201)? -/
def State.wordClear (s : State) (x : Site) (l : WLoc) (ref : W64) : Bool :=
  match l with
  | .mem dev la _ _ => (List.range 16).all fun i =>
      match s.byteSrc x.slot x.t x.b 0 (dev * 2 ^ 52 + la + i) with
      | .mem => true
      | .byte _ u => u.isSome
      | .wait => false
  | .pool _ _ =>
    let off := (refBase ref).toNat
    !((x.t.storesBefore x.b 0).any fun p => p.2.space == .spad && decide (p.2.va.toNat < off + 16) && decide (off < p.2.va.toNat + p.2.len))
    && x.t.tail.all fun y => !y.item.stores

/-- What a load-class form on a word meets before it reads (R181): a held range, a watchpoint, poison. -/
def State.wordFault (s : State) (x : Site) (l : WLoc) (ref : W64) : Option (Cause × W64) :=
  let c := slotCluster x.slot
  let va := refBase ref
  match l with
  | .mem dev la _ _ =>
    if s.rangeLocked c .mem x.t.sys.asid.toNat va.toNat 16 false then some (.rangeLock, ref)
    else match x.t.watch x.b true false va 16 with
      | some v => some (.watch, v)
      | none =>
        if la < 2 ^ 40 ∧ s.poisoned (la / 128) then some (.poison, ref)
        else if s.refuses c (dev * 2 ^ 45 + la / 128) then some (.timeout, ref)
        else none
  | .pool a _ =>
    if s.rangeLocked c .spad x.t.gid va.toNat 16 false then some (.rangeLock, ref)
    else if s.coh.poisonPool.contains (a / 8) ∨ s.coh.poisonPool.contains (a / 8 + 1) then some (.poison, ref) else none

/-- The bias and page gates of a word's line (R382, R389). -/
def State.wordGate (s : State) (x : Site) (l : WLoc) : Gate :=
  match l with
  | .mem _ la _ _ => if la < 2 ^ 40 then s.gate (la / 128) false (some (.load x.ref x.idx)) else .go
  | .pool _ _ => .go

/-- May a form read or wait at a word now: where the word's page is uncached, only from the oldest block, after the thread's older uncached
accesses (R263)? -/
def State.wordTurn (s : State) (x : Site) (lsid : Nat) (ps : List Piece) : Bool :=
  !(ps.any fun p => p.leaf.cmode == 3) || (x.t.isOldest x.b && !s.uncachedBefore x.slot x.t x.b lsid)

/-- The line of a word that is read at its home is allocated in the L2 as for any read (R285, R289). -/
def State.wordRead (s : State) (ps : List Piece) : State :=
  ps.foldl (fun s p => if paDev p.pa = s.dev ∧ paLa p.pa < 2 ^ 40 then s.allocate (paLa p.pa / 128) p.leaf.vc.toNat else s) s

/-- SREAD (R200): one field, read indivisibly. -/
def execSread (f : SyncField) (h : Hdr) (lsid : BitVec 5) (_ord : MOrd) (off : BitVec 22) (s : State) : Out :=
  fireMem h.pm (some h) lsid.toNat [0] (fun x s =>
    let ref := effAddr x.a.word off
    if !s.loadGate x.slot x.t x.b lsid.toNat then .wait
    else s.reachWord x false ref fun l ps =>
      if !s.wordTurn x lsid.toNat ps then .wait
      else
      let bytes := match l, s.group x.t.gid with
        | .mem dev la _ _, _ => s.wordMem x lsid.toNat (dev * 2 ^ 52 + la)
        | .pool _ _, some g =>
          let o := (refBase ref).toNat
          if x.t.spadOpaque x.b lsid.toNat o 16 then none
          else some ((List.range 16).map fun i => s.spadByte x.t x.b g lsid.toNat (o + i))
        | .pool _ _, none => none
      match bytes with
      | none => .wait
      | some bs =>
        match s.wordGate x l with
        | .wait => .wait
        | .act s' => .stay { s' with cur := none }
        | .go =>
          match s.wordFault x l ref with
          | some (c, v) => .fail c v
          | none => .go fun s =>
            let v := (SyncWord.ofNat (leNat bs)).field f
            let a := { wordAccess x lsid.toNat false ref ps with data := bs }
            let s := (s.wordRead ps).modBlock x.ref fun b => { (b.resolveLsid x.idx lsid.toNat .performed) with accs := b.accs ++ [a] }
            (((s.meetWord x.slot l).deliver x.ref h (.narrow v) (.narrow v))).loadDone x.ref x.idx a) s

/-- SWAIT and SWAIT.t (R201, R202): satisfied at once where its condition holds, else it waits at the home. -/
def execSwait (t : Bool) (h : Hdr) (lsid : BitVec 5) (_ord : MOrd) (off : BitVec 22) (s : State) : Out :=
  fireMem h.pm (some h) lsid.toNat [0, 1] (fun x s =>
    let ref := effAddr x.a.word off
    if !s.loadGate x.slot x.t x.b lsid.toNat then .wait
    else s.reachWord x false ref fun l ps =>
      if !s.wordTurn x lsid.toNat ps || !s.wordClear x l ref then .wait
      else
        match s.wordGate x l with
        | .wait => .wait
        | .act s' => .stay { s' with cur := none }
        | .go =>
          match s.wordFault x l ref with
          | some (c, v) => .fail c v
          | none => .go fun s =>
            let w := s.syncWord l
            let s := ((s.wordRead ps).markLoaded x.ref x.idx).modBlock x.ref fun b => { b with accs := b.accs ++ [wordAccess x lsid.toNat false ref ps] }
            if w.wakes x.b'.word.toNat then (s.meetWord x.slot l).swaitEnd x.ref x.idx h lsid.toNat t ref w
            else
              let s := s.modBlock x.ref fun b => b.modEntry x.idx fun e => { e with st := .waiting }
              { s with swaits := s.swaits ++
                  [{ b := x.ref, idx := x.idx, loc := l, gen := x.b'.word.setWidth 16, t := t, ref := ref : SWaiter }] }) s

/-- SYNC_WORD_ARRIVAL (R195): an arrival of n bytes at a word. -/
def execSyncWordArrival (w : WLoc) (n : Nat) (s : State) : Out := .next (s.arrive w n)

end Sys2Proof.Machine
end

