-- ==== Sys2Proof/Machine/Drain.lean ====
section
/-! DEFINITION. Committed stores on their way to their homes (06 R186 to R191, 08 R254 to R265, 14 R376, R381, R384, R387): the
draining of the store buffers, atomics and line operations at the home, pages of other modules, and the return of an atomic's old
value. Group registers as the members of a group see them (01 R23). -/

namespace Sys2Proof.Machine

/-! ### Group registers (R23) -/

/-- The q registers as a thread sees them: the values of writes of other members that it does not see yet are left out. -/
def Thread.qView (t : Thread) (q : List W64) : List W64 :=
  (List.range 16).map fun k => match t.qpend.find? (·.reg == k) with | some x => x.old | none => q.getD k 0

/-- The threads of a group. -/
def State.membersOf (s : State) (gid : Nat) : List Nat := (s.thr.filter fun p => p.2.gid == gid).map (·.1)

/-- A q register is written (R23): the writer sees it at once; every other member keeps the value it sees until a moment of its own, 2 clk
later on the same grid, 6 clk later elsewhere, or a free number of clk after that. -/
def State.writeQ (s : State) (slot n : Nat) (v : W64) : State :=
  match tget s.thr slot with
  | none => s
  | some t =>
    match s.group t.gid with
    | none => s
    | some g =>
      let old := g.q.getD n 0
      let s := (s.membersOf t.gid).foldl (fun s x =>
        if x = slot then s.modThread x fun y => { y with qpend := y.qpend.filter (·.reg != n) }
        else
          let d := s.draw
          let due := s.clk + if slotGrid x = slotGrid slot then 2 else 6
          d.2.modThread x fun y => { y with qpend := y.qpend ++ [⟨n, old, due, due + Config.freeNat d.1, slot, [], false⟩] }) s
      s.modGroup t.gid fun g => { g with q := g.q.set n v }

/-- A FENCE of a writer at cluster scope or wider: every member is bound to see what the writer has committed (R23, R190; log entry 53). -/
def State.fenceQ (s : State) (slot : Nat) : State :=
  { s with thr := tmap (fun t => { t with qpend := t.qpend.map fun p => if p.writer == slot then { p with must := true } else p }) s.thr }

/-- Is a thread bound to see a write of a q register that it cannot see yet? -/
def Thread.qHeld (t : Thread) (n clk : Nat) : Bool := t.qpend.any fun p => p.reg == n && p.must && decide (clk < p.due)

/-- How many of the pending writes of a q register a member sees: those up to the last one whose moment has come or that it is bound to
see. -/
def Thread.qSeen (t : Thread) (n clk : Nat) : Nat :=
  ((t.qpend.filter (·.reg == n)).zipIdx).foldl (fun m p => if p.1.must || decide (p.1.seen ≤ clk) then p.2 + 1 else m) 0

/-- The first `k` pending writes of a q register are seen. -/
def dropPend (n : Nat) : Nat → List QPend → List QPend
  | _, [] => []
  | k, p :: l => if p.reg == n && decide (0 < k) then dropPend n (k - 1) l else p :: dropPend n k l

/-- At a read of a q register a member sees the writes whose moments have come (R23). -/
def State.peekQ (s : State) (slot n : Nat) : State :=
  s.modThread slot fun t => { t with qpend := dropPend n (t.qSeen n s.clk) t.qpend }

/-- A register that a soft error has struck: the slot's own, or a q register of its group (R442). -/
def State.regPoison (s : State) (slot : Nat) (r : BitVec 7) : Bool :=
  !s.coh.poisonRegs.isEmpty && s.coh.poisonRegs.any fun x => x.2 == r && (x.1 == slot || (decide (0x30 ≤ r.toNat ∧ r.toNat < 0x40) &&
    (tget s.thr x.1).map (·.gid) == (tget s.thr slot).map (·.gid)))

/-- A register written outside the thread's blocks or at their commit: q registers are the group's. A written register has a new check
code (R442). -/
def State.writeReg (s : State) (slot : Nat) (r : BitVec 7) (tok : Token) : State :=
  let s := if s.regPoison slot r && tok != .null then
      { s with coh := { s.coh with poisonRegs := s.coh.poisonRegs.filter fun x =>
        !(x.2 == r && (x.1 == slot || decide (0x30 ≤ r.toNat ∧ r.toNat < 0x40))) } }
    else s
  match tok with
  | .narrow v =>
    if 0x30 ≤ r.toNat ∧ r.toNat < 0x40 then s.writeQ slot (r.toNat - 0x30) v
    else s.modThread slot fun t => { t with regs := t.regs.write r tok }
  | _ => s.modThread slot fun t => { t with regs := t.regs.write r tok }

/-! ### What an atomic computes (R187) -/

/-- The width of an atomic in bytes. -/
def DrainOp.bytes : DrainOp → Nat
  | .atomic w _ _ => widthBits w / 8
  | .cas w _ _ _ => widthBits w / 8
  | .fatom d _ _ => if d then 8 else 4
  | _ => 16

/-- ATOM's function of the old value and the operand. -/
def atomNew (op : AtomOp) (w old b : Nat) : Nat :=
  match op with
  | .add => (old + b) % 2 ^ w
  | .and => old &&& b
  | .or => old ||| b
  | .xor => old ^^^ b
  | .min => if sInt old w ≤ sInt b w then old else b
  | .max => if sInt b w ≤ sInt old w then old else b
  | .minu => Nat.min old b
  | .maxu => Nat.max old b

/-- FATOM's function: nearest-even, subnormals kept, no flag. -/
def fatomNew (op : FAtomOp) (d : Bool) (old b : Nat) : Nat :=
  let f := fmtD d
  let x := f.read false old
  let y := f.read false b
  let v := match op with
    | .fadd => (addVal .rne x y).1
    | .fmin => (minMaxVal false x y).1
    | .fmax => (minMaxVal true x y).1
  (f.round .rne false v).1

/-- The new value of an atomic. -/
def DrainOp.new (op : DrainOp) (old : Nat) : Nat :=
  let w := 8 * op.bytes
  match op with
  | .atomic _ f b => atomNew f w old (b.toNat % 2 ^ w)
  | .cas _ xchg b c => if xchg then b.toNat % 2 ^ w else if old = b.toNat % 2 ^ w then c.toNat % 2 ^ w else old
  | .fatom d f b => fatomNew f d old (b.toNat % 2 ^ w)
  | _ => old

/-- The code of an atomic in an ATOM message (Table 14-8: FN, ORD and width in one field; its bits are the model's, log entry 11). -/
def atomCode (op : DrainOp) (ord : MOrd) : Nat :=
  let o := match ord with | .plain => 0 | .acq => 1 | .rel => 2 | .acqRel => 3 | .acqSys => 4 | .relSys => 5 | .acqRelSys => 6
  let k := match op with
    | .atomic _ f _ => (match f with | .add => 0 | .and => 1 | .or => 2 | .xor => 3 | .min => 4 | .max => 5 | .minu => 6 | .maxu => 7)
    | .cas _ x _ _ => 16 + ofBool x
    | .fatom _ f _ => 32 + (match f with | .fadd => 0 | .fmin => 1 | .fmax => 2)
    | _ => 63
  k + 64 * ofBool (decide (op.bytes = 8)) + 256 * o

/-- The atomic that a message carries. -/
def atomOfCode (c : Nat) (b d : W64) : Option DrainOp :=
  let w := if c / 64 % 2 = 1 then Width.w64 else Width.w32
  let f := c % 64
  let ops : List AtomOp := [.add, .and, .or, .xor, .min, .max, .minu, .maxu]
  let fops : List FAtomOp := [.fadd, .fmin, .fmax]
  if f < 8 then (ops[f]?).map fun o => .atomic w o b
  else if f = 16 then some (.cas w false b d)
  else if f = 17 then some (.cas w true b d)
  else if 32 ≤ f ∧ f < 35 then (fops[f - 32]?).map fun o => .fatom (c / 64 % 2 == 1) o b
  else none

/-- The second operand of CAS. -/
def DrainOp.operands : DrainOp → W64 × W64
  | .atomic _ _ b => (b, 0)
  | .cas _ _ b c => (b, c)
  | .fatom _ _ b => (b, 0)
  | _ => (0, 0)

/-! ### A unit by lines -/

/-- The bytes of a unit with their global physical addresses. -/
def Unit.cells (u : Unit) : List (Nat × Byte) :=
  ((u.pieces.map fun p => (List.range p.len).map (p.pa + ·)).flatten).zip u.data

/-- The lines that a unit touches, by global physical line number, with the leaf of the piece. -/
def Unit.lines (u : Unit) : List (Nat × Leaf) :=
  u.pieces.foldl (fun l p =>
    (List.range ((p.pa % 128 + p.len + 127) / 128)).foldl (fun l i =>
      let k := p.pa / 128 + i
      if l.any (·.1 == k) then l else l ++ [(k, p.leaf)]) l) []

/-- The bytes of a unit in a line, by place. -/
def Unit.inLine (u : Unit) (key : Nat) : List (Nat × Byte) := (u.cells.filter (·.1 / 128 == key)).map fun c => (c.1 % 128, c.2)

/-- Bytes of one line written by this module, wherever its home is. -/
def State.writeLine (s : State) (die key : Nat) (vc : BitVec 6) (l : List (Nat × Byte)) (src : WrSrc) (who : ReqWho) : State :=
  if lineDev key = s.dev ∧ 2 ^ 41 ≤ lineLa key then s.windowStore (lineLa key + (l.map (·.1)).headD 0) (l.map (·.2))
  else s.writeRam die key vc l src who

/-! ### Line operations at their homes (R191, R387; Table 14-2) -/

/-- A poisoned line or page is zeroed and its poison cleared (R387). -/
def State.reclaimLine (s : State) (y vc : Nat) (src : WrSrc) : State :=
  let pg := y / 32
  let wipe (s : State) (k : Nat) : State :=
    ({ s with coh := { s.coh with poisonLines := s.coh.poisonLines.filter (· != k) } }).homeWrite k vc
      ((List.range 128).map fun i => (i, (0 : Byte))) src
  if s.coh.poisonPages.contains pg then
    (List.range 32).foldl (fun s i => wipe s (32 * pg + i)) { s with coh := { s.coh with poisonPages := s.coh.poisonPages.filter (· != pg) } }
  else wipe s y

/-- CLINE on one line of 128 bytes (R191): clean, inval, flush and reclaim. A .flush invalidates every L1 copy, on other dies too (log
entry 43). -/
def State.lineOp (s : State) (die key : Nat) (op : DrainOp) (vc : BitVec 6) (src : WrSrc) (who : ReqWho) : State :=
  let la := lineLa key
  let y := la / 128
  if lineDev key ≠ s.dev then
    -- a dirty line of an exclusive holder goes home in a WBD
    match op with
    | .clean => s.writeBack (peerKey key)
    | .inval => s.dropLoose key src.grid
    | .flush => (s.dropLoose key src.grid).dropLine (peerKey key)
    | .reclaim => s.peerWrite die key ((List.range 128).map fun i => (i, (0 : Byte))) who src true
    | _ => s
  else if la < 2 ^ 40 then
    match op with
    | .clean => s.writeBack y
    | .inval => s.probeDie y src.grid
    | .flush => (s.probeAll y none).dropLine y
    | .reclaim => s.reclaimLine y vc.toNat src
    | _ => s
  else if la < 2 ^ 41 then
    match op with
    | .reclaim => s.writeHost la (List.replicate 128 0) src
    | .clean => s
    | _ => s.dropLoose key src.grid
  else s

/-! ### Draining (R254, R255, R258, R260) -/

/-- The sync word that a unit operates on. -/
def Unit.word (u : Unit) : Option WLoc := u.pieces.head?.map fun p => .mem (paDev p.pa) (paLa p.pa) p.leaf.vc.toNat u.va

/-- What a drain unit does at the homes of its lines. An atomic only leaves the buffer; it performs as a step of its own. -/
def State.drainUnit (s : State) (g : Nat) (u : Unit) : State :=
  let die := gridDie g
  let src := WrSrc.thread g
  let who := ReqWho.unit u.uid
  match u.op with
  | .store => u.lines.foldl (fun s k => s.writeLine die k.1 k.2.vc (u.inLine k.1) src who) s
  | .zeroLine => u.lines.foldl (fun s k => s.writeLine die k.1 k.2.vc ((List.range 128).map fun i => (i, 0)) src who) s
  | .sarm ctl => (match u.word with | some w => (s.markWord u.slot w).sarmAt w ctl | none => s)
  | .sadd n => (match u.word with | some w => (s.markWord u.slot w).arrive w n | none => s)
  | .clean => u.lines.foldl (fun s k => s.lineOp die k.1 .clean k.2.vc src who) s
  | .inval => u.lines.foldl (fun s k => s.lineOp die k.1 .inval k.2.vc src who) s
  | .flush => u.lines.foldl (fun s k => s.lineOp die k.1 .flush k.2.vc src who) s
  | .reclaim => u.lines.foldl (fun s k => s.lineOp die k.1 .reclaim k.2.vc src who) s
  | .atomic _ _ _ => s
  | .cas _ _ _ _ => s
  | .fatom _ _ _ => s

/-- Must a unit wait for an older atomic of its grid or thread that has not performed? It does where the atomic is made visible in
entry order, its home being on the die (R255, R256, R258, R265), where both touch a line (R251), and where both are uncached accesses
of one thread to one home (R263). -/
def State.behindAtomic (s : State) (g : Nat) (u : Unit) : Bool :=
  s.coh.flying.any fun f =>
    f.u.op.isAtomic && !f.performed && decide (f.u.uid < u.uid) && (f.grid == g || f.u.slot == u.slot)
      && f.u.lines.any fun k =>
          (lineDev k.1 == s.dev && decide (lineLa k.1 < 2 ^ 40) && homeDie (lineLa k.1) == gridDie g)
            || u.lines.any fun j => j.1 == k.1
                || (f.u.slot == u.slot && k.2.cmode == 3 && j.2.cmode == 3 && lineDev j.1 == lineDev k.1)

/-- Is the unit held back by the order of its thread: an older unit of the slot in another buffer of its cluster (R258), a release code
before which a store or an atomic of the grid or the thread is under way, a scratchpad store stands behind a fence, or a store of a sibling
that the thread has read is not visible (R186, R261), an acquiring atomic not performed (R186), an older atomic, a fence that has not ended
(R262, R23), a WANT that has not left (R418)? -/
def State.unitHeld (s : State) (g : Nat) (u : Unit) : Bool :=
  let older := (List.range 4).any fun j =>
    let h := 4 * (g / 4) + j
    h != g && (s.grid h).sb.any fun v => v.slot == u.slot && decide (v.uid < u.uid)
  let flying := s.coh.flying.any fun f => (f.grid == g || f.u.slot == u.slot) && decide (f.u.uid < u.uid)
  let acq := s.coh.flying.any fun f => f.u.slot == u.slot && decide (f.u.uid < u.uid) && f.u.op.isAtomic && acquires f.u.ord && !f.performed
  let fence := match tget s.thr u.slot with
    | none => false
    | some t => t.tail.any fun x =>
        decide (x.order < u.uid) && (match x.item with
          | .fence _ _ => true
          | .eff e => (match e.ins with | .want _ _ _ _ _ => true | _ => false)
          | .spad _ => false)
  let before := match tget s.thr u.slot with
    | none => false
    | some t => (t.tail.any fun x => decide (x.order < u.uid) && x.item.stores) || !s.visible (t.sibReads.filter fun n => decide (n < u.uid))
  older || acq || fence || s.behindAtomic g u || (releases u.ord && (flying || before || !s.coh.awaits.isEmpty))

/-- The gates of a unit's lines; the probes of a CLINE.flush, which counts as no write, keep within their bound too (R379). -/
def State.unitGate (s : State) (die : Nat) (u : Unit) : Gate :=
  let keys := u.lines.map fun k => k.1
  let flush := if u.op == .flush then
      (keys.filter fun k => lineDev k == s.dev && decide (lineLa k < 2 ^ 40)).findSome? fun k =>
        match s.probeGate (lineLa k / 128) with
        | .go => none
        | g => some g
    else none
  match flush with
  | some g => g
  | none => s.gates die (!u.op.readOp) (some (.unit u.uid)) keys

/-- The pieces of a unit with their bytes. -/
def pieceData : List Piece → List Byte → List (Piece × List Byte)
  | [], _ => []
  | p :: l, d => (p, d.take p.len) :: pieceData l (d.drop p.len)

/-- A unit that keeps only some of its pieces. -/
def Unit.only (u : Unit) (keep : Piece → Bool) : Unit :=
  let l := (pieceData u.pieces u.data).filter fun x => keep x.1
  { u with pieces := l.map (·.1), data := (l.map (·.2)).flatten }

/-- The part of a store that becomes visible next, and what it leaves (R253): in the HBM of the module one of its pieces, in no order that
the spec gives; elsewhere what it has in one line. Every other unit goes in one. -/
def Unit.part (u : Unit) (dev clk : Nat) : Unit × Option Unit :=
  match u.op, u.pieces[clk % u.pieces.length]? with
  | .store, some p =>
    let mine (q : Piece) : Bool := if paDev p.pa = dev ∧ paLa p.pa < 2 ^ 40 then q == p else q.pa / 128 == p.pa / 128
    (u.only mine, if u.pieces.all mine then none else some (u.only fun q => !mine q))
  | _, _ => (u, none)

/-- Does an operation on a word find others that its home holds (R194)? -/
def State.wordBusy (s : State) (u : Unit) : Bool :=
  (match u.op with | .sarm _ => true | .sadd _ => true | _ => false) && (u.word.map s.wordHeld).getD false

/-- STORE_DRAIN (R253, R255, R258, R260): a part of the oldest unit of a grid's store buffer becomes visible at its home, or is sent to it;
the unit leaves with its last part. -/
def execStoreDrain (grid : Nat) (s : State) : Out :=
  match (s.grid grid).sb with
  | [] => .fault .noSuch
  | u :: rest =>
    if s.unitHeld grid u then .fault .notReady
    else if u.op.isAtomic then
      .next { s.modGrid grid (fun x => { x with sb := rest }) with
        coh := { s.coh with flying := s.coh.flying ++ [⟨u, grid, false, 0, false⟩] } }
    else
      match u.lines.find? fun k => s.refuses (gridCluster grid) k.1 with
      | some k => .next ((s.modGrid grid fun x => { x with sb := rest }).lostw (gridDie grid) (128 * k.1))
      | none =>
      let p := u.part s.dev s.clk
      if s.wordBusy u then .fault .notReady
      else
      match s.unitGate (gridDie grid) p.1 with
      | .wait => .fault .notReady
      | .act s' => .next s'
      | .go =>
        let s := (s.modGrid grid fun x => { x with sb := p.2.toList ++ rest }).drainUnit grid p.1
        .next (if p.2.isNone && s.asked (· == ReqWho.unit u.uid) then
          { s with coh := { s.coh with flying := s.coh.flying ++ [⟨p.1, grid, true, 0, false⟩] } }
        else s)

/-! ### Atomics (R187, R188, R265) -/

/-- The atomic under way has its result; one that acquires has done so (R265). -/
def State.atomDone (s : State) (uid : Nat) (old : Nat) (poisoned : Bool) : State :=
  let s := match s.coh.flying.find? fun f => f.u.uid == uid && acquires f.u.ord with
    | some f => s.acquire f.u.slot
    | none => s
  { s with coh := { s.coh with flying := s.coh.flying.map fun f =>
      if f.u.uid = uid then { f with performed := true, result := BitVec.ofNat 64 old, poisoned := poisoned } else f } }

/-- An atomic performs at its home on this module: read, update and write in one step. -/
def State.atomAt (s : State) (la vc : Nat) (op : DrainOp) (src : WrSrc) : State × Nat :=
  if la < 2 ^ 41 then
    let old := leNat (s.laBytes la op.bytes)
    let l := leBytes (op.new old) op.bytes
    (if la < 2 ^ 40 then s.writeLa la vc l src else s.writeHost la l src, old)
  else
    let r := s.windowLoad la op.bytes
    (r.1.windowStore la (leBytes (op.new (leNat r.2)) op.bytes), leNat r.2)

/-- ATOMIC_PERFORM (R187, R188, R265, Table 14-5): on a poisoned line or a page in host bias no update is made. -/
def execAtomicPerform (uid : Nat) (s : State) : Out :=
  match s.coh.flying.find? fun f => f.u.uid == uid && f.u.op.isAtomic && !f.performed with
  | none => .fault .noSuch
  | some f =>
    if s.behindAtomic f.grid f.u then .fault .notReady
    else
    match f.u.pieces with
    | [] => .fault .noSuch
    | p :: _ =>
      let la := paLa p.pa
      if paDev p.pa ≠ s.dev then
        if s.asked (· == ReqWho.unit uid) then .fault .notReady
        else
          let o := f.u.op.operands
          let w := 8 * f.u.op.bytes
          let beat : BitVec 128 := BitVec.ofNat 128
            ((if w = 32 then o.2.toNat % 2 ^ w * 2 ^ 48 else 0) + o.1.toNat % 2 ^ w * 65536 + atomCode f.u.op f.u.ord)
          .next ((s.dropLoose (keyOf p.pa) (some f.grid)).request (.unit uid) (linePort la) (paDev p.pa) 0x04 (BitVec.ofNat 16 (gridDie f.grid)) p.pa (BitVec.ofNat 64 la)
            (match f.u.op with | .cas .w64 _ _ _ => [beat, o.2.setWidth 128] | _ => [beat]))
      else if la < 2 ^ 40 then
        let y := la / 128
        let pg := y / 32
        if s.biasOf pg = .host ∨ s.poisoned y ∨ s.refuses (gridCluster f.grid) (keyOf p.pa) then .next (s.atomDone uid 0 true)
        else
          match s.lineGate (gridDie f.grid) (keyOf p.pa) true (some (.unit uid)) with
          | .wait => .fault .notReady
          | .act s' => .next s'
          | .go =>
            let r := s.atomAt la p.leaf.vc.toNat f.u.op (.thread f.grid)
            .next (r.1.atomDone uid r.2 false)
      else
        let r := s.atomAt la 0 f.u.op (.thread f.grid)
        .next (r.1.atomDone uid r.2 false)

/-- ATOMIC_RESULT (R188): the old value reaches its registers; a failure at the home gives 0 and the asynchronous POISON trap with
the address. -/
def execAtomicResult (uid : Nat) (s : State) : Out :=
  match s.coh.flying.find? fun f => f.u.uid == uid && f.u.op.isAtomic with
  | none => .fault .noSuch
  | some f =>
    if !f.performed then .fault .notReady
    else
      let s := { s with coh := { s.coh with flying := s.coh.flying.filter (·.u.uid != uid) } }
      let regs : List (BitVec 7) := match tget s.thr f.u.slot with
        | some t => (t.regWait.filter fun x => x.2 == uid).map fun x => x.1
        | none => []
      let v := if f.poisoned then 0 else f.result
      let s := regs.foldl (fun (s : State) r => s.writeReg f.u.slot r (.narrow v)) s
      let s := s.modThread f.u.slot fun t => { t with regWait := t.regWait.filter (·.2 != uid) }
      .next (if f.poisoned then s.raisePoison f.u.slot f.u.va else s)

end Sys2Proof.Machine
end

