-- ==== Sys2Proof/Machine/MapCheck.lean ====
section
/-! DEFINITION. The map-time check (02 R51 to R71, Table 2-13): a block image checked bit by bit, in order, to its first failure. -/

namespace Sys2Proof.Machine

/-! ### The header (Tables 2-1, 2-2) -/

def h0Format (h : W64) : Nat := bitsOf h.toNat 63 56
def h0Ninst (h : W64) : Nat := bitsOf h.toNat 55 49
def h0Nread (h : W64) : Nat := bitsOf h.toNat 48 44
def h0Nwrite (h : W64) : Nat := bitsOf h.toNat 43 39
def h0Smask (h : W64) : Nat := h.toNat % 2 ^ 24
def h1Priv (h : W64) : Bool := h.getLsbD 12
def h1Nexit (h : W64) : Nat := bitsOf h.toNat 11 9
def h1Img (h : W64) : BitVec 6 := h.extractLsb' 3 6
def h1Shape (h : W64) : Nat := bitsOf h.toNat 2 1
def h1Res (h : W64) : Bool := h.getLsbD 0

/-- Are FORMAT and the counts in range (check code 0x01)? -/
def h0Ok (h : W64) : Bool := h0Format h == 0xB7 && h0Ninst h < 120 && h0Nread h < 25 && h0Nwrite h < 25

/-- L of R51: the length of an image by its header; of a malformed one only the header is there. -/
def imageBytes (h : W64) : Nat :=
  if h0Ok h then 64 + 8 * ((h0Nread h + 1) / 2) + 8 * ((h0Nwrite h + 3) / 4) + 8 * (h0Ninst h + 1) else 64

/-- A failure of the check: its code, cause, place and TVAL. -/
structure MapFail where
  code : Nat
  cause : Cause
  locus : Locus
  tval : W64

/-- The trap that a failure makes. -/
def MapFail.trap (f : MapFail) : Trap := ⟨f.cause, f.tval, tinfo f.locus 0 0 f.code false⟩

/-- What the check needs to know of its thread: is it fused, supervisor, owner of its group; how many wide registers it has. -/
structure MapFor where
  fused : Bool
  sup : Bool
  owner : Bool
  wides : Nat

/-- The first failure of a list. -/
def firstFail (l : List (Option MapFail)) : Option MapFail := l.findSome? id

/-- The header's checks in order. -/
def headerFail (m : MapFor) (b : Block) : Option MapFail :=
  let w (i : Nat) : W64 := b.image.getD i 0
  let h0 := w 0
  let h1 := w 1
  let rsv (i : Nat) : Bool :=
    match i with
    | 0 => bitsOf h0.toNat 38 24 != 0
    | 1 => bitsOf h1.toNat 63 13 != 0
    | _ => w i != 0
  let fail (c : Bool) (code : Nat) (cause : Cause) (v : W64) : Option MapFail := if c then some ⟨code, cause, .none, v⟩ else none
  let img := h1Img h1
  let tag : Option W64 :=
    if img = 0 then none
    else if img ≠ b.img then some b.addr
    else match b.page2 with
      | some (va, t) => if img ≠ t then some va else none
      | none => none
  firstFail [
    fail (!h0Ok h0) 0x01 .illegalWord h0,
    ((List.range 8).find? rsv).map fun i => ⟨0x02, .illegalWord, .none, w i⟩,
    fail (h1Shape h1 == 3 || (h1Res h1 && h1Shape h1 == 2)) 0x03 .illegalWord h1,
    fail ((h1Shape h1 == 1 && m.fused) || (h1Shape h1 == 2 && !m.fused)) 0x04 .illegalWord h1,
    tag.map fun va => ⟨0x05, .imageTag, .none, va⟩,
    fail (h1Priv h1 && !m.sup) 0x06 .priv h1]

/-! ### Tables -/

/-- The 32 bits of a read-table unit, the 16 bits of a write-table unit. -/
def Block.readUnit (b : Block) (e : Nat) : BitVec 32 := (b.image.getD (8 + e / 2) 0).extractLsb' (32 * (e % 2)) 32
def Block.writeUnit (b : Block) (nr w : Nat) : BitVec 16 :=
  (b.image.getD (8 + (nr + 1) / 2 + w / 4) 0).extractLsb' (16 * (w % 4)) 16
def Block.body (b : Block) : List W64 :=
  let h := b.image.getD 0 0
  (b.image.drop (8 + (h0Nread h + 1) / 2 + (h0Nwrite h + 3) / 4)).take (h0Ninst h + 1)

/-- A register id that exists for a thread (Table 2-5, R19). -/
def regOk (wides : Nat) (r : Nat) : Bool :=
  r < 0x18 || (0x20 ≤ r && r < 0x20 + wides) || (0x30 ≤ r && r < 0x50)

/-- R58, R59: a target that is malformed in a block, given what the block holds and the instruction that names it. -/
def targetBad (body : List W64) (nw : Nat) (self : Option Nat) (t : BitVec 10) : Bool :=
  let k := t.toNat / 128
  let i := t.toNat % 128
  match k with
  | 0 => i != 0
  | 5 => decide (nw ≤ i)
  | 6 => true
  | 7 => true
  | _ =>
    match body[i]? with
    | none => true
    | some w =>
      let f := fieldsOf w
      self == some i || (if k = 4 then f.pm == 0 else !f.hasOperand (k - 1))

/-- The read table, entries in ascending order, then its padding. -/
def readFail (m : MapFor) (b : Block) : Option MapFail :=
  let h := b.image.getD 0 0
  let nr := h0Nread h
  let body := b.body
  let at_ (code e : Nat) : MapFail := ⟨code, .illegalWord, ⟨1, 0xFF, 0x1F, e⟩, (b.readUnit e).setWidth 64⟩
  let entry (e : Nat) : Option MapFail :=
    let u := b.readUnit e
    if !regOk m.wides (u.toNat / 2 ^ 25) || u.toNat % 32 != 0 then some (at_ 0x10 e)
    else if targetBad body (h0Nwrite h) none (u.extractLsb' 15 10) || targetBad body (h0Nwrite h) none (u.extractLsb' 5 10) then some (at_ 0x11 e)
    else none
  (firstFail ((List.range nr).map entry)).orElse fun _ =>
    if nr % 2 = 1 && b.readUnit nr != 0 then some (at_ 0x10 nr) else none

/-- The write table, entries in ascending order, then its padding. -/
def writeFail (m : MapFor) (b : Block) : Option MapFail :=
  let h := b.image.getD 0 0
  let nr := h0Nread h
  let nw := h0Nwrite h
  let reg (w : Nat) : Nat := (b.writeUnit nr w).toNat / 512
  let at_ (code : Nat) (c : Cause) (w : Nat) : MapFail := ⟨code, c, .slot w, (b.writeUnit nr w).setWidth 64⟩
  let entry (w : Nat) : Option MapFail :=
    if !regOk m.wides (reg w) || (b.writeUnit nr w).toNat % 512 != 0 || (List.range w).any fun v => reg v == reg w then
      some (at_ 0x12 .illegalWord w)
    else if 0x30 ≤ reg w && reg w < 0x40 && !(m.sup || m.owner) then some (at_ 0x13 .priv w)
    else none
  let pads := (List.range ((4 - nw % 4) % 4)).map (nw + ·)
  (firstFail ((List.range nw).map entry)).orElse fun _ => (pads.find? fun w => b.writeUnit nr w != 0).map (at_ 0x12 .illegalWord)

/-! ### The body -/

/-- A body word: OP, PM, FN, T0, T1, the X fields, placement, privilege, residence. -/
def wordFail (m : MapFor) (b : Block) (body : List W64) (i : Nat) (w : W64) : Option MapFail :=
  let h := b.image.getD 0 0
  let h1 := b.image.getD 1 0
  let f := fieldsOf w
  let d := decode w
  let at_ (code : Nat) (c : Cause) (l : Option Nat) : Option MapFail := some ⟨code, c, .ins i l, w⟩
  let bad (code : Nat) : Option MapFail := at_ code .illegalWord (wordLsid f)
  match d with
  | .error .reservedOp => at_ 0x20 .illegalWord none
  | .error .reservedPm => bad 0x21
  | .error .reservedFn => at_ 0x22 .illegalWord none
  | _ =>
    if targetBad body (h0Nwrite h) (some i) f.t0 || targetBad body (h0Nwrite h) (some i) f.t1 then bad 0x23
    else
      let exits := (0x05 ≤ f.op.toNat && f.op.toNat ≤ 0x08) || f.op == 0x0A
      match d with
      | .error .malformedTarget => bad 0x23
      | _ =>
        if exits && h1Nexit h1 < f.x.toNat / 2 ^ 27 then bad 0x26
        else
          match d with
          | .error e => bad e.code
          | .ok ins =>
            if !(nodeClassOf f.op.toNat).fits (nodeOf i) then at_ 0x27 .placement (wordLsid f)
            else if ins.privileged && !(h1Priv h1 && m.sup) then at_ 0x28 .priv (wordLsid f)
            else if ins.stream && !h1Res h1 then bad 0x29
            else none

/-- The words in ascending index. -/
def bodyFail (m : MapFor) (b : Block) : Option MapFail :=
  let body := b.body
  firstFail (body.zipIdx.map fun p => wordFail m b body p.2 p.1)

/-- The conditions on the whole block (R54, R69, R70). -/
def wholeFail (b : Block) : Option MapFail :=
  let h := b.image.getD 0 0
  let body := b.body
  let fail (c : Bool) (code : Nat) : Option MapFail := if c then some ⟨code, .illegalWord, .none, 0⟩ else none
  let named (w : Nat) : Bool :=
    let c := BitVec.ofNat 10 (5 * 128 + w)
    ((List.range (h0Nread h)).any fun e => (b.readUnit e).extractLsb' 15 10 == c || (b.readUnit e).extractLsb' 5 10 == c)
      || body.any fun x => (fieldsOf x).t0 == c || (fieldsOf x).t1 == c
  let forms := body.filterMap fun w =>
    match decode w with
    | .ok i => i.lsid.map fun l => (l.1, l.2, (fieldsOf w).pm)
    | .error _ => none
  let smask (l : Nat) : Bool := (h0Smask h).testBit l
  let lsidBad :=
    (forms.any fun x => smask x.1 != (x.2.1 == .store))
      || ((List.range 24).any fun l => smask l && !(forms.any fun x => x.1 == l))
      || forms.zipIdx.any fun p => forms.zipIdx.any fun q =>
          decide (p.2 < q.2) && p.1.1 == q.1.1 && (p.1.2.2 == 0 || q.1.2.2 == 0 || p.1.2.1 != q.1.2.1)
  let exits := body.any fun w => match decode w with | .ok i => i.exit | .error _ => false
  firstFail [
    fail ((List.range (h0Nwrite h)).any fun w => !named w) 0x30,
    fail lsidBad 0x31,
    fail (!exits) 0x32]

/-- The map-time check (R71). -/
def mapFail (m : MapFor) (b : Block) : Option MapFail :=
  (headerFail m b).orElse fun _ => (readFail m b).orElse fun _ => (writeFail m b).orElse fun _ =>
    (bodyFail m b).orElse fun _ => wholeFail b

/-! ### A mapped block -/

/-- A target by its 10 bits. -/
def targetOf (t : BitVec 10) : Target :=
  match decTarget t with
  | .ok x => x
  | .error _ => .none

/-- An entry that has received nothing. -/
def Entry.fresh (w : W64) : Entry := { word := w, a := none, b := none, c := none, p := none, st := .idle, first := 0, last := 0 }

/-- A block of a well-formed image, nothing of it read or fired yet. -/
def Block.mapped (b : Block) : Block :=
  let h := b.image.getD 0 0
  { b with
    resident := h1Res (b.image.getD 1 0)
    reads := (List.range (h0Nread h)).map fun e =>
      let u := b.readUnit e
      { reg := u.extractLsb' 25 7, t0 := targetOf (u.extractLsb' 15 10), t1 := targetOf (u.extractLsb' 5 10), done := false : ReadEnt }
    writes := (List.range (h0Nwrite h)).map fun w =>
      { reg := (b.writeUnit (h0Nread h) w).extractLsb' 9 7, tok := none, atomic := false : WSlot }
    entries := b.body.map Entry.fresh
    exit := none, held := [], accs := [], effs := [], lsids := [], flags := 0, fp := none, quiesced := false }

end Sys2Proof.Machine
end

