-- ==== Sys2Proof/Machine/Frames.lean ====
section
/-! DEFINITION. Frames (01 R30 to R49, 12 R340 to R344): which block a thread fetches next, the fetch of an image, entry into FIRE,
forwarding of registers, iterations of resident blocks, quiescence. -/

namespace Sys2Proof.Machine

/-! ### FIRE entry and forwarding (R20, R53, R83, R104) -/

/-- The value of a register that a block reads, if it is there: from the write slots of older blocks, or as committed; a register
that awaits an atomic is awaited (R188). -/
def State.regFor (s : State) (slot : Nat) (t : Thread) (b : Block) (r : BitVec 7) : Option (State × Token) :=
  if !t.olderMapped b then none
  else
    match forwardFrom r (t.older b).reverse with
    | .wait => none
    | .got tok => some (s, tok)
    | .committed =>
      let n := r.toNat
      if (t.regWait.any fun x => x.1 == r) || (0x30 ≤ n && n < 0x40 && t.qHeld (n - 0x30) s.clk) then none
      else
        let s := if 0x30 ≤ n ∧ n < 0x40 then s.peekQ slot (n - 0x30) else s
        let q := match s.group t.gid with
          | some g => ((tget s.thr slot).getD t).qView g.q
          | none => []
        some (s, t.readReg q r)

/-- May an older block still write FPCSR? -/
def Block.setsFpcsr (b : Block) : Bool :=
  b.forms.any fun f => match f.2.2 with | .mtsr _ c => c == 0x001 && f.2.1.st != .absorbed | _ => false

/-- RM and FTZ of a committed FPCSR (Table 4-3). -/
def fpOf (v : BitVec 32) : BitVec 3 := v.extractLsb' 10 3

/-- Is a register that a block reads from the register file struck by a soft error (R442)? -/
def State.readsPoison (s : State) (slot : Nat) (t : Thread) (b : Block) (r : BitVec 7) : Bool :=
  s.regPoison slot r && (match forwardFrom r (t.older b).reverse with | .committed => true | _ => false)

/-- The POISON of a block that reads such a register, with the read entry as its locus (R442, Table 7-12). -/
def Block.regTrap (b : Block) (r : BitVec 7) (e : Nat) : Trap :=
  ⟨.poison, BitVec.ofNat 64 (2 ^ 63 + r.toNat), tinfo ⟨1, 0xFF, 0x1F, e⟩ b.itag 0 0 false⟩

/-- One read entry delivers its value if it is there. -/
def State.readOne (s : State) (r : BRef) (e : Nat) : State :=
  match s.block r with
  | none => s
  | some (t, b) =>
    match b.reads[e]? with
    | none => s
    | some x =>
      if x.done then s
      else
        match s.regFor r.slot t b x.reg with
        | none => s
        | some (s, tok) =>
          if s.readsPoison r.slot t b x.reg then
            s.modBlock r fun b => ({ b with reads := b.reads.modify e fun x => { x with done := true } }).hold .fire 127 (b.regTrap x.reg e)
          else
          ((s.modBlock r fun b => { b with reads := b.reads.modify e fun x => { x with done := true } }).deliver1 r x.t0 tok).deliver1 r x.t1 tok

/-- One ARG reads its q register if it can (R83). -/
def State.argOne (s : State) (r : BRef) (i : Nat) (q : BitVec 4) : State :=
  match s.block r with
  | none => s
  | some (t, b) =>
    match s.regFor r.slot t b (BitVec.ofNat 7 (0x30 + q.toNat)) with
    | none => s
    | some (s, tok) =>
      let reg := BitVec.ofNat 7 (0x30 + q.toNat)
      if s.readsPoison r.slot t b reg then
        s.modBlock r fun b =>
          (b.modEntry i fun e => { e with st := .fired }).hold .fire i (b.insTrap .poison (BitVec.ofNat 64 (2 ^ 63 + reg.toNat)) i none)
      else s.modBlock r fun b => b.modEntry i fun e => { e with a := some tok }

/-- The ARG forms of a block that have not read their register. -/
def Block.args (b : Block) : List (Nat × BitVec 4) :=
  b.forms.filterMap fun f =>
    match f.2.2 with
    | .arg _ q => if f.2.1.st == .idle && f.2.1.a.isNone then some (f.1, q) else none
    | _ => none

/-- The read table and the ARG forms of a block take the values that are there, and the block its rounding and FTZ (R104). -/
def State.takeReads (s : State) (r : BRef) : State :=
  match s.block r with
  | none => s
  | some (t, b) =>
    let s := if b.fp.isNone && t.olderMapped b && !((t.older b).any Block.setsFpcsr) then
        s.modBlock r fun b => { b with fp := some (fpOf t.sys.fpcsr) }
      else s
    let s := (List.range b.reads.length).foldl (fun s e => s.readOne r e) s
    b.args.foldl (fun s a => s.argOne r a.1 a.2) s

/-- Is something awaited that a block takes from older ones? -/
def Block.awaits (b : Block) : Bool := b.reads.any (fun x => !x.done) || !b.args.isEmpty || b.fp.isNone

/-- Does the block write a register that the accesses of later blocks depend on: PTBASE, ASID, watchpoints and breakpoints? Its
successor is fetched after its commit (R301). -/
def Block.steersLater (b : Block) : Bool :=
  b.forms.any fun f => match f.2.2 with | .mtsr _ c => decide (0x020 ≤ c.toNat) && decide (c.toNat ≤ 0x057) && !(decide (0x030 ≤ c.toNat) && decide (c.toNat < 0x040)) && f.2.1.st != .absorbed | _ => false

/-- The next iteration of a resident block, as its frame starts it (R44, R45). -/
def Block.nextIter (b : Block) : Block :=
  { b.mapped with ic := b.ic + 1, state := .fire, later := true, left := none, marked := false, reserved := false }

/-- May the youngest iteration of a resident block be followed by another (R44: four in flight, after its self-exit; R301: after the commit
of one that writes PTBASE or ASID)? -/
def Thread.mayIterate (t : Thread) (b : Block) : Bool :=
  b.resident && b.held.isEmpty && !b.steersLater
    && (match t.blocks.getLast? with | some y => y.seq == b.seq && y.ic == b.ic | none => false)
    && (match b.exit with | some e => e.addr == b.addr && !e.halt | none => false)
    && decide ((t.blocks.filter fun x => x.seq == b.seq).length < 4)

/-- REGISTER_FORWARD (R20, R45): a block takes the values that have become available; an iteration whose self-exit has fired is
followed by the next. -/
def execRegisterForward (b : BRef) (s : State) : Out :=
  match s.block b with
  | none => .fault .noSuch
  | some (t, x) =>
    if t.mayIterate x then
      let y := x.nextIter
      .next ((s.modThread b.slot fun t => { t with blocks := t.blocks ++ [y] }).takeReads ⟨b.slot, y.seq, y.ic⟩)
    else if x.state ≠ .fire then .fault .notReady
    else
      let s' := s.takeReads b
      match s'.block b with
      | none => .fault .noSuch
      | some (_, y) => if y.reads = x.reads ∧ y.args = x.args ∧ y.fp = x.fp then .fault .notReady else .next s'

/-! ### The next-block predictor (R341) -/

/-- R86: the address of BR, CALL and HALT. -/
def exitAddr (b : Block) (off : BitVec 27) : W64 := b.addr + 64 * off.signExtend 64

/-- The length of the image of a block in bytes (R51). -/
def Block.imageLen (b : Block) : Nat :=
  64 + 8 * ((b.reads.length + 1) / 2) + 8 * ((b.writes.length + 3) / 4) + 8 * b.entries.length

/-- R89: the address of the block image that follows. -/
def returnAddr (b : Block) : W64 := b.addr + BitVec.ofNat 64 (64 * ((b.imageLen + 63) / 64))

/-- The exit number of an exit's word (R63). -/
def exitNo (w : W64) : Nat := (fieldsOf w).x.toNat / 2 ^ 27

/-- The exits of a block: exit number and form. -/
def Block.exitForms (b : Block) : List (Nat × Instr) :=
  b.forms.filterMap fun f => if f.2.2.exit then some (exitNo f.2.1.word, f.2.2) else none

/-- The history of exits and the return stack of a slot on a grid. -/
def Predictor.histOf (p : Predictor) (slot : Nat) : BitVec 12 := (tget p.hist (slotInGrid slot)).getD 0
def Predictor.stackOf (p : Predictor) (slot : Nat) : List W64 := (tget p.stack (slotInGrid slot)).getD []

/-- The places of a block in the exit table of 4,096 entries and in the table of 1,024 indirect targets. -/
def exitPlace (addr : W64) (h : BitVec 12) : Nat := Config.exitHash addr.toNat h.toNat % 4096
def targetPlace (addr : W64) : Nat := Config.targetHash addr.toNat % 1024

/-- Where the predictor of a slot takes an exit of a block to go: BR and CALL by their OFF, BRI by the table of targets, RET by the return
stack; HALT like BR, and its OFF is 0 (Table 2-12). -/
def Predictor.target (p : Predictor) (slot : Nat) (b : Block) : Instr → Option W64
  | .br _ _ off => some (exitAddr b off)
  | .call _ _ off => some (exitAddr b off)
  | .bri _ _ => tget p.targets (targetPlace b.addr)
  | .ret _ _ => (p.stackOf slot).head?
  | .halt _ _ => some (exitAddr b 0)
  | _ => none

/-- The predicted successor of a mapped block: by the exit that its exit-table entry names, else by its first. The shadow plane of a
resident block takes the successor at another address (R47). -/
def Predictor.predict (p : Predictor) (slot : Nat) (b : Block) : Option W64 :=
  let l := b.exitForms.filter fun x => !(b.resident && p.target slot b x.2 == some b.addr)
  let n := (tget p.exits (exitPlace b.addr (p.histOf slot))).getD 0
  ((l.find? fun x => x.1 == n).orElse fun _ => l.head?).bind fun x => p.target slot b x.2

/-- What a committed exit teaches the predictor (R341): its number and its slot's history, to which the number is shifted in from below (the
rule says only that a history of 12 bits is kept: log entry 15); the target of a BRI; CALL pushes the return address on a stack of 16,
RET pops. -/
def Predictor.learn (p : Predictor) (slot : Nat) (b : Block) (x : FiredExit) : Predictor :=
  match b.entries[x.idx]? with
  | none => p
  | some e =>
    let n := exitNo e.word
    let h := p.histOf slot
    let q := { p with exits := tput p.exits (exitPlace b.addr h) n
                      hist := tput p.hist (slotInGrid slot) ((h <<< 3) ||| BitVec.ofNat 12 n) }
    match decode e.word with
    | .ok (.bri _ _) => { q with targets := tput q.targets (targetPlace b.addr) x.addr }
    | .ok (.call _ _ _) => { q with stack := tput q.stack (slotInGrid slot) ((returnAddr b :: q.stackOf slot).take 16) }
    | .ok (.ret _ _) => { q with stack := tput q.stack (slotInGrid slot) ((q.stackOf slot).drop 1) }
    | _ => q

/-! ### Which block comes next (R341, R342, R47) -/

/-- Does a fence hold back the fetches of the thread (R280)? -/
def Thread.fetchHeld (t : Thread) : Bool :=
  t.tail.any fun x => match x.item with
    | .fence k sc => (k == .full || k == .ss) && (sc == .die || sc == .device || sc == .sys)
    | _ => false

/-- The block that a thread may fetch next: its address, whether it is a redirection, whether it goes to the shadow plane. A block asks for
its predicted successor once, as its words have come, and for the one that its exit names where that is another (R341, R342). -/
def Thread.wanted (t : Thread) : Option (W64 × Bool × Bool) :=
  if t.ending || t.saving || t.asleep || t.boundary || t.fetchHeld then none
  else
    match t.blocks.getLast? with
    | none => some (t.pc, true, false)
    | some b =>
      let m := if b.state = .map then b.mapped else b
      if b.state = .fetch ∨ (b.state = .map ∧ (m.resident ∨ !b.held.isEmpty)) ∨ m.steersLater then none
      else if m.resident then
        if t.shadow.isNone then b.pred.map fun a => (a, false, true) else none
      else if b.asked then none
      else
        match b.exit with
        | some e => if e.halt then none else some (e.addr, b.pred != some e.addr, false)
        | none => b.pred.map fun a => (a, false, false)

/-- The frames that a thread holds on a grid (R37): one for each block in flight there, however many iterations it has. -/
def Thread.framesOn (t : Thread) (slot g : Nat) : Nat :=
  (((t.blocks.filter fun b => blockGrid slot t b == g).map (·.seq)).eraseDups).length
def Thread.uses (t : Thread) (slot g : Nat) : Bool := if t.sys.fused then slotGrid slot / 4 == g / 4 else slotGrid slot == g
/-- The frames of a grid that are granted. -/
def State.framesHeld (s : State) (g : Nat) : Nat := (s.thr.map fun p => p.2.framesOn p.1 g).sum
/-- The frames of a grid that are granted or kept for an active slot, which holds one at all times. -/
def State.framesUsed (s : State) (g : Nat) : Nat :=
  (s.thr.map fun p => if p.2.uses p.1 g then max 1 (p.2.framesOn p.1 g) else 0).sum

/-- A frame that starts to fetch an address. -/
def Thread.newFrame (t : Thread) (addr : W64) : Block :=
  { seq := t.nextSeq, addr := addr, ic := t.ic, pos := t.nextPos, state := .fetch, image := [], img := 0, page2 := none
    resident := false, later := false, left := none, reads := [], writes := [], entries := [], exit := none, held := []
    accs := [], effs := [], lsids := [], flags := 0, fp := none, quiesced := false
    marked := t.blocks.isEmpty && t.dbgMark == some addr, pred := none, asked := false, reserved := false }

/-- Has the first block of a thread's group been asked for (R328)? -/
def State.groupStarted (s : State) (gid : Nat) : Bool := match s.group gid with | some g => g.started | none => false

/-- Does a thread call for a frame of a grid (R37)? None is granted on a frozen one (R409). -/
def State.callsFrame (s : State) (slot : Nat) (t : Thread) (g : Nat) : Bool :=
  match t.wanted with
  | some (a, _, false) =>
    let n := t.framesOn slot g
    blockGrid slot t (t.newFrame a) == g && decide (n < 8) && s.groupStarted t.gid && !(s.grid g).dbg.frozen
  | _ => false

/-- The place of a slot in the rotating order of a clk, which begins at slot clk mod 8 (R37, R38). -/
def State.turnOf (s : State) (slot : Nat) : Nat := (slotInGrid slot + 8 - s.clk % 8) % 8

/-- Does one waiting thread of a grid come before another (R37): it has waited longer, or as long and is earlier in the rotating order? -/
def State.waitsBefore (s : State) (a b : Nat × Thread) : Bool :=
  let x := a.2.frameWait.getD s.clk
  let y := b.2.frameWait.getD s.clk
  decide (x < y) || (x == y && decide (s.turnOf a.1 < s.turnOf b.1))

/-- May a thread be granted a frame on a grid of 16 (R37): the first one of its slot, or in its turn one of the pool? -/
def State.frameFree (s : State) (slot : Nat) (t : Thread) (g : Nat) : Bool :=
  let n := t.framesOn slot g
  if n = 0 then decide (s.framesHeld g < 16)
  else decide (n < 8) && decide (s.framesUsed g < 16)
    && !(s.thr.any fun p => p.1 != slot && s.callsFrame p.1 p.2 g && s.waitsBefore p (slot, t))

/-- A frame is granted, or the shadow plane taken; the fetch is shaved. -/
def State.grant (s : State) (slot : Nat) (t : Thread) (addr : W64) (redirected shadow : Bool) : State :=
  let d := s.draw
  let b := t.newFrame addr
  let s := d.2.modThread slot fun t =>
    if shadow then { t with shadow := some b, nextSeq := t.nextSeq + 1 }
    else
      { t with blocks := (t.blocks.zipIdx.map fun p => if p.2 + 1 = t.blocks.length then { p.1 with asked := true } else p.1) ++ [b]
               nextSeq := t.nextSeq + 1, nextPos := t.nextPos + 1, frameWait := none }
  s.shave (slotCluster slot) 0x02 slot (blockTag slot b) (ofBool redirected) addr (BitVec.ofNat 64 (Config.freeNat d.1 % 16))

/-! ### The fetch of an image (R279, R304, R340) -/

/-- What the bytes of code come to. -/
inductive Code where
  | bytes (l : List Byte)
  /-- 64-byte lines that have not come, by number -/
  | missing (l : List (Nat × Leaf))
  /-- the first byte that failed -/
  | failed (c : Cause) (i : Nat)

/-- One byte of code: the block cache, a fill that has ended, or the home of an uncached page. -/
def State.codeByte (s : State) (slot : Nat) (addr : W64) (p : Piece) (a : Nat) : Byte ⊕ Option Cause :=
  let c := slotCluster slot
  if p.leaf.cmode = 3 ∧ paDev a = s.dev then
    if paLa a < 2 ^ 40 ∧ s.poisoned (paLa a / 128) then .inr (some .poison)
    else if paLa a < 2 ^ 41 then .inl (s.laByte (paLa a)) else .inl (s.windowByte (paLa a))
  else
    match s.coh.bc.find? fun x => x.cl == c && x.line == a / 64 with
    | some x => .inl (x.data.extractLsb' (8 * (a % 64)) 8)
    | none =>
      match s.fillDone c (keyOf a) (.fetch slot addr) with
      | some f =>
        if f.poisoned then .inr (some .poison)
        else if f.failed then .inr (some .timeout)
        else .inl ((f.data.getD 0).extractLsb' (8 * (a % 128)) 8)
      | none => .inr none

/-- The bytes of pieces of code. -/
def State.codeBytes (s : State) (slot : Nat) (addr : W64) (ps : List Piece) : Code :=
  let cells := (ps.map fun p => (List.range p.len).map fun i => (p, p.pa + i)).flatten
  cells.zipIdx.foldl (fun acc x =>
    match acc with
    | .failed _ _ => acc
    | .missing l =>
      (match s.codeByte slot addr x.1.1 x.1.2 with
      | .inr none => if l.any fun y => y.1 == x.1.2 / 64 then acc else .missing (l ++ [(x.1.2 / 64, x.1.1.leaf)])
      | .inr (some c) => .failed c x.2
      | .inl _ => acc)
    | .bytes l =>
      (match s.codeByte slot addr x.1.1 x.1.2 with
      | .inr none => .missing [(x.1.2 / 64, x.1.1.leaf)]
      | .inr (some c) => .failed c x.2
      | .inl v => .bytes (l ++ [v]))) (.bytes [])

/-- Does a fetch wait for a walk? -/
def State.fetchWalking (s : State) (slot : Nat) (addr : W64) : Bool :=
  s.coh.walks.any fun w => match w.who with | .fetch x a => x == slot && a == addr | _ => false

/-- The lines of this device that uncached code pieces touch in HBM (R279). -/
def State.codeLines (s : State) (ps : List Piece) : List Nat :=
  ((ps.filter fun p => p.leaf.cmode == 3 && paDev p.pa == s.dev && decide (paLa p.pa < 2 ^ 40)).flatMap Piece.keys).eraseDups

/-- The homes of uncached code have been read: a miss allocates (R285, Table 9-7), host memory is asked through its port. -/
def State.codeRead (s : State) (ps : List Piece) : State :=
  (ps.filter fun p => p.leaf.cmode == 3 && paDev p.pa == s.dev).foldl (fun s p =>
    let la := paLa p.pa
    if la < 2 ^ 40 then p.keys.foldl (fun s k => s.allocate (lineLa k / 128) p.leaf.vc.toNat) s
    else if la < 2 ^ 41 then s.tellHost 0 (.d2hRead la false) else s) s

/-- Words of bytes. -/
def words64 (l : List Byte) : List W64 := (List.range (l.length / 8)).map fun i => BitVec.ofNat 64 (leNat ((l.drop (8 * i)).take 8))

/-- Bytes of an image are read: the rest of the fetch, or what it waits for. -/
def State.fetchBytes (s : State) (slot : Nat) (t : Thread) (g : Nat) (addr : W64) (len : Nat) (k : List Piece → List Byte → Out) : Out :=
  let w : Who := t.who slot g
  match s.translate w .fetch addr len with
  | .fault c va => .next (s.modFetch slot addr fun b => b.fetchFault c va)
  | .miss va => if s.fetchWalking slot addr || !s.walkRoom w.cl w.asid va then .fault .notReady else .next (s.startWalk w va false (.fetch slot addr))
  | .ok ps =>
    -- a fetch does not read a copy whose invalidation is on its way (R279)
    if ps.any fun p => p.keys.any fun x => s.stale w.cl x s.ns9 then .fault .notReady
    else
    match s.gates (slotDie slot) false none (s.codeLines ps) with
    | .wait => .fault .notReady
    | .act s' => .next s'
    | .go =>
    match s.codeBytes slot addr ps with
    | .bytes l => k ps l
    | .failed c i => .next ((s.dropWaiter (.fetch slot addr)).modFetch slot addr fun b => b.fetchFault c (addr + BitVec.ofNat 64 i))
    | .missing l =>
      let new := l.filter fun x => s.canAsk (slotCluster slot) (x.1 / 2) none && !(s.coh.fills.any fun f =>
        f.cl == slotCluster slot && f.line == x.1 / 2 && bitAt f.code (x.1 % 2) && f.waiters.contains (.fetch slot addr))
      if new.isEmpty then .fault .notReady
      else .next (new.foldl (fun s x => s.askLine (slotCluster slot) (x.1 / 2) x.2 (2 ^ (x.1 % 2)) (.fetch slot addr)) s)

/-- The words of a frame have come: it goes to MAP, and its successor is predicted (R341). -/
def Block.fetched (b : Block) (addr : W64) (ps : List Piece) (l : List Byte) : Block :=
  { b with
    state := .map, image := words64 l
    img := ((ps.head?).map (·.leaf.img)).getD 0
    page2 := (ps.zipIdx.find? fun p => (addr.toNat + 16 * p.2) / 4096 != addr.toNat / 4096).map fun p =>
      (addr + BitVec.ofNat 64 (16 * p.2), p.1.leaf.img) }

/-- R328: is the first block of a launch with an image tag on a page of another one? -/
def Thread.wrongImage (t : Thread) (addr : W64) (ps : List Piece) : Bool :=
  match t.first, ps with
  | some (a, img), p :: _ => a == addr && img != 0 && p.leaf.img != 0 && p.leaf.img != img
  | _, _ => false

/-- STATUS.IMG is the tag of the launch code page once that page is read (Table 1-2; log entry 52). -/
def Thread.launchImg (t : Thread) (b : Block) (ps : List Piece) : Thread :=
  match ps with
  | p :: _ => if (t.first.any fun x => x.1 == b.addr) && b.seq == 0 then { t with sys := { t.sys with img := p.leaf.img } } else t
  | [] => t

/-- A frame goes on with its fetch: the header first, then the whole image. -/
def State.fetchOn (s : State) (slot : Nat) (t : Thread) (b : Block) : Out :=
  let g := blockGrid slot t b
  s.fetchBytes slot t g b.addr 64 fun ps hd =>
    if t.wrongImage b.addr ps then
      .next ((s.dropWaiter (.fetch slot b.addr)).modFetch slot b.addr fun b => b.fetchFault .imageTag b.addr)
    else
    let n := imageBytes ((words64 hd).getD 0 0)
    s.fetchBytes slot t g b.addr n fun ps l =>
      .next ((((s.codeRead ps).dropWaiter (.fetch slot b.addr)).modThread slot fun t => t.launchImg b ps).modFetch slot b.addr fun b =>
        let b := b.fetched b.addr ps l
        { b with pred := (s.grid g).pred.predict slot b.mapped })

/-- BLOCK_FETCH (R340, R37): a frame at the address goes on with its fetch; without one, the thread's next block is granted one. -/
def execBlockFetch (slot : Nat) (addr : W64) (s : State) : Out :=
  match tget s.thr slot with
  | none => .fault .noSuch
  | some t =>
    match (t.blocks ++ t.shadow.toList).find? fun b => b.fetching addr with
    | some b => s.fetchOn slot t b
    | none =>
      match t.wanted with
      | none => .fault .noSuch
      | some (a, red, sh) =>
        let g := blockGrid slot t (t.newFrame a)
        if a ≠ addr then .fault .noSuch
        else if !s.groupStarted t.gid || (s.grid g).dbg.frozen then .fault .notReady
        else if sh || s.frameFree slot t g then .next (s.grant slot t a red sh)
        else .fault .notReady

/-! ### MAP (R71) -/

/-- What the check knows of a thread. -/
def Thread.mapFor (t : Thread) : MapFor := ⟨t.sys.fused, t.sys.mode, t.tidx == 0, t.regs.v.length⟩

/-- The IC of a block as it is mapped: a resident block entered from another address starts at 0 (R85). -/
def Thread.icFor (t : Thread) (b : Block) : BitVec 32 :=
  match (t.older b).getLast? with
  | some y => if b.resident && y.addr != b.addr then 0 else t.ic
  | none => if b.resident && t.icDue.contains b.addr then 0 else t.ic

/-- The blocks that still await what their headers say, once the oldest block of the thread is mapped. -/
def Thread.dueAfter (t : Thread) (b : Block) : List W64 :=
  if b.resident && t.icDue.contains b.addr then [] else t.icDue.filter (· != b.addr)

/-- A block that fails its check while it is not the oldest is discarded, with every younger block of its thread, and is checked again when
it is fetched again, at the commit of the block before it (R30, Table 1-4; the reason of its DISCARD record: log entry 40). -/
def State.dropUnmapped (s : State) (slot : Nat) (t : Thread) (b : Block) : State :=
  let k := t.posOf b
  (s.discardFrom slot k 1).modThread slot fun t =>
    { t with blocks := t.blocks.zipIdx.map fun p => if p.2 + 1 = k then { p.1 with asked := true } else p.1 }

/-- MAP_TIME_CHECK (R71, R30): a block that passes enters FIRE; the failure of the oldest block is held for its trap. -/
def execMapTimeCheck (b : BRef) (s : State) : Out :=
  match s.block b with
  | none => .fault .noSuch
  | some (t, x) =>
    if x.state ≠ .map ∨ !x.held.isEmpty then .fault .noSuch
    else
      match mapFail t.mapFor x with
      | some f => .next (if t.isOldest x then s.modBlock b fun x => x.hold .map 127 f.trap else s.dropUnmapped b.slot t x)
      | none =>
        let y := x.mapped
        let z := { y with state := .fire, ic := t.icFor y }
        let s := s.modThread b.slot fun t =>
          { t with blocks := t.blocks.map fun w => if w.seq == b.seq && w.ic == b.ic then z else w
                   sys := if t.isOldest x then { t.sys with resid := z.resident } else t.sys
                   ic := if t.isOldest x then z.ic else t.ic
                   icDue := if t.isOldest x then t.dueAfter z else t.icDue }
        .next (s.takeReads ⟨b.slot, z.seq, z.ic⟩)

/-! ### Quiescence (R87) -/

/-- Can an idle entry still fire or absorb with what it has received? -/
def Block.readyEntry (b : Block) (i : Nat) (e : Entry) : Bool :=
  let f := fieldsOf e.word
  let op := f.op.toNat
  if e.st != .idle then false
  else if op == 0x03 && e.a.isNone then true
  else
    let inputs :=
      if op == 0x37 then e.a.isSome || e.b.isSome
      else (List.range 3).all fun k => !f.hasOperand k || (e.operand k).isSome || (k == 0 && optionalA op f.fn.toNat && !b.names 0 i)
    match f.pm.toNat, e.p with
    | 0, _ => inputs
    | _, none => false
    | 1, some v => !v || inputs
    | _, some v => v || inputs

/-- The opcodes of the exits (Table 2-12). -/
def exitOps : List Nat := [0x05, 0x06, 0x07, 0x08, 0x0A]

/-- Has the word of an entry one of these opcodes? -/
def Entry.opIn (e : Entry) (l : List Nat) : Bool := l.contains (fieldsOf e.word).op.toNat

/-- A block leaves FIRE for COMPLETE when the conditions hold (R30) and no further exit of it is ready to fire (R87); nothing of it fires
after that. -/
def Block.settle (b : Block) : Block :=
  if b.state == .fire && b.completes && !(b.entries.zipIdx.any fun p => p.1.opIn exitOps && b.readyEntry p.2 p.1) then
    { b with state := .complete }
  else b

/-- Has a block quiesced: nothing is awaited, nothing is ready, no load is outstanding? -/
def Block.quiet (b : Block) : Bool :=
  b.state == .fire && !b.quiesced && !b.awaits && !(b.entries.any fun e => e.st == .waiting)
    && !(b.entries.zipIdx.any fun p => b.readyEntry p.2 p.1)

/-- The place of EXIT_ERROR at quiescence: no exit, the lowest unresolved write slot, or the lowest unresolved LSID of SMASK. -/
def Block.unfinished (b : Block) : Option Locus :=
  if b.exit.isNone then some .none
  else
    match b.writes.findIdx? fun w => w.tok.isNone with
    | some w => some (.slot w)
    | none =>
      ((List.range 24).find? fun l => (b.image.headD 0).getLsbD l && (b.resolved l).isNone).map .ofLsid

/-- BLOCK_QUIESCENCE (R87). -/
def execBlockQuiescence (b : BRef) (s : State) : Out :=
  match s.block b with
  | none => .fault .noSuch
  | some (_, x) =>
    if !x.quiet then .fault .notReady
    else
      .next (s.modBlock b fun y =>
        match y.unfinished with
        | some l => { y with quiesced := true }.hold .exitQ 127 ⟨.exitError, 0, tinfo l y.itag 0 0 false⟩
        | none => { y with quiesced := true })

end Sys2Proof.Machine
end

