-- ==== Sys2Proof/Machine/BlockControl.lean ====
section
/-! DEFINITION. Block control, opcodes 0x01 to 0x0A (03_scalar_control.md R81 to R90). -/

namespace Sys2Proof.Machine

/-- R342: an exit that names another address than the block that follows discards every younger block; the event counts in PERF10. -/
def State.redirect (s : State) (r : BRef) (addr : W64) : State :=
  match s.block r with
  | none => s
  | some (t, b) =>
    let k := (t.older b).length + 1
    match t.blocks[k]? with
    | none =>
      -- the successor that was predicted is not in flight: another one is asked for
      if b.pred = some addr then s else s.modBlock r fun b => { b with asked := false }
    | some y =>
      if y.addr = addr then s else (s.discardFrom r.slot k 1).modThread r.slot (·.perfEvent 10)

/-- R86, R87: an exit fires; a second one of the block or iteration is EXIT_ERROR and names its instruction. -/
def State.fireExit (s : State) (x : Site) (addr : W64) (halt : Bool) : State :=
  match x.b.exit with
  | some _ => s.modBlock x.ref fun b => b.hold .fire x.idx (b.insTrap .exitError 0 x.idx none)
  | none => (s.redirect x.ref addr).modBlock x.ref fun b => { b with exit := some ⟨x.idx, addr, halt⟩ }

/-- R88: an exit to operand A, which must be 64-byte aligned. -/
def exitTo (pm : Pm) (s : State) : Out :=
  fire pm none (ops [0]) (fun x s =>
    if x.a.word &&& 0x3F = 0 then s.fireExit x x.a.word false
    else s.holdAt x .align x.a.word none) s

/-- MOV (R81): operand A of any kind, unchanged, to both targets. -/
def execMov (h : Hdr) (s : State) : Out := fire h.pm none (ops [0]) (fun x s => s.deliver x.ref h x.a x.a) s

/-- The constant of MOVI (R82). -/
def moviValue (sh : MoviShift) (imm : BitVec 29) : W64 :=
  match sh with
  | .none => imm.signExtend 64
  | .sh29 => imm.signExtend 64 <<< 29
  | .sh58 => imm.signExtend 64 <<< 58

/-- MOVI (R82). -/
def execMovi (sh : MoviShift) (h : Hdr) (imm : BitVec 29) (s : State) : Out :=
  fire h.pm none (ops []) (fun x s => s.deliver x.ref h (.narrow (moviValue sh imm)) (.narrow (moviValue sh imm))) s

/-- ARG (R83): the value of the q register, which the entry received when its block entered FIRE or its iteration started. -/
def execArg (h : Hdr) (_q : BitVec 4) (s : State) : Out :=
  fire h.pm none (ops [0]) (fun x s => s.deliver x.ref h x.a x.a) s

/-- NULL (R84). -/
def execNull (h : Hdr) (s : State) : Out := fire h.pm none (ops []) (fun x s => s.deliver x.ref h .null .null) s

/-- BR (R86, R88). -/
def execBr (pm : Pm) (_ex : BitVec 3) (off : BitVec 27) (s : State) : Out :=
  fire pm none trigger (fun x s => s.fireExit x (exitAddr x.b off) false) s

/-- BRI (R86, R88). -/
def execBri (pm : Pm) (_ex : BitVec 3) (s : State) : Out := exitTo pm s

/-- CALL (R89): an exit, and the return address to both targets. -/
def execCall (h : Hdr) (_ex : BitVec 3) (off : BitVec 27) (s : State) : Out :=
  fire h.pm none trigger (fun x s =>
    (s.fireExit x (exitAddr x.b off) false).deliver x.ref h (.narrow (returnAddr x.b)) (.narrow (returnAddr x.b))) s

/-- RET (R88): as BRI; the return hint is not architectural (R18). -/
def execRet (pm : Pm) (_ex : BitVec 3) (s : State) : Out := exitTo pm s

/-- ITER (R85): the IC of the iteration, or the IC committed before an ordinary block. -/
def execIter (h : Hdr) (s : State) : Out :=
  fire h.pm none (ops []) (fun x s => s.deliver x.ref h (.narrow (x.b.ic.setWidth 64)) (.narrow (x.b.ic.setWidth 64))) s

/-- HALT (R90): an exit that ends the thread at the block's commit. -/
def execHalt (pm : Pm) (_ex : BitVec 3) (s : State) : Out :=
  fire pm none trigger (fun x s => s.fireExit x x.b.addr true) s

end Sys2Proof.Machine
end

