-- ==== Sys2Proof/Machine/Effects.lean ====
section
/-! DEFINITION. Forms whose effect waits for the commit (07 R211, R212, R225): how they fire and check their operand words. -/

namespace Sys2Proof.Machine

/-- A form without an LSID fires: its predicate, a null on an operand (R211), then what it finds. -/
def fireForm (pm : Pm) (h : Option Hdr) (need : Site → List Nat) (f : Site → State → Found) (s : State) : Out :=
  match s.site with
  | none => .fault .noEntry
  | some x =>
    match pmMatches pm x.e.p with
    | none => .fault .notReady
    | some false => .next (s.absorb x none)
    | some true =>
      if !x.has (need x) then .fault .notReady
      else if x.anyNull (need x) then
        let s := s.mark x .fired
        .next (match h with
          | none => s
          | some h => s.deliver x.ref h .null .null)
      else
        match f x s with
        | .wait => .fault .notReady
        | .stay s => .next s
        | .fail c tval => .next ((s.mark x .fired).holdAt x c tval none)
        | .go k => .next (k (s.mark x .fired))

/-- ENGINE_OPERAND with its reason and operand letter (R212). -/
def badOperand (reason letter : Nat) : Found := .fail .engineOperand (BitVec.ofNat 64 (reason + 256 * letter))

/-- A form that only waits for the commit. -/
def fireEffect (pm : Pm) (need : Site → List Nat) (i : Instr) (s : State) : Out :=
  fireForm pm none need (fun x _ => .go fun s => s.record x i []) s

/-- The reserved bits of a target word, and of those fields that a form does not use (Table 7-7). -/
def twReserved (t : W64) (whole : Bool) : Bool :=
  bitsOf t.toNat 63 36 != 0 || bitsOf t.toNat 9 0 != 0 || (!whole && bitsOf t.toNat 21 10 != 0)

/-- The sync word of an operand of these forms (R193, R212), 0 meaning none: a reserved space code is reason 0x0A, a scratchpad
word outside the group scratchpad reason 0x05. -/
def State.operandWord (s : State) (x : Site) (letter : Nat) (ref : W64) (go : Option WLoc → Found) : Found :=
  if ref = 0 then go none
  else if 2 ≤ ref.toNat % 16 then badOperand 0x0A letter
  else if ref.toNat % 16 = 1 then
    match s.group x.t.gid with
    | none => badOperand 0x05 letter
    | some g =>
      let off := (refBase ref).toNat
      if !g.inSpad off 16 then badOperand 0x05 letter
      else go ((g.spadAt off).map fun a => .pool a ref)
  else s.reachWord x true ref fun l _ => go (some l)

/-- Do the stores that a slot committed before a number still wait for their homes, or behind a fence? -/
def State.storesPending (s : State) (slot order : Nat) : Bool :=
  (match tget s.thr slot with
   | none => false
   | some t => t.tail.any fun x => decide (x.order < order) && x.item.stores)
    || (s.grids.any fun g => g.2.sb.any fun u => u.slot == slot && decide (u.uid < order))
    || s.coh.flying.any fun f => f.u.slot == slot && decide (f.u.uid < order)

/-- Completion of a form that counts on a word, if it names one: Arrive(w, 1), or an error code. -/
def State.arriveOpt (s : State) (w : Option WLoc) (n : Nat) : State :=
  match w with
  | none => s
  | some w => s.arrive w n
def State.setErrOpt (s : State) (w : Option WLoc) (code : Nat) : State :=
  match w with
  | none => s
  | some w => s.setErr w code

end Sys2Proof.Machine
end

