-- ==== Sys2Proof/Machine/Threads.lean ====
section
/-! DEFINITION. Thread forms 0xC0 to 0xC8 (07 R225 to R234) as they fire, and what INVOKE, LAUNCH and WAKE do when they are
released. FUSE, SPLIT, HRET, YIELD and SLEEP take effect at the boundary after their commit (Commit.lean). -/

namespace Sys2Proof.Machine

/-- LAUNCH (R226): a record address that is not 64-byte aligned is reason 0x01. The address is translated as the form fires. -/
def execLaunch (pm : Pm) (q : BitVec 12) (s : State) : Out :=
  fireForm pm none (ops [0]) (fun x s =>
    let va := x.a.word
    if va.toNat % 64 ≠ 0 then badOperand 0x01 0
    else s.reach' x .load va 64 fun ps => .go fun s => s.recordAt x (.launch pm q) [] none ps) s

/-- The operand checks of INVOKE (R225). -/
def fireInvoke (pm : Pm) (whole : Bool) (i : Instr) (s : State) : Out :=
  fireForm pm none (ops [0, 1, 2]) (fun x _ =>
    if twReserved x.a.word whole then badOperand 0x03 0
    else .go fun s => s.record x i []) s

/-- INVOKE.q (R227). -/
def execInvokeQ (t : Bool) (pm : Pm) (hidx : BitVec 12) (s : State) : Out := fireInvoke pm false (.invokeQ t pm hidx) s
/-- INVOKE.h (R227). -/
def execInvokeH (t : Bool) (pm : Pm) (hidx : BitVec 12) (s : State) : Out := fireInvoke pm true (.invokeH t pm hidx) s

/-- WAKE (R234). -/
def execWake (pm : Pm) (s : State) : Out :=
  fireForm pm none (ops [0]) (fun x _ =>
    if twReserved x.a.word true then badOperand 0x03 0 else .go fun s => s.record x (.wake pm) []) s

/-- HRET (R229): BAD_STATE with reason 0x01 where no handler runs. -/
def execHret (pm : Pm) (s : State) : Out :=
  fireForm pm none trigger (fun x _ => if !x.t.sys.handler then .fail .badState 1 else .go fun s => s.record x (.hret pm) []) s

/-- YIELD (R231). -/
def execYield (pm : Pm) (s : State) : Out := fireEffect pm trigger (.yield pm) s

/-- FUSE and SPLIT (R232): BAD_STATE with reason 0x02 in a resident block or a handler. -/
def fireShape (pm : Pm) (i : Instr) (s : State) : Out :=
  fireForm pm none trigger (fun x _ =>
    if x.b.resident ∨ x.t.sys.handler then .fail .badState 2 else .go fun s => s.record x i []) s

def execFuse (pm : Pm) (s : State) : Out := fireShape pm (.fuse pm) s
def execSplit (pm : Pm) (s : State) : Out := fireShape pm (.split pm) s

/-- A field of WID under the widths of the launch (R28, R233). -/
def Thread.widField (t : Thread) (f : Nat) : W64 :=
  let lo := (t.widths.take f).sum
  BitVec.ofNat 64 (t.sys.wid.toNat / 2 ^ lo % 2 ^ t.widths.getD f 0)

/-- WIDF (R233). -/
def execWidf (f : BitVec 4) (h : Hdr) (s : State) : Out :=
  fire h.pm none (ops []) (fun x s =>
    let v := Token.narrow (x.t.widField f.toNat)
    s.deliver x.ref h v v) s

/-- SLEEP (R234). -/
def execSleep (pm : Pm) (s : State) : Out := fireEffect pm trigger (.sleep pm) s

/-! ### Release -/

/-- What a thread's forms act for at the commit of their block: a write of PTBASE or ASID takes effect after it (R301), an ERET too. -/
def Thread.sender (t : Thread) (time : Nat) : Sender := ⟨t.sys.asid, t.sys.ptbase, t.sys.mode, t.sys.img, time⟩

/-- LAUNCH is released (R226): the record at its address goes to a queue of its own die. -/
def State.releaseLaunch (s : State) (slot : Nat) (w : Sender) (q : BitVec 12) (e : Effect) : State :=
  let va := (e.a.getD .null).word
  match e.pieces with
  | [] => s
  | p :: _ =>
    s.post [.recordAcceptance (slotDie slot) q.toNat ⟨s.mclk, .thread slot va w.asid w.sup, .inl ⟨p.pa, p.leaf.vc, p.leaf.cmode⟩, none⟩]

/-- INVOKE is released (R227): its packet leaves, and its place is counted in OUTST at the commit. -/
def State.releaseInvoke (s : State) (slot : Nat) (w : Sender) (h trap : Bool) (hidx : BitVec 12) (e : Effect) : State :=
  match tget s.thr slot with
  | none => s
  | some t =>
    let tw := (e.a.getD .null).word
    let a0 := (e.b.getD .null).word
    let a1 := (e.c.getD .null).word
    let s := s.shave (slotCluster slot) 0x07 slot 0 hidx.toNat tw a0
    s.sendInvoke (.invoke slot (t.gid * 64 + t.tidx) hidx.toNat trap) (if h then 0x09 else 0x08) hidx.toNat w.asid tw a0 a1 slot

/-- WAKE is released (R234): to a slot of this module or by a message. -/
def State.releaseWake (s : State) (slot : Nat) (w : Sender) (e : Effect) : State :=
  let tw := (e.a.getD .null).word
  let dev := twDev tw
  if s.reachable dev then
    s.transmit (s.packetPort dev (twDie tw) slot)
      ⟨BitVec.ofNat 12 dev, BitVec.ofNat 12 s.dev, 0x0A, 0, w.asid, tw, []⟩
  else s

end Sys2Proof.Machine
end

