-- ==== Sys2Proof/Machine/System.lean ====
section
/-! DEFINITION. System forms 0xD0 to 0xDB (07 R235 to R241) as they fire; shootdown (10 R310, R311); the installation of table
records (07 R239, 09 R286 to R288, 11 R321, 13 R357). -/

namespace Sys2Proof.Machine

/-- Has a block recorded a TRAP or BKPT? -/
def Block.trapped (b : Block) : Bool :=
  b.effs.any fun e => match e.ins with | .trap _ _ => true | .bkpt _ _ => true | _ => false

/-- TRAP and BKPT (R236): a second one in a block is BAD_STATE with reason 0x03. -/
def fireTrap (pm : Pm) (i : Instr) (s : State) : Out :=
  fireForm pm none trigger (fun x _ => if x.b.trapped then .fail .badState 3 else .go fun s => s.record x i []) s

def execTrap (pm : Pm) (num : BitVec 12) (s : State) : Out := fireTrap pm (.trap pm num) s
def execBkpt (pm : Pm) (num : BitVec 12) (s : State) : Out := fireTrap pm (.bkpt pm num) s

/-- ERET (R237) as it fires. -/
def execEret (pm : Pm) (s : State) : Out := fireEffect pm trigger (.eret pm) s

/-- MFSR (R235): the register as committed before its block, so it waits until its block is the oldest. -/
def execMfsr (h : Hdr) (code : BitVec 12) (s : State) : Out :=
  fireForm h.pm (some h) trigger (fun x _ =>
    if !x.t.isOldest x.b then .wait
    else .go fun s =>
      let v := Token.narrow (x.t.readSr code.toNat)
      s.deliver x.ref h v v) s

/-- MTSR (R235) as it fires. -/
def execMtsr (pm : Pm) (code : BitVec 12) (s : State) : Out := fireEffect pm (ops [0]) (.mtsr pm code) s

/-- TLBINV (R238) as it fires. -/
def execTlbinvVa (pm : Pm) (s : State) : Out := fireEffect pm (ops [0, 1, 2]) (.tlbinvVa pm) s
def execTlbinvAsid (pm : Pm) (s : State) : Out := fireEffect pm (ops [0]) (.tlbinvAsid pm) s
def execTlbinvAll (pm : Pm) (s : State) : Out := fireEffect pm trigger (.tlbinvAll pm) s
/-- TLBSYNC (R238) as it fires. -/
def execTlbsync (pm : Pm) (s : State) : Out := fireEffect pm trigger (.tlbsync pm) s

/-- VCDEF, NAMEDEF and HTDEF (R239): selector, record address and sync word are checked and the record's address translated. -/
def fireTable (pm : Pm) (selMask : W64) (i : Instr) (s : State) : Out :=
  fireForm pm none (ops [0, 1, 2]) (fun x s =>
    if x.a.word &&& ~~~selMask ≠ 0 then badOperand 0x03 0
    else if x.b'.word.toNat % 64 ≠ 0 then badOperand 0x01 1
    else s.operandWord x 2 x.c'.word fun w =>
      s.reach' x .load x.b'.word 64 fun ps => .go fun s => s.recordAt x i [] w ps) s

def execVcdef (pm : Pm) (s : State) : Out := fireTable pm 0x33F (.vcdef pm) s
def execNamedef (pm : Pm) (s : State) : Out := fireTable pm 0x3FFF (.namedef pm) s
def execHtdef (pm : Pm) (s : State) : Out := fireTable pm 0x3FFF (.htdef pm) s

/-- BIAS (R240): the page is translated as a one-byte store; a CMODE other than 0b10 is PROT. -/
def fireBias (pm : Pm) (i : Instr) (s : State) : Out :=
  fireForm pm none (ops [0, 1]) (fun x s =>
    s.operandWord x 1 x.b'.word fun w =>
      s.reach' x .store x.a.word 1 fun ps =>
        if ps.any fun p => p.leaf.cmode != 2 then .fail .prot x.a.word
        else .go fun s => s.recordAt x i [] w ps) s

def execBiasHost (pm : Pm) (s : State) : Out := fireBias pm (.biasHost pm) s
def execBiasDev (pm : Pm) (s : State) : Out := fireBias pm (.biasDev pm) s

/-- PREEMPT (R241): a target on another device is out of reach. -/
def execPreempt (pm : Pm) (grp : Bool) (s : State) : Out :=
  fireForm pm none (ops [0, 1]) (fun x s =>
    if twReserved x.a.word true then badOperand 0x03 0
    else if twDev x.a.word ≠ s.dev then badOperand 0x09 0
    else s.operandWord x 1 x.b'.word fun w => .go fun s => s.recordAt x (.preempt pm grp) [] w []) s

/-! ### Shootdown (R238, R310, R311) -/

/-- Does a TLBINV name a translation of an address range for an ASID? -/
def TlbInv.covers (x : TlbInv) (asid : BitVec 16) (g : Bool) (va len : Nat) : Bool :=
  match x.form with
  | .tlbinvVa _ =>
    let lo := x.a.toNat % 2 ^ 57 / 4096
    let hi := (x.a.toNat % 2 ^ 57 + max x.b.toNat 1 - 1) / 4096
    (g || asid == x.c.setWidth 16) && decide (va / 4096 ≤ hi) && decide (lo ≤ (va + len - 1) / 4096)
  | .tlbinvAsid _ => !g && asid == x.a.setWidth 16
  | _ => true

/-- Does it name a cached translation? -/
def TlbInv.hits (x : TlbInv) (e : TlbEnt) : Bool := x.covers e.asid e.leaf.g (e.va * 2 ^ e.bits) (2 ^ e.bits)

/-- Is a translation of an address range one that it names, or one that an entry gave that it removed, which may be of a larger page? -/
def TlbInv.reaches (x : TlbInv) (asid : BitVec 16) (g : Bool) (va len : Nat) : Bool :=
  x.covers asid g va len
    || x.gone.any fun e => (if e.leaf.g then g else !g && e.asid == asid) && decide (va / 2 ^ e.bits ≤ e.va)
        && decide (e.va ≤ (va + len - 1) / 2 ^ e.bits)

/-- Does it name the page of an operand word that a recorded form has translated, as a global page or as one of the ASID? -/
def TlbInv.hitsWord (x : TlbInv) (asid : BitVec 16) (w : W64) : Bool :=
  x.reaches asid true ((refBase w).toNat % 2 ^ 57) 64 || x.reaches asid false ((refBase w).toNat % 2 ^ 57) 64

/-- Does it name the translation of an access, or of the address of a recorded form, of a block? -/
def TlbInv.hitsBlock (x : TlbInv) (t : Thread) (b : Block) : Bool :=
  (b.accs.any fun a => a.space == .mem && a.pieces.any fun p => x.reaches t.sys.asid p.leaf.g (a.va.toNat % 2 ^ 57) a.len)
    || b.effs.any fun e => (!e.pieces.isEmpty || (match e.loc with | some (.mem _ _ _ _) => true | _ => false))
        && [e.a, e.b, e.c].any fun w => x.hitsWord t.sys.asid (w.getD .null).word

/-- Does it name the translation of a drain unit? -/
def TlbInv.hitsUnit (x : TlbInv) (u : Unit) : Bool :=
  u.pieces.any fun p => x.reaches u.asid p.leaf.g (u.va.toNat % 2 ^ 57) ((u.pieces.map (·.len)).sum)

/-- The cached translations of the module that it names. -/
def State.tlbHits (s : State) (x : TlbInv) : List TlbEnt :=
  ((s.grids.map (·.2.tlb)).flatten ++ (s.cls.map (·.2.tlb)).flatten).filter x.hits

/-- The removal of R310: TLBs, walk caches, and the uncommitted blocks that used the entries. -/
def State.shootdown (s : State) (x : TlbInv) : State :=
  let s := { s with
    grids := tmap (fun g => { g with tlb := g.tlb.filter fun e => !x.hits e }) s.grids
    cls := tmap (fun c => { c with tlb := c.tlb.filter fun e => !x.hits e }) s.cls
    dies := tmap (fun d => { d with walkCache := [] }) s.dies }
  s.thr.foldl (fun (s : State) p =>
    match p.2.blocks.findIdx? fun b => x.hitsBlock p.2 b with
    | some k => s.discardFrom p.1 k 8
    | none => s) s

/-- Does a removed entry hold a line of memory: is the line in the frame that its translation named? -/
def State.goneHolds (s : State) (x : TlbInv) (pa : Nat) : Bool :=
  x.gone.any fun e =>
    let base := globalPa s.dev e.leaf.cmode.toNat e.la
    decide (base < pa + 128) && decide (pa < base + 2 ^ e.bits)

/-- Is an access of an engine that a removed entry translated still on its way to another module (R310)? -/
def State.engineUses (s : State) (x : TlbInv) (k : Nat) : Bool :=
  (s.coh.reqs.any fun r => match r.who with | .engine _ _ => decide (r.id < k) && s.goneHolds x r.pa | _ => false)
    || s.coh.fills.any fun f => f.blank && (f.waiters.any fun w => match w with | .engine _ => true | _ => false) && s.goneHolds x (128 * f.line)

/-- TLBINV_COMPLETE (R310): it acts once its thread's stores are at their homes, and has completed once the walks that were in progress have
ended, and every store and engine access translated by a removed entry is at its home. -/
def execTlbinvComplete (id : Nat) (s : State) : Out :=
  match s.coh.tlbinvs.find? (·.id == id) with
  | none => .fault .noSuch
  | some x =>
    match x.bound with
    | none =>
      if s.storesPending x.slot id then .fault .notReady
      else
        let x := { x with gone := s.tlbHits x }
        let s := s.shootdown x
        .next { s with coh := { s.coh with tlbinvs := s.coh.tlbinvs.map fun y => if y.id = id then { x with bound := some s.uid } else y } }
    | some k =>
      if (s.grids.any fun g => g.2.sb.any fun u => decide (u.uid < k) && x.hitsUnit u)
          || (s.coh.flying.any fun f => decide (f.u.uid < k) && x.hitsUnit f.u)
          || (s.openWalks.any fun w => decide (w.id < k)) || s.engineUses x k then .fault .notReady
      else .next { s with coh := { s.coh with tlbinvs := s.coh.tlbinvs.filter (·.id != id) } }

/-- A thread's identity, which it keeps when it is pre-empted: its group and its index there. -/
def State.threadId (s : State) (slot : Nat) : Nat := match tget s.thr slot with | some t => t.gid * 64 + t.tidx | none => 0

/-- TLBINV is released (R238). -/
def State.releaseTlbinv (s : State) (slot : Nat) (e : Effect) : State :=
  let n := s.newUid
  { n.2 with coh := { n.2.coh with tlbinvs := n.2.coh.tlbinvs ++
    [{ id := n.1, form := e.ins, a := (e.a.getD .null).word, b := (e.b.getD .null).word, c := (e.c.getD .null).word
       slot := slot, thread := s.threadId slot, bound := none, gone := [] : TlbInv }] } }

/-- TLBSYNC is released: it awaits every TLBINV that its thread has committed (R311). -/
def State.releaseTlbsync (s : State) (slot : Nat) : State :=
  let ids := (s.coh.tlbinvs.filter fun x => x.thread == s.threadId slot).map (·.id)
  s.modThread slot fun t => { t with syncHold := t.syncHold ++ ids }

/-! ### Table records (R239) -/

/-- VCDEF, NAMEDEF or HTDEF is released. -/
def State.releaseTable (s : State) (slot : Nat) (e : Effect) : State :=
  let a := (e.a.getD .null).word.toNat
  let sel := match e.ins with
    | .vcdef _ => (bitsOf a 9 8, bitsOf a 5 0)
    | _ => (bitsOf a 13 12, bitsOf a 11 0)
  match e.pieces with
  | [] => s
  | p :: _ =>
    let n := s.newUid
    { n.2 with installs := n.2.installs ++
      [{ id := n.1, form := e.ins, slot := slot, die := sel.1, idx := sel.2, piece := { p with len := 64 }, sync := e.loc : Install }] }

/-- R357: is a name-table entry valid for an index of a die? -/
def nameValid (r : BitVec 512) (die i : Nat) : Bool :=
  let f := recField r
  f 511 80 == 0 && f 39 37 == 0 && f 4 0 == 0
    && (!r.getLsbD 31
        || (decide (7 ≤ f 36 32) && decide (f 36 32 ≤ 24)
            && f 30 29 != 3
            && (f 30 29 == 0 || (f 28 26 == 0 && f 25 19 == 0))
            && (f 30 29 != 0 || f 18 17 == 0)
            && (f 30 29 == 2 || f 16 5 == 0)
            && !(f 30 29 == 1 && f 18 17 == die)
            && i % 128 == f 63 40 % 128))

/-- R321, R14: a handler-table entry is valid unless its reserved bit is set. -/
def handlerValid (r : BitVec 512) : Bool := !r.getLsbD 103

/-- The row and column of a cluster stop (the mesh of 8 by 16, R356). -/
def stopRow (c : Nat) : Nat := c % 128 / 16
def stopCol (c : Nat) : Nat := c % 16
def absDiff (a b : Nat) : Nat := (a - b) + (b - a)

/-- R287: the banks nearest to the clusters of a mask. -/
def nearMask (near : BitVec 128) (n : Nat) : BitVec 128 :=
  let cs := maskBanks near
  let cost (b : Nat) : Nat := (cs.map fun c => absDiff (stopRow b) (stopRow c) + absDiff (stopCol b) (stopCol c)).sum
  let l := (List.range 128).mergeSort fun a b => decide (cost a < cost b) || (cost a == cost b && decide (a ≤ b))
  (l.take n).foldl (fun m b => m ||| (1 : BitVec 128) <<< b) 0

/-- The control word of a record. -/
def vcCtl (r : BitVec 512) : Nat := recField r 319 256

/-- A virtual-cache record as written, its mask filled (R286, R287). -/
def vcOf (r : BitVec 512) : Vc :=
  let c := vcCtl r
  let bm : BitVec 128 := r.extractLsb' 0 128
  let near : BitVec 128 := r.extractLsb' 128 128
  let nb := bitsOf c 31 24
  { bmask := if bm = 0 then nearMask near nb else bm
    near := near, gen := 0, nbank := BitVec.ofNat 8 nb
    state := match bitsOf c 13 12 with | 0 => .disabled | 1 => .active | _ => .resizing
    repl := BitVec.ofNat 2 (bitsOf c 11 10), wpol := BitVec.ofNat 2 (bitsOf c 9 8), lsz := BitVec.ofNat 2 (bitsOf c 6 5)
    spb := BitVec.ofNat 5 (bitsOf c 4 0) }

/-- R288: is a record for VC 1 to 63 well formed (Tables 9-4, 9-5)? -/
def vcValid (r : BitVec 512) : Bool :=
  let c := vcCtl r
  let bm := recField r 127 0
  let near := recField r 255 128
  let nb := bitsOf c 31 24
  recField r 511 320 == 0 && bitsOf c 63 48 == 0 && bitsOf c 23 14 == 0 && bitsOf c 7 7 == 0
    && decide (bitsOf c 13 12 < 2) && bitsOf c 11 10 != 3 && bitsOf c 6 5 != 3 && decide (bitsOf c 4 0 ≤ 16)
    && (if bm = 0 then decide (1 ≤ nb) && decide (nb ≤ 128) && near != 0 else nb == 0)

/-- R288: a record for VC 0 may change only REPL. -/
def vc0Valid (r : BitVec 512) (cur : Vc) : Bool :=
  let c := vcCtl r
  recField r 511 320 == 0 && bitsOf c 63 48 == 0 && bitsOf c 23 14 == 0 && bitsOf c 7 7 == 0 && bitsOf c 11 10 != 3
    && r.extractLsb' 0 128 == cur.bmask && r.extractLsb' 128 128 == cur.near && bitsOf c 31 24 == cur.nbank.toNat
    && bitsOf c 13 12 == 1 && bitsOf c 9 8 == cur.wpol.toNat && bitsOf c 6 5 == cur.lsz.toNat

/-- The shares that a record asks for in a bank. -/
def Vc.wants (v : Vc) (bank : Nat) : Nat := if v.state == .disabled then 0 else if v.bmask.getLsbD bank then v.spb.toNat else 0

/-- R288: would some bank be left with fewer than 2 shares of VC 0? What is there to take are VC 0's shares and the cache's own, none of
them retired (R291); the migration of another cache has ended (R292). -/
def Die.starves (d : Die) (vc : Nat) (new : Vc) : Bool :=
  (List.range 128).any fun bank => decide ((d.sharesOf 0 bank).length + (d.sharesOf vc bank).length < new.wants bank + 2)

/-- A VCDEF in its turn (R288, R292): refused with its code, or its migration begins. -/
def State.installVc (s : State) (x : Install) (r : Option (BitVec 512)) : State :=
  let d := s.die x.die
  let cur := d.vc x.idx
  match r with
  | none => s.setErrOpt x.sync 0x40
  | some r =>
    if x.idx = 0 then
      if vc0Valid r cur then
        s.modDie x.die fun d => { d with migs := d.migs ++
          [⟨0, cur, { cur with repl := BitVec.ofNat 2 (bitsOf (vcCtl r) 11 10) }, x.sync, [], false⟩] }
      else s.setErrOpt x.sync 0x40
    else if !vcValid r then s.setErrOpt x.sync 0x40
    else if d.starves x.idx (vcOf r) then s.setErrOpt x.sync 0x41
    else if cur.state = .disabled ∧ (vcOf r).state = .disabled then
      (s.modDie x.die fun d => { d with vcs := tput d.vcs x.idx { vcOf r with gen := cur.gen } }).arriveOpt x.sync 1
    else s.modDie x.die fun d => { d with migs := d.migs ++ [⟨x.idx, cur, { vcOf r with gen := cur.gen }, x.sync, [], false⟩] }

/-- TABLE_RECORD_INSTALL (R239): after the thread's earlier stores; the VCDEFs of a die one at a time, in order (R292). -/
def execTableRecordInstall (id : Nat) (s : State) : Out :=
  match s.installs.find? (·.id == id) with
  | none => .fault .noSuch
  | some x =>
    if s.storesPending x.slot id then .fault .notReady
    else
      let vcdef := match x.form with | .vcdef _ => true | _ => false
      let earlier := s.installs.any fun y => decide (y.id < id) && y.die == x.die && (match y.form with | .vcdef _ => true | _ => false)
      if vcdef && (earlier || !(s.die x.die).migs.isEmpty) then .fault .notReady
      else
        match s.recordRead x.die x.piece with
        | .wait => .fault .notReady
        | .act s => .next s
        | .done s r =>
        let s := { s with installs := s.installs.filter (·.id != id) }
        .next (match x.form, r with
          | .vcdef _, r => s.installVc x r
          | .namedef _, some r =>
            if nameValid r x.die x.idx then
              (s.modDie x.die fun d => { d with names := if r = 0 then tdel d.names x.idx else tput d.names x.idx r }).arriveOpt x.sync 1
            else s.setErrOpt x.sync 0x40
          | .htdef _, some r =>
            if handlerValid r then
              (s.modDie x.die fun d => { d with handlers := if r = 0 then tdel d.handlers x.idx else tput d.handlers x.idx r }).arriveOpt x.sync 1
            else s.setErrOpt x.sync 0x40
          | _, _ => s.setErrOpt x.sync 0x40)

end Sys2Proof.Machine
end

