-- ==== Sys2Proof/Machine/EngineMem.lean ====
section
/-! DEFINITION. Accesses of engines (10 R305, R308; 08 R266; 05 Table 5-8): translation by the cluster TLB with walks of their own,
reads and writes at the homes, counting on sync words (06 R196). -/

namespace Sys2Proof.Machine

/-- Is a walk one that an engine's access at an address asked for? -/
def Walk.servesEngine (x : Walk) (w : Who) (store : Bool) (va : W64) : Bool :=
  x.who == .engine w.sup w.img && x.cl == w.cl && x.asid == w.asid && x.ptbase == w.ptbase && x.va == va && x.store == store

/-- The walks that an engine asked for and that have ended are forgotten: those of a page, or all. -/
def State.dropWalks (s : State) (w : Who) (va : Option W64) : State :=
  { s with coh := { s.coh with walks := s.coh.walks.filter fun x =>
      !(x.res.isSome && x.servesEngine w x.store x.va && (match va with | some v => x.va == v | none => true)) } }

/-- A translation of a chunk that a walk has just made, or the fault that it found. -/
def State.engWalked (s : State) (w : Who) (k : AKind) (va : W64) (n : Nat) (a : W64) : EngRes Piece :=
  let r := s.walkAccess w k a (k == .store) false
  match r.2 with
  | .fault lvl mal => .page a lvl mal false (k == .store)
  | .entry _ =>
    match r.1.translatePieces w k [(va, n)] with
    | .ok (p :: _) => .done r.1 p
    | .fault c b => .err r.1 (errCode c) c b
    | _ => .page a 1 false false (k == .store)

/-- A chunk of bytes within one page translated for an engine (R305, R308): the cluster TLB, then a walk among those of R306. -/
def State.engPiece (s : State) (w : Who) (k : AKind) (va : W64) (n : Nat) : EngRes Piece :=
  match s.translatePieces w k [(va, n)] with
  | .ok (p :: _) => .done s p
  | .ok [] => .wait
  | .fault .pageFault a => .page a 0 false true (k == .store)
  | .fault c a => .err s (errCode c) c a
  | .miss a =>
    match s.coh.walks.find? (·.servesEngine w (k == .store) a) with
    | none => if s.walkRoom w.cl w.asid a then .act (s.startWalk { w with grid := none } a (k == .store) (.engine w.sup w.img)) else .wait
    | some x =>
      match x.res with
      | none => .wait
      | some (0, _) => s.engWalked w k va n a
      | some (lvl, mal) => .page a lvl mal false (k == .store)

/-- The bytes of a piece read by an engine; a dry run leaves everything as it is. -/
def State.engRead (s : State) (cl : Nat) (p : Piece) (va : W64) (dry : Bool) : EngRes (List Byte) :=
  if paDev p.pa = s.dev ∧ 2 ^ 41 ≤ paLa p.pa then
    let r := s.windowLoad (paLa p.pa) p.len
    .done (if dry then s else r.1) r.2
  else s.ramRead cl p va dry

/-- The bytes of a piece written by a command of an engine, line by line: how many were written or sent to their home. A poisoned line takes
none (R386), nor does a home to which the cluster is DEAD (R375): the command ends with error 0x05 (log entry 48). -/
def State.engWriteLines (s : State) (cl : Nat) (p : Piece) (va : W64) (cells : List (Nat × Byte)) (src : WrSrc) (id : Nat) (dry : Bool) :
    List Nat → EngRes Nat
  | [] => .done s 0
  | k :: r =>
    let die := clusterDie cl
    let l := (cells.filter fun c => c.1 / 128 == k).map fun c => (c.1 % 128, c.2)
    let put (s : State) : State := s.writeLine die k p.leaf.vc l src (.engine id l.length)
    if lineDev k = s.dev ∧ lineLa k < 2 ^ 40 ∧ s.poisoned (lineLa k / 128) then .err (put s) 0x05 .poison (p.vaIn va k)
    else if s.refuses cl k then .err (s.lostw die (128 * k)) 0x05 .timeout (p.vaIn va k)
    else ((if dry then s else put s).engWriteLines cl p va cells src id dry r).bind fun s n => .done s (l.length + n)

/-- The bytes of a piece written by a command of an engine; a dry run writes nothing. -/
def State.engWrite (s : State) (cl : Nat) (p : Piece) (va : W64) (l : List Byte) (src : WrSrc) (id : Nat) (dry : Bool) : EngRes Nat :=
  match s.gates (clusterDie cl) true (some (.command id)) p.keys with
  | .wait => .wait
  | .act s' => .act s'
  | .go => s.engWriteLines cl p va ((List.range l.length).map fun i => (p.pa + i, l.getD i 0)) src id dry p.keys

/-- Does a write of a command still await a home? -/
def State.engLanding (s : State) (id : Nat) : Bool := s.asked fun w => match w with | .engine i _ => i == id | _ => false
/-- The bytes of a command's writes that their homes did not take. -/
def State.engLost (s : State) (id : Nat) : Nat := ((s.coh.lost.filter (·.1 == id)).map (·.2.2)).sum
/-- A command's writes have all been answered: how many of `n` bytes are at their homes, and the error code that results (R196, R376). -/
def State.engSettled (s : State) (id n code : Nat) : State × Nat × Nat :=
  let k := s.engLost id
  ({ s with coh := { s.coh with lost := s.coh.lost.filter (·.1 != id) } }, n - k, if code = 0 ∧ k ≠ 0 then 0x05 else code)

/-- A range of memory split at page boundaries; the fuel bounds the number of chunks. -/
def pageChunks (va len : Nat) : Nat → List (Nat × Nat)
  | 0 => []
  | n + 1 =>
    if len = 0 then []
    else
      let k := min len (4096 - va % 4096)
      (va, k) :: pageChunks (va + k) (len - k) n

def chunksOf (va : W64) (len : Nat) : List (W64 × Nat) :=
  (pageChunks va.toNat len (len / 4096 + 2)).map fun p => (BitVec.ofNat 64 p.1, p.2)

/-- Memory read by an engine, chunk by chunk. -/
def State.engLoadChunks (s : State) (w : Who) (dry : Bool) : List (W64 × Nat) → EngRes (List Byte)
  | [] => .done s []
  | (va, n) :: l =>
    (s.engPiece w .load va n).bind fun s p =>
      (s.engRead w.cl p va dry).bind fun s b => (s.engLoadChunks w dry l).bind fun s r => .done s (b ++ r)

def State.engLoad (s : State) (w : Who) (va : W64) (len : Nat) (dry : Bool) : EngRes (List Byte) :=
  s.engLoadChunks w dry (chunksOf va len)

/-- Memory written by a command of an engine, chunk by chunk: the number of bytes. -/
def State.engStoreChunks (s : State) (w : Who) (src : WrSrc) (id : Nat) (dry : Bool) : List (W64 × Nat) → List Byte → EngRes Nat
  | [], _ => .done s 0
  | (va, n) :: l, d =>
    (s.engPiece w .store va n).bind fun s p =>
      (s.engWrite w.cl p va (d.take n) src id dry).bind fun s k =>
        (s.engStoreChunks w src id dry l (d.drop n)).bind fun s m => .done s (k + m)

def State.engStore (s : State) (w : Who) (va : W64) (l : List Byte) (src : WrSrc) (id : Nat) (dry : Bool) : EngRes Nat :=
  s.engStoreChunks w src id dry (chunksOf va l.length) l

/-- The first poisoned byte of a range of a group scratchpad (R442). -/
def State.spadPoison (s : State) (g : Group) (off len : Nat) : Option Nat :=
  if s.coh.poisonPool.isEmpty then none
  else ((List.range len).find? fun i =>
    match g.spadAt (off + i) with
    | some a => s.coh.poisonPool.contains (a / 8)
    | none => false).map (off + ·)

/-- A group scratchpad read by an engine: out of bounds is 0x07 of Table 6-5. -/
def State.engSpad (s : State) (g : Group) (off len : Nat) : EngRes (List Byte) :=
  if !g.inSpad off len then .err s 0x07 .prot (BitVec.ofNat 64 (max off g.spadSize))
  else
    match s.spadPoison g off len with
    | some a => .err s 0x05 .poison (BitVec.ofNat 64 a)
    | none => .done s (s.spadRead g off len)

/-- A group scratchpad written by an engine; a dry run writes nothing. -/
def State.engSpadWrite (s : State) (g : Group) (off : Nat) (l : List Byte) (dry : Bool) : EngRes Nat :=
  if !g.inSpad off l.length then .err s 0x07 .prot (BitVec.ofNat 64 (max off g.spadSize))
  else .done (if dry then s else s.spadWrite g off l) l.length

/-- R196: n bytes counted on a word in pieces of at most 512. -/
def State.arriveBytes (s : State) (w : WLoc) (n : Nat) : State :=
  let s := (List.range (n / 512)).foldl (fun s _ => s.arrive w 512) s
  if n % 512 = 0 then s else s.arrive w (n % 512)

/-- The word at an offset of a group scratchpad. -/
def Group.wordAt (g : Group) (off : Nat) : Option WLoc := (g.spadAt off).map fun a => .pool a (BitVec.ofNat 64 (off + 1))

/-- The member grids that a mask names, or none for a plain offset. -/
def maskMembers (m : BitVec 4) : List Nat := (List.range 4).filter fun j => m.getLsbD j
/-- The group offsets that a mask makes of an offset: on each grid that it names, the same place of its partition (R217, R205). -/
def Group.masked (g : Group) (m : BitVec 4) (off : Nat) : List Nat :=
  if m = 0 ∨ g.part = 0 then [off] else (maskMembers m).map fun j => j * g.part + off % g.part

/-- Where a scratchpad destination begins: with a mask, in the partition of each grid that it names. -/
def Group.landing (g : Group) (m : BitVec 4) (off : W64) : W64 := if m = 0 ∨ g.part = 0 then off else BitVec.ofNat 64 (off.toNat % g.part)

/-- A group scratchpad written at an offset, or on each grid of a mask at an offset of its partition, which the bytes may not leave (0x07 of
Table 6-5); a dry run writes nothing. -/
def State.engSpadWrites (s : State) (g : Group) (m : BitVec 4) (off : Nat) (l : List Byte) (dry : Bool) : EngRes Nat :=
  if m = 0 ∨ g.part = 0 then s.engSpadWrite g off l dry
  else if g.part < off + l.length then .err s 0x07 .prot (BitVec.ofNat 64 (max off g.part))
  else ((maskMembers m).foldl (fun (r : EngRes Nat) j => r.bind fun s _ => s.engSpadWrite g (j * g.part + off) l dry) (.done s l.length))

/-- An ended record of a copy-engine command (R219, R220). -/
def Thread.crecDone (t : Thread) (id err ostat : Nat) : Thread :=
  { t with crecs := t.crecs.map fun r => if r.id = id then { r with done := true, err := err, ostat := ostat } else r }

end Sys2Proof.Machine
end

