-- ==== Sys2Proof/Machine/Engines.lean ====
section
/-! DEFINITION. The copy engine (07 R215 to R220, 12 R349, R351): COPY, GATHER, SCATTER and CWAIT as they fire, and the steps of a
command after its commit. -/

namespace Sys2Proof.Machine

/-! ### Control words (Table 7-4, R218) -/

/-- SOFF in bytes, SV and LEN. -/
def ctlSoff (c : W64) : Nat := 16 * bitsOf c.toNat 63 36
def ctlSv (c : W64) : Bool := c.getLsbD 35
def ctlLen (c : W64) : Nat := c.toNat % 2 ^ 32
/-- NIDX and RS in bytes of a gather control word. -/
def ctlNidx (c : W64) : Nat := bitsOf c.toNat 31 16
def ctlRs (c : W64) : Nat := 16 * (c.toNat % 4096)
/-- The two offsets of a gather's offset pair. -/
def pairRows (b : W64) : Nat := b.toNat / 2 ^ 32
def pairList (b : W64) : Nat := b.toNat % 2 ^ 32

/-- A multiple of 16. -/
def on16 (x : W64) : Bool := x.toNat % 16 == 0

/-- Do two ranges of one space overlap? -/
def rangesMeet (a b : W64) (len : Nat) : Bool := decide (a.toNat < b.toNat + len) && decide (b.toNat < a.toNat + len)

/-- Does a word at a group scratchpad offset fit, with a mask on each masked grid (R212, R217)? -/
def Group.wordFits (g : Group) (m : BitVec 4) (off : Nat) : Bool := (g.masked m off).all fun o => g.inSpad o 16

/-- Does a range fit at a group scratchpad offset, with a mask within the partition of each masked grid? -/
def Group.rangeFits (g : Group) (m : BitVec 4) (off len : Nat) : Bool :=
  if m = 0 then g.inSpad off len else decide (0 < g.part) && decide (off % g.part + len ≤ g.part)

/-- Does a mask name a grid that the group does not have? -/
def Group.maskBeyond (g : Group) (m : BitVec 4) : Bool := (maskMembers m).any fun j => decide (g.members.length ≤ j)

/-- A command has passed its checks: its effect is recorded and its issue token delivered (R211). -/
def Site.issue (x : Site) (h : Hdr) (i : Instr) (s : State) : State :=
  (s.record x i []).deliver x.ref h (.narrow 0) (.narrow 0)

/-- COPY (R212, R216, R217). Of the reasons that belong to no one operand, GMASK (0x04) and the overlap (0x06) name operand B (log entry
49). -/
def execCopy (k : CopyKind) (h : Hdr) (gmask : BitVec 4) (s : State) : Out :=
  fireForm h.pm (some h) (ops [0, 1, 2]) (fun x s =>
    let a := x.a.word
    let b := x.b'.word
    let c := x.c'.word
    let len := ctlLen c
    match s.group x.t.gid with
    | none => badOperand 0x05 1
    | some g =>
      if !on16 a then badOperand 0x01 0
      else if !on16 b then badOperand 0x01 1
      else if len % 16 ≠ 0 then badOperand 0x01 2
      else if len < 16 then badOperand 0x02 2
      else if bitsOf c.toNat 34 32 ≠ 0 then badOperand 0x03 2
      else if g.maskBeyond gmask then badOperand 0x04 1
      else if k = .ms ∧ !g.rangeFits gmask b.toNat len then badOperand 0x05 1
      else if k = .sm ∧ !g.inSpad a.toNat len then badOperand 0x05 0
      else if ctlSv c ∧ !g.wordFits gmask (ctlSoff c) then badOperand 0x05 2
      else if k = .mm ∧ rangesMeet a b len then badOperand 0x06 1
      else .go fun s => x.issue h (.copy k h gmask) s) s

/-- The checks that GATHER and SCATTER share (R212, R218). -/
def fireIndexed (h : Hdr) (i64 : Bool) (i : Instr) (s : State) : Out :=
  fireForm h.pm (some h) (ops [0, 1, 2]) (fun x s =>
    let a := x.a.word
    let b := x.b'.word
    let c := x.c'.word
    let n := ctlNidx c
    match s.group x.t.gid with
    | none => badOperand 0x05 1
    | some g =>
      if !on16 a then badOperand 0x01 0
      else if pairRows b % 16 ≠ 0 ∨ pairList b % 16 ≠ 0 then badOperand 0x01 1
      else if n = 0 ∨ ctlRs c = 0 then badOperand 0x02 2
      else if bitsOf c.toNat 34 32 ≠ 0 ∨ bitsOf c.toNat 15 12 ≠ 0 then badOperand 0x03 2
      else if !g.inSpad (pairRows b) (n * ctlRs c) ∨ !g.inSpad (pairList b) (n * if i64 then 8 else 4) then badOperand 0x05 1
      else if ctlSv c ∧ !g.wordFits 0 (ctlSoff c) then badOperand 0x05 2
      else .go fun s => x.issue h i s) s

/-- GATHER (R218). -/
def execGather (i64 spad : Bool) (h : Hdr) (s : State) : Out := fireIndexed h i64 (.gather i64 spad h) s
/-- SCATTER (R218). -/
def execScatter (i64 spad : Bool) (h : Hdr) (s : State) : Out := fireIndexed h i64 (.scatter i64 spad h) s

/-- CWAIT (R220) as it fires: its delivery is an event. -/
def execCwait (h : Hdr) (s : State) : Out :=
  fireForm h.pm (some h) (ops []) (fun x _ => .go fun s =>
    (s.record x (.cwait h) []).modBlock x.ref fun b => b.modEntry x.idx fun e => { e with st := .waiting }) s

/-- The status word of Table 7-5. -/
def crecStatus (l : List CRec) : W64 :=
  let first (f : CRec → Nat) : Nat := ((l.map f).find? (· != 0)).getD 0
  BitVec.ofNat 64 (first CRec.err * 2 ^ 24 + min 255 (l.filter (·.err != 0)).length * 2 ^ 16 + first CRec.ostat * 2 ^ 8 + min 255 l.length)

/-- CWAIT_DELIVERY (R220, R267): once its block is oldest and every covered command has completed. -/
def execCwaitDelivery (b : BRef) (idx : Nat) (s : State) : Out :=
  match s.block b with
  | none => .fault .noSuch
  | some (t, x) =>
    match x.entries[idx]? with
    | none => .fault .noSuch
    | some e =>
      match e.st, decode e.word with
      | .waiting, .ok (.cwait h) =>
        if !t.isOldest x || t.crecs.any fun r => !r.done then .fault .notReady
        else
          let v := Token.narrow (crecStatus t.crecs)
          .next (((s.modBlock b fun y => y.modEntry idx fun e => { e with st := .fired }).acquire b.slot).deliver b h v v)
      | _, _ => .fault .noSuch

/-! ### A command's moves -/

/-- The opcode of a command in an ENGINE shaving (Table 15-3). -/
def CopyOp.opcode : CopyOp → Nat
  | .copy _ _ => 0xB0 | .gather _ _ => 0xB1 | .scatter _ _ => 0xB2 | .offer _ _ => 0x65

/-- One move: where it reads, where it writes, how many bytes. -/
structure Move where
  src : W64
  dst : W64
  len : Nat

/-- A range cut where its source or its destination crosses a line; the fuel bounds the number of moves. -/
def cutMoves (a b : W64) (len : Nat) : Nat → List Move
  | 0 => []
  | n + 1 =>
    if len = 0 then []
    else
      let k := min len (min (128 - a.toNat % 128) (128 - b.toNat % 128))
      ⟨a, b, k⟩ :: cutMoves (a + BitVec.ofNat 64 k) (b + BitVec.ofNat 64 k) (len - k) n
def movesOf (a b : W64) (len : Nat) : List Move := cutMoves a b len (len / 16 + 2)

/-- The indices of a gather's list (R218). -/
def indicesOf (l : List Byte) (i64 : Bool) (n : Nat) : List Nat :=
  let w := if i64 then 8 else 4
  (List.range n).map fun j => leNat ((l.drop (w * j)).take w)

/-- The spaces and moves of a command: source in the scratchpad?, destination in the scratchpad?, the mask, the moves (R216 to R218); with a
mask a destination is a place in a partition. -/
structure Job where
  srcSpad : Bool
  dstSpad : Bool
  mask : BitVec 4
  moves : List Move

def CopyCmd.rows (c : CopyCmd) (idx : List Nat) (scatter : Bool) : List Move :=
  (idx.zipIdx.map fun p =>
    let ind := c.a + BitVec.ofNat 64 (p.1 * ctlRs c.c)
    let row := BitVec.ofNat 64 (pairRows c.b + p.2 * ctlRs c.c)
    if scatter then movesOf row ind (ctlRs c.c) else movesOf ind row (ctlRs c.c)).flatten

/-- Who a command accesses as: the address space and mode of its thread when it was committed. -/
def CopyCmd.who (c : CopyCmd) (cl : Nat) : Who := ⟨cl, none, c.asid, c.ptbase, c.sup, c.img⟩

/-- The job of a command; GATHER and SCATTER read their index list first. -/
def State.jobOf (s : State) (g : Group) (c : CopyCmd) : EngRes Job :=
  match c.op with
  | .copy .mm _ => .done s ⟨false, false, 0, movesOf c.a c.b (ctlLen c.c)⟩
  | .copy .ms m => .done s ⟨false, true, m, movesOf c.a (g.landing m c.b) (ctlLen c.c)⟩
  | .copy .sm _ => .done s ⟨true, false, 0, movesOf c.a c.b (ctlLen c.c)⟩
  | .gather i64 spad =>
    (s.engSpad g (pairList c.b) (ctlNidx c.c * if i64 then 8 else 4)).bind fun s l =>
      .done s ⟨spad, true, 0, c.rows (indicesOf l i64 (ctlNidx c.c)) false⟩
  | .scatter i64 spad =>
    (s.engSpad g (pairList c.b) (ctlNidx c.c * if i64 then 8 else 4)).bind fun s l =>
      .done s ⟨true, spad, 0, c.rows (indicesOf l i64 (ctlNidx c.c)) true⟩
  | .offer spad _ => .done s ⟨spad, false, 0, movesOf c.b c.b c.c.toNat⟩

/-- One move of a command: the bytes written. -/
def State.moveOne (s : State) (w : Who) (g : Group) (j : Job) (m : Move) (id : Nat) (dry : Bool) : EngRes Nat :=
  (if j.srcSpad then s.engSpad g m.src.toNat m.len else s.engLoad w m.src m.len dry).bind fun s l =>
    if j.dstSpad then s.engSpadWrites g j.mask m.dst.toNat l dry else s.engStore w m.dst l .engine id dry

/-- The moves of a job in order: the bytes written, and the code of the error that ended it or 0 (R219). With `quit` a translation
that the pager gave up is such an error, code 0x01 (R309). -/
def State.moveAll (s : State) (w : Who) (g : Group) (j : Job) (id : Nat) (dry quit : Bool) : List Move → Nat → EngRes (Nat × Nat)
  | [], n => .done s (n, 0)
  | m :: l, n =>
    match s.moveOne w g j m id dry with
    | .done s k => s.moveAll w g j id dry quit l (n + k)
    | .err s code _ _ => .done s (n, code)
    | .page va lvl mal nc wr => if quit then .done s (n, 1) else .page va lvl mal nc wr
    | .wait => .wait
    | .act s => .act s

/-- A translation that the pager gave up (R309): its address, and whether it was written. -/
structure GivenUp where
  va : W64
  wr : Bool

/-- Does a move need that translation? -/
def GivenUp.stops (x : GivenUp) (srcMem dstMem : Bool) (m : Move) : Bool :=
  let page (a : W64) : Bool := a.toNat / 4096 == x.va.toNat / 4096
  if x.wr then dstMem && page m.dst else srcMem && page m.src

/-- The bytes of an OFFER's tile, move by move (R208). -/
def State.readAll (s : State) (w : Who) (g : Group) (spad : Bool) (dry : Bool) : List Move → EngRes (List Byte)
  | [] => .done s []
  | m :: l =>
    (if spad then s.engSpad g m.src.toNat m.len else s.engLoad w m.src m.len dry).bind fun s b =>
      (s.readAll w g spad dry l).bind fun s r => .done s (b ++ r)

/-- A command carried out: bytes written, error code, and the tile of an OFFER. One that the pager gave up is carried out as far as it goes
without the translation. -/
def State.copyTry (s : State) (cl : Nat) (c : CopyCmd) (dry : Bool) (quit : Option GivenUp) : EngRes (Nat × Nat × List Byte) :=
  match s.group c.gid with
  | none => .done s (0, 0x07, [])
  | some g =>
    match s.jobOf g c with
    | .err s code _ _ => .done s (0, code, [])
    | r => r.bind fun s j =>
      match c.op with
      | .offer spad _ =>
        match s.readAll (c.who cl) g spad dry j.moves with
        | .err s code _ _ => .done s (0, code, [])
        | .page va lvl mal nc wr => if quit.isSome then .done s (0, 1, []) else .page va lvl mal nc wr
        | r => r.bind fun s l => .done s (0, 0, l)
      | _ =>
        let moves := match quit with
          | some x => j.moves.takeWhile fun m => !x.stops (!j.srcSpad) (!j.dstSpad) m
          | none => j.moves
        (s.moveAll (c.who cl) g j c.id dry quit.isSome moves 0).bind fun s r => .done s (r.1, r.2, [])

/-! ### The steps of a command -/

def Cluster.cmd (x : Cluster) (cmd : Nat) : Option CopyCmd := x.copyQ.find? (·.id == cmd)
def State.modCmd (s : State) (cl cmd : Nat) (f : CopyCmd → CopyCmd) : State :=
  s.modCl cl fun x => { x with copyQ := x.copyQ.map fun c => if c.id = cmd then f c else c }

/-- The chuck entries of a command are released. -/
def State.freeChuck (s : State) (cl owner : Nat) : State :=
  s.modCl cl fun x => { x with chuck := x.chuck.filter (·.owner != owner) }

/-- A command ends: it leaves the queue, its chuck entries are free, its record holds its codes. -/
def State.copyEnd (s : State) (cl : Nat) (c : CopyCmd) (err ostat : Nat) : State :=
  let s := (s.freeChuck cl c.id).modCl cl fun x => { x with copyQ := x.copyQ.filter (·.id != c.id) }
  let s := match tget s.thr c.slot with
    | some t => if t.gid = c.gid then s.modThread c.slot fun t => t.crecDone c.id err ostat else s
    | none => s
  let s := s.dropWalks (c.who cl) none
  let src := match c.op with | .offer _ _ => c.b | _ => c.a
  let dst := match c.op with | .offer _ _ => 0 | .gather _ _ => BitVec.ofNat 64 (pairRows c.b) | _ => c.b
  s.shave cl 0x06 c.slot 0 (2 ^ 31 + err * 256 + c.op.opcode) src dst

/-- The sync words of a command (R217). -/
def CopyCmd.words (c : CopyCmd) (g : Group) : List WLoc :=
  if !ctlSv c.c then []
  else
    match c.op with
    | .copy _ m => (g.masked m (ctlSoff c.c)).filterMap g.wordAt
    | .offer _ _ => []
    | _ => (g.wordAt (ctlSoff c.c)).toList

/-- A command has moved its bytes or met an error: the bytes are counted, then the error set (R196, R217, R219). -/
def State.copyCount (s : State) (c : CopyCmd) (n code : Nat) : State :=
  match s.group c.gid with
  | none => s
  | some g => (c.words g).foldl (fun s w =>
      let s := if n = 0 then s else s.arriveBytes w n
      if code = 0 then s else s.setErr w code) s

/-- Is a command among the four that an engine runs at once? -/
def CopyState.runs : CopyState → Bool
  | .running => true | .landing _ _ => true | .quitting _ _ => true
  | _ => false

/-- Must an OFFER still wait for what its tile is read after (R208): every access of its thread that device scope covers, with what a FENCE
before it still awaits, scratchpad stores behind one, and stores of siblings that the thread has read (R261, R269)? -/
def State.offerWaits (s : State) (c : CopyCmd) : Bool :=
  !s.coh.awaits.isEmpty || (match tget s.thr c.slot with
    | none => false
    | some t => t.gid == c.gid && ((t.tail.any fun x => decide (x.order < c.order)) || !s.visible (t.sibReads.filter fun n => decide (n < c.order))))

/-- COPY_COMMAND_START (R215, R208, R349): in the order of the queue, four at once, after its thread's earlier stores are at their
homes; an OFFER's tile after every access that device scope covers. -/
def execCopyCommandStart (cl cmd : Nat) (s : State) : Out :=
  match (s.cl cl).cmd cmd with
  | none => .fault .noSuch
  | some c =>
    if c.st ≠ .queued then .fault .noSuch
    else
      let earlier := (s.cl cl).copyQ.takeWhile (·.id != cmd)
      let offer := match c.op with | .offer _ _ => true | _ => false
      if (earlier.any fun x => x.st == .queued) || decide (4 ≤ ((s.cl cl).copyQ.filter fun x => x.st.runs).length)
          || s.storesPending c.slot c.order || (offer && s.offerWaits c) then .fault .notReady
      else .next (s.modCmd cl cmd fun c => { c with st := .running })

/-- A command has written its bytes: it ends once every home has answered (R196). -/
def State.copyLand (s : State) (cl : Nat) (c : CopyCmd) (n code : Nat) : State :=
  if s.engLanding c.id then s.modCmd cl c.id fun c => { c with st := .landing n code }
  else let r := s.engSettled c.id n code; (r.1.copyCount c r.2.1 r.2.2).copyEnd cl c r.2.2 0

/-- A command has been carried out: an OFFER's tile, once read, is placed (R208, R368). -/
def State.copyDone (s : State) (cl : Nat) (c : CopyCmd) (n code : Nat) (tile : List Byte) : State :=
  match c.op with
  | .offer _ ret =>
    if code ≠ 0 then s.copyEnd cl c code code
    else
      ((s.freeChuck cl c.id).modCmd cl c.id fun c => { c with st := .placing }).post
        [.place cl c.asid c.a .lookup ⟨.engine cl c.id, ret, tile⟩]
  | _ => s.copyLand cl c n code

/-- A command is carried out once all that it needs is there; one that the pager gave up has code 0x01 after the bytes before the unresolved
translation (R309). -/
def State.copyRun (s : State) (cl : Nat) (c : CopyCmd) (quit : Option GivenUp) : Out :=
  match s.copyTry cl c true quit with
  | .wait => .fault .notReady
  | .page _ _ _ _ _ => .fault .notReady
  | .act s' => .next s'
  | _ =>
    match s.copyTry cl c false quit with
    | .done s (n, code, tile) => .next (s.copyDone cl c n (if quit.isSome then 0x01 else code) tile)
    | _ => .fault .notReady

/-- COPY_COMMAND_COMPLETE (R215 to R219, R266): the bytes move and are counted. -/
def execCopyCommandComplete (cl cmd : Nat) (s : State) : Out :=
  match (s.cl cl).cmd cmd with
  | none => .fault .noSuch
  | some c =>
    match c.st with
    | .queued => .fault .noSuch
    | .placing => .fault .noSuch
    | .landing n code => if s.engLanding cmd then .fault .notReady else .next (s.copyLand cl c n code)
    | .running => if c.fslot.isSome then .fault .notReady else s.copyRun cl c none
    | .quitting va wr => s.copyRun cl c (some ⟨va, wr⟩)

/-- The pager gives a command up (R309). -/
def State.copyAbandon (s : State) (cl : Nat) (c : CopyCmd) (x : GivenUp) : State :=
  s.modCmd cl c.id fun c => { c with st := .quitting x.va x.wr }

end Sys2Proof.Machine
end

