-- ==== Sys2Proof/Machine/Named.lean ====
section
/-! DEFINITION. Named data (06 R204 to R209, 13 R356 to R371): WANT, OFFER and WDROP as they fire, the routers of the cluster stops,
name resolution, tile stores and deposits. The number of a stop is the number of its cluster. -/

namespace Sys2Proof

/-- The direction back. -/
def Dir.back : Dir → Dir
  | .north => .south | .south => .north | .east => .west | .west => .east

/-- The goal of a packet that has crossed to a die. -/
def NdGoal.arrived : NdGoal → NdGoal
  | .die _ => .lookup
  | g => g

/-- The same end path (R206, R362): destination, mask, space and reference; scratchpad places are those of one group. -/
def EndPath.same (a b : EndPath) : Bool :=
  a.dest == b.dest && a.gmask == b.gmask && a.spad == b.spad && a.ref == b.ref
    && (!(a.spad || a.ref.toNat % 16 == 1) || a.group == b.group)
def NdPath.same : NdPath → NdPath → Bool
  | .endp a, .endp b => a.same b
  | a, b => a == b
def NdPath.isEnd : NdPath → Bool
  | .endp _ => true
  | _ => false

/-- A retention in 16 bits. -/
def Retention.code : Retention → Nat
  | .byCount n => n.toNat
  | .byLife n => 2 ^ 15 + n.toNat
def Retention.ofCode (c : Nat) : Retention :=
  if 2 ^ 15 ≤ c then .byLife (BitVec.ofNat 12 c) else .byCount (BitVec.ofNat 9 c)

end Sys2Proof

namespace Sys2Proof.Machine

/-! ### The forms as they fire -/

/-- WANT (R205). -/
def execWant (spad : Bool) (pm : Pm) (lsid : BitVec 5) (life : BitVec 12) (gmask : BitVec 4) (s : State) : Out :=
  fireMem pm none lsid.toNat [0, 1, 2] (fun x s =>
    let b := x.b'.word
    let c := x.c'.word
    let i : Instr := .want spad pm lsid life gmask
    let keep (l : Option WLoc) (ps : List Piece) : Found :=
      .go fun s => (s.resolveAt x.ref x.idx lsid.toNat .performed).recordAt x i [] l ps
    if !on16 b then .fail .align b
    else
      match s.group x.t.gid with
      | none => .fail .prot c
      | some g =>
        if g.maskBeyond gmask then .fail .prot c
        else if gmask = 0 then s.reachWord x true c fun l ps => keep (some l) ps
        else if c.toNat % 16 = 0 then .fail .prot c
        else if 2 ≤ c.toNat % 16 then .fail .align c
        else if g.part = 0 then .fail .prot c
        else if s.formFull x then .wait
        else keep none []) s

/-- OFFER (R208). -/
def execOffer (spad : Bool) (r : Retention) (pm : Pm) (lsid : BitVec 5) (s : State) : Out :=
  fireMem pm none lsid.toNat [0, 1, 2] (fun x s =>
    let b := x.b'.word
    let c := x.c'.word
    if !on16 b then .fail .align b
    else if c.toNat < 16 ∨ 65536 < c.toNat ∨ c.toNat % 16 ≠ 0 then .fail .align c
    else if s.formFull x then .wait
    else .go fun s => (s.resolveAt x.ref x.idx lsid.toNat .performed).recordAt x (.offer spad r pm lsid) [] none []) s

/-- WDROP (R209). -/
def execWdrop (pm : Pm) (lsid : BitVec 5) (s : State) : Out :=
  fireMem pm none lsid.toNat [0, 1] (fun x s =>
    if s.formFull x then .wait
    else .go fun s => (s.resolveAt x.ref x.idx lsid.toNat .performed).recordAt x (.wdrop pm lsid) [] none []) s

/-! ### Names and routes (R358, R359) -/

/-- Tensor id and tile index of a name. -/
def nameT (n : W64) : Nat := bitsOf n.toNat 63 40
def nameX (n : W64) : Nat := bitsOf n.toNat 39 8

/-- Does a name-table entry map a name (R358)? -/
def nameHit (e : BitVec 512) (asid : BitVec 16) (n : W64) : Bool :=
  let p := recField e 36 32
  e.getLsbD 31 && e.extractLsb' 64 16 == asid && nameT n % 2 ^ p == recField e 63 40 % 2 ^ p

/-- R358: what a die's table makes of a name: the entry of the longest match, the lowest index first. -/
def State.resolveName (s : State) (die : Nat) (asid : BitVec 16) (n : W64) : Option NdGoal :=
  let best := (s.die die).names.foldl (fun (b : Option (BitVec 512)) p =>
    if nameHit p.2 asid n then
      match b with
      | some e => if recField e 36 32 < recField p.2 36 32 then some p.2 else b
      | none => some p.2
    else b) none
  best.map fun e =>
    match recField e 30 29 with
    | 0 => .rendezvous (128 * die + (recField e 25 19 + nameX n % 2 ^ recField e 28 26) % 128)
    | 1 => .die (recField e 18 17)
    | _ => .dev (recField e 16 5) (recField e 18 17) (8 * recField e 18 17 + nameX n % 8)

/-- The stop one hop away. -/
def neighbor (stop : Nat) : Dir → Nat
  | .north => stop - 16 | .south => stop + 16 | .east => stop + 1 | .west => stop - 1
/-- One step toward a stop of the die: along the row first (R359). -/
def toward (a b : Nat) : Option NdPath :=
  if stopCol a < stopCol b then some (.dir .east)
  else if stopCol b < stopCol a then some (.dir .west)
  else if stopRow a < stopRow b then some (.dir .south)
  else if stopRow b < stopRow a then some (.dir .north)
  else none

/-- The lookup stop of a name on a die, and the stop of an Eveod port (R356, R358). -/
def lookupStop (die : Nat) (n : W64) : Nat := 128 * die + nameT n % 128
def portStop (p : Nat) : Nat := 128 * (p / 8) + 16 * (p % 8) + 15
/-- The stop at which the fabric enters a die from a row. -/
def fabricStop (die from_ : Nat) : Nat := 128 * die + 16 * stopRow from_

/-- The next hop of a packet at a stop; `none` at its goal. -/
def hopOf (stop : Nat) (n : W64) (goal : NdGoal) : Option NdPath :=
  let die := stop / 128
  let out (d : Nat) : Option NdPath := if stopCol stop = 0 then some (.fabric d) else some (.dir .west)
  match goal with
  | .lookup => toward stop (lookupStop die n)
  | .rendezvous c => toward stop c
  | .die d => out d
  | .dev dv d p => if die ≠ d then out d else if stop = portStop p then some (.port p dv) else toward stop (portStop p)

/-! ### The time base (R364) -/

/-- Ticks of 64 ns: the last one, and the first at or after a number of ninths of a nanosecond. -/
def State.tick (s : State) : Nat := s.ns9 / 576
def tickUp (ns9 : Nat) : Nat := (ns9 + 575) / 576

/-! ### Router tables (R361) -/

/-- The records and the entry of a name at a stop. -/
def PitRec.here (r : PitRec) (stop : Nat) (asid : BitVec 16) (n : W64) : Bool := r.stop == stop && r.asid == asid && r.name == n
def PitEnt.here (r : PitEnt) (stop : Nat) (asid : BitVec 16) (n : W64) : Bool := r.stop == stop && r.asid == asid && r.name == n
def TsEnt.here (r : TsEnt) (stop : Nat) (asid : BitVec 16) (n : W64) : Bool := r.stop == stop && r.asid == asid && r.name == n
def State.ndEnt (s : State) (stop : Nat) (asid : BitVec 16) (n : W64) : Option PitEnt := s.net.ents.find? (·.here stop asid n)
def State.ndRecs (s : State) (stop : Nat) (asid : BitVec 16) (n : W64) : List PitRec := s.net.recs.filter (·.here stop asid n)
def State.tileAt (s : State) (stop : Nat) (asid : BitVec 16) (n : W64) : Option TsEnt := s.net.tiles.find? (·.here stop asid n)
def State.modNet (s : State) (f : Net → Net) : State := { s with net := f s.net }
def State.modEnt (s : State) (stop : Nat) (asid : BitVec 16) (n : W64) (f : PitEnt → PitEnt) : State :=
  s.modNet fun x => { x with ents := x.ents.map fun e => if e.here stop asid n then f e else e }
def State.modTile (s : State) (stop : Nat) (asid : BitVec 16) (n : W64) (f : TsEnt → TsEnt) : State :=
  s.modNet fun x => { x with tiles := x.tiles.map fun e => if e.here stop asid n then f e else e }

/-- An entry with its records is freed. -/
def State.freeEnt (s : State) (stop : Nat) (asid : BitVec 16) (n : W64) : State :=
  s.modNet fun x => { x with recs := x.recs.filter (fun r => !r.here stop asid n), ents := x.ents.filter fun e => !e.here stop asid n }

/-- The sync words of an end path: the word of each masked grid, or its one word (R205). -/
def State.endWords (s : State) (e : EndPath) : List WLoc :=
  if e.ref.toNat % 16 = 1 then
    match s.group e.group with
    | none => []
    | some g => (g.masked e.gmask (refBase e.ref).toNat).filterMap g.wordAt
  else e.word.toList

/-! ### Messages by Eveod links (R360, Table 14-8; the places of fields in beats are the model's, log entry 11) -/

/-- The beats of a tile: its size and retention, then its bytes. -/
def tileBeats (l : List Byte) (ret : Nat) : List (BitVec 128) :=
  BitVec.ofNat 128 (ret * 2 ^ 32 + l.length)
    :: (List.range ((l.length + 15) / 16)).map fun i => BitVec.ofNat 128 (leNat ((l.drop (16 * i)).take 16))

/-- Beats in groups of sixteen: the segments of a tile. -/
def chunks16 : List (BitVec 128) → Nat → List (List (BitVec 128))
  | _, 0 => []
  | [], _ => []
  | l, n + 1 => l.take 16 :: chunks16 (l.drop 16) n

/-- The segments of a tile sent by a port under one tag. -/
def State.sendTile (s : State) (p dev cls : Nat) (tag : BitVec 13) (asid : BitVec 16) (n : W64) (l : List (List (BitVec 128))) : State :=
  l.foldl (fun (s : State) b => s.transmit p ⟨BitVec.ofNat 12 dev, BitVec.ofNat 12 s.dev, BitVec.ofNat 6 cls, tag, asid, n, b⟩) s

/-! ### Packets on their way -/

/-- An INTEREST or ADD leaves a stop by a path; toward a link with its deadline, which becomes ticks as it crosses (R364). -/
def State.sendInterest (s : State) (isAdd : Bool) (path : NdPath) (p : NdPacket) : State :=
  let go (arr : NdPath) (q : NdPacket) : State := s.post [if isAdd then .addPacket ⟨q, arr⟩ else .interest arr q]
  match path with
  | .dir d => go (.dir d.back) { p with stop := neighbor p.stop d }
  | .fabric d => go (.fabric (p.stop / 128)) { p with stop := fabricStop d p.stop, goal := p.goal.arrived }
  | .port q dev =>
    s.transmit q ⟨BitVec.ofNat 12 dev, BitVec.ofNat 12 s.dev, if isAdd then 0x0C else 0x0B, 0, p.asid, p.name,
      [ndBeat p.weight p.deadline]⟩
  | .endp _ => s

/-- A deposit of a tile at an end path begins (R207, R365). -/
def State.startDeposit (s : State) (stop : Nat) (asid : BitVec 16) (e : EndPath) (data : List Byte) : State :=
  let n := s.newUid
  n.2.modNet fun x => { x with deposits := x.deposits ++
    [{ id := n.1, stop := stop, asid := asid, ep := e, data := data, at_ := 0, landing := none, fslot := none, firstPost := none : Deposit }] }

/-- A tile or a NACK goes back along one path of a record. -/
def State.backTile (s : State) (stop : Nat) (asid : BitVec 16) (n : W64) (data : List Byte) : NdPath → State
  | .dir d => s.post [.tile (neighbor stop d) asid n data]
  | .fabric d => s.post [.tile (fabricStop d stop) asid n data]
  | .port p dev => s.sendTile p dev 0x27 0 asid n (chunks16 (tileBeats data 0) 257)
  | .endp e => s.startDeposit stop asid e data
def State.backNack (s : State) (stop : Nat) (asid : BitVec 16) (n : W64) (code : Byte) : NdPath → State
  | .dir d => s.post [.nack (neighbor stop d) asid n code]
  | .fabric d => s.post [.nack (fabricStop d stop) asid n code]
  | .port p dev => s.transmit p ⟨BitVec.ofNat 12 dev, BitVec.ofNat 12 s.dev, 0x28, code.setWidth 13, asid, n, []⟩
  | .endp e => (s.endWords e).foldl (fun (s : State) w => s.wordBy stop w (.setErr code.toNat)) s

/-- R365: every return path of an entry is answered, and the entry freed. -/
def State.reply (s : State) (stop : Nat) (asid : BitVec 16) (n : W64) (data : List Byte) : State :=
  let l := s.ndRecs stop asid n
  l.foldl (fun s r => s.backTile stop asid n data r.path) (s.freeEnt stop asid n)

/-- The place of a packet's input port among those of a router: its own stop, then north, east, south, west, then links. -/
def inputPort : NdPath → Nat
  | .endp _ => 0
  | .dir .north => 1 | .dir .east => 2 | .dir .south => 3 | .dir .west => 4
  | .fabric d => 5 + d
  | .port p _ => 9 + p

/-- The order of a packet or transition among those that reach a router at one time (R369); a transition counts while its tile is filling. -/
def State.ndRank (s : State) (stop : Nat) : Instr → Option Nat
  | .tileStoreFilled st a x => if st = stop ∧ ((s.tileAt st a x).any (·.st == .filling)) = true then some 0 else none
  | .tile st _ _ _ => if st = stop then some 1 else none
  | .nack st _ _ _ => if st = stop then some 2 else none
  | .interest arr p => if p.stop = stop then some (3 + inputPort arr) else none
  | .addPacket p => if p.stop = stop then some (3 + inputPort p.arr) else none
  | _ => none

/-- Has a packet reached the router that goes before one of this rank (R369)? -/
def State.ndEarlier (s : State) (stop rank : Nat) : Bool :=
  s.agenda.any fun i => match s.ndRank stop i with | some k => decide (k < rank) | none => false

/-- TILE (R365). -/
def execTile (stop : Nat) (asid : BitVec 16) (name : W64) (data : List Byte) (s : State) : Out :=
  if s.ndEarlier stop 1 then .fault .notReady else .next (s.reply stop asid name data)

/-- NACK (R366). -/
def execNack (stop : Nat) (asid : BitVec 16) (name : W64) (code : Byte) (s : State) : Out :=
  let l := s.ndRecs stop asid name
  if s.ndEarlier stop 2 then .fault .notReady
  else .next (l.foldl (fun s r => s.backNack stop asid name code r.path) (s.freeEnt stop asid name))

/-- A tile store sends its tile for a weight: count retention is reduced, and at 0 the entry drains (R367). -/
def State.spend (s : State) (stop : Nat) (asid : BitVec 16) (n : W64) (k : Nat) : State :=
  s.modTile stop asid n fun e =>
    match e.ret with
    | .count c => { e with ret := .count (c - k), st := if c ≤ k then .draining else e.st }
    | .until _ => e

/-- A record is added to an entry; the same path has one record, with the later deadline. -/
def State.addRec (s : State) (stop : Nat) (asid : BitVec 16) (n : W64) (path : NdPath) (deadline : Nat) : State :=
  s.modNet fun x =>
    if x.recs.any fun r => r.here stop asid n && r.path.same path then
      { x with recs := x.recs.map fun r => if r.here stop asid n && r.path.same path then { r with deadline := max r.deadline deadline } else r }
    else { x with recs := x.recs ++ [⟨stop, asid, n, path, deadline⟩] }

/-- The end path of a WANT equals one that is pending (R206). -/
def State.mergedWant (s : State) (arr : NdPath) (p : NdPacket) : Bool :=
  arr.isEnd && (s.ndRecs p.stop p.asid p.name).any fun r => r.path.same arr

/-- A packet that makes the entry of its stop, its goal settled: answered, waiting at the rendezvous, or forwarded (Table 13-3). -/
def State.interestNew (s : State) (arr : NdPath) (p : NdPacket) : State :=
  let s := s.addRec p.stop p.asid p.name arr p.deadline
  let hop := hopOf p.stop p.name p.goal
  let s := s.modNet fun x =>
    { x with ents := x.ents.filter (fun e => !e.here p.stop p.asid p.name) ++ [⟨p.stop, p.asid, p.name, hop, p.goal, p.weight, p.deadline⟩] }
  match hop with
  | some h => s.sendInterest false h p
  | none =>
    match s.tileAt p.stop p.asid p.name with
    | some t => if t.st = .held then (s.reply p.stop p.asid p.name t.data).spend p.stop p.asid p.name p.weight else s
    | none => s

/-- A packet at the rendezvous stop of its name needs no lookup any more (Table 13-3). -/
def State.atRendezvous (s : State) (p : NdPacket) : NdPacket :=
  if p.goal = .lookup ∧ s.resolveName (p.stop / 128) p.asid p.name = some (.rendezvous p.stop) then { p with goal := .rendezvous p.stop } else p

/-- R362: an INTEREST, or a WANT of the stop's own cluster, at a router. One that has been at its lookup stop and comes back to a stop that
it passed on the way there goes on to its goal (R359): the stop's entry takes the new direction, and its weight is the packet's. -/
def State.interest (s : State) (arr : NdPath) (p : NdPacket) : State :=
  if 1024 ≤ (s.net.recs.filter (·.stop == p.stop)).length then s.backNack p.stop p.asid p.name 0x22 arr
  else if s.mergedWant arr p then s
  else
    match s.ndEnt p.stop p.asid p.name with
    | some e =>
      if e.goal = .lookup ∧ p.goal ≠ .lookup then s.interestNew arr { p with deadline := max e.sentDeadline p.deadline }
      else
        let s := (s.addRec p.stop p.asid p.name arr p.deadline).modEnt p.stop p.asid p.name fun e =>
          { e with weight := e.weight + p.weight, sentDeadline := max e.sentDeadline p.deadline }
        match e.fwd with
        | some h => s.sendInterest true h { p with goal := e.goal, deadline := max e.sentDeadline p.deadline }
        | none => s
    | none =>
      let p := s.atRendezvous p
      if p.goal = .lookup ∧ p.stop = lookupStop (p.stop / 128) p.name then
        match s.resolveName (p.stop / 128) p.asid p.name with
        | none => s.backNack p.stop p.asid p.name 0x21 arr
        | some g => s.interestNew arr { p with goal := g }
      else s.interestNew arr p

/-- INTEREST (R362). -/
def execInterest (arr : NdPath) (p : NdPacket) (s : State) : Out :=
  if s.ndEarlier p.stop (3 + inputPort arr) then .fault .notReady else .next (s.interest arr p)

/-- ADD_PACKET (R362): an entry takes the weight and the deadline and passes them on; without one a held tile's count falls. -/
def execAddPacket (p : NdAdd) (s : State) : Out :=
  if s.ndEarlier p.stop (3 + inputPort p.arr) then .fault .notReady
  else .next (match s.ndEnt p.stop p.asid p.name with
    | some e =>
      let s := s.modEnt p.stop p.asid p.name fun e => { e with weight := e.weight + p.weight, sentDeadline := max e.sentDeadline p.deadline }
      let later (r : PitRec) : PitRec :=
        if r.here p.stop p.asid p.name && !r.path.isEnd then { r with deadline := max r.deadline p.deadline } else r
      let s := s.modNet fun x => { x with recs := x.recs.map later }
      (match e.fwd with
      | some h => s.sendInterest true h { p.toNdPacket with goal := e.goal }
      | none => s)
    | none =>
      match s.tileAt p.stop p.asid p.name with
      | some t => if t.st = .held then s.spend p.stop p.asid p.name p.weight else s
      | none => s)

/-- INTEREST_DEADLINE_EXPIRY (R364): a record whose deadline has passed is freed; an end path fails with 0x20. What has reached the router
goes first (R369). -/
def execInterestDeadlineExpiry (stop : Nat) (asid : BitVec 16) (name : W64) (s : State) : Out :=
  match (s.ndRecs stop asid name).find? fun r => decide (r.deadline * 576 ≤ s.ns9) with
  | none => .fault .notReady
  | some r =>
    if s.ndEarlier stop 64 then .fault .notReady
    else
      let s := s.modNet fun x => { x with recs := (takeFirst (· == r) x.recs).2 }
      let s := if (s.ndRecs stop asid name).isEmpty then s.freeEnt stop asid name else s
      .next (match r.path with
        | .endp e => (s.endWords e).foldl (fun (s : State) w => s.wordBy stop w (.setErr 0x20)) s
        | _ => s)

/-! ### WANT and WDROP released (R205, R209) -/

/-- The interest of a WANT enters its requester's stop, behind what has reached the router and goes before it (R369). -/
def State.releaseWant (s : State) (slot : Nat) (w : Sender) (e : Effect) : State :=
  match tget s.thr slot, e.ins with
  | some t, .want spad _ _ life gmask =>
    let ep : EndPath :=
      { slot := slot, group := t.gid, spad := spad, dest := (e.b.getD .null).word, gmask := gmask, ref := (e.c.getD .null).word
        word := e.loc, ptbase := w.ptbase, sup := w.sup, img := w.img }
    let p : NdPacket := ⟨slotCluster slot, w.asid, (e.a.getD .null).word, 1, tickUp (w.time + 576 * life.toNat), .lookup⟩
    if s.ndEarlier p.stop 4 then s.post [.interest (.endp ep) p] else s.interest (.endp ep) p
  | _, _ => s

/-- WDROP: the pending return paths of the ASID for the name that count on the reference are removed at the requester's stop, those with
them whose interest has not entered the router yet. -/
def State.releaseWdrop (s : State) (slot : Nat) (w : Sender) (e : Effect) : State :=
  match tget s.thr slot with
  | none => s
  | some t =>
    let n := (e.a.getD .null).word
    let ref := (e.b.getD .null).word
    let stop := slotCluster slot
    let hit (p : NdPath) : Bool := match p with
      | .endp q => q.ref == ref && (ref.toNat % 16 != 1 || q.group == t.gid)
      | _ => false
    let gone (i : Instr) : Bool := match i with
      | .interest arr p => p.stop == stop && p.asid == w.asid && p.name == n && hit arr
      | _ => false
    let s := { s with agenda := s.agenda.filter fun i => !gone i }
    let s := s.modNet fun x => { x with recs := x.recs.filter fun r => !(r.here stop w.asid n && hit r.path) }
    if (s.ndRecs stop w.asid n).isEmpty then s.freeEnt stop w.asid n else s

/-! ### Tile stores and placements (R367, R368) -/

/-- The placement of an OFFER has ended with a status of Table 6-5. -/
def State.placed (s : State) (from_ : PlaceFrom) (n : W64) (status : Nat) : State :=
  match from_ with
  | .engine cl cmd =>
    match (s.cl cl).cmd cmd with
    | some c => s.copyEnd cl c 0 status
    | none => s
  | .port p dev tag => s.transmit p ⟨BitVec.ofNat 12 dev, BitVec.ofNat 12 s.dev, 0x21, tag, BitVec.ofNat 16 status, n, []⟩

/-- The blocks that a stop's tiles take. -/
def State.tileSpace (s : State) (stop : Nat) : Nat := ((s.net.tiles.filter (·.stop == stop)).map fun t => tileBlocks t.data).sum
def State.tileFits (s : State) (stop n : Nat) : Bool :=
  decide ((s.net.tiles.filter (·.stop == stop)).length < 256) && decide (s.tileSpace stop + n ≤ 2048)

/-- The HELD tile of .life retention that expires first. -/
def State.victim (s : State) (stop : Nat) : Option TsEnt :=
  (s.net.tiles.filter fun t => t.stop == stop && t.st == .held).foldl (fun (b : Option TsEnt) t =>
    match t.ret, b with
    | .until e, some x => (match x.ret with | .until f => if e < f then some t else b | _ => some t)
    | .until _, none => some t
    | _, b => b) none

/-- R367: tiles of .life retention are evicted, earliest expiry first, until a placement fits; the fuel is the directory's size. -/
def State.evict (s : State) (stop n : Nat) : Nat → State
  | 0 => s
  | k + 1 =>
    if s.tileFits stop n then s
    else
      match s.victim stop with
      | none => s
      | some v => (s.modNet fun x => { x with tiles := x.tiles.filter fun t => !t.here stop v.asid v.name }).evict stop n k

/-- An entry of a tile store has become FREE: the placements that wait there try again (R367). -/
def State.retryPlaces (s : State) (stop : Nat) : State :=
  let l := s.net.waits.filter (·.1 == stop)
  (s.modNet fun x => { x with waits := x.waits.filter (·.1 != stop) }).post (l.map fun w => .place stop w.2.1 w.2.2.1 (.rendezvous stop) w.2.2.2)

/-- A placement at its rendezvous stop (R367, R368): stored after the evictions that it needs, or left to wait for space. -/
def State.placeHere (s : State) (stop : Nat) (asid : BitVec 16) (n : W64) (pl : Placement) : Out :=
  match s.tileAt stop asid n with
  | some _ => .next (s.placed pl.origin n 0x30)
  | none =>
    let s' := s.evict stop ((pl.data.length + 255) / 256) 257
    let s' := if s'.net.tiles.length = s.net.tiles.length then s' else s'.retryPlaces stop
    if s'.tileFits stop ((pl.data.length + 255) / 256) then
      let ret := match pl.ret with
        | .byCount k => TsRet.count k.toNat
        | .byLife k => TsRet.until (s.ns9 + 576 * k.toNat)
      .next ((s'.modNet fun x => { x with tiles := x.tiles ++
        [{ stop := stop, asid := asid, name := n, st := .filling, ret := ret, data := pl.data, origin := pl.origin, readers := 0 : TsEnt }] }).post
        [.tileStoreFilled stop asid n])
    else .next (s'.modNet fun x => { x with waits := x.waits ++ [(stop, asid, n, pl)] })

/-- PLACE (R368): at its rendezvous it is stored; at its lookup stop it is resolved; elsewhere it goes on. One that came from a module and goes
on to another is a request of this one, whose answer goes back. -/
def execPlace (stop : Nat) (asid : BitVec 16) (name : W64) (goal : NdGoal) (pl : Placement) (s : State) : Out :=
  let r : Option NdGoal :=
    if goal = .lookup ∧ stop = lookupStop (stop / 128) name then s.resolveName (stop / 128) asid name else some goal
  match r with
  | none => .next (s.placed pl.origin name 0x21)
  | some goal =>
    match hopOf stop name goal with
    | none => s.placeHere stop asid name pl
    | some (.dir d) => .next (s.post [.place (neighbor stop d) asid name goal pl])
    | some (.fabric d) => .next (s.post [.place (fabricStop d stop) asid name goal.arrived pl])
    | some (.port p dev) =>
      match chunks16 (tileBeats pl.data pl.ret.code) 257, pl.origin with
      | b :: l, .engine cl cmd =>
        let tag := BitVec.ofNat 13 s.links.tagNext
        .next ((s.request (.place cl cmd) p dev 0x0D asid 0 name b).sendTile p dev 0x0D tag asid name l)
      | b :: l, .port q from_ t =>
        let tag := BitVec.ofNat 13 s.links.tagNext
        .next ((s.request (.relay q from_ t name) p dev 0x0D asid 0 name b).sendTile p dev 0x0D tag asid name l)
      | [], _ => .fault .noSuch
    | some (.endp _) => .fault .noSuch

/-- TILE_STORE_FILLED (R367, R368): the tile is HELD, the OFFER has its status, and a waiting entry is answered at once. -/
def execTileStoreFilled (stop : Nat) (asid : BitVec 16) (name : W64) (s : State) : Out :=
  match s.tileAt stop asid name with
  | none => .fault .noSuch
  | some t =>
    if t.st ≠ .filling then .fault .noSuch
    else
      let s := (s.modTile stop asid name fun t => { t with st := .held }).placed t.origin name 0
      .next (match s.ndEnt stop asid name with
        | some e => if e.fwd = none then (s.reply stop asid name t.data).spend stop asid name e.weight else s
        | none => s)

/-- TILE_RETENTION_EXPIRY (R367). -/
def execTileRetentionExpiry (stop : Nat) (asid : BitVec 16) (name : W64) (s : State) : Out :=
  match s.tileAt stop asid name with
  | none => .fault .noSuch
  | some t =>
    match t.st, t.ret with
    | .held, .until e => if e ≤ s.ns9 then .next (s.modTile stop asid name fun t => { t with st := .draining }) else .fault .notReady
    | _, _ => .fault .noSuch

/-- TILE_STORE_FREE (R367): every reply has read its data; offers that wait for space try again. -/
def execTileStoreFree (stop : Nat) (asid : BitVec 16) (name : W64) (s : State) : Out :=
  match s.tileAt stop asid name with
  | none => .fault .noSuch
  | some t =>
    if t.st = .draining ∧ t.readers = 0 then
      .next ((s.modNet fun x => { x with tiles := x.tiles.filter fun t => !t.here stop asid name }).retryPlaces stop)
    else .fault .notReady

/-! ### Deposits (R207, R365) -/

/-- As whom a deposit writes. -/
def Deposit.who (d : Deposit) : Who := ⟨d.stop, none, d.asid, d.ep.ptbase, d.ep.sup, d.ep.img⟩

/-- Where a deposit begins: in memory, in the group scratchpad, or in the partition of each masked grid. -/
def State.depositAt (s : State) (d : Deposit) : W64 :=
  match d.ep.spad, s.group d.ep.group with
  | true, some g => g.landing d.ep.gmask d.ep.dest
  | _, _ => d.ep.dest

/-- The chuck entry that a deposit takes in its cluster (Table 12-5). -/
def State.depositRange (s : State) (d : Deposit) : ChuckEnt :=
  let at_ := (s.depositAt d).toNat
  if d.ep.spad then ⟨d.id, .spad, d.ep.group, d.ep.gmask, at_, d.data.length, true⟩
  else ⟨d.id, .mem, d.asid.toNat, 0, at_, d.data.length, true⟩

/-- The bytes of a deposit written move by move: how many, and the code of the error that ended it. -/
def State.depositAll (s : State) (d : Deposit) (dry : Bool) : List Move → Nat → EngRes (Nat × Nat)
  | [], n => .done s (n, 0)
  | m :: l, n =>
    let bytes := (d.data.drop m.src.toNat).take m.len
    let r := if d.ep.spad then
        match s.group d.ep.group with
        | none => .err s 0x07 .prot m.dst
        | some g => s.engSpadWrites g d.ep.gmask m.dst.toNat bytes dry
      else s.engStore d.who m.dst bytes .deposit d.id dry
    match r with
    | .done s k => s.depositAll d dry l (n + k)
    | .err s code _ _ => .done s (n, code)
    | .page va lvl mal nc wr => .page va lvl mal nc wr
    | .wait => .wait
    | .act s => .act s

/-- The piece of a deposit that is written and counted next: at most 512 bytes (R196), which do not cross a page. -/
def State.depositTry (s : State) (d : Deposit) (dry : Bool) : EngRes (Nat × Nat) :=
  let dst := s.depositAt d + BitVec.ofNat 64 d.at_
  let n := min (d.data.length - d.at_) (min 512 (4096 - dst.toNat % 4096))
  s.depositAll d dry (movesOf (BitVec.ofNat 64 d.at_) dst n) 0

/-- A deposit ends, with an error on each of its words if its code is not 0. -/
def State.depositEnd (s : State) (d : Deposit) (code : Nat) : State :=
  let s := ((s.freeChuck d.stop d.id).modNet fun x => { x with deposits := x.deposits.filter (·.id != d.id) }).modCl d.stop fun c =>
    { c with since := s.ns9 }
  if code = 0 then s else (s.endWords d.ep).foldl (fun (s : State) w => s.wordBy d.stop w (.setErr code)) s

def State.modDeposit (s : State) (id : Nat) (f : Deposit → Deposit) : State :=
  s.modNet fun x => { x with deposits := x.deposits.map fun e => if e.id = id then f e else e }

/-- The piece of a deposit is written: once every home has answered, its bytes are counted on each word (R196), and the deposit goes on or
ends. -/
def State.depositLand (s : State) (d : Deposit) (n code : Nat) : State :=
  if s.engLanding d.id then s.modDeposit d.id fun e => { e with landing := some (n, code) }
  else
    let r := s.engSettled d.id n code
    let k := r.2.1
    let s := if k = 0 then r.1 else (s.endWords d.ep).foldl (fun (s : State) w => s.wordBy d.stop w (.arrive k)) r.1
    if r.2.2 ≠ 0 ∨ d.data.length ≤ d.at_ + n then s.depositEnd d r.2.2
    else s.modDeposit d.id fun e => { e with at_ := d.at_ + n, landing := none }

/-- DEPOSIT_COMPLETE (R207, R196): the destination is registered in the chuck, then the tile is written and counted, a piece at a time. -/
def execDepositComplete (id : Nat) (s : State) : Out :=
  match s.net.deposits.find? (·.id == id) with
  | none => .fault .noSuch
  | some d =>
    match d.landing with
    | some (n, code) => if s.engLanding id then .fault .notReady else .next (s.depositLand d n code)
    | none =>
      if d.fslot.isSome then .fault .notReady
      else if !((s.cl d.stop).chuck.any fun r => r.owner == id) then
        if (s.cl d.stop).chuck.length < 64 then .next (s.modCl d.stop fun x => { x with chuck := x.chuck ++ [s.depositRange d] })
        else .fault .notReady
      else
        match s.depositTry d true with
        | .wait => .fault .notReady
        | .page _ _ _ _ _ => .fault .notReady
        | .act s' => .next s'
        | _ =>
          match s.depositTry d false with
          | .done s' (n, code) => .next (s'.depositLand d n code)
          | _ => .fault .notReady

/-- A deposit that the pager gave up (R309): code 0x01 after the pieces that were written. -/
def State.depositAbandon (s : State) (d : Deposit) : State := s.depositEnd d 0x01

/-! ### Named-data messages at an Eveod port -/

/-- The bytes of a tile from its segments' beats. -/
def tileOfBeats (l : List (BitVec 128)) : List Byte :=
  let n := (l.headD 0).toNat % 2 ^ 32
  ((l.drop 1).map fun b => leBytes b.toNat 16).flatten.take n

/-- The segments of a tile that have come by a port, and whether they are all there. -/
def Links.tileSegs (x : Links) (port : Nat) (m : Msg) : List (BitVec 128) :=
  ((x.segs.filter fun q => q.1 == port && q.2.cls == m.cls && q.2.aux == m.aux && q.2.addr == m.addr && q.2.tag == m.tag && q.2.src == m.src).map
    fun q => q.2.beats).flatten

/-- A segment of a TILE or PLACE: the packet is complete, or is kept until it is. -/
def State.ndSegment (s : State) (port : Nat) (m : Msg) (k : State → List (BitVec 128) → State) : State :=
  let l := s.links.tileSegs port m ++ m.beats
  let n := (l.headD 0).toNat % 2 ^ 32
  if 1 + (n + 15) / 16 ≤ l.length then
    k { s with links := { s.links with segs := s.links.segs.filter fun q =>
      !(q.1 == port && q.2.cls == m.cls && q.2.aux == m.aux && q.2.addr == m.addr && q.2.tag == m.tag && q.2.src == m.src) } } l
  else { s with links := { s.links with segs := s.links.segs ++ [(port, m)] } }

/-- A named-data message enters at its port's stop (R359, R360, R364). -/
def State.ndMessage (s : State) (port : Nat) (m : Msg) : State :=
  let stop := portStop port
  let b := (m.beats.headD 0).toNat
  let p : NdPacket := ⟨stop, m.aux, m.addr, b % 4096, s.tick + b / 2 ^ 16 % 2 ^ 32, .lookup⟩
  if m.cls = 0x0B then s.post [.interest (.port port m.src.toNat) p]
  else if m.cls = 0x0C then s.post [.addPacket ⟨p, .port port m.src.toNat⟩]
  else if m.cls = 0x0D then
    s.ndSegment port m fun s l => s.post [.place stop m.aux m.addr .lookup
      ⟨.port port m.src.toNat m.tag, Retention.ofCode ((l.headD 0).toNat / 2 ^ 32 % 2 ^ 16), tileOfBeats l⟩]
  else if m.cls = 0x27 then s.ndSegment port m fun s l => s.post [.tile stop m.aux m.addr (tileOfBeats l)]
  else s.post [.nack stop m.aux m.addr (m.tag.setWidth 8)]

end Sys2Proof.Machine
end

