-- ==== Sys2Proof/Machine/Coherence.lean ====
section
/-! DEFINITION. Coherence (14 R373 to R387): read misses and grants at a cluster, writes and evictions at a directory slice, probes and
their answers, DEAD agents, requests that fail, and the page protocol on both sides of the Eveod link. -/

namespace Sys2Proof.Machine

/-! ### Fills and grants (R377, R379) -/

/-- The fill of a line of a cluster that is still without an answer. -/
def State.openFill (s : State) (c key : Nat) : Option Fill := s.coh.fills.find? fun f => f.cl == c && f.line == key && f.blank
/-- The fill without an answer, changed. -/
def State.modFill (s : State) (c key : Nat) (g : Fill → Fill) : State :=
  { s with coh := { s.coh with fills := s.coh.fills.map fun f => if f.cl == c && f.line == key && f.blank then g f else f } }

/-- A grant leaves for a cluster. -/
def State.sendGrant (s : State) (c key : Nat) (stamp : BitVec 8) (data : WideBits) (poisoned : Bool) : State :=
  { s with coh := { s.coh with grants := s.coh.grants ++ [(⟨c, key, stamp, data, poisoned⟩ : Grant)] } }.post [.grantArrival c key]

/-- A directory entry gains a sharer, and its line a stamp. -/
def State.addSharer (s : State) (y : Nat) (c : Option Nat) : State :=
  s.modDir y fun e => { e with seq := e.seq + 1, sharers := match c with
    | some c => if e.sharers.contains c then e.sharers else e.sharers ++ [c]
    | none => e.sharers }

/-- A read miss at the home of a line of this module. -/
def State.serveOwn (s : State) (c key : Nat) (f : Fill) : Out :=
  let y := lineLa key / 128
  let d := homeDie (128 * y)
  if (s.die d).agent c = 2 then .next (s.modFill c key fun f => { f with failed := true })
  else
    match s.gate y false (some (.fill c key)) with
    | .wait => .fault .notReady
    | .act s' => .next (s'.post [.directoryReadMiss c key])
    | .go =>
      if 127 ≤ s.lineLoad y then .fault .notReady
      else if s.poisoned y then .next ((s.addSharer y none).sendGrant c key ((s.dirEnt y).seq + 1) 0 true)
      else
        -- in HOST bias the line is not cached in the L1 (Table 14-5)
        let loose := s.biasOf (y / 32) == Bias.host
        let s := if loose then s.modFill c key fun f => { f with keep := false } else s
        let s := (s.allocate y f.vc.toNat).addSharer y (if loose then none else some c)
        .next (s.sendGrant c key (s.dirEnt y).seq (s.homeLine y) false)

/-- A read miss on a line of another module, under the page grants of the cluster's die (R381). -/
def State.servePeer (s : State) (c key : Nat) : Out :=
  let die := clusterDie c
  let ask (who : ReqWho) : Out :=
    if s.asked (· == who) then .fault .notReady else .next ((s.askPeer who key die).post [.directoryReadMiss c key])
  match s.peerOf die key with
  | some p =>
    if p.excl then
      match tget s.coh.l2 (peerKey key) with
      | some l => .next (s.sendGrant c key p.stamp l.data (s.poisoned (peerKey key)))
      | none => ask (.fill (128 * die) (peerKey key))
    else if s.asked (· == ReqWho.fill c key) then .fault .notReady
    else .next (s.askPeer (.fill c key) key die)
  | none =>
    if s.asked fun w => match w with | .page d p _ => d == die && p == key / 32 | _ => false then .fault .notReady
    else .next ((s.askPage die key false).post [.directoryReadMiss c key])

/-- DIRECTORY_READ_MISS (R377, R381, R388): a line of the module's HBM, of host memory, or of another module. -/
def execDirectoryReadMiss (cl line : Nat) (s : State) : Out :=
  match s.openFill cl line with
  | none => .fault .noSuch
  | some f =>
    if s.coh.grants.any fun g => g.cl == cl && g.line == line then .fault .noSuch
    else if lineDev line ≠ s.dev then s.servePeer cl line
    else
      let la := lineLa line
      if la < 2 ^ 40 then s.serveOwn cl line f
      else if la < 2 ^ 41 then
        -- both 64-byte halves are read together (R388)
        let s := (s.tellHost 0 (.d2hRead la true)).tellHost 0 (.d2hRead (la + 64) true)
        .next (s.sendGrant cl line 0 (ofBytes (s.laBytes la 128)) false)
      else .fault .noSuch

/-- A copy enters a list of copies of a cluster with eight to a set; which one it replaces is not architectural (R277, R279). -/
def addCopy (l : List Copy) (x : Copy) (sets : Nat) : List Copy :=
  let l := l.filter fun y => !(y.cl == x.cl && y.line == x.line)
  let same := l.filter fun y => y.cl == x.cl && y.line % sets == x.line % sets
  let l := if 8 ≤ same.length then (match same with | v :: _ => l.filter (· != v) | [] => l) else l
  l ++ [x]

/-- Does somebody other than a fetch or a hint for the L2 want the line in the L1? -/
def Fill.forL1 (f : Fill) : Bool := f.waiters.any fun w => match w with | .fetch _ _ => false | .hintL2 _ => false | _ => true

/-- The data of a grant reach a fill: installed, in the block cache the 64-byte halves that a fetch asked for (R340), or kept only for those who asked if a newer probe has come (R379). -/
def State.fillWith (s : State) (f : Fill) (g : Grant) : State :=
  if g.poisoned then s.modFill f.cl f.line fun f => { f with poisoned := true }
  else
    let stale := match f.probe with | some p => newer p g.stamp | none => false
    if !f.keep || stale then s.modFill f.cl f.line fun f => { f with data := some g.data }
    else
      let half (i : Nat) : Copy := ⟨f.cl, 2 * f.line + i, (g.data >>> (512 * i)) &&& (1 <<< 512 - 1), g.stamp⟩
      let bc := ((List.range 2).filter (bitAt f.code ·)).foldl (fun l i => addCopy l (half i) 256) s.coh.bc
      let l1 := if f.forL1 then addCopy s.coh.l1 ⟨f.cl, f.line, g.data, g.stamp⟩ 256 else s.coh.l1
      { s with coh := { s.coh with bc := bc, l1 := l1, fills := s.coh.fills.filter fun x => !(x.cl == f.cl && x.line == f.line && x.blank) } }

/-- GRANT_ARRIVAL (R379). -/
def execGrantArrival (cl line : Nat) (s : State) : Out :=
  match s.coh.grants.find? fun g => g.cl == cl && g.line == line with
  | none => .fault .noSuch
  | some g =>
    let s := { s with coh := { s.coh with grants := (takeFirst (fun (x : Grant) => x.cl == cl && x.line == line) s.coh.grants).2 } }
    .next (match s.openFill cl line with
      | none => s
      | some f => s.fillWith f g)

/-! ### The directory (Table 14-2) -/

/-- The bytes of line data that a mask names, by place. -/
def maskedBytes (data : WideBits) (mask : BitVec 128) : List (Nat × Byte) :=
  ((List.range 128).filter fun i => mask.getLsbD i).map fun i => (i, data.extractLsb' (8 * i) 8)

/-- DIRECTORY_WRITE (R378): bytes of a line of this module are written at its home. -/
def execDirectoryWrite (line : Nat) (data : WideBits) (mask : BitVec 128) (s : State) : Out :=
  if 2 ^ 33 ≤ line then .fault .noSuch
  else
    match s.lineGate (homeDie (128 * line)) (s.ownKey line) true none with
    | .wait => .fault .notReady
    | .act s' => .next (s'.post [.directoryWrite line data mask])
    | .go => .next (s.homeWrite line 0 (maskedBytes data mask) .engine)

/-- DIRECTORY_ENTRY_EVICTION (R283): copies invalidated, dirty L2 data written back, the entry freed once every probe of it is
answered. -/
def execDirectoryEntryEviction (line : Nat) (s : State) : Out :=
  match tget s.coh.dir line with
  | none => .fault .noSuch
  | some e =>
    if s.coh.grants.any fun g => g.line == s.ownKey line then .fault .notReady
    else if !e.sharers.isEmpty then
      match s.probeGate line with
      | .wait => .fault .notReady
      | .act s' => .next (s'.post [.directoryEntryEviction line])
      | .go => .next ((s.probeAll line none).post [.directoryEntryEviction line])
    else if e.unacked ≠ 0 then .fault .notReady
    else
      let s := s.dropLine line
      .next { s with coh := { s.coh with dir := tdel s.coh.dir line } }

/-- PROBE_ARRIVAL (R379, R374): a cluster in RETENTION wakes; the probe is applied or discarded, and acknowledged. -/
def execProbeArrival (cl line : Nat) (stamp : BitVec 8) (s : State) : Out :=
  .next (((s.wakeCluster cl).applyProbe cl line stamp none).post [.probeResponse cl (lineLa line / 128)])

/-- A response that a home awaits has come. -/
def State.answered (s : State) (agent line : Nat) : State :=
  { s with coh := { s.coh with awaits := (takeFirst (fun (w : Await) => w.agent == agent && w.line == line) s.coh.awaits).2 } }

/-- PROBE_RESPONSE (Table 14-2): the probe is closed; a late one of a DEAD agent is discarded (R375). -/
def execProbeResponse (cl line : Nat) (s : State) : Out :=
  if (s.die (homeDie (128 * line))).agent cl = 2 then .next s
  else if s.awaiting cl line then .next ((s.answered cl line).modDir line fun e => { e with unacked := e.unacked - 1 })
  else .fault .noSuch

/-! ### DEAD agents (R374, R385) -/

/-- A cluster is DEAD to a die: its copies count as invalidated. -/
def State.deadCluster (s : State) (d c : Nat) : State :=
  { s with coh := { s.coh with
      awaits := s.coh.awaits.filter fun w => !(w.die == d && w.agent == c)
      dir := s.coh.dir.map fun p =>
        if homeDie (128 * p.1) = d then
          (p.1, { p.2 with sharers := p.2.sharers.filter (· != c)
                           unacked := p.2.unacked - (s.coh.awaits.filter fun w => w.die == d && w.agent == c && w.line == p.1).length })
        else p } }

/-- A module is DEAD to a die: its dies hold no page any more, and the pages that one of them held EXCL are poisoned in full. -/
def State.deadModule (s : State) (d dev : Nat) : State :=
  let s := (List.range 4).foldl (fun s k => s.setAgent d (dieAgent dev k) 2) s
  let mine (h : Nat) : Bool := h / 4 == dev
  let lost := (s.coh.pages.filter fun p => homeDie (4096 * p.1) == d && p.2.st == .excl && p.2.holders.any mine).map (·.1)
  let s := lost.foldl (fun s pg => s.poisonPage pg) s
  { s with coh := { s.coh with
      awaits := s.coh.awaits.filter fun w => !(w.die == d && decide (1024 ≤ w.agent) && w.agent != hostAgent && (w.agent - 1024) / 4 == dev)
      pages := s.coh.pages.map fun p =>
        if homeDie (4096 * p.1) = d then
          (p.1, { p.2 with holders := p.2.holders.filter fun h => !mine h, st := if lost.contains p.1 then .shared else p.2.st })
        else p } }

/-- The host is DEAD to a die: the lines of its unanswered snoops are poisoned, and it holds none of them any more. -/
def State.deadHost (s : State) (d : Nat) : State :=
  let ks := (s.coh.awaits.filter fun w => w.die == d && w.agent == hostAgent).map (·.line)
  let s := ks.foldl (fun s k => s.poisonLine (k / 2)) s
  { s with coh := { s.coh with
      awaits := s.coh.awaits.filter fun w => !(w.die == d && w.agent == hostAgent)
      filter := ks.foldl (fun t k =>
        match tget t (k / 64) with
        | some m => tput t (k / 64) (m &&& ~~~((1 : BitVec 64) <<< (k % 64)))
        | none => t) s.coh.filter } }

/-- HOME_TIMEOUT (R374, R385): an agent that let a response time out is DEAD, and what awaited it is completed. -/
def execHomeTimeout (die agent : Nat) (s : State) : Out :=
  match s.coh.awaits.filter fun w => w.die == die && w.agent == agent with
  | [] => .fault .noSuch
  | l =>
    if l.any fun w => decide (w.sent + w.limit ≤ s.ns9) then
      let s := s.setAgent die agent 2
      .next (if agent < 1024 then s.deadCluster die agent
        else if agent = hostAgent then s.deadHost die
        else s.deadModule die ((agent - 1024) / 4))
    else .fault .notReady

/-! ### Requests that fail (R376) -/

/-- The request that a response names by its tag. -/
def State.reqOf (s : State) (m : Msg) : Option Req := s.coh.reqs.find? fun r => r.tag == m.tag
def State.dropReq (s : State) (id : Nat) : State := { s with coh := { s.coh with reqs := s.coh.reqs.filter (·.id != id) } }

/-- The grids of a die whose oldest unit waits for a line, with that unit. -/
def State.stuckUnits (s : State) (die : Nat) (p : Nat → Bool) : List (Nat × Unit) :=
  s.grids.filterMap fun g =>
    match g.2.sb with
    | u :: _ => if gridDie g.1 = die ∧ u.op.isAtomic = false ∧ (u.lines.any fun k => p k.1) = true then some (g.1, u) else none
    | [] => none

/-- The units that wait for lines of a page or a line which is refused to a die are discarded. -/
def State.loseStuck (s : State) (die : Nat) (p : Nat → Bool) (pa : Nat) : State :=
  (s.stuckUnits die p).foldl (fun (s : State) g => (s.modGrid g.1 fun x => { x with sb := x.sb.drop 1 }).lostw die pa) s

/-- Fills of a die whose line is refused have failed. -/
def State.failFills (s : State) (die : Nat) (p : Nat → Bool) : State :=
  { s with coh := { s.coh with
      fills := s.coh.fills.map fun f =>
        if clusterDie f.cl == die && p f.line && f.blank then { f with failed := true } else f } }

/-- The expiry of a request's deadline, or an ERR answer (R376). For an INVOKE it is the answer that the target is unreachable, for a
PLACE the status 0x05 (log entry 12), which goes back to where it came from (R368). The bytes of an engine's write are lost (log entry
48). -/
def State.failReq (s : State) (r : Req) : State :=
  let s := s.dropReq r.id
  match r.who with
  | .load _ _ => s
  | .fill cl line =>
    if 2 ^ 60 ≤ line then
      let key := line - 2 ^ 60
      (s.loseStuck (clusterDie cl) (· == key) r.pa).failFills (clusterDie cl) (· == key)
    else s.modFill cl line fun f => { f with failed := true }
  | .page die pg excl =>
    let s := s.failFills die fun k => k / 32 == pg
    if excl then s.loseStuck die (fun k => k / 32 == pg) r.pa else s
  | .unit uid =>
    match s.coh.flying.find? fun f => f.u.uid == uid with
    | some f =>
      if f.u.op.isAtomic then s.atomDone uid 0 true
      else
        { s with coh := { s.coh with
            flying := s.coh.flying.filter fun f => f.u.uid != uid
            reqs := s.coh.reqs.filter fun q => q.who != ReqWho.unit uid } }.lostw (gridDie f.grid) r.pa
    | none => s.lostw (homeDie (paLa r.pa)) r.pa
  | .invoke _ thread hidx trap =>
    let tw : W64 := BitVec.ofNat 64 r.pa
    s.invokeAnswered thread hidx trap 5 (twDev tw) tw
  | .engine id n => { s with coh := { s.coh with lost := s.coh.lost ++ [(id, r.pa, n)] } }.lostw (homeDie (paLa r.pa)) r.pa
  | .place cl cmd => s.placed (.engine cl cmd) 0 0x05
  | .relay port dev tag name => s.placed (.port port dev tag) name 0x05
  | .report d q => s.countErr d q

/-- REQUESTER_DEADLINE_EXPIRY (R376): 50 µs from the issue. -/
def execRequesterDeadlineExpiry (id : Nat) (s : State) : Out :=
  match s.coh.reqs.find? (·.id == id) with
  | none => .fault .noSuch
  | some r => if r.issued + 450000 ≤ s.ns9 then .next (s.failReq r) else .fault .notReady

/-- ERR (Table 14-8): a refusal is handled as the expiry of the deadline. -/
def execErr (_port : Nat) (m : Msg) (s : State) : Out :=
  .next (match s.reqOf m with
    | none => s
    | some r => s.failReq r)

/-! ### Requests of other modules at the home (R380 to R382, Table 14-3) -/

/-- How a request is served at its home: done; held; or something is sent first, and it is held. -/
inductive Served where
  | done (s : State)
  | wait
  | act (s : State)

/-- The requester of a message, as a holder number; the die stands in the message (log entry 11). -/
def msgLa (m : Msg) : Nat := m.addr.toNat % 2 ^ 52
def msgDie (m : Msg) : Nat := if m.cls = 0x03 then m.aux.toNat / 4 % 4 else m.aux.toNat % 4
def msgHolder (m : Msg) : Nat := 4 * m.src.toNat + (msgDie m)

/-- Does the home refuse the message: its sender is DEAD, or its target is not HBM (R375, Table 14-8)? -/
def State.refusesMsg (s : State) (m : Msg) : Bool :=
  (s.die (homeDie (msgLa m))).agent (dieAgent m.src.toNat (msgDie m)) == 2 || decide (2 ^ 40 ≤ (msgLa m))

/-- Is a response of a holder of a page awaited, or of a cluster about a line? -/
def State.pageAwaits (s : State) (pg : Nat) : Bool :=
  s.coh.awaits.any fun w => decide (1024 ≤ w.agent) && w.agent != hostAgent && w.line == pg && w.die == homeDie (4096 * pg)
def State.lineAwaits (s : State) (y : Nat) : Bool :=
  s.coh.awaits.any fun w => decide (w.agent < 1024) && w.line == y && w.die == homeDie (128 * y)

/-- The other holders of a page are revoked, and every answer is awaited. -/
def State.settleHolders (s : State) (pg : Nat) (keep : Option Nat) (k : State → Served) : Served :=
  match tget s.coh.pages pg with
  | some e =>
    if (s.holdersOf e).any fun h => some h != keep then .act (s.revokeHolders pg keep)
    else if s.pageAwaits pg then .wait
    else k s
  | none => if s.pageAwaits pg then .wait else k s

/-- As many of a line's sharers are probed as may be under the bound of R379. -/
def State.probeRound (s : State) (y : Nat) : State :=
  match s.probeGate y with
  | .go => s.probeAll y none
  | .act s => s
  | .wait => s

/-- Has a line sharers left that a round of probes can reach now? -/
def State.canProbe (s : State) (y : Nat) : Bool := !(s.dirEnt y).sharers.isEmpty && decide (s.lineLoad y < 127)

/-- The sharers of lines are probed, and every answer is awaited. -/
def State.settleLines (s : State) (l : List Nat) (k : State → Served) : Served :=
  if l.any s.canProbe then .act ((l.filter s.canProbe).foldl (·.probeRound ·) s)
  else if l.any fun y => !(s.dirEnt y).sharers.isEmpty || s.lineAwaits y then .wait
  else k s

/-- The answer of a write or atomic that its home has accepted (R378): at once, or when the clusters on other dies of the module have
acknowledged its probes, since it stands for the write's visibility at system scope (R378, R384). -/
def State.answerFor (s : State) (port : Nat) (m : Msg) (cls y : Nat) (beats : List (BitVec 128)) : State :=
  if s.lineAwaits y then { s with coh := { s.coh with parked := s.coh.parked ++ [(y / 32, .answer port m cls y beats)] } }
  else s.respond port m cls 0 beats

/-- A round of probes of a line goes out, if it may (R379). -/
def State.probing (s : State) (y : Nat) (k : State → Served) : Served :=
  match s.probeGate y with
  | .go => k s
  | .act s => .act s
  | .wait => .wait

/-- An entry of the page directory for a page: there, made, or one of the die's 65,536 is freed first (R380). -/
def State.withEntry (s : State) (pg : Nat) (k : State → PageEnt → Served) : Served :=
  match tget s.coh.pages pg with
  | some e => k s e
  | none =>
    let d := homeDie (4096 * pg)
    let mine := s.coh.pages.filter fun p => homeDie (4096 * p.1) == d
    if mine.length < 65536 then
      let e : PageEnt := ⟨.shared, [], false, 0, none, []⟩
      k { s with coh := { s.coh with pages := tput s.coh.pages pg e } } e
    else
      match mine.find? fun p => p.2.holders.isEmpty && !p.2.overf && !s.pageAwaits p.1 with
      | some p => .act { s with coh := { s.coh with pages := tdel s.coh.pages p.1 } }
      | none =>
        match mine.find? fun p => !s.pageAwaits p.1 with
        | none => .wait
        | some p =>
          match s.pageGate p.1 none with
          | .act s => .act s
          | .wait => .wait
          | .go => .act (s.revokeHolders p.1 none)

/-- The beats of a line. -/
def lineBeats (d : WideBits) : List (BitVec 128) := (List.range 8).map fun i => d.extractLsb' (128 * i) 128
def beatsLine (l : List (BitVec 128)) : WideBits := ofBytes ((l.map fun b => leBytes b.toNat 16).flatten.take 128)

/-- RD at the home. -/
def State.serveRd (s : State) (port : Nat) (m : Msg) : Served :=
  let y := (msgLa m) / 128
  if s.refusesMsg m || s.poisoned y then .done (s.respond port m 0x29 0 [])
  else s.withEntry (y / 32) fun s _ =>
    match s.gateFor y false (some (msgHolder m)) with
    | .wait => .wait
    | .act s => .act s
    | .go =>
      if 127 ≤ s.lineLoad y then .wait
      else
        let s := (s.allocate y 0).addSharer y none
        .done (s.respond port m 0x20 ((s.dirEnt y).seq.setWidth 16) (lineBeats (s.homeLine y)))

/-- The bytes that a WR writes. -/
def msgBytes (m : Msg) : List (Nat × Byte) := maskedBytes (beatsLine (m.beats.drop 1)) (m.beats.headD 0)

/-- WR at the home: a write through of a holder, or a reclaim (R381, R384, R387). -/
def State.serveWr (s : State) (port : Nat) (m : Msg) : Served :=
  let y := (msgLa m) / 128
  let reclaim := m.aux.toNat % 2 == 1
  let keep := if reclaim then none else some (msgHolder m)
  if s.refusesMsg m then .done (s.respond port m 0x29 0 [])
  else if s.poisoned y && !reclaim then
    .done ((s.shaveDie (homeDie (128 * y)) 0x15 0 (BitVec.ofNat 64 (128 * y)) 0).respond port m 0x29 0 [])
  else s.withEntry (y / 32) fun s _ =>
    match s.gateFor y true keep with
    | .wait => .wait
    | .act s => .act s
    | .go =>
      s.settleHolders (y / 32) keep fun s => s.probing y fun s =>
        let s := if reclaim then s.reclaimLine y 0 .engine
          else ((s.probeAll y none).policyWrite y 0 (msgBytes m)).wakeWhere (WLoc.inLine y)
        .done (s.answerFor port m 0x21 y [])

/-- The atomic that an ATOM carries: operands of 32 bits lie in beat 1 [47:16] and [79:48], a second one of 64 bits in a beat of its own
(log entry 11). -/
def msgAtom (m : Msg) : Option DrainOp :=
  let b := (m.beats.headD 0).toNat
  let code := b % 2 ^ 16
  if code / 64 % 2 = 1 then atomOfCode code (BitVec.ofNat 64 (b / 2 ^ 16)) ((m.beats.getD 1 0).setWidth 64)
  else atomOfCode code (BitVec.ofNat 64 (b / 2 ^ 16 % 2 ^ 32)) (BitVec.ofNat 64 (b / 2 ^ 48 % 2 ^ 32))

/-- ATOM at the home (R381): performed there; a poisoned line or a page in host bias refuses it (R386, Table 14-5). -/
def State.serveAtom (s : State) (port : Nat) (m : Msg) : Served :=
  let y := (msgLa m) / 128
  let no := s.respond port m 0x29 0 []
  match (msgAtom m) with
  | none => .done no
  | some op =>
    if s.refusesMsg m || s.poisoned y || s.biasOf (y / 32) == Bias.host then .done no
    else s.withEntry (y / 32) fun s _ =>
      match s.gateFor y true none with
      | .wait => .wait
      | .act s => .act s
      | .go =>
        s.settleHolders (y / 32) none fun s => s.probing y fun s =>
          let r := s.atomAt (msgLa m) 0 op .engine
          .done (r.1.answerFor port m 0x25 y [BitVec.ofNat 128 r.2])

/-- A page is granted to a holder: stamped with the next SEQ, EXCL by AUX[15]. -/
def State.grantPage (s : State) (port : Nat) (m : Msg) (pg : Nat) (e : PageEnt) (excl : Bool) : State :=
  let seq := e.seq + 1
  let e := if excl then { e with st := .excl, holders := [(msgHolder m)], overf := false, seq := seq }
    else if e.holders.contains (msgHolder m) then { e with st := .shared, seq := seq }
    else if e.holders.length < 8 then { e with st := .shared, holders := e.holders ++ [(msgHolder m)], seq := seq }
    else { e with st := .shared, overf := true, seq := seq }
  { s with coh := { s.coh with pages := tput s.coh.pages pg e } }.respond port m 0x22
    (BitVec.ofNat 16 (ofBool excl * 2 ^ 15 + seq.toNat)) []

/-- The bias state lets a page request go on? -/
def State.pageHeld (s : State) (pg : Nat) : Bool := s.biasOf pg == Bias.flushing || s.biasOf pg == Bias.recalling

/-- PGS at the home (Table 14-3). -/
def State.servePgs (s : State) (port : Nat) (m : Msg) : Served :=
  let pg := (msgLa m) / 4096
  if s.refusesMsg m then .done (s.respond port m 0x29 0 [])
  else if s.pageHeld pg then .wait
  else s.withEntry pg fun s e =>
    match s.pageGate pg none with
    | .wait => .wait
    | .act s => .act s
    | .go => .done (s.grantPage port m pg e false)

/-- The lines of a page. -/
def pageLines (pg : Nat) : List Nat := (List.range 32).map (32 * pg + ·)

/-- PGX at the home (Table 14-3, R382): after a hand-over, or, within 10 µs of an EXCL recall, as a shared grant to write through. -/
def State.servePgx (s : State) (port : Nat) (m : Msg) : Served :=
  let pg := (msgLa m) / 4096
  if s.refusesMsg m then .done (s.respond port m 0x29 0 [])
  else if s.pageHeld pg then .wait
  else s.withEntry pg fun s e =>
    match s.pageGate pg none with
    | .wait => .wait
    | .act s => .act s
    | .go =>
      let recent := match e.lastRecall with | some t => decide (s.ns9 < t + 90000) | none => false
      s.settleHolders pg (some (msgHolder m)) fun s =>
        let e := (tget s.coh.pages pg).getD e
        if recent then .done (s.grantPage port m pg e false)
        else s.settleLines (pageLines pg) fun s =>
          let s := (pageLines pg).foldl (·.dropLine ·) s
          .done (s.grantPage port m pg e true)

/-- A message of one of these classes is served. -/
def State.serveMsg (s : State) (port : Nat) (m : Msg) : Served :=
  match m.cls.toNat with
  | 0x01 => s.serveRd port m
  | 0x03 => s.serveWr port m
  | 0x04 => s.serveAtom port m
  | 0x05 => s.servePgs port m
  | _ => s.servePgx port m

/-- A request is held at its page (R382, R389). -/
def State.park (s : State) (pg : Nat) (p : Parked) : State := { s with coh := { s.coh with parked := s.coh.parked ++ [(pg, p)] } }
def State.parkedAt (s : State) (pg : Nat) : Bool := s.coh.parked.any (·.1 == pg)

/-- A request is served, or held behind those that its page holds already (R389). -/
def State.serveOr (s : State) (pg : Nat) (p : Parked) (r : Served) : Out :=
  if s.parkedAt pg then .next (s.park pg p)
  else
    match r with
    | .done s => .next s
    | .wait => .next (s.park pg p)
    | .act s => .next (s.park pg p)

/-- RD, WR, ATOM, PGS and PGX at the page's home. -/
def execRd (port : Nat) (m : Msg) (s : State) : Out :=
  s.serveOr ((msgLa m) / 4096) (.msg port { m with cls := 0x01 }) (s.serveRd port m)
def execWr (port : Nat) (m : Msg) (s : State) : Out :=
  s.serveOr ((msgLa m) / 4096) (.msg port { m with cls := 0x03 }) (s.serveWr port { m with cls := 0x03 })
def execAtomMessage (port : Nat) (m : Msg) (s : State) : Out :=
  s.serveOr ((msgLa m) / 4096) (.msg port { m with cls := 0x04 }) (s.serveAtom port { m with cls := 0x04 })
def execPgs (port : Nat) (m : Msg) (s : State) : Out :=
  s.serveOr ((msgLa m) / 4096) (.msg port { m with cls := 0x05 }) (s.servePgs port { m with cls := 0x05 })
def execPgx (port : Nat) (m : Msg) (s : State) : Out :=
  s.serveOr ((msgLa m) / 4096) (.msg port { m with cls := 0x06 }) (s.servePgx port { m with cls := 0x06 })

/-- PGRSP (R383): a revocation or recall is closed; a recalled page is at home again. One of a DEAD agent is discarded (R375). -/
def execPgrsp (_port : Nat) (m : Msg) (s : State) : Out :=
  let pg := (msgLa m) / 4096
  let die := m.tag.toNat % 4
  let h := 4 * m.src.toNat + die
  let agent := dieAgent m.src.toNat die
  if (s.die (homeDie (msgLa m))).agent agent = 2 ∨ s.awaiting agent pg = false then .next s
  else
    let s := s.answered agent pg
    .next (match tget s.coh.pages pg with
      | some e =>
        if e.st = .excl ∧ e.holders = [h] then
          { s with coh := { s.coh with pages := tput s.coh.pages pg { e with st := .shared, holders := [], lastRecall := some s.ns9 } } }
        else s
      | none => s)

/-- WBD (R383): a written-back line is applied to the home's HBM; from a DEAD agent it is discarded (R375); a poisoned line stays
as it is, and one that comes poisoned is poisoned (R386). -/
def execWbd (_port : Nat) (m : Msg) (s : State) : Out :=
  let y := (msgLa m) / 128
  if (s.die (homeDie (msgLa m))).agent (dieAgent m.src.toNat (m.tag.toNat % 4)) = 2 ∨ 2 ^ 40 ≤ (msgLa m) ∨ s.poisoned y = true then .next s
  else if m.aux.getLsbD 15 then .next (s.poisonLine y)
  else
    let l := maskedBytes (beatsLine m.beats) (BitVec.allOnes 128)
    .next (((s.l2Put y l false).hbmPut y l).wakeWhere (WLoc.inLine y))

/-! ### The holder's side (R379, R381, R383) -/

/-- The number of a page of another module. -/
def msgPage (m : Msg) : Nat := m.src.toNat * 2 ^ 40 + (msgLa m) / 4096

/-- Clusters of a die that hold a copy of a line or run a thread. -/
def State.clustersOf (s : State) (die : Nat) : List Nat :=
  ((s.thr.map fun p => slotCluster p.1) ++ s.coh.l1.map (·.cl) ++ s.coh.bc.map (·.cl)).eraseDups.filter fun c => clusterDie c == die

/-- A holder die gives a page up: its copies and L2 lines are invalidated, fills under way are not installed. -/
def State.loseP (s : State) (die pg : Nat) : State :=
  let s := (pageLines pg).foldl (fun (s : State) key =>
    let s := (s.clustersOf die).foldl (fun (s : State) c => (s.dropCopies c key).replayLoads c key none) s
    let s := s.clearPeer (peerKey key)
    { s with coh := { s.coh with l2 := tdel s.coh.l2 (peerKey key) } }) s
  { s with coh := { s.coh with
      peers := s.coh.peers.filter fun p => !(p.die == die && p.page == pg)
      fills := s.coh.fills.map fun f => if clusterDie f.cl == die && f.line / 32 == pg && f.blank then { f with keep := false } else f } }

/-- A revocation or recall is newer than the grant that the die holds? A page request under way keeps the newest one (R379, R383). -/
def State.pageProbe (s : State) (die pg : Nat) (seq : BitVec 8) : State × Bool :=
  let s := { s with coh := { s.coh with reqs := s.coh.reqs.map fun r =>
    match r.who with
    | .page d p _ =>
      if d == die && p == pg && (match r.probe with | none => true | some q => newer seq q) then { r with probe := some seq } else r
    | _ => r } }
  (s, s.coh.peers.any fun p => p.die == die && p.page == pg && newer seq p.stamp)

/-- PGINV (R383). -/
def execPginv (port : Nat) (m : Msg) (s : State) : Out :=
  let die := m.tag.toNat % 4
  let r := s.pageProbe die (msgPage m) (m.aux.setWidth 8)
  .next ((if r.2 then r.1.loseP die (msgPage m) else r.1).respond port m 0x23 m.aux [])

/-- PGRCL (R383): every dirty line of the page goes home in a WBD before the answer. -/
def execPgrcl (port : Nat) (m : Msg) (s : State) : Out :=
  let die := m.tag.toNat % 4
  let r := s.pageProbe die (msgPage m) (m.aux.setWidth 8)
  .next (
    if r.2 then
      let s := (pageLines (msgPage m)).foldl (fun (s : State) key =>
        match tget s.coh.l2 (peerKey key) with
        | some l =>
          if l.dirty && l.die == die then s.respond port { m with addr := BitVec.ofNat 64 (lineLa key) } 0x24 (s.wbdAux (peerKey key) m.aux) (lineBeats l.data) else s
        | none => s) r.1
      (s.loseP die (msgPage m)).respond port m 0x23 m.aux []
    else r.1.respond port m 0x23 m.aux [])

/-- PGGNT (R381, R379): the grant is recorded, unless a newer revocation has come; the loads that wait are then answered all the same,
and nothing is kept. -/
def execPggnt (_port : Nat) (m : Msg) (s : State) : Out :=
  match s.reqOf m with
  | none => .next s
  | some r =>
    match r.who with
    | .page die pg _ =>
      let s := s.dropReq r.id
      let seq : BitVec 8 := m.aux.setWidth 8
      let excl := m.aux.getLsbD 15
      let stale := match r.probe with | some p => newer p seq | none => false
      .next (
        if stale then
          let open_ := s.coh.fills.filter fun f => clusterDie f.cl == die && f.line / 32 == pg && f.blank
          open_.foldl (fun (s : State) f =>
            let s := s.modFill f.cl f.line fun f => { f with keep := false }
            if s.asked (· == ReqWho.fill f.cl f.line) then s else s.askPeer (.fill f.cl f.line) f.line die) s
        else
          { s with coh := { s.coh with peers := (s.coh.peers.filter fun p => !(p.die == die && p.page == pg)) ++ [⟨die, pg, excl, seq⟩] } })
    | _ => .next s

/-- DATA (Table 14-8): the line of a fill, or one for the L2 of an exclusive holder. -/
def execData (_port : Nat) (m : Msg) (s : State) : Out :=
  match s.reqOf m with
  | none => .next s
  | some r =>
    let s := s.dropReq r.id
    let d := beatsLine m.beats
    .next (match r.who with
      | .fill cl line =>
        if 2 ^ 60 ≤ line then
          match s.peerOf (clusterDie cl) (line - 2 ^ 60) with
          | some p =>
            if p.excl then s.allocatePeer (clusterDie cl) (line - 2 ^ 60) d else s
          | none => s
        else s.sendGrant cl line (m.aux.setWidth 8) d false
      | _ => s)

/-- ACK (Table 14-8): a write is complete at its home, or a PLACE has its status in AUX (R368). -/
def execAck (_port : Nat) (m : Msg) (s : State) : Out :=
  match s.reqOf m with
  | none => .next s
  | some r =>
    let s := s.dropReq r.id
    .next (match r.who with
      | .unit uid =>
        if s.asked (· == ReqWho.unit uid) then s
        else { s with coh := { s.coh with flying := s.coh.flying.filter fun f => !(f.u.uid == uid && f.u.op.isAtomic == false) } }
      | .place cl cmd => s.placed (.engine cl cmd) 0 (m.aux.toNat % 256)
      | .relay port dev tag name => s.placed (.port port dev tag) name (m.aux.toNat % 256)
      | _ => s)

/-- ATRSP (Table 14-8): the old value of a far atomic; copies of its line that the module took meanwhile are older than it (R265). -/
def execAtrsp (_port : Nat) (m : Msg) (s : State) : Out :=
  match s.reqOf m with
  | none => .next s
  | some r =>
    let s := s.dropReq r.id
    .next (match r.who with
      | .unit uid => (s.dropLoose (keyOf r.pa) none).atomDone uid ((m.beats.headD 0).toNat % 2 ^ 64) false
      | _ => s)

/-- AGENT (R373, R375, R438): with the sleep flag, AUX[0], the dies of the module are SLEEPING; without it they are LIVE. -/
def execAgent (_port : Nat) (m : Msg) (s : State) : Out :=
  .next ((List.range 4).foldl (fun s d => (List.range 4).foldl (fun (s : State) k =>
    let a := dieAgent m.src.toNat k
    if m.aux.getLsbD 0 then (if (s.die d).agent a = 0 then s.setAgent d a 1 else s) else s.setAgent d a 0) s) s)

end Sys2Proof.Machine
end

