-- ==== Sys2Proof/Machine/WideFp.lean ====
section
/-! DEFINITION. Wide floating-point forms, opcodes 0x90 to 0x9F (05_vector_matrix.md R150 to R154; 04_number_formats.md R126,
R132, R133). -/

namespace Sys2Proof.Machine

/-- The format of a floating-point element type; the integer types do not reach it. -/
def fmtOf : ETy → Fmt
  | .e4m3 => fmtE4M3 | .e5m2 => fmtE5M2 | .fp16 => fmtFP16 | .bf16 => fmtBF16 | _ => fmtFP32

/-- The exponent that a token applies to its lanes (R125). -/
def Wide.exp (w : Wide) : Int := if w.t then w.e.toInt else 0

/-- The lanes of an operand as exact values, its scale applied (R121, R126). -/
def Site.vals (x : Site) (ty : ETy) (t : Token) : List Val :=
  let w := t.wideOf
  (lanesOf w.data ty.width).map fun v => ((fmtOf ty).read x.b.ftz v).scale w.exp

/-- The union of flags. -/
def allFlags (l : List (Nat × Flags)) : Flags := l.foldl (fun f x => f ||| x.2) 0

/-- A wide floating-point form: it waits for the rounding field (R104), gives nulls for a null, and faults on a scaled operand
when SC = 0 (R126); else lanes and their flags. -/
def computeWideFp (h : Hdr) (need : List Nat) (sc : Bool) (f : Site → Token × Flags) (s : State) : Out :=
  fireWhen h.pm none (fun x _ => x.has need && x.b.fp.isSome) (fun x s =>
    if x.anyNull need then s.deliver x.ref h .null .null
    else match x.scaledAt (if sc then [] else need) with
      | some (j, w) => s.holdAt x .scaleTag (scaleTval j w.e) none
      | none =>
        let r := f x
        (s.raise x r.2).deliver x.ref h r.1 r.1) s

/-- Lanes with flags as a token of the type. -/
def lanesTok (ty : ETy) (l : List (Nat × Flags)) : Token × Flags := (unscaled (ofLanes ty.width (l.map (·.1))), allFlags l)

/-- One lane: the operation's value rounded, its flags united (R150). -/
def Site.roundLane (x : Site) (ty : ETy) (r : Rnd) (v : Val × Flags) : Nat × Flags :=
  let y := (fmtOf ty).round (x.rnd r) x.b.ftz v.1
  (y.1, v.2 ||| y.2)

/-- A lane-wise form of one operand. -/
def vfOp1 (h : Hdr) (ty : ETy) (r : Rnd) (sc : Bool) (op : Val → Val × Flags) (s : State) : Out :=
  computeWideFp h [0] sc (fun x => lanesTok ty ((x.vals ty x.a).map fun v => x.roundLane ty r (op v))) s

/-- A lane-wise form of two operands. -/
def vfOp2 (h : Hdr) (ty : ETy) (r : Rnd) (sc : Bool) (op : Rnd → Val → Val → Val × Flags) (s : State) : Out :=
  computeWideFp h [0, 1] sc (fun x =>
    lanesTok ty (List.zipWith (fun a b => x.roundLane ty r (op (x.rnd r) a b)) (x.vals ty x.a) (x.vals ty x.b'))) s

/-- VFADD, VFSUB, VFMUL (R150). -/
def execVfadd (h : Hdr) (ty : ETy) (r : Rnd) (sc : Bool) (s : State) : Out := vfOp2 h ty r sc addVal s
def execVfsub (h : Hdr) (ty : ETy) (r : Rnd) (sc : Bool) (s : State) : Out := vfOp2 h ty r sc (fun md a b => addVal md a b.neg) s
def execVfmul (h : Hdr) (ty : ETy) (r : Rnd) (sc : Bool) (s : State) : Out := vfOp2 h ty r sc (fun _ a b => mulVal a b) s

/-- VFFMA (R150). -/
def execVffma (h : Hdr) (ty : ETy) (r : Rnd) (sc : Bool) (s : State) : Out :=
  computeWideFp h [0, 1, 2] sc (fun x =>
    lanesTok ty (List.zipWith (fun (p : Val × Val) c => x.roundLane ty r (fmaVal (x.rnd r) p.1 p.2 c))
      (List.zip (x.vals ty x.a) (x.vals ty x.b')) (x.vals ty x.c'))) s

/-- VFMIN, VFMAX (R107, R150); a scaled operand's value is rounded once, by FPCSR.RM (R126). -/
def execVfmin (h : Hdr) (ty : ETy) (sc : Bool) (s : State) : Out := vfOp2 h ty .fpcsr sc (fun _ a b => minMaxVal false a b) s
def execVfmax (h : Hdr) (ty : ETy) (sc : Bool) (s : State) : Out := vfOp2 h ty .fpcsr sc (fun _ a b => minMaxVal true a b) s

/-- VFDIV, VFSQRT, VFRSQ, VFEXP2 (R133): FP32 lanes. -/
def execVfdiv (h : Hdr) (r : Rnd) (sc : Bool) (s : State) : Out := vfOp2 h .fp32 r sc (fun _ a b => divVal a b) s
def execVfsqrt (h : Hdr) (r : Rnd) (sc : Bool) (s : State) : Out := vfOp1 h .fp32 r sc sqrtVal s
def execVfrsq (h : Hdr) (r : Rnd) (sc : Bool) (s : State) : Out := vfOp1 h .fp32 r sc rsqVal s
def execVfexp2 (h : Hdr) (r : Rnd) (sc : Bool) (s : State) : Out := vfOp1 h .fp32 r sc exp2Val s

/-- VFCMP (R108, R150): a mask. -/
def execVfcmp (c : FCond) (h : Hdr) (ty : ETy) (sc : Bool) (s : State) : Out :=
  computeWideFp h [0, 1] sc (fun x =>
    lanesTok ty (List.zipWith (fun a b =>
      let r := fcondHolds c a b
      (maskLane r.1 ty.width, r.2)) (x.vals ty x.a) (x.vals ty x.b'))) s

/-- Convert of R151: one lane from type `src` to type `dst`. -/
def Site.convert (x : Site) (dst src : ETy) (md : Rnd) (sat u : Bool) (e : Int) (v : Nat) : Nat × Flags :=
  let val : Val := if src.isInt then (ofIntVal (if u then (v : Int) else sInt v src.width)).scale e
    else ((fmtOf src).read x.b.ftz v).scale e
  if dst.isInt then
    let w := dst.width
    let lo : Int := if u then 0 else -(2 ^ (w - 1) : Int)
    let hi : Int := if u then 2 ^ w - 1 else 2 ^ (w - 1) - 1
    let r := toInt md lo hi val
    (wrapN r.1 w, r.2)
  else convertVal (fmtOf dst) sat md x.b.ftz val

/-- VFCVT (R151): the lanes that the part names, every other lane of the result zero. -/
def execVfcvt (h : Hdr) (dst src : ETy) (r : Rnd) (sc sat u : Bool) (part : BitVec 2) (s : State) : Out :=
  computeWideFp h [0] sc (fun x =>
    let w := x.a.wideOf
    let n := 128 / max dst.bytes src.bytes
    let p := part.toNat
    let inp := lanesOf w.data src.width
    let conv := fun v => x.convert dst src (x.rnd r) sat u w.exp v
    if dst.bytes ≤ src.bytes then
      lanesTok dst (List.replicate (n * p) (0, 0) ++ (inp.take n).map conv)
    else lanesTok dst (((inp.drop (n * p)).take n).map conv)) s

/-- One level of the pairwise tree of R132. -/
def treeLevel {α : Type} (f : α → α → α) : List α → List α
  | a :: b :: l => f a b :: treeLevel f l
  | l => l

/-- The tree of R132, at most seven levels. -/
def tree {α : Type} (f : α → α → α) : Nat → List α → List α
  | 0, l => l
  | n + 1, l => tree f n (treeLevel f l)

/-- VFREDA (R132): each sum of two values placed in FP32 by one nearest-even rounding. -/
def execVfreda (h : Hdr) (ty : ETy) (_r : Rnd) (sc : Bool) (s : State) : Out :=
  computeWideFp h [0] sc (fun x =>
    let add := fun (a b : Val × Flags) =>
      let v := addVal .rne a.1 b.1
      let y := fmtFP32.round .rne x.b.ftz v.1
      (fmtFP32.decode y.1, a.2 ||| b.2 ||| v.2 ||| y.2)
    match tree add 7 ((x.vals ty x.a).map fun v => (v, (0 : Flags))) with
    | [] => (.narrow 0, 0)
    | t :: _ => (.narrow (BitVec.ofNat 64 (fmtFP32.round .rne false t.1).1), t.2)) s

/-- VFREDM (R132): the exact values compared, the chosen one rounded once; for an unscaled input that rounding is exact and
only NV is raised. -/
def execVfredm (mx : Bool) (h : Hdr) (ty : ETy) (sc : Bool) (s : State) : Out :=
  computeWideFp h [0] sc (fun x =>
    let pick := fun (a b : Val × Flags) =>
      let v := minMaxVal mx a.1 b.1
      (v.1, a.2 ||| b.2 ||| v.2)
    match tree pick 7 ((x.vals ty x.a).map fun v => (v, (0 : Flags))) with
    | [] => (.narrow 0, 0)
    | t :: _ =>
      let y := fmtFP32.round .rne (x.b.ftz && x.a.wideOf.t) t.1
      (.narrow (BitVec.ofNat 64 y.1), t.2 ||| y.2)) s

/-- VSCALE.imm and .reg (R153): the scale exponent moved by k, the data bits kept. -/
def vscaleBy (h : Hdr) (need : List Nat) (k : Site → Int) (s : State) : Out :=
  fire h.pm none (ops need) (fun x s =>
    if x.anyNull need then s.deliver x.ref h .null .null
    else
      let w := x.a.wideOf
      let e := w.exp + k x
      if e < -128 ∨ 127 < e then s.holdAt x .scaleTag (BitVec.ofNat 64 (wrapN e 8 + 2 ^ 10)) none
      else s.deliver x.ref h (.wide ⟨w.data, true, BitVec.ofInt 8 e⟩) (.wide ⟨w.data, true, BitVec.ofInt 8 e⟩)) s

def execVscaleImm (h : Hdr) (_ty : ETy) (imm : BitVec 13) (s : State) : Out := vscaleBy h [0] (fun _ => imm.toInt) s
def execVscaleReg (h : Hdr) (_ty : ETy) (s : State) : Out := vscaleBy h [0, 1] (fun x => x.b'.word.toInt) s

/-- VSCALE.clear (R153): the scale applied, each lane rounded once. -/
def execVscaleClear (h : Hdr) (ty : ETy) (r : Rnd) (sat : Bool) (s : State) : Out :=
  computeWideFp h [0] true (fun x =>
    lanesTok ty ((x.vals ty x.a).map fun v => convertVal (fmtOf ty) sat (x.rnd r) x.b.ftz v)) s

/-- An integer lane under the scale of its token: exact, then rounded to an integer once (R126). R154 gives SC = 1 only for floating-point
values: that the scale of an integer VPACK is applied too is the model's reading of R126 (log entry 45). -/
def scaledInt (md : Rnd) (e : Int) (n : Int) : Int × Flags :=
  let r := roundInt md (decide (n < 0)) n.natAbs e
  (r.1, if r.2 then fNX else 0)

/-- One lane of VPACK.pack (R154; for a scaled integer log entry 45). -/
def Site.packLane (x : Site) (dst src : ETy) (md : Rnd) (sat u : Bool) (e : Int) (v : Nat) : Nat × Flags :=
  if dst.isInt then
    let r := scaledInt md e (sInt v src.width)
    (narrowTo r.1 dst.width (if sat then (if u then .usat else .ssat) else .wrap), r.2)
  else convertVal (fmtOf dst) sat md x.b.ftz (((fmtOf src).read x.b.ftz v).scale e)

/-- VPACK.pack (R154): the lanes of A, then those of B. -/
def execVpackPack (h : Hdr) (dst src : ETy) (r : Rnd) (sc sat u : Bool) (s : State) : Out :=
  computeWideFp h [0, 1] sc (fun x =>
    let one := fun (t : Token) =>
      (lanesOf t.wideOf.data src.width).map fun v => x.packLane dst src (x.rnd r) sat u t.wideOf.exp v
    lanesTok dst (one x.a ++ one x.b')) s

/-- VPACK.unpack (R154): half of the lanes of A, widened. With SC = 1 the scale of the token is applied first and the result rounded by
FPCSR.RM (log entry 45). -/
def execVpackUnpack (h : Hdr) (dst src : ETy) (sc u half : Bool) (s : State) : Out :=
  computeWideFp h [0] sc (fun x =>
    let w := x.a.wideOf
    let n := 128 / dst.bytes
    let inp := ((lanesOf w.data src.width).drop (n * ofBool half)).take n
    lanesTok dst (inp.map fun v =>
      if dst.isInt then
        let r := scaledInt x.b.rm w.exp (if u then Int.ofNat v else sInt v src.width)
        (wrapN r.1 dst.width, r.2)
      else convertVal (fmtOf dst) false x.b.rm x.b.ftz (((fmtOf src).read x.b.ftz v).scale w.exp))) s

end Sys2Proof.Machine
end

