-- ==== Sys2Proof/Machine/Matrix.lean ====
section
/-! DEFINITION. The matrix unit (05 R156 to R174, 04 R124 to R137): the matrix forms as they fire, the checks before their commit, the
product with its groups of exact sums, grain-packed rows, and the steps of a command in its context. -/

namespace Sys2Proof.Machine

/-! ### Shapes and handles (R161) -/

def Handle.rows (h : Handle) : Nat := 8 * 2 ^ h.mc.toNat
def Handle.cols (h : Handle) : Nat := 8 * (h.nc.toNat + 1)
/-- Bytes of a region on one grid. -/
def Handle.bytes (h : Handle) : Nat := 4 * h.rows * h.cols
/-- Rows and columns of the tile that an ACC form sees: 2M by 2N on a spanning handle. -/
def Handle.tileRows (h : Handle) : Nat := if h.span then 2 * h.rows else h.rows
def Handle.tileCols (h : Handle) : Nat := if h.span then 2 * h.cols else h.cols

/-- The handle that an ACCSET binds. -/
def accsetHandle (int : Bool) (mc : BitVec 3) (nc : BitVec 5) (span : Bool) (a b : W64) : Handle :=
  ⟨a.toNat, mc, nc, if int then .i32 else .f32, span, b⟩

/-- The accumulator partition of a member grid in bytes (R271). -/
def Group.accSize (g : Group) : Nat := 4096 * partAcc g.partw

/-- The pool address of a byte of a member's accumulator partition. -/
def Member.accAt (m : Member) (off : Nat) : Nat := m.grid * 2 ^ 19 + m.accU.getD (off / 4096) 0 * 4096 + off % 4096

/-- Pool ranges of a range of a member's accumulator partition. -/
def Member.accRanges (m : Member) (off len : Nat) : List (Nat × Nat) :=
  (pageChunks off len (len / 4096 + 2)).map fun p => (m.accAt p.1, p.2)

/-- Is the element at a pool address defined (R21, R273)? -/
def Group.accDef (g : Group) (a : Nat) : Bool := g.accDefined.any fun r => decide (r.1 ≤ a) && decide (a + 4 ≤ r.1 + r.2)
def Group.define (g : Group) (l : List (Nat × Nat)) : Group :=
  l.foldl (fun g r =>
    if g.accDefined.any fun q => decide (q.1 ≤ r.1) && decide (r.1 + r.2 ≤ q.1 + q.2) then g
    else { g with accDefined := g.accDefined ++ [r] }) g

/-- An element: what was written, or a free value (R21). -/
def State.accGet (s : State) (g : Group) (m : Member) (off : Nat) : State × Nat :=
  let a := m.accAt off
  if g.accDef a then (s, leNat (rdBytes s.pool a 4))
  else let d := s.draw; (d.2, (Config.freeWord d.1).toNat % 2 ^ 32)

/-- Elements written, which then are defined. -/
def State.accPut (s : State) (gid : Nat) (m : Member) (off : Nat) (v : Nat) : State :=
  { s with pool := wrBytes s.pool (m.accAt off) (leBytes v 4) }.modGroup gid fun g => g.define (m.accRanges off 4)

/-- Where element (r, c) of a tile lies: its member's index and the offset in the partition (R161, R164). -/
def Handle.place (h : Handle) (home : Nat) (r c : Nat) : Nat × Nat :=
  if h.span then (2 * (r / h.rows) + c / h.cols, h.off + 4 * (r % h.rows * h.cols + c % h.cols))
  else (home, h.off + 4 * (r * h.cols + c))

/-- The member of a group that a grid is. -/
def Group.memberOf (g : Group) (grid : Nat) : Nat := (g.members.findIdx? fun m => m.grid == grid).getD 0

/-! ### The forms as they fire (R157) -/

/-- A matrix form fires with its operands and leaves its effect for the commit. -/
def fireMatrix (h : Hdr) (need : List Nat) (i : Instr) (s : State) : Out :=
  fireForm h.pm (some h) (ops need) (fun x _ => .go fun s => x.issue h i s) s

/-- MMA and MMAC (R162, R164) as they fire. -/
def execMma (ga gb : Bool) (h : Hdr) (x : MmArgs) (s : State) : Out := fireMatrix h [0, 1, 2] (.mma ga gb h x) s
def execMmac (g : Bool) (h : Hdr) (x : MmArgs) (s : State) : Out := fireMatrix h [0, 1, 2] (.mmac g h x) s

/-- MMAR (R163, R160): with SC = 0 a scaled register operand is SCALE_TAG. -/
def execMmar (rb : Bool) (h : Hdr) (m : MmArgs) (s : State) : Out :=
  fireForm h.pm (some h) (ops [0, 1, 2]) (fun x _ =>
    let w := if rb then x.b'.wideOf else x.a.wideOf
    if w.t ∧ ¬ m.sc then .fail .scaleTag (scaleTval (ofBool rb) w.e)
    else .go fun s => x.issue h (.mmar rb h m) s) s

/-- ACCSET (R161, R193): the sync word of a memory reference is reached as the form fires. -/
def execAccset (int : Bool) (h : Hdr) (acc mc : BitVec 3) (nc : BitVec 5) (span : Bool) (s : State) : Out :=
  fireForm h.pm (some h) (ops [0, 1]) (fun x s =>
    let ref := x.b'.word
    let i : Instr := .accset int h acc mc nc span
    if ref ≠ 0 ∧ ref.toNat % 16 = 0 then s.reachWord x true ref fun _ _ => .go fun s => x.issue h i s
    else .go fun s => x.issue h i s) s

/-- ACCZ, ACCLD, ACCST (R165) as they fire. -/
def execAccz (h : Hdr) (acc : BitVec 3) (ctx : BitVec 2) (s : State) : Out := fireMatrix h [] (.accz h acc ctx) s
def execAccld (spad : Bool) (h : Hdr) (acc : BitVec 3) (ctx : BitVec 2) (s : State) : Out :=
  fireMatrix h [0, 1] (.accld spad h acc ctx) s
def execAccst (spad : Bool) (h : Hdr) (acc : BitVec 3) (ctx : BitVec 2) (s : State) : Out :=
  fireMatrix h [0, 1] (.accst spad h acc ctx) s

/-- ACCWR (R166): its data must be unscaled. -/
def execAccwr (h : Hdr) (acc : BitVec 3) (ctx : BitVec 2) (s : State) : Out :=
  fireForm h.pm (some h) (ops [0, 1]) (fun x _ =>
    let w := x.b'.wideOf
    if w.t then .fail .scaleTag (scaleTval 1 w.e) else .go fun s => x.issue h (.accwr h acc ctx) s) s

/-- A form whose result an event delivers. -/
def fireWaiting (h : Hdr) (need : List Nat) (i : Instr) (s : State) : Out :=
  fireForm h.pm (some h) (ops need) (fun x _ => .go fun s =>
    (s.record x i []).modBlock x.ref fun b => b.modEntry x.idx fun e => { e with st := .waiting }) s

/-- ACCRD (R167) and MWAIT (R173) as they fire. -/
def execAccrd (h : Hdr) (acc : BitVec 3) (s : State) : Out := fireWaiting h [0] (.accrd h acc) s
def execMwait (all : Bool) (h : Hdr) (ctx : BitVec 2) (s : State) : Out := fireWaiting h [] (.mwait all h ctx) s

/-! ### Commands and their regions -/

/-- The handle and context of a command form. -/
def mxHandle : Instr → Option (BitVec 3)
  | .mma _ _ _ x => some x.acc | .mmar _ _ x => some x.acc | .mmac _ _ x => some x.acc
  | .accz _ a _ => some a | .accld _ _ a _ => some a | .accst _ _ a _ => some a | .accwr _ a _ => some a
  | .accrd _ a => some a
  | _ => none
def mxCtx : Instr → Option Nat
  | .mma _ _ _ x => some x.ctx.toNat | .mmar _ _ x => some x.ctx.toNat | .mmac _ _ x => some x.ctx.toNat
  | .accz _ _ c => some c.toNat | .accld _ _ _ c => some c.toNat | .accst _ _ _ c => some c.toNat | .accwr _ _ c => some c.toNat
  | _ => none
def isMmac : Instr → Bool
  | .mmac _ _ _ => true
  | _ => false

/-- The opcode of a command in an ENGINE shaving. -/
def mxOpcode : Instr → Nat
  | .mma _ _ _ _ => 0xA0 | .mmar _ _ _ => 0xA1 | .mmac _ _ _ => 0xA2 | .accz _ _ _ => 0xA4 | .accld _ _ _ _ => 0xA5
  | .accst _ _ _ _ => 0xA6 | .accwr _ _ _ => 0xA8
  | _ => 0

/-- Does a command write its region (R170)? -/
def mxWrites : Instr → Bool
  | .accst _ _ _ _ => false
  | _ => true

/-- The members on which a command's region lies, all at the handle's offset. -/
def MCmd.members (c : MCmd) (g : Group) : List Nat :=
  match c.quarter with
  | some q => [q]
  | none => if c.handle.span then [0, 1, 2, 3] else [g.memberOf (slotGrid c.slot)]

/-- Do the regions of two commands overlap (R170)? -/
def MCmd.overlaps (c d : MCmd) (g : Group) : Bool :=
  c.gid == d.gid && ((c.members g).any fun m => (d.members g).contains m)
    && decide (c.handle.off < d.handle.off + d.handle.bytes) && decide (d.handle.off < c.handle.off + c.handle.bytes)

/-- Every command in a context of the module. -/
def State.allMx (s : State) : List MCmd := (s.grids.map fun g => g.2.mx.flatten).flatten

/-- The bindings that a form of a block sees: those committed, updated by the lower ACCSETs of the block that fired (R168). -/
def handleView (t : Thread) (b : Block) (idx : Nat) (acc : BitVec 3) : Option Handle :=
  (b.effs.filter fun e => decide (e.idx < idx)).foldl (fun (h : Option Handle × Nat) e =>
    match e.ins with
    | .accset int _ a mc nc span =>
      if a = acc ∧ h.2 ≤ e.idx then (some (accsetHandle int mc nc span (e.a.getD .null).word (e.b.getD .null).word), e.idx) else h
    | _ => h) ((t.regs.h.getD acc.toNat none, 0) : Option Handle × Nat) |>.1

/-! ### Footprints (R158 to R160, R165) -/

/-- The layout word (Table 5-6): strides or extents in bytes, and the displacement of the scale block. -/
def layStride (f : Nat) : Nat := if f = 0 then 128 else 16 * f
def layA (c : W64) : Nat := layStride (c.toNat % 65536)
def layB (c : W64) : Nat := layStride (bitsOf c.toNat 31 16)
def layDisp (c : W64) : W64 := (c.extractLsb' 32 32).signExtend 64

/-- The bytes of an operand's footprint (R159). -/
def footLen (packed : Bool) (stride rows : Nat) : Nat := if packed then stride else stride * (rows - 1) + 128

/-- A range that a command reads or writes: scratchpad?, address, length, destination? -/
structure Foot where
  spad : Bool
  addr : W64
  len : Nat
  dest : Bool
  /-- must it be 16-byte aligned? -/
  scale : Bool

/-- The ranges of a command (R159, R160, R165, R169). -/
def footprints (i : Instr) (hd : Handle) (a b c : W64) : List Foot :=
  match i with
  | .mma ga gb _ x =>
    [⟨x.aspad, a, footLen ga (layA c) hd.rows, false, false⟩, ⟨x.bspad, b, footLen gb (layB c) hd.cols, false, false⟩]
      ++ (if x.sc then [⟨x.aspad, a + layDisp c, 128 + hd.cols, false, true⟩] else [])
  | .mmac g _ x =>
    [⟨x.aspad, a, footLen g (layA c) (2 * hd.rows), false, false⟩, ⟨x.bspad, b, footLen false (layB c) (2 * hd.cols), false, false⟩]
      ++ (if x.sc then [⟨x.aspad, a + layDisp c, 256 + 2 * hd.cols, false, true⟩] else [])
  | .mmar rb _ x =>
    if rb then
      [⟨x.aspad, a, footLen false (layA c) hd.rows, false, false⟩]
        ++ (if x.sc then [⟨x.aspad, a + layDisp c, hd.rows, false, true⟩] else [])
    else
      [⟨x.bspad, b, footLen false (layB c) hd.cols, false, false⟩]
        ++ (if x.sc then [⟨x.bspad, b + layDisp c + 128, hd.cols, false, true⟩] else [])
  | .accld spad _ _ _ => [⟨spad, a, b.toNat * (hd.tileRows - 1) + 4 * hd.tileCols, false, false⟩]
  | .accst spad _ _ _ => [⟨spad, a, b.toNat * (hd.tileRows - 1) + 4 * hd.tileCols, true, false⟩]
  | _ => []

/-! ### Checks before commit (R168, Table 5-7) -/

/-- The reason for which a product form fails. -/
def productReason (g : Group) (hd : Handle) (i : Instr) (x : MmArgs) (a b c : W64) : Option Nat :=
  if hd.mc ≠ x.mc ∨ hd.nc ≠ x.nc then some 0x02
  else if (hd.fmt = .i32) ≠ (x.aty.isInt = true) then some 0x03
  else if isMmac i ≠ hd.span then some 0x04
  else if isMmac i ∧ g.members.length ≠ 4 then some 0x04
  else
    let l := footprints i hd a b c
    if l.any fun f => f.addr.toNat % 16 ≠ 0 then some 0x05
    else if l.any fun f => f.spad && !g.inSpad f.addr.toNat f.len then some 0x06
    else none

/-- The reason for which a fired matrix form fails, given the bindings that it sees. A scratchpad sync word of ACCSET that lies outside the
group scratchpad is given reason 0x06, which Table 5-7 has for footprints: the model's choice (log entry 50). -/
def matrixReason (t : Thread) (g : Group) (b : Block) (e : Effect) : Option Nat :=
  let oa := (e.a.getD .null).word
  let ob := (e.b.getD .null).word
  let oc := (e.c.getD .null).word
  match e.ins with
  | .accset int _ acc mc nc span =>
    let hd := accsetHandle int mc nc span oa ob
    -- without an accumulator partition every ACCSET has reason 0x07 (R271)
    if g.accSize = 0 then some 0x07
    else if oa.toNat % 256 ≠ 0 ∨ 2 ≤ ob.toNat % 16 then some 0x05
    else if ob.toNat % 16 = 1 ∧ !g.inSpad (refBase ob).toNat 16 then some 0x06
    else if g.accSize < oa.toNat + hd.bytes ∨ (span ∧ g.members.length ≠ 4) then some 0x07
    else if (List.range 8).any fun j => decide (j ≠ acc.toNat) &&
        (match handleView t b e.idx (BitVec.ofNat 3 j) with
         | some o => decide (o.off < oa.toNat + hd.bytes) && decide (oa.toNat < o.off + o.bytes)
         | none => false) then some 0x07
    else none
  | i =>
    match mxHandle i with
    | none => none
    | some acc =>
      match handleView t b e.idx acc with
      | none => some 0x01
      | some hd =>
        match i with
        | .mma _ _ _ x => productReason g hd i x oa ob oc
        | .mmac _ _ x => productReason g hd i x oa ob oc
        | .mmar _ _ x => productReason g hd i x oa ob oc
        | .accld spad _ _ _ => tileReason hd spad
        | .accst spad _ _ _ => tileReason hd spad
        | .accrd _ _ => posReason hd
        | .accwr _ _ _ => posReason hd
        | _ => none
where
  tileReason (hd : Handle) (spad : Bool) : Option Nat :=
    let oa := (e.a.getD .null).word
    let ob := (e.b.getD .null).word
    if oa.toNat % 16 ≠ 0 ∨ ob.toNat % 16 ≠ 0 ∨ ob.toNat < 4 * hd.tileCols then some 0x05
    else if spad && !g.inSpad oa.toNat (ob.toNat * (hd.tileRows - 1) + 4 * hd.tileCols) then some 0x06
    else none
  posReason (hd : Handle) : Option Nat :=
    let p := (e.a.getD .null).word.toNat
    if hd.tileRows ≤ p % 65536 ∨ hd.tileCols ≤ bitsOf p 31 16 ∨ bitsOf p 31 16 % 32 ≠ 0 then some 0x08 else none

/-- The recorded matrix forms of a block by index. -/
def Block.matrixEffs (b : Block) : List Effect :=
  (b.effs.filter fun e => (mxHandle e.ins).isSome || (match e.ins with | .accset _ _ _ _ _ _ => true | _ => false)).mergeSort
    fun x y => decide (x.idx ≤ y.idx)

/-- R168: the first failed form of a complete, oldest block, with its reason. Of the forms that name one context, the third by index is the
one that reason 0x09 names (the model's choice: log entry 70). -/
def matrixCheck (t : Thread) (g : Group) (b : Block) : Option (Nat × Nat) :=
  let l := b.matrixEffs
  l.findSome? fun e =>
    match matrixReason t g b e with
    | some r => some (e.idx, r)
    | none =>
      match mxCtx e.ins with
      | some c => if 2 < (l.filter fun y => decide (y.idx ≤ e.idx) && mxCtx y.ins == some c).length then some (e.idx, 0x09) else none
      | none => none

/-! ### The product (R129 to R131) -/

/-- The format of a floating-point matrix type. -/
def mtyFmt : MTy → Fmt
  | .e4m3 => fmtE4M3 | .e5m2 => fmtE5M2 | .fp16 => fmtFP16 | .bf16 => fmtBF16
  | .s8 => fmtE4M3 | .u8 => fmtE4M3

/-- What a group of products comes to (R130). -/
inductive GroupSum where
  | nan (nv : Bool)
  | inf (neg : Bool)
  | exact (n : Int) (e : Int)

/-- The lowest exponent of a format's finite values. -/
def Fmt.low (f : Fmt) : Int := 1 - (f.bias : Int) - f.mb

/-- A finite value as a multiple of 2^q. -/
def Val.units (v : Val) (q : Int) : Int :=
  match v with
  | .fin neg m e _ => let n : Int := ((m * 2 ^ (e - q).toNat : Nat) : Int); if neg then -n else n
  | _ => 0

/-- Infinite? -/
def Val.isInf : Val → Bool
  | .inf _ => true
  | _ => false

/-- The sum of a group, exact (R129, R130). -/
def groupSum (fa fb : Fmt) (l : List (Nat × Nat)) : GroupSum :=
  let vs := l.map fun p => (fa.decode p.1, fb.decode p.2)
  let bad := vs.any fun p => p.1.isNan || p.2.isNan
  let zeroInf := vs.any fun p => (p.1.isInf && p.2.isZero) || (p.1.isZero && p.2.isInf)
  let infs := (vs.filter fun p => (p.1.isInf || p.2.isInf) && !p.1.isNan && !p.2.isNan && !p.1.isZero && !p.2.isZero).map fun p =>
    p.1.negative != p.2.negative
  let mixed := infs.contains true && infs.contains false
  if bad || zeroInf || mixed then .nan (zeroInf || mixed)
  else
    match infs with
    | n :: _ => .inf n
    | [] => .exact (vs.foldl (fun (n : Int) p => n + p.1.units fa.low * p.2.units fb.low) 0) (fa.low + fb.low)

/-- One group added to an accumulator: the one rounding (R129 to R131). -/
def addGroup (g : GroupSum) (scale : Int) (acc : Nat) : Nat × Flags :=
  let a := fmtFP32.decode acc
  match g with
  | .nan nv => (fmtFP32.qnan, if nv then fNV else 0)
  | .inf n =>
    match a with
    | .nan _ => (fmtFP32.qnan, 0)
    | .inf m => if m = n then (acc, 0) else (fmtFP32.qnan, fNV)
    | _ => (fmtFP32.infinity n, 0)
  | .exact n e =>
    if n = 0 then (acc, 0)
    else
      match a with
      | .nan _ => (fmtFP32.qnan, 0)
      | .inf _ => (acc, 0)
      | _ =>
        let v := addVal .rne a (.fin (decide (n < 0)) n.natAbs (e + scale) false)
        fmtFP32.round .rne false v.1

/-- Groups of `n` of a list; the fuel bounds their number. -/
def groupsOf {α : Type} (n : Nat) : Nat → List α → List (List α)
  | 0, _ => []
  | k + 1, l => if l.isEmpty then [] else l.take n :: groupsOf n k (l.drop n)

/-- An INT8 element. -/
def int8 (ty : MTy) (v : Nat) : Int := if ty = .s8 then sInt v 8 else ((v % 256 : Nat) : Int)

/-- R129 for one result element. -/
def mmElem (aty bty : MTy) (as bs : List Nat) (scale : Int) (acc : Nat) : Nat × Flags :=
  if aty.isInt then
    (wrapN (sInt acc 32 + (as.zip bs).foldl (fun (n : Int) p => n + int8 aty p.1 * int8 bty p.2) 0) 32, 0)
  else
    (groupsOf (if aty.bytes = 1 then 32 else 16) 8 (as.zip bs)).foldl (fun (r : Nat × Flags) l =>
      let q := addGroup (groupSum (mtyFmt aty) (mtyFmt bty) l) scale r.1
      (q.1, r.2 ||| q.2)) (acc, 0)

/-- The elements of a row of 128 bytes. -/
def rowElems (ty : MTy) (l : List Byte) : List Nat :=
  (List.range (128 / ty.bytes)).map fun k => leNat ((l.drop (ty.bytes * k)).take ty.bytes)

/-! ### Operands (R158, R134 to R137) -/

/-- Bytes of an operand. -/
def State.mxRead (s : State) (w : Who) (g : Group) (spad : Bool) (a : W64) (n : Nat) (dry : Bool) : EngRes (List Byte) :=
  if spad then s.engSpad g a.toNat n else s.engLoad w a n dry

/-- The rows of a plain operand. -/
def State.plainRows (s : State) (w : Who) (g : Group) (spad : Bool) (a : W64) (stride : Nat) (dry : Bool) : List Nat → EngRes (List (List Byte))
  | [] => .done s []
  | r :: l =>
    (s.mxRead w g spad (a + BitVec.ofNat 64 (r * stride)) 128 dry).bind fun s b =>
      (s.plainRows w g spad a stride dry l).bind fun s bs => .done s (b :: bs)

/-- The decoded bytes of a packed row with RAW = 0 (R135); `none` where an exponent exceeds 15. -/
def unpackRow (e0 wd : Nat) (data : Nat) : Option (List Byte) :=
  let f := 4 + wd
  (List.range 128).foldr (fun i (acc : Option (List Byte)) =>
    match acc with
    | none => none
    | some l =>
      let x := data / 2 ^ (f * i) % 2 ^ f
      let d := x / 16
      let ex := if wd = 0 then some e0 else if d = 2 ^ wd - 1 then some 0 else if 15 < e0 + d then none else some (e0 + d)
      ex.map fun ex => BitVec.ofNat 8 (x % 2 * 128 + ex * 8 + x / 2 % 8) :: l) (some [])

/-- The malformed-row error (R137). -/
def EngRes.malformed {α : Type} (s : State) : EngRes α := .err s 0x06 .matrixOperand 0

/-- A row of a grain-packed tile, at an offset within its extent. -/
def State.packedRow (s : State) (w : Who) (g : Group) (spad : Bool) (a : W64) (extent start : Nat) (dry : Bool) : EngRes (List Byte) :=
  if extent < start + 2 then .malformed s
  else
    (s.mxRead w g spad (a + BitVec.ofNat 64 start) 2 dry).bind fun s hb =>
      let h := leNat hb
      let e0 := bitsOf h 15 12
      let wd := bitsOf h 11 9
      let raw := bitAt h 8
      if 4 < wd ∨ h % 256 ≠ 0 ∨ (raw ∧ (e0 ≠ 0 ∨ wd ≠ 0)) then .malformed s
      else
        let n := if raw then 128 else 16 * (4 + wd)
        if extent < start + 2 + n then .malformed s
        else
          (s.mxRead w g spad (a + BitVec.ofNat 64 (start + 2)) n dry).bind fun s d =>
            if raw then .done s d
            else
              match unpackRow e0 wd (leNat d) with
              | none => .malformed s
              | some l => .done s l

def State.packedRows (s : State) (w : Who) (g : Group) (spad : Bool) (a : W64) (extent : Nat) (dry : Bool) : List Nat → EngRes (List (List Byte))
  | [] => .done s []
  | e :: l =>
    (s.packedRow w g spad a extent (2 * e) dry).bind fun s b =>
      (s.packedRows w g spad a extent dry l).bind fun s bs => .done s (b :: bs)

/-- The rows of an operand, plain or grain-packed (R136). -/
def State.operandRows (s : State) (w : Who) (g : Group) (spad packed : Bool) (a : W64) (stride rows : Nat) (dry : Bool) :
    EngRes (List (List Byte)) :=
  if packed then
    if stride < 2 * rows then .malformed s
    else
      (s.mxRead w g spad a (2 * rows) dry).bind fun s l =>
        s.packedRows w g spad a stride dry ((List.range rows).map fun r => leNat ((l.drop (2 * r)).take 2))
  else s.plainRows w g spad a stride dry (List.range rows)

/-- The operands of a product: rows of A and columns of B as elements, with their scales. -/
structure Operands where
  as : List (List Nat)
  bs : List (List Nat)
  sa : List Int
  sb : List Int

/-- Signed scale bytes. -/
def scales (l : List Byte) : List Int := l.map BitVec.toInt

/-- The operands of a product command. Each quarter of an MMAC reads every row and scale of both operands and fails with any of them: what an
error in another quarter's rows does to this one is the model's choice (log entry 50). -/
def State.operandsOf (s : State) (w : Who) (g : Group) (c : MCmd) (dry : Bool) : EngRes Operands :=
  let hd := c.handle
  match c.ins with
  | .mma ga gb _ x =>
    (s.operandRows w g x.aspad ga c.a (layA c.c) hd.rows dry).bind fun s ra =>
      (s.operandRows w g x.bspad gb c.b (layB c.c) hd.cols dry).bind fun s rb =>
        (if x.sc then s.mxRead w g x.aspad (c.a + layDisp c.c) (128 + hd.cols) dry else .done s []).bind fun s sc =>
          .done s ⟨ra.map (rowElems x.aty), rb.map (rowElems x.bty), scales (sc.take 128), scales (sc.drop 128)⟩
  | .mmac gp _ x =>
    (s.operandRows w g x.aspad gp c.a (layA c.c) (2 * hd.rows) dry).bind fun s ra =>
      (s.operandRows w g x.bspad false c.b (layB c.c) (2 * hd.cols) dry).bind fun s rb =>
        (if x.sc then s.mxRead w g x.aspad (c.a + layDisp c.c) (256 + 2 * hd.cols) dry else .done s []).bind fun s sc =>
          let q := c.quarter.getD 0
          let i := hd.rows * (q / 2)
          let j := hd.cols * (q % 2)
          .done s ⟨((ra.drop i).take hd.rows).map (rowElems x.aty), ((rb.drop j).take hd.cols).map (rowElems x.bty),
            scales ((sc.take 256).drop i), scales ((sc.drop 256).drop j)⟩
  | .mmar rb _ x =>
    let reg := c.reg.getD ⟨0, false, 0⟩
    let row := wideBytes reg.data
    if rb then
      (s.operandRows w g x.aspad false c.a (layA c.c) hd.rows dry).bind fun s ra =>
        (if x.sc then s.mxRead w g x.aspad (c.a + layDisp c.c) hd.rows dry else .done s []).bind fun s sc =>
          .done s ⟨ra.map (rowElems x.aty), [rowElems x.bty row], scales sc, [if x.sc then reg.exp else 0]⟩
    else
      (s.operandRows w g x.bspad false c.b (layB c.c) hd.cols dry).bind fun s rb =>
        (if x.sc then s.mxRead w g x.bspad (c.b + layDisp c.c + 128) hd.cols dry else .done s []).bind fun s sc =>
          .done s ⟨[rowElems x.aty row], rb.map (rowElems x.bty), [if x.sc then reg.exp else 0], scales sc⟩
  | _ => .done s ⟨[], [], [], []⟩

/-- The types of a product form. -/
def mxTypes : Instr → MTy × MTy
  | .mma _ _ _ x => (x.aty, x.bty) | .mmac _ _ x => (x.aty, x.bty) | .mmar _ _ x => (x.aty, x.bty)
  | _ => (.e4m3, .e4m3)

/-! ### A command carried out -/

/-- A product over its rows and columns, on one member grid. -/
def State.product (s : State) (c : MCmd) (m : Member) (o : Operands) : State × Flags :=
  let ty := mxTypes c.ins
  o.as.zipIdx.foldl (fun (r : State × Flags) a =>
    o.bs.zipIdx.foldl (fun (r : State × Flags) b =>
      let off := c.handle.off + 4 * (a.2 * c.handle.cols + b.2)
      match r.1.group c.gid with
      | none => r
      | some g =>
        let x := r.1.accGet g m off
        let y := mmElem ty.1 ty.2 a.1 b.1 (o.sa.getD a.2 0 + o.sb.getD b.2 0) x.2
        (x.1.accPut c.gid m off y.1, r.2 ||| y.2)) r) (s, 0)

/-- The elements of a tile row in a list of columns, read with their free values. -/
def State.tileRow (s : State) (gid : Nat) (hd : Handle) (home r : Nat) (cols : List Nat) : State × List Nat :=
  cols.foldl (fun (x : State × List Nat) c =>
    let p := hd.place home r c
    match x.1.group gid with
    | none => x
    | some g =>
      match g.members[p.1]? with
      | none => (x.1, x.2 ++ [0])
      | some m => let y := x.1.accGet g m p.2; (y.1, x.2 ++ [y.2])) (s, [])

/-- Elements of a tile row written from a first column on. -/
def State.tilePut (s : State) (gid : Nat) (hd : Handle) (home r col : Nat) (l : List Nat) : State :=
  l.zipIdx.foldl (fun (s : State) v =>
    let p := hd.place home r (col + v.2)
    match (s.group gid).bind fun g => g.members[p.1]? with
    | none => s
    | some m => s.accPut gid m p.2 v.1) s

/-- Elements of four bytes. -/
def wordsOf (l : List Byte) (n : Nat) : List Nat := (List.range n).map fun j => leNat ((l.drop (4 * j)).take 4)

/-- ACCLD row by row (R165). -/
def State.loadTile (s : State) (w : Who) (g : Group) (spad : Bool) (c : MCmd) (dry : Bool) : List Nat → EngRes (List (List Nat))
  | [] => .done s []
  | r :: l =>
    (s.mxRead w g spad (c.a + BitVec.ofNat 64 r * c.b) (4 * c.handle.tileCols) dry).bind fun s b =>
      (s.loadTile w g spad c dry l).bind fun s bs => .done s (wordsOf b c.handle.tileCols :: bs)

/-- ACCST row by row (R165). -/
def State.storeTile (s : State) (w : Who) (g : Group) (spad : Bool) (c : MCmd) (home : Nat) (dry : Bool) : List Nat → EngRes PUnit
  | [] => .done s ⟨⟩
  | r :: l =>
    let a := c.a + BitVec.ofNat 64 r * c.b
    let x := if dry then (s, List.replicate c.handle.tileCols 0) else s.tileRow c.gid c.handle home r (List.range c.handle.tileCols)
    let bytes := (x.2.map fun v => leBytes v 4).flatten
    (if spad then x.1.engSpadWrite g a.toNat bytes dry else x.1.engStore w a bytes .engine c.id dry).bind fun s _ =>
      s.storeTile w g spad c home dry l

/-- Who a command accesses as. -/
def MCmd.who (c : MCmd) : Who := ⟨slotCluster c.slot, none, c.asid, c.ptbase, c.sup, c.img⟩

/-- A command carried out (R162 to R166): the flags of its roundings. -/
def State.matrixTry (s : State) (c : MCmd) (dry : Bool) : EngRes Flags :=
  match s.group c.gid with
  | none => .done s 0
  | some g =>
    let home := g.memberOf (slotGrid c.slot)
    let hd := c.handle
    match c.ins with
    | .accz _ _ _ =>
      .done (if dry then s else (List.range hd.tileRows).foldl (fun s r => s.tilePut c.gid hd home r 0 (List.replicate hd.tileCols 0)) s) 0
    | .accld spad _ _ _ =>
      (s.loadTile c.who g spad c dry (List.range hd.tileRows)).bind fun s rows =>
        .done (if dry then s else rows.zipIdx.foldl (fun (s : State) r => s.tilePut c.gid hd home r.2 0 r.1) s) 0
    | .accst spad _ _ _ => (s.storeTile c.who g spad c home dry (List.range hd.tileRows)).bind fun s _ => .done s 0
    | .accwr _ _ _ =>
      let col := bitsOf c.a.toNat 31 16
      let l := (lanesOf ((c.reg.getD ⟨0, false, 0⟩).data) 32).take (hd.tileCols - col)
      .done (if dry then s else s.tilePut c.gid hd home (c.a.toNat % 65536) col l) 0
    | _ =>
      (s.operandsOf c.who g c dry).bind fun s o =>
        if dry then .done s 0
        else
          match g.members[c.quarter.getD home]? with
          | none => .done s 0
          | some m => let r := s.product c m o; .done r.1 r.2

/-- The bytes that a command counts (R172). -/
def MCmd.count (c : MCmd) : Nat :=
  let hd := c.handle
  match c.ins with
  | .mmar rb _ _ => if rb then 4 * hd.rows else 4 * hd.cols
  | .accwr _ _ _ => 128
  | .mma _ _ _ _ => hd.bytes
  | .mmac _ _ _ => hd.bytes
  | _ => if hd.span then 4 * hd.bytes else hd.bytes

/-- The sync word of a handle, reached for a command (R193). -/
def State.engWord (s : State) (w : Who) (g : Group) (ref : W64) : EngRes (Option WLoc) :=
  if ref = 0 then .done s none
  else if ref.toNat % 16 = 1 then .done s (g.wordAt (refBase ref).toNat)
  else
    (s.engPiece w .store ref 16).bind fun s p =>
      if p.leaf.cmode = 0 ∨ p.leaf.cmode = 3 then .done s (some (.mem (paDev p.pa) (paLa p.pa) p.leaf.vc.toNat ref)) else .done s none

/-- The record of an ended matrix command. -/
def Thread.mrecDone (t : Thread) (id err : Nat) (fl : Flags) : Thread :=
  { t with mrecs := t.mrecs.map fun r => if r.id = id then { r with done := true, err := err, flags := fl } else r }

/-- A command leaves its context: its record, its chuck entries unless a quarter of it still runs, its shaving (R172). -/
def State.matrixEnd (s : State) (grid ctx : Nat) (c : MCmd) (err : Nat) (fl : Flags) : State :=
  let cl := slotCluster c.slot
  let s := s.modGrid grid fun g => { g with mx := g.mx.modify ctx fun l => l.filter (·.id != c.id) }
  let s := if (s.allMx).any fun d => d.order == c.order then s else s.freeChuck cl c.order
  let s := match tget s.thr c.slot with
    | some t => if t.gid = c.gid then s.modThread c.slot fun t => t.mrecDone c.id err fl else s
    | none => s
  s.shave cl 0x06 c.slot 0 (2 ^ 31 + err * 256 + mxOpcode c.ins) c.a c.b

/-- The command at the head of a context. -/
def State.mxHead (s : State) (grid ctx : Nat) : Option MCmd := ((s.grid grid).mx.getD ctx []).head?

/-- MATRIX_COMMAND_START (R170). -/
def execMatrixCommandStart (grid ctx : Nat) (s : State) : Out :=
  match s.mxHead grid ctx with
  | none => .fault .noSuch
  | some c =>
    if c.started then .fault .noSuch
    else
      match s.group c.gid with
      | none => .fault .notReady
      | some g =>
        let held := (s.allMx).any fun d => decide (d.order < c.order) && d.overlaps c g && (mxWrites c.ins || mxWrites d.ins)
        if held || s.storesPending c.slot c.order then .fault .notReady
        else .next (s.modGrid grid fun x => { x with mx := x.mx.modify ctx fun l => l.modify 0 fun c => { c with started := true } })

/-- A command has its result or its error: its byte count is added in one operation, or the error is set on the sync word, and it ends
(R172). -/
def State.matrixFinish (s : State) (grid ctx : Nat) (c : MCmd) (w : Option WLoc) (err : Nat) (fl : Flags) : State :=
  let o := if err = 0 then WordOp.arrive c.count else .setErr err
  (match w with
    | some w => s.wordBy (slotCluster c.slot) w o
    | none => s).matrixEnd grid ctx c err fl

/-- A command is carried out: it ends once every home that it wrote to has answered (R196). -/
def State.matrixLand (s : State) (grid ctx : Nat) (c : MCmd) (w : Option WLoc) (fl : Flags) : State :=
  if s.engLanding c.id then
    s.modGrid grid fun x => { x with mx := x.mx.modify ctx fun l => l.modify 0 fun c => { c with landing := some fl } }
  else let r := s.engSettled c.id 0 0; r.1.matrixFinish grid ctx c w r.2.2 fl

/-- A command attempted, its sync word reached. -/
def State.matrixAttempt (s : State) (grid ctx : Nat) (c : MCmd) (w : Option WLoc) : Out :=
  match c.landing with
  | some fl => if s.engLanding c.id then .fault .notReady else .next (s.matrixLand grid ctx c w fl)
  | none =>
  match s.matrixTry c true with
  | .wait => .fault .notReady
  | .page _ _ _ _ _ => .fault .notReady
  | .act s' => .next s'
  | .err s' code _ _ => .next (s'.matrixFinish grid ctx c w code 0)
  | .done _ _ =>
    match s.matrixTry c false with
    | .done s' fl => .next (s'.matrixLand grid ctx c w fl)
    | _ => .fault .notReady

/-- MATRIX_COMMAND_COMPLETE (R171, R172): the region or the tile is written and counted, or the error is set on the sync word. A sync word in
memory is reached again as the command completes; where its address no longer translates, the command runs and counts nowhere (log entry
50). -/
def execMatrixCommandComplete (grid ctx : Nat) (s : State) : Out :=
  match s.mxHead grid ctx with
  | none => .fault .noSuch
  | some c =>
    if !c.started then .fault .noSuch
    else if c.fslot.isSome then .fault .notReady
    else
      match s.group c.gid with
      | none => .next (s.matrixEnd grid ctx c 0 0)
      | some g =>
        match s.engWord c.who g c.handle.sync with
        | .wait => .fault .notReady
        | .page _ _ _ _ _ => if c.quit then .next (s.matrixFinish grid ctx c none 0x01 0) else .fault .notReady
        | .act s' => .next s'
        | .err s' _ _ _ => if c.quit then .next (s'.matrixFinish grid ctx c none 0x01 0) else s'.matrixAttempt grid ctx c none
        | .done s' w => if c.quit then .next (s'.matrixFinish grid ctx c w 0x01 0) else s'.matrixAttempt grid ctx c w

/-- The pager gives a command up (R309): it will end with error 0x01. -/
def State.matrixAbandon (s : State) (grid ctx : Nat) : State :=
  s.modGrid grid fun x => { x with mx := x.mx.modify ctx fun l => l.modify 0 fun c => { c with quit := true } }

/-! ### Commands at their commit (R169) -/

/-- The chuck entries of a command. -/
def mxChuck (i : Instr) (hd : Handle) (a b c : W64) (order gid : Nat) (asid : BitVec 16) : List ChuckEnt :=
  (footprints i hd a b c).map fun f =>
    { owner := order, space := if f.spad then .spad else .mem, who := if f.spad then gid else asid.toNat
      mask := 0, lo := f.addr.toNat, len := f.len, dest := f.dest : ChuckEnt }

/-- The grids and quarters on which a command takes a position. -/
def mxPlaces (g : Group) (slot : Nat) (i : Instr) : List (Nat × Option Nat) :=
  if isMmac i then g.members.zipIdx.map fun m => (m.1.grid, some m.2) else [(slotGrid slot, none)]

/-- A command takes its positions, its record and its chuck entries. -/
def State.issueMatrix (s : State) (slot : Nat) (hd : Handle) (e : Effect) : State :=
  match tget s.thr slot with
  | none => s
  | some t =>
    match s.group t.gid with
    | none => s
    | some g =>
      let ctx := (mxCtx e.ins).getD 0
      let a := (e.a.getD .null).word
      let b := (e.b.getD .null).word
      let c := (e.c.getD .null).word
      let reg : Option Wide := match e.ins with
        | .mmar rb _ _ => some ((if rb then e.b else e.a).getD .null).wideOf
        | .accwr _ _ _ => some (e.b.getD .null).wideOf
        | _ => none
      let (order, s) := s.newUid
      let s := s.modCl (slotCluster slot) fun x => { x with chuck := x.chuck ++ mxChuck e.ins hd a b c order t.gid t.sys.asid }
      let s := s.shave (slotCluster slot) 0x06 slot 0 (mxOpcode e.ins) a b
      (mxPlaces g slot e.ins).foldl (fun s p =>
        let (id, s) := s.newUid
        let cmd : MCmd :=
          { id := id, order := order, slot := slot, gid := t.gid, ins := e.ins, a := a, b := b, c := c, reg := reg, handle := hd
            quarter := p.2, started := false, quit := false, landing := none, fslot := none, firstPost := none, asid := t.sys.asid, sup := t.sys.mode, img := t.sys.img
            ptbase := t.sys.ptbase }
        (s.modGrid p.1 fun x => { x with mx := x.mx.modify ctx (· ++ [cmd]) }).modThread slot fun t =>
          { t with mrecs := t.mrecs ++ [⟨id, ctx, false, 0, 0⟩] }) s

/-! ### ACCRD and MWAIT deliver (R167, R173) -/

/-- ACCRD_DELIVERY (R167): once every command that covers the row has completed, one that only reads it too; the row as they left it. -/
def execAccrdDelivery (b : BRef) (idx : Nat) (s : State) : Out :=
  match s.block b with
  | none => .fault .noSuch
  | some (t, x) =>
    match x.entries[idx]? with
    | none => .fault .noSuch
    | some e =>
      match e.st, decode e.word with
      | .waiting, .ok (.accrd h acc) =>
        if !t.isOldest x then .fault .notReady
        else
          let done (s : State) (v : WideBits) : Out :=
            .next ((s.modBlock b fun y => y.modEntry idx fun e => { e with st := .fired }).deliver b h (unscaled v) (unscaled v))
          match handleView t x idx acc, s.group t.gid with
          | some hd, some g =>
            let home := g.memberOf (slotGrid b.slot)
            let p := (e.a.getD .null).word.toNat
            let row := p % 65536
            let col := bitsOf p 31 16
            let n := hd.tileCols
            if hd.tileRows ≤ row ∨ n ≤ col then done s 0
            else
              let first := hd.place home row 0
              let covers (c : MCmd) : Bool :=
                c.gid == t.gid && (c.members g).any (fun m =>
                  m == first.1 || (hd.span && m == first.1 + 1)) && decide (c.handle.off < first.2 + 4 * hd.cols)
                  && decide (first.2 < c.handle.off + c.handle.bytes)
              if (s.allMx).any covers then .fault .notReady
              else
                let r := s.tileRow t.gid hd home row ((List.range 32).filterMap fun j => if col + j < n then some (col + j) else none)
                done r.1 (ofLanes 32 r.2)
          | _, _ => done s 0
      | _, _ => .fault .noSuch

/-- The status word of Table 5-9. -/
def mrecStatus (l : List MRec) : W64 :=
  let err := ((l.map (·.err)).find? (· != 0)).getD 0
  let fl := l.foldl (fun (f : Flags) r => f ||| r.flags) 0
  BitVec.ofNat 64 (err * 2 ^ 24 + min 255 (l.filter (·.err != 0)).length * 2 ^ 16 + fl.toNat)

/-- The records that an MWAIT covers, lowest context first. -/
def Thread.mcovered (t : Thread) (all : Bool) (ctx : BitVec 2) : List MRec :=
  if all then ((List.range 4).map fun c => t.mrecs.filter (·.ctx == c)).flatten else t.mrecs.filter (·.ctx == ctx.toNat)

/-- MWAIT_DELIVERY (R173, R267). -/
def execMwaitDelivery (b : BRef) (idx : Nat) (s : State) : Out :=
  match s.block b with
  | none => .fault .noSuch
  | some (t, x) =>
    match x.entries[idx]? with
    | none => .fault .noSuch
    | some e =>
      match e.st, decode e.word with
      | .waiting, .ok (.mwait all h ctx) =>
        let l := t.mcovered all ctx
        if !t.isOldest x || l.any fun r => !r.done then .fault .notReady
        else
          let v := Token.narrow (mrecStatus l)
          .next (((s.modBlock b fun y => y.modEntry idx fun e => { e with st := .fired }).acquire b.slot).deliver b h v v)
      | _, _ => .fault .noSuch

end Sys2Proof.Machine
end

