-- ==== Sys2Proof/Machine/Streams.lean ====
section
/-! DEFINITION. Stream ports (07 R221 to R224, 12 R350): STRIN, STROUT, SRECV and SSEND as they fire, prefetch and output writes. -/

namespace Sys2Proof.Machine

/-! ### Patterns (Table 7-6) -/

/-- ELEN in bytes, SPACE. -/
def Pattern.elen (p : Pattern) : Nat := 16 * (p.ctl.toNat % 16)
def Pattern.spad (p : Pattern) : Bool := p.ctl.getLsbD 4
def Pattern.total (p : Pattern) : Nat := p.dims.foldl (fun n d => n * d.2.toNat) 1

/-- The address of element `i`: dimension 0 runs fastest (R221). -/
def Pattern.addrFrom (base : W64) : List (W64 × BitVec 32) → Nat → W64
  | [], _ => base
  | d :: l, i => Pattern.addrFrom (base + BitVec.ofNat 64 (i % d.2.toNat) * d.1) l (i / d.2.toNat)
def Pattern.addr (p : Pattern) (i : Nat) : W64 := Pattern.addrFrom p.base p.dims i

/-- The dimensions in a record's bytes, and the first failure of R212 among them. -/
def patternDims (l : List Byte) (n : Nat) : List (W64 × BitVec 32) :=
  (List.range n).map fun d =>
    let x := leNat ((l.drop (16 * d)).take 16)
    (BitVec.ofNat 64 (x / 2 ^ 64), BitVec.ofNat 32 x)
def patternBad (l : List Byte) (n : Nat) : Option Nat :=
  (List.range n).findSome? fun d =>
    let x := leNat ((l.drop (16 * d)).take 16)
    if bitsOf x 127 64 % 16 ≠ 0 then some 0x01
    else if x % 2 ^ 32 = 0 then some 0x02
    else if bitsOf x 63 32 ≠ 0 then some 0x03
    else none

/-- STRIN and STROUT fire (R221, R212): as a scratchpad load of the thread that comes after every access of older blocks. That SV = 1 of a
STRIN is reason 0x03 at operand C is the model's choice: R221 names none (log entry 49). -/
def fireStream (h : Hdr) (input : Bool) (dim : BitVec 2) (i : Instr) (s : State) : Out :=
  fireForm h.pm (some h) (ops [0, 1, 2]) (fun x s =>
    let c := x.c'.word
    let n := dim.toNat + 1
    let off := x.b'.word.toNat
    if !x.t.isOldest x.b then .wait
    else
      match s.group x.t.gid with
      | none => badOperand 0x05 1
      | some g =>
        if !on16 x.a.word then badOperand 0x01 0
        else if off % 16 ≠ 0 then badOperand 0x01 1
        else if c.toNat % 16 = 0 ∨ 8 < c.toNat % 16 then badOperand 0x02 2
        else if bitsOf c.toNat 34 5 ≠ 0 ∨ (input ∧ ctlSv c) then badOperand 0x03 2
        else if !g.inSpad off (16 * n) then badOperand 0x05 1
        else if ctlSv c ∧ !g.inSpad (ctlSoff c) 16 then badOperand 0x05 2
        else if x.t.spadOpaque x.b 0 off (16 * n) then .wait
        else if s.rangeLocked (slotCluster x.slot) .spad x.t.gid off (16 * n) false then .fail .rangeLock x.b'.word
        else
          match s.spadPoison g off (16 * n) with
          | some _ => .fail .poison x.b'.word
          | none =>
            let bytes := (List.range (16 * n)).map fun j => s.spadByte x.t x.b g 0 (off + j)
            match patternBad bytes n with
            | some r => badOperand r 1
            | none => .go fun s => (s.record x i bytes).deliver x.ref h (.narrow 0) (.narrow 0)) s

/-- STRIN (R221). -/
def execStrin (h : Hdr) (port : BitVec 3) (dim : BitVec 2) (s : State) : Out := fireStream h true dim (.strin h port dim) s
/-- STROUT (R221). -/
def execStrout (h : Hdr) (port : BitVec 3) (dim : BitVec 2) (s : State) : Out := fireStream h false dim (.strout h port dim) s

/-- The pattern that a recorded STRIN or STROUT of a block binds. -/
def Effect.pattern (e : Effect) (owner : W64) (dim : BitVec 2) : Pattern :=
  ⟨owner, (e.a.getD .null).word, (e.b.getD .null).word, (e.c.getD .null).word, patternDims e.bytes (dim.toNat + 1), none⟩

/-! ### Elements -/

/-- Does a form bind, or use, a port? -/
def bindsIn (p : Nat) : Instr → Bool
  | .strin _ q _ => q.toNat == p
  | _ => false
def bindsOut (p : Nat) : Instr → Bool
  | .strout _ q _ => q.toNat == p
  | _ => false
def usesIn (p : Nat) : Instr → Bool
  | .srecv _ q => q.toNat == p
  | _ => false
def usesOut (p : Nat) : Instr → Bool
  | .ssend _ q => q.toNat == p
  | _ => false

/-- Has a block a form of a kind that has fired and not been nulled, or may still fire? -/
def Block.mayBind (b : Block) (f : Instr → Bool) : Bool :=
  match b.state with
  | .fetch => true
  | .map => true
  | _ => b.effs.any (fun e => f e.ins) || (b.state == .fire && b.forms.any fun x => f x.2.2 && x.2.1.st == .idle)
def Block.mayFire (b : Block) (f : Instr → Bool) : Bool :=
  match b.state with
  | .fire => b.forms.any fun x => f x.2.2 && x.2.1.st == .idle
  | .complete => false
  | _ => true

/-- Does an older iteration hold a binding of the port, or a use of it that has not fired (R221, R222)? -/
def Thread.portBusy (t : Thread) (b : Block) (bind use : Instr → Bool) : Bool :=
  (t.older b).any fun x => x.mayBind bind || x.mayFire use

/-- A second SRECV or SSEND of a port in an iteration (R222, R223). -/
def Block.used (b : Block) (use : Instr → Bool) : Bool := b.effs.any fun e => use e.ins

/-- An input port of a thread, and a change of it. -/
def Thread.inPort (t : Thread) (p : Nat) : InPort := t.inp.getD p InPort.reset
def Thread.outPort (t : Thread) (p : Nat) : OutPort := t.outp.getD p OutPort.reset
def State.modIn (s : State) (slot p : Nat) (f : InPort → InPort) : State :=
  s.modThread slot fun t => { t with inp := t.inp.modify p f }
def State.modOut (s : State) (slot p : Nat) (f : OutPort → OutPort) : State :=
  s.modThread slot fun t => { t with outp := t.outp.modify p f }

/-- SRECV (R222). A port that is not bound is reason 0x07, here and in SSEND at operand A (log entry 49). -/
def execSrecv (h : Hdr) (port : BitVec 3) (s : State) : Out :=
  fireForm h.pm (some h) (ops []) (fun x _ =>
    let p := port.toNat
    if x.t.portBusy x.b (bindsIn p) (usesIn p) then .wait
    else if x.b.used (usesIn p) then .fail .tokenOverrun 0
    else
      let q := x.t.inPort p
      match q.pat with
      | none => badOperand 0x07 0
      | some pat =>
        match q.fifo with
        | .ok w :: rest => .go fun s =>
          ((s.modIn x.slot p fun q => { q with fifo := rest, taken := q.taken ++ [(x.b.ic, .ok w)] }).record x (.srecv h port) []).deliver
            x.ref h (unscaled w) (.pred false)
        | .failed c v :: rest => .go fun s =>
          (s.modIn x.slot p fun q => { q with fifo := rest, taken := q.taken ++ [(x.b.ic, .failed c v)] }).holdAt x c v none
        | [] =>
          if pat.total ≤ q.pos then .go fun s => (s.record x (.srecv h port) []).deliver x.ref h .null (.pred true)
          else .wait) s

/-- SSEND (R223). A second one of its port in an iteration takes TOKEN_OVERRUN as a second SRECV does: R223 names no cause (log entry 49). -/
def execSsend (h : Hdr) (port : BitVec 3) (s : State) : Out :=
  fireForm h.pm (some h) (ops [0]) (fun x _ =>
    let p := port.toNat
    let w := x.a.wideOf
    let q := x.t.outPort p
    if w.t then .fail .scaleTag (scaleTval 0 w.e)
    else if x.t.portBusy x.b (bindsOut p) (usesOut p) || q.waiting.isSome then .wait
    else if x.b.used (usesOut p) then .fail .tokenOverrun 0
    else
      match q.pat with
      | none => badOperand 0x07 0
      | some pat =>
        if pat.total ≤ q.next then badOperand 0x08 0
        else if 16 ≤ q.pend.length + q.out.length then .wait
        else .go fun s =>
          ((s.modOut x.slot p fun q => { q with pend := q.pend ++ [(x.b.ic, q.next, w.data)], next := q.next + 1 }).record
            x (.ssend h port) []).deliver x.ref h (.narrow 0) (.narrow 0)) s

/-! ### Prefetch and output -/

/-- Who a port accesses as: of a committed element, whose block wrote it before any later change of the space (R301), as that block did. -/
def Thread.portWho (t : Thread) (slot : Nat) (pat : Pattern) : Who :=
  match pat.who with
  | some w => ⟨slotCluster slot, none, w.asid, w.ptbase, w.sup, w.img⟩
  | none => ⟨slotCluster slot, none, t.sys.asid, t.sys.ptbase, t.sys.mode, t.sys.img⟩

/-- The next element of an input port, read at its home. -/
def State.portRead (s : State) (slot : Nat) (t : Thread) (pat : Pattern) (i : Nat) (dry : Bool) : EngRes (List Byte) :=
  let a := pat.addr i
  if pat.spad then
    match s.group t.gid with
    | none => .err s 0x07 .prot a
    | some g => s.engSpad g a.toNat pat.elen
  else s.engLoad (t.portWho slot pat) a pat.elen dry

/-- A failed element takes the place of an element, and prefetching stops (R222). -/
def State.inFail (s : State) (slot p : Nat) (c : Cause) (va : W64) : State :=
  s.modIn slot p fun q => { q with fifo := q.fifo ++ [.failed c va], stopped := true }

/-- STREAM_PREFETCH (R222, R350): a FIFO has 16 places, and an element that an uncommitted iteration has taken keeps its place, to which it
may return (R49). -/
def execStreamPrefetch (slot port : Nat) (s : State) : Out :=
  match tget s.thr slot with
  | none => .fault .noSuch
  | some t =>
    let q := t.inPort port
    match q.pat with
    | none => .fault .noSuch
    | some pat =>
      if q.stopped ∨ pat.total ≤ q.pos ∨ 16 ≤ q.fifo.length + q.taken.length ∨ q.fslot.isSome ∨ s.storesPending slot q.order then .fault .notReady
      else
        match s.portRead slot t pat q.pos true with
        | .wait => .fault .notReady
        | .page _ _ _ _ _ => .fault .notReady
        | .act s' => .next s'
        | .err s' _ c va => .next (s'.inFail slot port c va)
        | .done _ _ =>
          match s.portRead slot t pat q.pos false with
          | .done s' l => .next (s'.modIn slot port fun q => { q with fifo := q.fifo ++ [.ok (ofBytes l)], pos := q.pos + 1, firstPost := none })
          | _ => .fault .notReady

/-- The lines of a write that lie on other modules are read first, so that a home that would not take them is found before any byte is written
(R223; log entry 63). -/
def State.peerLines (s : State) (w : Who) (dry : Bool) : List (W64 × Nat) → EngRes Nat
  | [] => .done s 0
  | (va, n) :: l =>
    (s.engPiece w .store va n).bind fun s p =>
      if paDev p.pa = s.dev then s.peerLines w dry l
      else (s.engLines w.cl p va p.keys).bind fun s _ => (if dry then s else s.engUsed w.cl p).peerLines w dry l

/-- An element written at its point: how many bytes. -/
def State.portWrite (s : State) (slot : Nat) (t : Thread) (pat : Pattern) (i : Nat) (l : List Byte) (id : Nat) (dry : Bool) : EngRes Nat :=
  let a := pat.addr i
  if pat.spad then
    match s.group t.gid with
    | none => .err s 0x07 .prot a
    | some g => s.engSpadWrite g a.toNat l dry
  else (s.peerLines (t.portWho slot pat) dry (chunksOf a l.length)).bind fun s _ => s.engStore (t.portWho slot pat) a l .engine id dry

/-- The head of an output FIFO is done with; a binding that waited for the last one takes effect (R221). -/
def OutPort.pop (q : OutPort) : OutPort :=
  match q.out.drop 1, q.waiting with
  | [], some p => { q with out := [], pat := some p, next := 0, waiting := none, landing := none, firstPost := none }
  | l, _ => { q with out := l, landing := none, firstPost := none }

/-- A committed element could not be written (R223): the sync word, or the error handler of queue 0, hears of it; the datum is the first
byte that failed (Table 11-6). -/
def State.outFail (s : State) (slot port : Nat) (t : Thread) (pat : Pattern) (code : Nat) (va : W64) : State :=
  let s := s.modOut slot port fun q => { q.pop with fslot := none, firstPost := none }
  if ctlSv pat.ctl then s.setErrOpt ((s.group t.gid).bind fun g => g.wordAt (ctlSoff pat.ctl)) code
  else s.report (slotDie slot) 0 0x0A slot va

/-- The first byte of an element that a home did not take, of the lines that a command lost: an element lies in two pages at most. -/
def State.firstLost (s : State) (base : W64) (len id : Nat) : W64 :=
  let off (pa : Nat) : Nat := let d := (pa % 4096 + 4096 - base.toNat % 4096) % 4096; if d < len then d else 0
  base + BitVec.ofNat 64 ((((s.coh.lost.filter (·.1 == id)).map fun x => off x.2.1).foldl min len) % len)

/-- An element has been written: it is counted once every home has answered (R196), of which one may have refused it. -/
def State.outLand (s : State) (slot port : Nat) (t : Thread) (pat : Pattern) (i id n : Nat) : State :=
  if s.engLanding id then s.modOut slot port fun q => { q with landing := some (id, n) }
  else
    let r := s.engSettled id n 0
    if r.2.2 ≠ 0 then r.1.outFail slot port t pat r.2.2 (s.firstLost (pat.addr i) pat.elen id)
    else
      let s := r.1.modOut slot port OutPort.pop
      if ctlSv pat.ctl then
        match (s.group t.gid).bind fun g => g.wordAt (ctlSoff pat.ctl) with
        | some x => s.arriveBytes x n
        | none => s
      else s

/-- OUTPUT_ELEMENT_WRITE (R223, R350): the oldest committed element is written and counted. -/
def execOutputElementWrite (slot port : Nat) (s : State) : Out :=
  match tget s.thr slot with
  | none => .fault .noSuch
  | some t =>
    let q := t.outPort port
    match q.out, q.landing with
    | [], _ => .fault .noSuch
    | (pat, i, _) :: _, some (id, n) => if s.engLanding id then .fault .notReady else .next (s.outLand slot port t pat i id n)
    | (pat, i, w) :: _, none =>
      if q.fslot.isSome then .fault .notReady
      else
        let l := (wideBytes w).take pat.elen
        match s.portWrite slot t pat i l 0 true with
        | .wait => .fault .notReady
        | .page _ _ _ _ _ => .fault .notReady
        | .act s' => .next s'
        | .err s' code _ va => .next (s'.outFail slot port t pat code va)
        | .done _ _ =>
          let id := s.newUid
          match id.2.portWrite slot t pat i l id.1 false with
          | .done s' n => .next (s'.outLand slot port t pat i id.1 n)
          | _ => .fault .notReady

end Sys2Proof.Machine
end

