-- ==== Sys2Proof/Machine/Commit.lean ====
section
/-! DEFINITION. The commit of a block or of a resident iteration (01 R33 to R36, R39, R42 to R49, 07 R229 to R237): the failure that
an oldest block takes, the reservations, the release of its effects in the order of R35, the boundary after it; what the fences
of a thread held back (08 R262); the entry of traps (07 R242, R243). -/

namespace Sys2Proof.Machine

/-! ### The failure of the oldest block (R242, R243) -/

/-- R406: does a block breakpoint of the thread match its oldest block? -/
def Thread.blockBreak (t : Thread) (b : Block) : Bool :=
  !b.marked && !b.later && (List.range 4).any fun j =>
    (t.sys.dbg.getD (9 + 2 * j) 0).getLsbD 0 && t.sys.dbg.getD (8 + 2 * j) 0 == b.addr

/-- The held failure of a rank that names the lowest instruction. -/
def Block.lowestHeld (b : Block) (p : Held → Bool) : Option Held :=
  (b.held.filter p).foldl (fun (m : Option Held) h =>
    match m with
    | none => some h
    | some x => if h.idx < x.idx then some h else m) none

/-- R105: the flags of a form that meet an enabled trap of the committed FPCSR. -/
def Thread.fpTrap (t : Thread) (b : Block) : Option Trap :=
  (b.lowestHeld fun h => h.rank == .fp && (h.trap.tval.setWidth 5 &&& t.sys.fpcsr.extractLsb' 5 5) != 0).map (·.trap)

/-- Is the fired exit of a block another address than its own (R86)? -/
def Block.exitsAway (b : Block) : Bool :=
  match b.exit with
  | some e => e.halt || e.addr != b.addr
  | none => false

/-- Does an entry that has not fired still hold a token (R48)? -/
def Entry.holds (e : Entry) : Bool := e.st == .idle && decide (0 < e.inputs)

/-- The lowest instruction whose buffers still hold a token of this iteration or of an earlier one. -/
def Block.holding (b : Block) : Option Nat :=
  match b.entries.findIdx? Entry.holds, b.left with
  | some i, some j => some (min i j)
  | some i, none => some i
  | none, l => l

/-- Has an input port not delivered its whole pattern, or its FIFO an element? -/
def InPort.unfinished (p : InPort) : Bool :=
  match p.pat with
  | none => false
  | some q => decide (p.pos < q.total) || !p.fifo.isEmpty

/-- Is an input port bound by the block at an address? A handler leaves the bindings of the loop that it interrupted alone (R224, R230). -/
def InPort.boundBy (p : InPort) (addr : W64) : Bool := p.pat.any fun q => q.owner == addr

/-- Does a block bind an input port? -/
def Block.binds (b : Block) (p : Nat) : Bool := b.effs.any fun e => match e.ins with | .strin _ q _ => q.toNat == p | _ => false

/-- RESIDUE (R48, R221): a non-self exit that leaves tokens or stream elements on its ports, or a binding on an input port that is not done. -/
def Thread.residue (t : Thread) (b : Block) : Option Trap :=
  let leaves := b.resident && b.exitsAway
  match (if leaves then b.holding else none) with
  | some i => some (b.insTrap .residue 0 i ((b.entries[i]?).bind Entry.lsid))
  | none =>
    ((List.range 4).find? fun p =>
      (t.inPort p).unfinished && (b.binds p || (leaves && (t.inPort p).boundBy b.addr))).map fun p =>
        ⟨.residue, 0, tinfo (.inPort p) b.itag 0 0 false⟩

/-- The form and entry of an access. -/
def Block.formAt (b : Block) (i : Nat) : Option (Instr × Entry) :=
  match b.entries[i]? with
  | none => none
  | some e => match decode e.word with
    | .ok x => some (x, e)
    | .error _ => none

/-- Does a store-class access of a block write, or only read its line (R191)? -/
def Block.accWrites (b : Block) (a : Access) : Bool :=
  match b.formAt a.idx with
  | some (.clineClean _ _ _, _) => false
  | some (.clineInval _ _ _, _) => false
  | some (.clineFlush _ _ _, _) => false
  | _ => true

/-- The address of an access as its trap names it (R181): the EA of a line operation, whose access is its whole line, and the reference of a
sync-word operation (R193). -/
def Block.eaOf (b : Block) (a : Access) : W64 :=
  match b.formAt a.idx with
  | none => a.va
  | some (i, e) =>
    let w := (e.a.getD .null).word
    match i with
    | .clineClean _ _ off => effAddr w off
    | .clineInval _ _ off => effAddr w off
    | .clineFlush _ _ off => effAddr w off
    | .clineZero _ _ off => effAddr w off
    | .clineReclaim _ _ off => effAddr w off
    | .sarm _ _ _ off => effAddr w off
    | .sadd _ _ _ off => effAddr w off
    | .sread _ _ _ _ off => effAddr w off
    | .swait _ _ _ _ off => effAddr w off
    | _ => a.va

/-- The store-class accesses of a block in ascending LSID. -/
def Block.storeAccs (b : Block) : List Access := (b.accs.filter (·.store)).mergeSort fun x y => decide (x.lsid ≤ y.lsid)

/-- RANGE_LOCK (R182): the first store-class access that overlaps a held range. -/
def State.commitLock (s : State) (slot : Nat) (t : Thread) (b : Block) : Option Trap :=
  (b.storeAccs.find? fun a =>
    s.rangeLocked (slotCluster slot) a.space (match a.space with | .mem => t.sys.asid.toNat | .spad => t.gid) a.va.toNat a.len
      (b.accWrites a)).map fun a => b.insTrap .rangeLock (b.eaOf a) a.idx (some a.lsid)

/-- R243: the failure that the oldest block takes, if it holds one. RESIDUE, which the order there does not name, comes after the completion
checks and before RANGE_LOCK (log entry 51). -/
def State.blockFault (s : State) (slot : Nat) (t : Thread) (b : Block) : Option Trap :=
  if t.blockBreak b then some ⟨.brk, b.addr, tinfo .none 0 0 0 false⟩
  else
    match b.lowestHeld fun h => h.rank == .map with
    | some h => some h.trap
    | none =>
      match b.lowestHeld fun h => h.rank == .fire with
      | some h => some h.trap
      | none =>
        if b.state = .complete then
          match (s.group t.gid).bind fun g => matrixCheck t g b with
          | some (i, r) => some (b.insTrap .matrixOperand (BitVec.ofNat 64 r) i none)
          | none =>
            match t.fpTrap b with
            | some x => some x
            | none =>
              match t.residue b with
              | some x => some x
              | none => s.commitLock slot t b
        else (b.lowestHeld fun h => h.rank == .exitQ).map (·.trap)

/-- Is an element the failure of a prefetch? -/
def Elem.bad : Elem → Bool
  | .failed _ _ => true
  | .ok _ => false

/-- A failed element that the faulting oldest block had taken is not consumed: it leaves the port, which stays stopped (R222). -/
def InPort.takeFailed (p : InPort) (b : Block) : InPort :=
  if p.taken.any fun x => x.1 == b.ic && x.2.bad then { p with taken := p.taken.filter fun x => !x.2.bad } else p

/-- After an ERET a port that stopped at an element that it does not hold any more fetches it again (R222). -/
def InPort.restart (p : InPort) : InPort :=
  if p.stopped && !(p.fifo.any Elem.bad) && !(p.taken.any fun x => x.2.bad) then { p with stopped := false } else p

/-- A thread at a boundary whose trap a frozen grid held back takes it (R236, R245, R409). -/
def State.boundaryTrap (s : State) (slot : Nat) : State :=
  match tget s.thr slot with
  | none => s
  | some t =>
    match t.postTrap with
    | some (x, pc) => s.takeTrap slot true pc x
    | none => s.takeAsync slot

/-- TRAP_ENTRY (R242, R243): the oldest block takes the failure that it holds, or the thread the trap of its boundary. -/
def execTrapEntry (slot : Nat) (s : State) : Out :=
  match tget s.thr slot with
  | none => .fault .noSuch
  | some t =>
    if s.frozenFor slot t ∨ t.saving then .fault .notReady
    else if t.boundary then
      if t.postTrap.isSome ∨ t.asyncTrap.isSome then .next (s.boundaryTrap slot) else .fault .notReady
    else
      match t.blocks with
      | [] => .fault .noSuch
      | b :: _ =>
        match s.blockFault slot t b with
        | none => .fault .notReady
        | some x =>
          let s := if b.resident then s.modThread slot fun t => { t with inp := t.inp.map (·.takeFailed b) } else s
          .next (s.takeTrap slot false b.addr x)

/-! ### Reservations (R34) -/

/-- What a store-class form puts into the store buffer, with its order code (R254); `none` for a scratchpad store. -/
def drainOpOf (i : Instr) (e : Entry) : Option (DrainOp × MOrd) :=
  let b := (e.b.getD .null).word
  let c := (e.c.getD .null).word
  match i with
  | .st _ _ _ o _ => some (.store, o)
  | .stw _ _ _ o _ => some (.store, o)
  | .clineZero _ _ _ => some (.zeroLine, .plain)
  | .clineClean _ _ _ => some (.clean, .plain)
  | .clineInval _ _ _ => some (.inval, .plain)
  | .clineFlush _ _ _ => some (.flush, .plain)
  | .clineReclaim _ _ _ => some (.reclaim, .plain)
  | .atom w op _ _ o _ => some (.atomic w op b, o)
  | .cas w x _ _ o _ => some (.cas w x b c, o)
  | .fatom d op _ _ o _ => some (.fatom d op b, o)
  | .sarm _ _ o _ => some (.sarm b, o)
  | .sadd _ _ o _ => some (.sadd (b.toNat % 2 ^ 40), o)
  | _ => none

/-- Pieces with their bytes. -/
def splitData : List Piece → List Byte → List (Piece × List Byte)
  | [], _ => []
  | p :: l, d => (p, d.take p.len) :: splitData l (d.drop p.len)

/-- The drain units of a memory access, by the grid whose buffer takes them (R254, R258); numbers are given at the commit. -/
def Block.unitsOf (b : Block) (slot : Nat) (t : Thread) (a : Access) : List (Nat × Unit) :=
  match a.space, (b.formAt a.idx).bind fun x => drainOpOf x.1 x.2 with
  | .mem, some (op, o) =>
    let l := splitData a.pieces a.data
    let grids := ((l.map fun p => lineGrid slot t p.1.pa)).eraseDups
    grids.map fun g =>
      let mine := l.filter fun p => lineGrid slot t p.1.pa == g
      (g, { uid := 0, slot := slot, seq := b.seq, lsid := a.lsid, op := op, ord := o, va := a.va, asid := t.sys.asid
            pieces := mine.map (·.1), data := (mine.map (·.2)).flatten : Unit })
  | _, _ => []

/-- Entries that a unit takes (R254). -/
def Unit.entries (u : Unit) : Nat := match u.op with | .store => u.pieces.length | _ => 1

/-- The recorded effects of a block by instruction index. -/
def Block.byIndex (b : Block) : List Effect := b.effs.mergeSort fun x y => decide (x.idx ≤ y.idx)

/-- The chuck entries of a copy-engine command (Table 12-5). -/
def copyChuck (g : Group) (asid : BitVec 16) (gid owner : Nat) (e : Effect) : List ChuckEnt :=
  let a := (e.a.getD .null).word
  let b := (e.b.getD .null).word
  let c := (e.c.getD .null).word
  let mem (lo : W64) (len : Nat) (dest : Bool) : ChuckEnt := ⟨owner, .mem, asid.toNat, 0, lo.toNat, len, dest⟩
  let spad (lo len : Nat) (dest : Bool) : ChuckEnt := ⟨owner, .spad, gid, 0, lo, len, dest⟩
  let indexed (i64 dest : Bool) : List ChuckEnt :=
    [spad (pairList b) (ctlNidx c * if i64 then 8 else 4) false, spad (pairRows b) (ctlNidx c * ctlRs c) dest]
  match e.ins with
  | .copy .mm _ _ => [mem a (ctlLen c) false, mem b (ctlLen c) true]
  | .copy .ms _ m => mem a (ctlLen c) false :: (g.masked m b.toNat).map fun o => spad o (ctlLen c) true
  | .copy .sm _ _ => [spad a.toNat (ctlLen c) false, mem b (ctlLen c) true]
  | .gather i64 _ _ => indexed i64 true
  | .scatter i64 _ _ => indexed i64 false
  | .offer sp _ _ _ => [if sp then spad b.toNat c.toNat false else mem b c.toNat false]
  | _ => []

/-- Is a form a command of the copy engine (R208, R215)? -/
def copyForm : Instr → Bool
  | .copy _ _ _ => true | .gather _ _ _ => true | .scatter _ _ _ => true | .offer _ _ _ _ => true
  | _ => false
/-- Does a form send a packet that takes a credit of the grid's send queue? -/
def packetForm : Instr → Bool
  | .launch _ _ => true | .invokeQ _ _ _ => true | .invokeH _ _ _ => true | .wake _ => true | .want _ _ _ _ _ => true
  | _ => false
def invokeForm : Instr → Bool
  | .invokeQ _ _ _ => true | .invokeH _ _ _ => true
  | _ => false

/-- The chuck entries that a block's matrix commands take. -/
def Block.matrixChuck (t : Thread) (b : Block) : Nat :=
  (b.matrixEffs.map fun e =>
    match (mxHandle e.ins).bind fun acc => handleView t b e.idx acc with
    | some hd => (footprints e.ins hd (e.a.getD .null).word (e.b.getD .null).word (e.c.getD .null).word).length
    | none => 0).sum

/-- The positions that a block's matrix commands take: grid and context, one for each. -/
def Block.matrixPlaces (g : Group) (slot : Nat) (b : Block) : List (Nat × Nat) :=
  (b.matrixEffs.map fun e =>
    match mxCtx e.ins with
    | some c => (mxPlaces g slot e.ins).map fun p => (p.1, c)
    | none => []).flatten

/-- R34: is everything there that the commit of a block needs? -/
def State.reserves (s : State) (slot : Nat) (t : Thread) (b : Block) : Bool :=
  match s.group t.gid with
  | none => b.effs.isEmpty && b.accs.isEmpty
  | some g =>
    let units := (b.storeAccs.map fun a => b.unitsOf slot t a).flatten
    let cl := s.cl (slotCluster slot)
    let copies := b.effs.filter fun e => copyForm e.ins
    let places := b.matrixPlaces g slot
    (clusterGrids slot).all (fun h =>
      let need := ((units.filter (·.1 == h)).map fun u => u.2.entries).sum
      need == 0 || decide ((((s.grid h).sb.map Unit.entries).sum) + need ≤ 64))
    && (let need := ((copies.map fun e => (copyChuck g t.sys.asid t.gid 0 e).length).sum) + b.matrixChuck t
        need == 0 || decide (cl.chuck.length + need ≤ 64))
    && (copies.isEmpty || (decide (cl.copyQ.length + copies.length ≤ 32)
          && decide ((cl.copyQ.filter fun c => c.slot == slot).length + copies.length ≤ 8)))
    && decide ((b.effs.filter fun e => packetForm e.ins).length ≤ (s.grid (slotGrid slot)).credits)
    && (let n := (b.effs.filter fun e => invokeForm e.ins).length
        n == 0 || decide (invstOutst t.sys.invst + n ≤ 16))
    && places.all fun p =>
        decide ((((s.grid p.1).mx.getD p.2 []).length) + (places.filter (· == p)).length ≤ 2)

/-! ### Release: what may wait behind a fence, or for the thread's older stores -/

/-- Does an item keep later stores and words of its thread behind it (R190, R262, R269, R418)? -/
def TailItem.blocks : TailItem → Bool
  | .fence _ _ => true
  | .spad _ => true
  | .eff e => (match e.ins with | .want _ _ _ _ _ => true | .wdrop _ _ => true | .sarm _ _ _ _ => true | .sadd _ _ _ _ => true | _ => false)

/-- Has an acquiring atomic that a slot committed before a number not performed (R188, R261)? -/
def State.acquirePending (s : State) (slot order : Nat) : Bool :=
  ((s.buffered slot order).any fun u => u.op.isAtomic && acquires u.ord)
    || (s.flyingOf slot order).any fun f => f.u.op.isAtomic && acquires f.u.ord && !f.performed

/-- May an item of a thread be released now, its place among the drain units being `order`? -/
def State.mayRelease (s : State) (slot : Nat) (t : Thread) (order : Nat) : TailItem → Bool
  | .fence k sc => s.fenceMet slot t order k sc t.sibReads
  | .spad _ => !s.acquirePending slot order
  | .eff e =>
    match e.ins with
    | .launch _ _ => s.fenceMet slot t order .full .device t.sibReads
    | .invokeQ _ _ _ => s.fenceMet slot t order .full .sys t.sibReads
    | .invokeH _ _ _ => s.fenceMet slot t order .full .sys t.sibReads
    | .wake _ => s.fenceMet slot t order .full .sys t.sibReads
    | .want _ _ _ _ _ => !s.storesPending slot order
    -- R390
    | .biasHost _ => !s.storesPending slot order
    | .biasDev _ => !s.storesPending slot order
    | .sarm _ _ o _ =>
      !s.acquirePending slot order
        && (!releases o || s.fenceMet slot t order .rel (if sysOrd o then .sys else .device) t.sibReads)
    | .sadd _ _ o _ =>
      !s.acquirePending slot order
        && (!releases o || s.fenceMet slot t order .rel (if sysOrd o then .sys else .device) t.sibReads)
    | _ => true

/-- A packet's credit comes back (R34). -/
def State.giveCredit (s : State) (slot : Nat) : State := s.modGrid (slotGrid slot) fun g => { g with credits := g.credits + 1 }

/-- A fence of a thread has done its part: one of cluster scope or wider makes the q writes of its thread visible (R23), one that acquires
holds for the loads after it (R262). -/
def State.releaseFence (s : State) (slot : Nat) (k : FenceKind) (sc : Scope) : State :=
  let s := if holdsLoads k then s.acquire slot else s
  match sc with
  | .slot => s
  | .grid => s
  | _ => s.fenceQ slot

/-- BIAS at its release: the request goes to the home of its page, which refuses it from a DEAD cluster (R375): no flip then, and a LOSTW
record as for a drain unit that is refused (R376, log entry 66). -/
def State.releaseBias (s : State) (slot : Nat) (toHost : Bool) (e : Effect) : State :=
  match e.pieces with
  | [] => s
  | p :: _ =>
    if s.refuses (slotCluster slot) (keyOf p.pa) then s.lostw (slotDie slot) p.pa
    else s.post [.biasFlipStart (paLa p.pa / 4096) toHost e.loc]

/-- What an item does when it is released. -/
def State.releaseItem (s : State) (slot : Nat) (w : Sender) (x : TailItem) : State :=
  match tget s.thr slot with
  | none => s
  | some t =>
    match x with
    | .fence k sc => s.releaseFence slot k sc
    | .spad a => (match s.group t.gid with | some g => s.spadWrite g a.va.toNat a.data | none => s)
    | .eff e =>
      match e.ins with
      | .launch _ q => (s.releaseLaunch slot w q e).giveCredit slot
      | .invokeQ tr _ h => (s.releaseInvoke slot w false tr h e).giveCredit slot
      | .invokeH tr _ h => (s.releaseInvoke slot w true tr h e).giveCredit slot
      | .wake _ => (s.releaseWake slot w e).giveCredit slot
      | .want _ _ _ _ _ => (s.releaseWant slot w e).giveCredit slot
      | .wdrop _ _ => s.releaseWdrop slot w e
      | .biasHost _ => s.releaseBias slot true e
      | .biasDev _ => s.releaseBias slot false e
      | .sarm _ _ _ _ => (match e.loc with | some w => (s.markWord slot w).sarmAt w (e.b.getD .null).word | none => s)
      | .sadd _ _ _ _ => (match e.loc with | some w => (s.markWord slot w).arrive w ((e.b.getD .null).word.toNat % 2 ^ 40) | none => s)
      | _ => s

/-- An item is released, or left to wait for its turn. -/
def State.releaseOrHold (s : State) (slot : Nat) (b : Block) (lsid : Nat) (x : TailItem) : State :=
  match tget s.thr slot with
  | none => s
  | some t =>
    let (order, s) := s.newUid
    if !(x.blocks && t.tail.any (·.item.blocks)) && s.mayRelease slot t order x then s.releaseItem slot (t.sender s.ns9) x
    else s.modThread slot fun t => { t with tail := t.tail ++ [⟨order, b.seq, b.ic, lsid, t.sender s.ns9, x⟩] }

/-- The first item of a thread's list that may be released: one that keeps others behind it only in its turn. -/
def State.nextItem (s : State) (slot : Nat) (t : Thread) : Option Tail :=
  (t.tail.zipIdx.find? fun p =>
    !(p.1.item.blocks && (t.tail.take p.2).any (·.item.blocks)) && s.mayRelease slot t p.1.order p.1.item).map (·.1)

/-- FENCE_WAIT_END (R262, R280): the condition of a fence holds, or what waited behind one or for older stores is released. -/
def execFenceWaitEnd (slot : Nat) (s : State) : Out :=
  match tget s.thr slot with
  | none => .fault .noSuch
  | some t =>
    if t.tail.isEmpty then .fault .noSuch
    else
      match s.nextItem slot t with
      | none => .fault .notReady
      | some x =>
        .next ((s.modThread slot fun t => { t with tail := t.tail.filter fun y => y.order != x.order }).releaseItem slot x.sender x.item)

/-! ### Step 1: registers and system registers (R35) -/

/-- The write slots of a block reach their registers; a register that an atomic will write is not written yet (R188). -/
def State.commitWrites (s : State) (slot : Nat) (b : Block) : State :=
  b.writes.foldl (fun s w =>
    match w.tok with
    | none => s
    | some .null => s
    | some tok => (s.modThread slot fun t => { t with regWait := t.regWait.filter (·.1 != w.reg) }).writeReg slot w.reg tok) s

/-- Is a system register PTBASE or ASID? -/
def spaceReg (c : BitVec 12) : Bool := c == 0x020 || c == 0x021

/-- The MTSR forms of a block, by index, to the registers of one kind: PTBASE and ASID, or the others. -/
def State.commitMtsr (s : State) (slot : Nat) (space : Bool) (b : Block) : State :=
  b.byIndex.foldl (fun (s : State) e =>
    match e.ins with
    | .mtsr _ c =>
      if spaceReg c = space then s.modThread slot fun t => { t with sys := t.sys.write c.toNat (e.a.getD .null).word } else s
    | _ => s) s

/-- The MTSR forms of a block, but for those of PTBASE and ASID, then its flags (R123). -/
def State.commitSys (s : State) (slot : Nat) (b : Block) : State :=
  let s := s.commitMtsr slot false b
  s.modThread slot fun t => { t with sys := { t.sys with fpcsr := t.sys.fpcsr ||| b.flags.setWidth 32 } }

/-! ### Step 2: the store-class accesses in ascending LSID (R35, R69) -/

/-- What takes a place in the sequence of a block's store-class accesses. -/
inductive StoreItem where
  | acc (a : Access)
  | fence (kind : FenceKind) (scope : Scope)
  | eff (e : Effect)

/-- The sequence, each with its LSID: accesses, fences that fired, and WANT, OFFER and WDROP. -/
def Block.storeItems (b : Block) : List (Nat × StoreItem) :=
  let accs := (b.accs.filter (·.store)).map fun a => (a.lsid, StoreItem.acc a)
  let fences := b.forms.filterMap fun f =>
    match isFence f.2.2 with
    | some (k, sc) => if f.2.1.st == .fired then some (lsidOf f.2.2, StoreItem.fence k sc) else none
    | none => none
  let effs := b.effs.filterMap fun e =>
    match e.ins with
    | .want _ _ l _ _ => some (l.toNat, StoreItem.eff e)
    | .offer _ _ _ l => some (l.toNat, StoreItem.eff e)
    | .wdrop _ l => some (l.toNat, StoreItem.eff e)
    | _ => none
  (accs ++ fences ++ effs).mergeSort fun x y => decide (x.1 ≤ y.1)

/-- The registers that an atomic's targets will write (R188). -/
def Block.atomicRegs (b : Block) (i : Nat) : List (BitVec 7) :=
  match b.formAt i with
  | none => []
  | some (x, e) =>
    if (atomicOrd x).isNone then []
    else
      [targetOf (fieldsOf e.word).t0, targetOf (fieldsOf e.word).t1].filterMap fun tg =>
        match tg with
        | .slot w => (b.writes[w.toNat]?).bind fun x => if x.atomic then some x.reg else none
        | _ => none

/-- Drain units enter their buffers, numbered in order. -/
def State.pushUnits (s : State) (slot : Nat) (regs : List (BitVec 7)) : List (Nat × Unit) → State
  | [] => s
  | (g, u) :: l =>
    let (id, s) := s.newUid
    let s := s.modGrid g fun x => { x with sb := x.sb ++ [{ u with uid := id }] }
    let s := s.modThread slot fun t =>
      { t with regWait := (t.regWait.filter fun x => !regs.contains x.1) ++ regs.map fun r => (r, id) }
    s.pushUnits slot regs l

/-- A copy-engine command takes its place, its chuck entries and its record (R215, R349). -/
def State.issueCopy (s : State) (slot : Nat) (op : CopyOp) (e : Effect) : State :=
  match tget s.thr slot with
  | none => s
  | some t =>
    match s.group t.gid with
    | none => s
    | some g =>
      let (id, s) := s.newUid
      let a := (e.a.getD .null).word
      let b := (e.b.getD .null).word
      let cmd : CopyCmd :=
        { id := id, order := id, slot := slot, gid := t.gid, op := op, a := a, b := b, c := (e.c.getD .null).word, st := .queued
          fslot := none, firstPost := none, asid := t.sys.asid, sup := t.sys.mode, img := t.sys.img, ptbase := t.sys.ptbase }
      let s := s.modCl (slotCluster slot) fun c =>
        { c with copyQ := c.copyQ ++ [cmd], chuck := c.chuck ++ copyChuck g t.sys.asid t.gid id e }
      let s := s.modThread slot fun t => { t with crecs := t.crecs ++ [⟨id, false, 0, 0⟩] }
      let src := match op with | .offer _ _ => b | _ => a
      let dst := match op with | .offer _ _ => 0 | .gather _ _ => BitVec.ofNat 64 (pairRows b) | _ => b
      s.shave (slotCluster slot) 0x06 slot 0 op.opcode src dst

/-- A packet takes its credit. -/
def State.takeCredit (s : State) (slot : Nat) (e : Effect) : State :=
  if packetForm e.ins then s.modGrid (slotGrid slot) fun g => { g with credits := g.credits - 1 } else s

/-- One item of the sequence. -/
def State.commitStore (s : State) (slot : Nat) (b : Block) (p : Nat × StoreItem) : State :=
  match p.2 with
  | .fence k sc => s.releaseOrHold slot b p.1 (.fence k sc)
  | .eff e =>
    match e.ins with
    | .offer sp r _ _ => s.issueCopy slot (.offer sp r) e
    | _ => (s.takeCredit slot e).releaseOrHold slot b p.1 (.eff e)
  | .acc a =>
    match a.space, tget s.thr slot with
    | _, none => s
    | .mem, some t => s.pushUnits slot (b.atomicRegs a.idx) (b.unitsOf slot t a)
    | .spad, some _ =>
      match b.effs.find? fun e => e.idx == a.idx with
      | some e => s.releaseOrHold slot b p.1 (.eff e)
      | none => s.releaseOrHold slot b p.1 (.spad a)

/-! ### Step 3: the other effects in ascending index (R35) -/

/-- The records that the block's MWAIT and CWAIT forms covered are cleared, before its own commands take theirs (R173, R220). -/
def State.clearRecords (s : State) (slot : Nat) (b : Block) : State :=
  b.effs.foldl (fun (s : State) e =>
    match e.ins with
    | .mwait all _ ctx => s.modThread slot fun t => { t with mrecs := t.mrecs.filter fun r => !(all || r.ctx == ctx.toNat) }
    | .cwait _ => s.modThread slot fun t => { t with crecs := [] }
    | _ => s) s

/-- An input binding takes effect (R221). -/
def State.bindIn (s : State) (slot p : Nat) (pat : Pattern) : State :=
  let (order, s) := s.newUid
  s.modIn slot p fun _ => { InPort.reset with pat := some pat, order := order }

/-- An output binding of an iteration takes effect, or waits until the old one's committed elements are written, that of the iteration's own
SSEND among them (R221). -/
def State.bindOut (s : State) (slot p : Nat) (pat : Pattern) (ic : BitVec 32) : State :=
  let (order, s) := s.newUid
  s.modOut slot p fun q =>
    if q.out.isEmpty && !(q.pend.any (·.1 == ic)) then { q with pat := some pat, next := 0, waiting := none, order := order, firstPost := none }
    else { q with waiting := some pat, order := order }

/-- The element of an iteration's SSEND is released to its port's output (R46, R223). -/
def OutPort.release (q : OutPort) (ic : BitVec 32) (w : Sender) : OutPort :=
  match q.pat with
  | none => q
  | some pat =>
    { q with out := q.out ++ ((q.pend.filter (·.1 == ic)).map fun x => ({ pat with who := some w }, x.2.1, x.2.2))
             pend := q.pend.filter (·.1 != ic) }

/-- A PREEMPT (R241): the slot or the group of its thread is to be saved; without a thread only the arrival is applied. -/
def State.releasePreempt (s : State) (grp : Bool) (e : Effect) : State :=
  let target := twSlot (e.a.getD .null).word
  match tget s.thr target with
  | none => s.arriveOpt e.loc 1
  | some t => if grp then s.post [.groupSave t.gid e.loc] else s.post [.slotSave target e.loc]

/-- Could a selection be bound to a slot of a grid? A thread that comes back goes to its own (R333). -/
def State.mayUse (s : State) (h : HeldSel) (grid : Nat) : Bool :=
  match h.sel with
  | .group _ _ => true
  | .resume r =>
    r.whole || (match s.group r.gid, r.threads with
      | some g, t :: _ => (g.members[t.tidx / 8]?).any fun m =>
          if r.fused then m.grid / 4 == grid / 4 else m.grid == grid
      | _, _ => false)

/-- A YIELD (R231): does the distributor hold a group for a slot of this grid at a priority at or above the thread's? -/
def State.releaseYield (s : State) (slot : Nat) (t : Thread) : State :=
  match (s.die (slotDie slot)).held, s.group t.gid with
  | some h, some g => if g.level ≤ h.level ∧ g.save ≠ 0 ∧ s.mayUse h (slotGrid slot) then s.post [.slotSave slot none] else s
  | _, _ => s

/-- One effect of the third step. -/
def State.commitEffect (s : State) (slot : Nat) (b : Block) (e : Effect) : State :=
  match tget s.thr slot with
  | none => s
  | some t =>
    match e.ins with
    | .copy k _ m => s.issueCopy slot (.copy k m) e
    | .gather i64 sp _ => s.issueCopy slot (.gather i64 sp) e
    | .scatter i64 sp _ => s.issueCopy slot (.scatter i64 sp) e
    | .strin _ p d => s.bindIn slot p.toNat (e.pattern b.addr d)
    | .strout _ p d => s.bindOut slot p.toNat (e.pattern b.addr d) b.ic
    | .ssend _ p => s.modOut slot p.toNat (·.release b.ic (t.sender s.ns9))
    | .accset int _ acc mc nc sp =>
      let hd := accsetHandle int mc nc sp (e.a.getD .null).word (e.b.getD .null).word
      s.modThread slot fun t => { t with regs := { t.regs with h := t.regs.h.set acc.toNat (some hd) } }
    | .mtsr _ _ => s
    | .launch _ _ => (s.takeCredit slot e).releaseOrHold slot b 0xFF (.eff e)
    | .invokeQ _ _ _ => ((s.takeCredit slot e).modThread slot fun t => { t with sys := { t.sys with invst := invstAdd t.sys.invst true } }).releaseOrHold slot b 0xFF (.eff e)
    | .invokeH _ _ _ => ((s.takeCredit slot e).modThread slot fun t => { t with sys := { t.sys with invst := invstAdd t.sys.invst true } }).releaseOrHold slot b 0xFF (.eff e)
    | .wake _ => (s.takeCredit slot e).releaseOrHold slot b 0xFF (.eff e)
    | .tlbinvVa _ => s.releaseTlbinv slot e
    | .tlbinvAsid _ => s.releaseTlbinv slot e
    | .tlbinvAll _ => s.releaseTlbinv slot e
    | .tlbsync _ => s.releaseTlbsync slot
    | .vcdef _ => s.releaseTable slot e
    | .namedef _ => s.releaseTable slot e
    | .htdef _ => s.releaseTable slot e
    | .biasHost _ => s.releaseOrHold slot b 0xFF (.eff e)
    | .biasDev _ => s.releaseOrHold slot b 0xFF (.eff e)
    | .preempt _ grp => s.releasePreempt grp e
    | .yield _ => s.releaseYield slot t
    | i =>
      match mxCtx i, (mxHandle i).bind fun acc => t.regs.h.getD acc.toNat none with
      | some _, some hd => s.issueMatrix slot hd e
      | _, _ => s

/-- The elements that an iteration's SRECVs took are consumed. -/
def State.consumeTaken (s : State) (slot : Nat) (b : Block) : State :=
  if b.resident then s.modThread slot fun t => { t with inp := t.inp.map fun p => { p with taken := p.taken.filter (·.1 != b.ic) } } else s

/-! ### The end of a commit -/

/-- Has a block an effect of a form? -/
def Block.did (b : Block) (f : Instr → Bool) : Bool := b.effs.any fun e => f e.ins

/-- R48 met: every binding of the resident block at an address ends (R224); those of a loop that its handler interrupted stay (R230). -/
def Thread.endBindings (t : Thread) (addr : W64) : Thread :=
  let mine (p : Option Pattern) : Bool := p.any fun q => q.owner == addr
  { t with
    inp := t.inp.map fun p => if p.boundBy addr then InPort.reset else p
    outp := t.outp.map fun q =>
      if !mine q.pat && !mine q.waiting then q
      else if q.out.isEmpty then OutPort.reset else { q with pat := none, next := 0, waiting := none } }

/-- Does the block at an address read as resident: in flight, or in the bytes of its header at their home, without any effect of the
read? Nothing is known of a header that cannot be read now (log entry 30). -/
def State.residentAt (s : State) (t : Thread) (addr : W64) : Option Bool :=
  match ((t.blocks.drop 1) ++ t.shadow.toList).find? fun b => b.addr == addr && !b.image.isEmpty with
  | some b => some (h1Res (b.image.getD 1 0))
  | none =>
    match s.walk t.sys.ptbase addr with
    | .leaf a e lvl =>
      let l := leafOf e
      let raw := (s.useLeaf a e lvl).2.2.2.toNat + addr.toNat % 2 ^ levelBits lvl
      let pa := globalPa s.dev l.cmode.toNat raw
      let la := paLa pa
      if paDev pa = s.dev ∧ la < 2 ^ 41 then some (h1Res (BitVec.ofNat 64 (leNat (s.laBytes (la + 8) 8)))) else none
    | .fault _ _ => none

/-- The slots that a thread's core takes or would take on the other grids of its cluster. -/
def State.fuseFree (s : State) (slot : Nat) : Bool :=
  !(s.thr.any fun p => p.1 != slot && slotCluster p.1 == slotCluster slot && slotInGrid p.1 == slotInGrid slot)

/-- The blocks of a thread from a place on are discarded, and its shadow plane with them. -/
def State.cutThread (s : State) (slot k reason : Nat) : State :=
  (s.discardFrom slot k reason).dropShadow slot reason

/-- FUSE and SPLIT at the end of a commit (R39, R42, R232). -/
def State.reshape (s : State) (slot : Nat) (b : Block) : State :=
  match tget s.thr slot with
  | none => s
  | some t =>
    let fuse := b.did fun i => match i with | .fuse _ => true | _ => false
    let split := b.did fun i => match i with | .split _ => true | _ => false
    let s := if fuse && !t.sys.fused then
        if s.fuseFree slot then
          (s.cutThread slot 0 5).modThread slot fun t => { t with sys := { t.sys with fused := true }, nextPos := 0 }
        else s.modThread slot fun t => { t with sys := { t.sys with fuseFail := true } }
      else s
    match tget s.thr slot with
    | none => s
    | some t =>
      if split && t.sys.fused then
        (s.cutThread slot 0 5).modThread slot fun t => { t with sys := { t.sys with fused := false }, nextPos := 0 }
      else s

/-- Does the block write PTBASE or ASID: were the words of a shadow plane fetched in another address space (R301)? -/
def Block.movesSpace (b : Block) : Bool := b.did fun i => match i with | .mtsr _ c => spaceReg c | _ => false

/-- What a committed exit to another block says of IC (R85): it restarts if the block entered is resident; that waits where the header of
that block cannot be read yet. -/
def Thread.enterIc (t : Thread) (addr : W64) (res : Option Bool) : Thread :=
  match res with
  | some true => { t with ic := 0, icDue := [] }
  | some false => { t with icDue := t.icDue.filter (· != addr) }
  | none => { t with icDue := t.icDue.filter (· != addr) ++ [addr] }

/-- The blocks that follow a committed one: those that its exit does not name are discarded (R31), a shadow block that it names
becomes active (R47), and IC counts or restarts (R44, R85). The committed block has left the thread. -/
def State.follow (s : State) (slot : Nat) (b : Block) (addr : W64) : State :=
  match tget s.thr slot with
  | none => s
  | some t =>
    let self := b.resident && addr == b.addr
    if self then
      (if b.movesSpace then s.dropShadow slot 1 else s).modThread slot fun t =>
        { t with ic := b.ic + 1, icDue := []
                 blocks := t.blocks.zipIdx.map fun p => if p.2 = 0 then { p.1 with left := b.holding } else p.1 }
    else
      let eret := b.did fun i => match i with | .eret _ => true | _ => false
      let s := if eret || addr == b.addr then s
        else s.modThread slot (·.enterIc addr (s.residentAt { t with blocks := b :: t.blocks } addr))
      let s := match t.blocks with
        | y :: _ =>
          if b.resident then (s.modThread slot fun t => { t with shadow := none }).discardFrom slot 0 1
          else if y.addr ≠ addr then s.discardFrom slot 0 1
          else s
        | [] => s
      if !b.resident then s
      else
        let s := s.modThread slot fun u => { u.endBindings b.addr with shadow := t.shadow }
        match t.shadow with
        | some sh =>
          if sh.addr = addr ∧ !b.movesSpace then
            s.modThread slot fun t => { t with shadow := none, blocks := [{ sh with pos := t.nextPos }], nextPos := t.nextPos + 1 }
          else s.dropShadow slot 1
        | none => s

/-- HALT has committed (R90, R329): nothing of the thread goes on; its messages are reported, its latches dropped. -/
def State.endThread (s : State) (slot : Nat) : State :=
  match tget s.thr slot with
  | none => s
  | some t =>
    let s := (s.cutThread slot 0 7).modThread slot fun t =>
      { t with msgs := [], latPoison := Latch.clear, latReject := Latch.clear, ending := true, boundary := false, asleep := false, sleepUntil := none }
    t.msgs.foldl (fun s m => s.report (slotDie slot) 0 9 slot m.code) s

/-- ERET and HRET after step 1 of R35: the fired exit is not followed (R229, R237); a stopped port goes on after an ERET (R222). -/
def State.returns (s : State) (slot : Nat) (b : Block) : State :=
  let eret := b.did fun i => match i with | .eret _ => true | _ => false
  let hret := b.did fun i => match i with | .hret _ => true | _ => false
  let s := if eret || hret then s.cutThread slot 0 10 else s
  let s := if eret then s.modThread slot fun t => { t.trapReturn with inp := t.inp.map InPort.restart } else s
  if hret then
    s.modThread slot fun t =>
      { t with
        pc := t.sys.hpc, ic := t.sys.hic, icDue := t.hicDue, hicDue := [], regWait := t.regWait.filter fun x => x.1 != 1 && x.1 != 2
        regs := (t.regs.write 1 (.narrow t.sys.hg1)).write 2 (.narrow t.sys.hg2)
        sys := { t.sys with handler := false } }
  else s

/-- The post-commit trap of a block (R236). -/
def Block.postTrap (b : Block) : Option Trap :=
  b.effs.findSome? fun e =>
    match e.ins with
    | .trap _ n => some ⟨.trap, (e.a.getD .null).word, tinfo (.ins e.idx none) b.itag n.toNat 0 false⟩
    | .bkpt _ n => some ⟨.brk, (e.a.getD .null).word, tinfo (.ins e.idx none) b.itag n.toNat 0 false⟩
    | _ => none

/-- The SLEEP of a block: its limit (R234). -/
def Block.sleepLimit (b : Block) : Option Nat :=
  b.effs.findSome? fun e => match e.ins with | .sleep _ => some ((e.a.getD .null).word.toNat % 2 ^ 32) | _ => none

/-- The boundary after a commit (R229, R236, R245): the trap of the block, else a pending latch, else a waiting message, else a
SLEEP, which clears the wake latch and stops the thread where that was not set (R234). A frozen grid holds a trap back (R409). -/
def State.atBoundary (s : State) (slot : Nat) (b : Block) (exit : W64) : State :=
  match tget s.thr slot with
  | none => s
  | some t =>
    let latched := t.wakeLatch && b.sleepLimit.isSome
    let s := if latched then s.modThread slot fun t => { t with wakeLatch := false } else s
    let frozen := s.frozenFor slot t
    match b.postTrap with
    | some x =>
      if frozen then s.modThread slot fun t => { t with boundary := true, postTrap := some (x, exit) }
      else s.takeTrap slot true exit x
    | none =>
      if t.asyncTrap.isSome then
        if frozen then s.modThread slot fun t => { t with boundary := true } else s.takeAsync slot
      else
        match b.sleepLimit with
        | some n =>
          if !t.msgs.isEmpty && !t.sys.handler then s.modThread slot fun t => { t with boundary := true }
          else if latched then s
          else (s.cutThread slot 0 7).modThread slot fun t =>
            { t with asleep := true, sleepUntil := if n = 0 then none else some (s.ns9 + 576 * n) }
        | none =>
          if !t.msgs.isEmpty && !t.sys.handler then s.modThread slot fun t => { t with boundary := true } else s

/-- Does a block hold a fence whose commit discards the younger blocks of its thread (R280)? -/
def Block.refetches (b : Block) : Bool :=
  b.storeItems.any fun p => match p.2 with
    | .fence k sc => (k == .full || k == .ss) && (sc == .die || sc == .device || sc == .sys)
    | _ => false

/-- Does the thread go on with the next iteration in its frame? -/
def Thread.goesOn (t : Thread) (b : Block) (addr : W64) : Bool :=
  b.resident && addr == b.addr && t.blocks.isEmpty && !t.boundary && !t.asleep && !t.ending && t.pc == b.addr && t.ic == b.ic + 1

/-- STATUS.RESID: is the oldest block of the thread a resident one that iterates? -/
def Thread.residNow (t : Thread) : Bool :=
  match t.blocks with
  | x :: _ => x.resident && (x.state == .fire || x.state == .complete)
  | [] => false

/-- What the commit of a block does once its effects are released: counters, the predictor (R341), the trace, the block that follows, returns, core
shape, the boundary (R31, R35, R345, R355). -/
def State.commitEnd (s : State) (slot : Nat) (b : Block) (x : FiredExit) : State :=
  let c := slotCluster slot
  let s := s.modCl c fun y =>
    { y with commits := y.commits + 1, storeWait := if (y.commits + 1) % 65536 = 0 then [] else y.storeWait }
  let s := match tget s.thr slot with
    | some t => (s.countLeft (blockGrid slot t b) b).modGrid (blockGrid slot t b) fun g => { g with pred := g.pred.learn slot b x }
    | none => s
  let s := s.shave c 0x03 slot (blockTag slot b) b.ic.toNat b.addr x.addr
  let s := s.modThread slot fun t =>
    { t with
      sys := if (s.grid (slotGrid slot)).dbg.frozen then t.sys else t.sys.countPerf 1
      blocks := t.blocks.drop 1, dbgMark := if b.marked then none else t.dbgMark, pc := x.addr
      first := t.first.filter (·.1 != b.addr)
      sibReads := t.sibReads.filter fun u => !s.visible [u] }
  if x.halt then (if b.resident then s.modThread slot (·.endBindings b.addr) else s).endThread slot
  else
    let s := (s.follow slot b x.addr).returns slot b
    let s := if b.refetches then s.cutThread slot 0 9 else s
    let s := s.reshape slot b
    let quiet := b.postTrap.isNone && b.sleepLimit.isNone
    let s := s.atBoundary slot b x.addr
    let s := match tget s.thr slot with
      | some t =>
        if quiet && !b.refetches && t.goesOn b x.addr then
          let y := { b.nextIter with left := b.holding }
          (s.modThread slot fun t => { t with blocks := [y] }).takeReads ⟨slot, y.seq, y.ic⟩
        else s
      | none => s
    s.modThread slot fun t => { t with sys := { t.sys with resid := t.residNow } }

/-- The effects of a block in the order of R35; a write of PTBASE or ASID takes effect for the blocks after it (R301), so the released
effects of its own block still act in the old address space. The stores of siblings whose bytes the block's loads returned are awaited by its
own releases and fences too (R261, R262). -/
def State.release (s : State) (slot : Nat) (b : Block) : State :=
  let s := s.modThread slot fun t =>
    { t with sys := { t.sys with img := b.img }, sibReads := t.sibReads ++ (b.accs.map (·.srcs)).flatten }
  let s := (s.commitWrites slot b).commitSys slot b
  let s := s.clearRecords slot b
  let s := b.storeItems.foldl (fun s p => s.commitStore slot b p) s
  let s := (b.byIndex.filter fun e => e.ins.lsid.isNone).foldl (fun s e => s.commitEffect slot b e) s
  (s.consumeTaken slot b).commitMtsr slot true b

/-- May the oldest block of a thread commit: complete, without failure, its thread at no boundary, no TLBSYNC before it that waits
(R238), no scratchpad store of an earlier commit that still waits, its reservations made (R34)? -/
def State.mayCommit (s : State) (slot : Nat) (t : Thread) (b : Block) : Bool :=
  b.state == .complete && !t.boundary && !t.saving && !t.ending
    && (s.blockFault slot t b).isNone
    && !(s.coh.tlbinvs.any fun x => t.syncHold.contains x.id)
    && !(t.tail.any fun x => x.item.stores)
    && s.reserves slot t b

/-- The loads of slots above a committing one that have passed their checks in its clk are checked against its insertions into the chuck
(R352): those checks come after them. -/
def State.recheckLoads (s : State) (slot : Nat) : State :=
  s.loaded.foldl (fun s x =>
    if slotCluster x.1.slot != slotCluster slot || x.1.slot ≤ slot then s
    else
      match s.block x.1 with
      | none => s
      | some (t, b) =>
        match b.accs.find? fun a => a.idx == x.2 with
        | none => s
        | some a =>
          if s.rangeLocked (slotCluster slot) a.space (match a.space with | .mem => t.sys.asid.toNat | .spad => t.gid) a.va.toNat a.len false then
            s.modBlock x.1 fun b => b.hold .fire x.2 (b.insTrap .rangeLock (b.eaOf a) x.2 (some a.lsid))
          else s) s

/-- The commit of the oldest block of a slot, an ordinary one or an iteration of a resident one. -/
def commitOldest (resident : Bool) (slot : Nat) (s : State) : Out :=
  match tget s.thr slot with
  | none => .fault .noSuch
  | some t =>
    match t.blocks with
    | [] => .fault .noSuch
    | b :: _ =>
      match b.exit with
      | none => .fault .notReady
      | some x =>
        if b.resident ≠ resident then .fault .noSuch
        else if !s.mayCommit slot t b then .fault .notReady
        else
          let s := s.modThread slot fun t => { t with syncHold := [] }
          .next (((s.release slot b).recheckLoads slot).commitEnd slot b x)

/-- BLOCK_COMMIT (R34, R35). -/
def execBlockCommit (slot : Nat) (s : State) : Out := commitOldest false slot s
/-- RESIDENT_ITERATION_COMMIT (R44 to R48). -/
def execResidentIterationCommit (slot : Nat) (s : State) : Out := commitOldest true slot s

/-! ### Handler messages and the end of a sleep (R229, R230, R234) -/

/-- HANDLER_MESSAGE_ENTRY (R229, R230): the head message of a slot is entered at a boundary at which no handler runs, once g1 and g2 hold what
the thread has committed to them (R188). -/
def execHandlerMessageEntry (slot : Nat) (s : State) : Out :=
  match tget s.thr slot with
  | none => .fault .noSuch
  | some t =>
    match t.msgs with
    | [] => .fault .noSuch
    | m :: rest =>
      if !t.boundary || t.sys.handler || t.postTrap.isSome || t.asyncTrap.isSome || t.saving || t.ending
          || (t.regWait.any fun x => x.1 == 1 || x.1 == 2) || s.frozenFor slot t then .fault .notReady
      else
        .next ((s.cutThread slot 0 6).modThread slot fun t =>
          { t with
            pc := align64 m.code, msgs := rest, boundary := false, asleep := false, sleepUntil := none, hicDue := t.icDue
            regs := (t.regs.write 1 (.narrow m.a0)).write 2 (.narrow m.a1)
            sys := { t.sys with
              hpc := t.pc, hg1 := t.regs.g.getD 1 0, hg2 := t.regs.g.getD 2 0, hic := t.ic, handler := true, resid := false } })

/-- SLEEP_LIMIT_EXPIRY (R234). -/
def execSleepLimitExpiry (slot : Nat) (s : State) : Out :=
  match tget s.thr slot with
  | none => .fault .noSuch
  | some t =>
    match t.asleep, t.sleepUntil with
    | true, some e =>
      if s.ns9 < e then .fault .notReady else .next (s.modThread slot fun t => { t with asleep := false, sleepUntil := none })
    | _, _ => .fault .noSuch

end Sys2Proof.Machine
end

