-- ==== Sys2Proof/Machine/Compare.lean ====
section
/-! DEFINITION. Compare and predicate forms, opcodes 0x30 to 0x38 (03_scalar_control.md R97 to R103). -/

namespace Sys2Proof.Machine

/-- CMP (R97). -/
def execCmp (c : Cond) (h : Hdr) (w : Width) (b : Option (BitVec 28)) (s : State) : Out :=
  compute2 h b (fun x y => .pred (condHolds c x.toNat y.toNat (widthBits w))) s

/-- TSTB (R98): bit U(B, 64)[5:0] of A, always over 64 bits. -/
def execTstb (clr : Bool) (h : Hdr) (b : Option (BitVec 29)) (s : State) : Out :=
  compute2 h b (fun x y => .pred (x.getLsbD (y.toNat % 64) != clr)) s

/-- PAND, POR (R99). -/
def execPand (na nb : Bool) (h : Hdr) (s : State) : Out :=
  compute h (ops [0, 1]) (fun x =>
    let v := Token.pred ((x.a.truth != na) && (x.b'.truth != nb))
    (v, v)) s
def execPor (na nb : Bool) (h : Hdr) (s : State) : Out :=
  compute h (ops [0, 1]) (fun x =>
    let v := Token.pred ((x.a.truth != na) || (x.b'.truth != nb))
    (v, v)) s

/-- PNOT (R99). -/
def execPnot (h : Hdr) (s : State) : Out := compute h (ops [0]) (fun x => (.pred (!x.a.truth), .pred (!x.a.truth))) s

/-- SEL (R100): the chosen token, whatever its kind; a null in the other operand is ignored. -/
def execSel (h : Hdr) (s : State) : Out :=
  fire h.pm none (ops [0, 1, 2]) (fun x s =>
    let v := if x.c'.truth then x.a else x.b'
    s.deliver x.ref h v v) s

/-- STEER (R101): A to T0 when B is true, to T1 when it is false. -/
def execSteer (h : Hdr) (s : State) : Out :=
  fire h.pm none (ops [0, 1]) (fun x s => s.deliver1 x.ref (if x.b'.truth then h.t0 else h.t1) x.a) s

/-- MERGE (R102): the first arrival at A or B, to both targets; when both operands hold a token, TOKEN_OVERRUN. -/
def execMerge (t0 t1 : Target) (s : State) : Out :=
  fire .always none (fun x => if x.e.a.isSome then [0] else [1]) (fun x s =>
    if x.e.a.isSome && x.e.b.isSome then s.holdAt x .tokenOverrun 0 none
    else
      let v := if x.e.a.isSome then x.a else x.b'
      s.deliver x.ref ⟨.always, t0, t1⟩ v v) s

/-- PGET (R103). -/
def execPget (h : Hdr) (s : State) : Out := compute1 h (fun x => .narrow x) s

end Sys2Proof.Machine
end

