-- ==== Sys2Proof/Machine/Links.lean ====
section
/-! DEFINITION. The Eveod link (14 R392 to R396): flits received, replayed and lost, credits, a port that goes down, and the messages
that a port hands to the module. -/

namespace Sys2Proof.Machine

/-! ### Sending -/

/-- Held messages leave in order, channel by channel, as far as the credits of their channels go (R395). -/
def State.sendHeld (s : State) (p : Nat) : State :=
  let ms := (s.port p).hold
  let s := s.modPort p fun x => { x with hold := [] }
  ms.foldl (fun (s : State) m =>
    let x := s.port p
    let v := classVc m.cls.toNat
    if (x.hold.any fun h => classVc h.cls.toNat == v) || decide (x.credits.getD v 0 < 1 + m.beats.length) then
      s.modPort p fun x => { x with hold := x.hold ++ [m] }
    else s.cross p m) s

/-- The receiver asks for a replay (R393, FTYPE 0x2). -/
def Port.askReplay (p : Port) : Port := { p.sendBare 2 with wantReplay := true }

/-- Between messages a port sends idle flits; those that return credits are kept on the wire, the others say nothing (R392, R395). -/
def Port.idle (p : Port) : Port := if p.up && p.owed.any fun c => decide (0 < c) then p.sendBare 0 else p

/-- The kept flits from a sequence number on are sent again, in order (R393). -/
def Port.replayFrom (p : Port) (fseq : BitVec 10) : Port :=
  match p.sent.dropWhile fun f => f.1 != fseq with
  | [] => p
  | l => { p with wire := p.wire ++ l.map (·.2) }

/-- REPLAY_REQUEST (R393). -/
def execReplayRequest (port : Nat) (fseq : BitVec 10) (s : State) : Out := .next (s.modPort port fun p => p.replayFrom fseq)

/-- A port goes down (R393): what it has not sent goes to the other live ports of its die, its replay buffer is lost. -/
def State.portDown (s : State) (p : Nat) : State :=
  let ms := (s.port p).hold
  let s := s.modPort p fun x => { x with up := false, hold := [], sent := [], partialMsg := [], wantReplay := false, fails := 0 }
  ms.foldl (fun s m => s.transmit p m) s

/-- LINK_DOWN (R393). -/
def execLinkDown (port : Nat) (s : State) : Out := .next (s.portDown port)

/-! ### Receiving -/

/-- Fields of the flit header (Table 14-6). -/
def flitSeq (h : BitVec 128) : BitVec 10 := h.extractLsb' 118 10
def flitAck (h : BitVec 128) : BitVec 10 := h.extractLsb' 108 10
def flitType (h : BitVec 128) : Nat := bitsOf h.toNat 107 104
def flitCred (h : BitVec 128) (v : Nat) : Nat := bitsOf h.toNat (71 + 8 * v) (64 + 8 * v)
def flitSom (h : BitVec 128) (j : Nat) : Bool := h.getLsbD (49 + j)

/-- A message from its beats (Table 14-7). -/
def msgOf (l : List (BitVec 128)) : Msg :=
  let h := l.headD 0
  ⟨h.extractLsb' 116 12, h.extractLsb' 104 12, h.extractLsb' 98 6, h.extractLsb' 80 13, h.extractLsb' 64 16, h.extractLsb' 0 64, l.drop 1⟩
/-- LEN of a header beat. -/
def beatLen (h : BitVec 128) : Nat := bitsOf h.toNat 97 93

/-- A message that the port cannot take: a reserved channel or class, or LEN above 16 (R394). -/
def msgReserved (h : BitVec 128) : Bool := classVc (bitsOf h.toNat 103 98) == 3 || decide (16 < beatLen h)

/-- A message is whole: it is queued, or discarded and counted in the link error record. -/
def Port.endMsg (p : Port) (l : List (BitVec 128)) : Port :=
  let p := { p with partialMsg := [] }
  let h := l.headD 0
  if msgReserved h then
    { p with errors := p.errors + 1, owed := p.owed.modify (classVc (bitsOf h.toNat 103 98)) (· + l.length) }
  else { p with queue := p.queue ++ [msgOf l] }

/-- One message beat of a flit: it starts a message or continues one (R394). -/
def Port.takeBeat (p : Port) (som : Bool) (b : BitVec 128) : Port :=
  let l := if som then [b] else if p.partialMsg.isEmpty then [] else p.partialMsg ++ [b]
  if l.isEmpty then p
  else if l.length = 1 + beatLen (l.headD 0) then p.endMsg l
  else { p with partialMsg := l }

/-- Credits that a flit returns. -/
def Port.takeCredits (p : Port) (h : BitVec 128) : Port :=
  { p with credits := p.credits.zipIdx.map fun c => c.1 + flitCred h c.2 }

/-- Is a flit's CRC right (Table 14-6)? -/
def flitOk (l : List (BitVec 128)) : Bool :=
  let h := l.headD 0
  l.length == 16 && Config.crc32 ((h >>> 32 <<< 32) :: l.drop 1) == h.extractLsb' 0 32

/-- A flit that cannot be taken: a replay is asked for; a port that fails 16 of them in a row is down (R393). -/
def State.badFlit (s : State) (p : Nat) (again : Bool) : State :=
  let x := s.port p
  if x.wantReplay && !again then s
  else if 16 ≤ x.fails + (if x.wantReplay then 1 else 0) then s.portDown p
  else s.modPort p fun x => ({ x with fails := x.fails + if x.wantReplay then 1 else 0 }).askReplay

/-- FLIT_RECEIVE (R392, R393, R395): a flit with a wrong CRC or sequence number is discarded, and so is every later one until the replay. -/
def execFlitReceive (port : Nat) (beats : List (BitVec 128)) (s : State) : Out :=
  let x := s.port port
  let h := beats.headD 0
  if x.up = false then .fault .noSuch
  else if !flitOk beats then .next (s.badFlit port true)
  else if x.wantReplay && flitType h != 1 then .next s
  else if flitSeq h ≠ x.rxNext then .next (s.badFlit port false)
  else
    let good (s : State) : State := (s.modPort port fun p => p.takeCredits h).sendHeld port
    match flitType h with
    | 1 =>
      let s := s.modPort port fun p =>
        let p := { p with rxNext := p.rxNext + 1, rxSeen := flitSeq h, wantReplay := false, fails := 0 }
        (beats.drop 1).zipIdx.foldl (fun (p : Port) b => p.takeBeat (flitSom h b.2) b.1) p
      .next (good s)
    | 2 => .next ((good s).modPort port fun p => p.replayFrom (flitAck h + 1))
    | _ => .next (good s)

/-! ### Messages at their port -/

/-- A message does what its class says (Table 14-8). -/
def receiveMsg (port : Nat) (m : Msg) (s : State) : Out :=
  match m.cls.toNat with
  | 0x01 => execRd port m s
  | 0x03 => execWr port m s
  | 0x04 => execAtomMessage port m s
  | 0x05 => execPgs port m s
  | 0x06 => execPgx port m s
  | 0x08 => execInvq port m s
  | 0x09 => execInvh port m s
  | 0x0A => execWakeMessage port m s
  | 0x0B => .next (s.ndMessage port m)
  | 0x0C => .next (s.ndMessage port m)
  | 0x0D => .next (s.ndMessage port m)
  | 0x0E => execAgent port m s
  | 0x10 => execPginv port m s
  | 0x11 => execPgrcl port m s
  | 0x20 => execData port m s
  | 0x21 => execAck port m s
  | 0x22 => execPggnt port m s
  | 0x23 => execPgrsp port m s
  | 0x24 => execWbd port m s
  | 0x25 => execAtrsp port m s
  | 0x26 => execInvans port m s
  | 0x27 => .next (s.ndMessage port m)
  | 0x28 => .next (s.ndMessage port m)
  | 0x29 => execErr port m s
  | _ => .next s

/-- The first message of a channel at a port is taken: it acts, and its beats are credited to the sender (R395). -/
def State.takeMsg (s : State) (p v : Nat) : Option State :=
  let r := takeFirst (fun (m : Msg) => classVc m.cls.toNat == v) (s.port p).queue
  match r.1 with
  | none => none
  | some m =>
    let s := s.modPort p fun x =>
      { x with queue := r.2, owed := if p = localPort then x.owed else x.owed.modify v (· + (1 + m.beats.length)) }
    match receiveMsg p m s with
    | .next s => some s
    | _ => none

end Sys2Proof.Machine
end

