-- ==== Sys2Proof/Machine/HostPorts.lean ====
section
/-! DEFINITION. The host ports and the bias table (14 R388 to R391, 17 R424, R425): requests and answers of the host, flips of a page's
bias, and the requests that a page holds. -/

namespace Sys2Proof.Machine

/-! ### The host filter (R389) -/

/-- The host may hold a 64-byte line; one that it asked for with ownership it may change (log entry 13). -/
def State.markHost (s : State) (k : Nat) (own : Bool) : State :=
  let bit : BitVec 64 := 1 <<< (k % 64)
  let put (t : Table (BitVec 64)) (f : BitVec 64 → BitVec 64) : Table (BitVec 64) := tput t (k / 64) (f ((tget t (k / 64)).getD 0))
  { s with coh := { s.coh with filter := put s.coh.filter fun m => m ||| bit
                               hostClean := if own then put s.coh.hostClean fun m => m &&& ~~~bit else s.coh.hostClean } }

/-- The 64-byte lines of a page that its filter entry marks. -/
def State.marks (s : State) (pg : Nat) : List Nat :=
  let m := (tget s.coh.filter pg).getD 0
  ((List.range 64).filter fun i => m.getLsbD i).map (64 * pg + ·)

/-- The filter entry of a page is gone. -/
def State.unmark (s : State) (pg : Nat) : State :=
  { s with coh := { s.coh with filter := tdel s.coh.filter pg, hostClean := tdel s.coh.hostClean pg } }

/-- A BISnpInv for every marked line of a page, two halves of a line together (Table 14-4), but for those whose BISnpInv is under way; one whose
BISnpData is gets it as well (R390). A DEAD host gets none (R375). -/
def State.snoopPage (s : State) (pg : Nat) : State :=
  let d := homeDie (4096 * pg)
  if (s.die d).agent hostAgent = 2 then s
  else
    let ks := (s.marks pg).filter fun k => !(s.coh.awaits.any fun w => w.agent == hostAgent && w.line == k && w.stamp == 0)
    let s := ks.foldl (fun s k => s.await d hostAgent k 0) s
    (pageLines pg).foldl (fun s y => s.snoopHost true (ks.filter fun k => k / 2 == y)) s

/-- A filter of a die with 65,536 entries gives one up before it takes another page. -/
def State.filterRoom (s : State) (pg : Nat) : State :=
  let mine := s.coh.filter.filter fun p => homeDie (4096 * p.1) == homeDie (4096 * pg)
  if (tget s.coh.filter pg).isSome || decide (mine.length < 65536) then s
  else match mine with
    | p :: _ => (s.snoopPage p.1).unmark p.1
    | [] => s

/-! ### Requests of the host (Table 14-5) -/

/-- A host read: held during a flip; the latest data, with meta value Invalid in DEVICE bias, marked in HOST bias. -/
def State.serveHostRead (s : State) (port la : Nat) (own : Bool) : Served :=
  let y := la / 128
  let pg := y / 32
  if s.pageHeld pg then .wait
  else
    match s.pageGate pg none with
    | .wait => .wait
    | .act s => .act s
    | .go =>
      let bad := s.poisoned y
      let host := s.biasOf pg == Bias.host
      let s := if bad then s else s.allocate y 0
      let data : BitVec 512 := (s.homeLine y >>> (512 * (la / 64 % 2))).setWidth 512
      let s := s.tellHost port (.memData (la / 64 * 64) data (!host) bad)
      .done (if host then (s.filterRoom pg).markHost (la / 64) own else s)

/-- A host write: accepted, held during a flip, but for the write-back of a line whose BISnpInv is outstanding (R390, R424). -/
def State.serveHostWrite (s : State) (port la : Nat) (data : BitVec 512) (mask : BitVec 64) : Served :=
  let y := la / 128
  let pg := y / 32
  let back := s.biasOf pg == Bias.recalling && s.awaiting hostAgent (la / 64)
  if s.pageHeld pg && !back then .wait
  else
    match (if back then Gate.go else s.pageGate pg none) with
    | .wait => .wait
    | .act s => .act s
    | .go =>
      s.probing y fun s =>
        let l := ((List.range 64).filter fun i => mask.getLsbD i).map fun i => (la / 64 % 2 * 64 + i, data.extractLsb' (8 * i) 8)
        .done ((s.homeWrite y 0 l .host).tellHost port (.memAck (la / 64 * 64)))

/-- The device memory that the HDM decoders present (R388): local addresses below 2^40. -/
def hdm (la : Nat) : Nat := la % 2 ^ 40

/-- Does the home refuse the host (R375)? -/
def State.hostDead (s : State) (la : Nat) : Bool := (s.die (homeDie la)).agent hostAgent == 2

/-- A request of a DEAD host is refused (R375). -/
def State.refuseHost (s : State) (port la : Nat) : State := s.tellHost port (.refusal (la / 64 * 64))

/-- MEMRD (Table 14-5, R391). -/
def execMemrd (port la : Nat) (own : Bool) (s : State) : Out :=
  if s.hostDead (hdm la) then .next (s.refuseHost port (hdm la))
  else s.serveOr (hdm la / 4096) (.hostRead port (hdm la) own) (s.serveHostRead port (hdm la) own)

/-- MEMWR (Table 14-5, R390): a write-back during RECALLING does not wait behind held requests. -/
def execMemwr (port la : Nat) (data : BitVec 512) (mask : BitVec 64) (s : State) : Out :=
  let la := hdm la
  if s.hostDead la then .next (s.refuseHost port la)
  else if s.biasOf (la / 4096) = .recalling ∧ s.awaiting hostAgent (la / 64) = true then
    match s.serveHostWrite port la data mask with
    | .done s => .next s
    | _ => .next (s.park (la / 4096) (.hostWrite port la data mask))
  else s.serveOr (la / 4096) (.hostWrite port la data mask) (s.serveHostWrite port la data mask)

/-- A MemInv of the host: in HOST bias it may hold the line from now on; no data are sent. -/
def State.serveHostInv (s : State) (port la : Nat) : Served :=
  let pg := la / 4096
  if s.pageHeld pg then .wait
  else .done ((if s.biasOf pg = .host then (s.filterRoom pg).markHost (la / 64) true else s).tellHost port (.memAck (la / 64 * 64)))

/-- MEMINV (R388), held during a flip as every request of the host. -/
def execMeminv (port la : Nat) (s : State) : Out :=
  let la := hdm la
  if s.hostDead la then .next (s.refuseHost port la)
  else s.serveOr (la / 4096) (.hostInv port la) (s.serveHostInv port la)

/-- BIRSP (R389, R390): the snoop of a line is closed. After a BISnpInv the host holds it no more; after a BISnpData what it still holds
is clean. One of a DEAD host is discarded (R375). -/
def execBirsp (_port la : Nat) (s : State) : Out :=
  let la := hdm la
  let k := la / 64
  match s.coh.awaits.find? fun w => w.agent == hostAgent && w.line == k with
  | none => .next s
  | some w =>
    if s.hostDead la then .next s
    else
      let s := s.answered hostAgent k
      let bit : BitVec 64 := 1 <<< (k % 64)
      .next (match tget s.coh.filter (k / 64) with
        | none => s
        | some m =>
          if w.stamp = 1 then
            { s with coh := { s.coh with hostClean := tput s.coh.hostClean (k / 64) ((tget s.coh.hostClean (k / 64)).getD 0 ||| bit) } }
          else { s with coh := { s.coh with filter := if m &&& ~~~bit = 0 then tdel s.coh.filter (k / 64) else tput s.coh.filter (k / 64) (m &&& ~~~bit) } })

/-- HOST_SNOOP (Table 14-4): the device holds host lines only clean, in its L1 slices; SnpInv drops them, and every snoop is answered
without data. -/
def execHostSnoop (port : Nat) (k : Snoop) (la : Nat) (s : State) : Out :=
  let key := s.dev * 2 ^ 45 + la / 128
  let drop (s : State) : State :=
    let cls := ((s.coh.l1.filter fun x => x.line == key).map (·.cl) ++ (s.coh.bc.filter fun x => x.line / 2 == key).map (·.cl)
      ++ s.thr.map fun p => slotCluster p.1).eraseDups
    let s := cls.foldl (fun (s : State) c => (s.dropCopies c key).replayLoads c key none) s
    { s with coh := { s.coh with fills := s.coh.fills.map fun f => if f.line == key && f.blank then { f with keep := false } else f } }
  .next ((match k with | .inv => drop s | .data => s | .cur => s).tellHost port (.snoopAnswer la))

/-- HOST_LINK_POWER_STATE (Table 14-1): the host is SLEEPING while both CXL ports are in a low-power state. -/
def execHostLinkPowerState (port : Nat) (low : Bool) (s : State) : Out :=
  let l := (s.links.cxlLow.filter (· != port)) ++ if low then [port] else []
  let s := { s with links := { s.links with cxlLow := l } }
  let both := l.contains 0 && l.contains 1
  .next ((List.range 4).foldl (fun (s : State) d =>
    let a := (s.die d).agent hostAgent
    if both && a == 0 then s.setAgent d hostAgent 1 else if !both && a == 1 then s.setAgent d hostAgent 0 else s) s)

/-! ### Flips (R390, R425) -/

def State.setBias (s : State) (pg : Nat) (b : Bias) : State :=
  { s with coh := { s.coh with bias := if b = .device then tdel s.coh.bias pg else tput s.coh.bias pg b } }

/-- BIAS_FLIP_START (R390): flips of one page one at a time, in the order of their arrival; one to the bias that the page has ends at
once. -/
def execBiasFlipStart (page : Nat) (toHost : Bool) (word : Option WLoc) (s : State) : Out :=
  match s.biasOf page with
  | .flushing => .fault .notReady
  | .recalling => .fault .notReady
  | b =>
    if (b == Bias.host) == toHost then .next (s.arriveOpt word 1)
    else
      let s := { s with coh := { s.coh with flips := s.coh.flips ++ [(⟨page, toHost, word⟩ : Flip)] } }
      if toHost then
        .next ((pageLines page).foldl (fun (s : State) y => (s.dropLine y).probeRound y) (s.setBias page .flushing))
      else .next ((s.setBias page .recalling).snoopPage page)

/-- The flip of a page under way. -/
def State.flipOf (s : State) (page : Nat) (toHost : Bool) : Option Flip := s.coh.flips.find? fun f => f.page == page && f.toHost == toHost
def State.endFlip (s : State) (f : Flip) (b : Bias) : State :=
  ({ s with coh := { s.coh with flips := s.coh.flips.filter (·.page != f.page) } }.setBias f.page b).arriveOpt f.word 1

/-- BIAS_FLUSH_END (R390): every invalidation is acknowledged; those that the bound of R379 held back go out first. -/
def execBiasFlushEnd (page : Nat) (s : State) : Out :=
  match s.flipOf page true with
  | none => .fault .noSuch
  | some f =>
    match s.settleLines (pageLines page) fun s => .done (s.endFlip f .host) with
    | .done s => .next s
    | .act s => .next s
    | .wait => .fault .notReady

/-- BIAS_RECALL_END (R390): every BIRsp has come or timed out. -/
def execBiasRecallEnd (page : Nat) (s : State) : Out :=
  match s.flipOf page false with
  | none => .fault .noSuch
  | some f =>
    if s.coh.awaits.any fun w => w.agent == hostAgent && w.line / 64 == page then .fault .notReady
    else .next ((s.unmark page).endFlip f .device)

/-! ### Held requests (R382, R389, R391) -/

/-- A held request is tried again; the place of a device access that has come stands no longer. -/
def State.serveParked (s : State) (p : Parked) : Served :=
  match p with
  | .device w => if s.toCome w then .wait else .done s
  | .msg port m => s.serveMsg port m
  | .hostInv port la => if s.hostDead la then .done (s.refuseHost port la) else s.serveHostInv port la
  | .hostRead port la own => if s.hostDead la then .done (s.refuseHost port la) else s.serveHostRead port la own
  | .hostWrite port la data mask => if s.hostDead la then .done (s.refuseHost port la) else s.serveHostWrite port la data mask
  | .answer port m cls line beats => if s.lineAwaits line then .wait else .done (s.respond port m cls 0 beats)

/-- The first held request of a page goes on, if it can. -/
def State.unpark (s : State) (pg : Nat) : Option State :=
  match s.coh.parked.find? (·.1 == pg) with
  | none => none
  | some p =>
    match s.serveParked p.2 with
    | .done s => some { s with coh := { s.coh with parked := (takeFirst (fun (x : Nat × Parked) => x.1 == pg) s.coh.parked).2 } }
    | .wait => none
    | .act s => some s

end Sys2Proof.Machine
end

