-- ==== Sys2Proof/Machine/Integer.lean ====
section
/-! DEFINITION. Narrow integer forms, opcodes 0x10 to 0x2D (03_scalar_control.md R91 to R96). No integer form traps (R79). -/

namespace Sys2Proof.Machine

/-- A two-operand form over w-bit values (R77). -/
def intOp2 {n : Nat} (w : Width) (sgnExt : Bool) (h : Hdr) (b : Option (BitVec n)) (f : Nat → Nat → Nat → Nat) (s : State) : Out :=
  compute2 h b (fun x y => narrowTok (f x.toNat y.toNat (widthBits w)) (widthBits w) sgnExt) s

/-- A one-operand form over w-bit values (R77). -/
def intOp1 (w : Width) (sgnExt : Bool) (h : Hdr) (f : Nat → Nat → Nat) (s : State) : Out :=
  compute1 h (fun x => narrowTok (f x.toNat (widthBits w)) (widthBits w) sgnExt) s

/-- ADD, SUB and MUL of R91: the exact value narrowed. -/
def arith (n : Narrowing) (op : Int → Int → Int) (x y w : Nat) : Nat := narrowTo (op (readAs n x w) (readAs n y w)) w n

/-- Is the result of a narrowing extended with its sign (R91)? -/
def Narrowing.signed : Narrowing → Bool
  | .usat => false
  | _ => true

/-- ADD (R91). -/
def execAdd (w : Width) (n : Narrowing) (h : Hdr) (b : Option (BitVec 29)) (s : State) : Out :=
  intOp2 w (Narrowing.signed n) h b (arith n (· + ·)) s

/-- SUB (R91). -/
def execSub (w : Width) (n : Narrowing) (h : Hdr) (b : Option (BitVec 29)) (s : State) : Out :=
  intOp2 w (Narrowing.signed n) h b (arith n (· - ·)) s

/-- MUL (R91). -/
def execMul (w : Width) (n : Narrowing) (h : Hdr) (b : Option (BitVec 29)) (s : State) : Out :=
  intOp2 w (Narrowing.signed n) h b (arith n (· * ·)) s

/-- MULH (Table 3-4): bits [2w-1:w] of the exact product. -/
def mulhN (u : Bool) (x y w : Nat) : Nat :=
  if u then x % 2 ^ w * (y % 2 ^ w) / 2 ^ w else wrapN (sInt x w * sInt y w / ((2 ^ w : Nat) : Int)) w

def execMulh (w : Width) (u : Bool) (h : Hdr) (b : Option (BitVec 29)) (s : State) : Out := intOp2 w (!u) h b (mulhN u) s

/-- DIV (R92). -/
def execDiv (w : Width) (u : Bool) (h : Hdr) (b : Option (BitVec 29)) (s : State) : Out :=
  intOp2 w (!u) h b (fun x y w => divN x y w u) s

/-- REM (R92). -/
def execRem (w : Width) (u : Bool) (h : Hdr) (b : Option (BitVec 29)) (s : State) : Out :=
  intOp2 w (!u) h b (fun x y w => remN x y w u) s

/-- MADD (R91). -/
def maddN (n : Narrowing) (x y z w : Nat) : Nat := narrowTo (readAs n x w * readAs n y w + readAs n z w) w n

def execMadd (w : Width) (n : Narrowing) (h : Hdr) (s : State) : Out :=
  compute3 h (fun x y z => narrowTok (maddN n x.toNat y.toNat z.toNat (widthBits w)) (widthBits w) (Narrowing.signed n)) s

/-- AND, OR, XOR, ANDN (Table 3-4): bitwise, zero-extended. -/
def execAnd (w : Width) (h : Hdr) (b : Option (BitVec 29)) (s : State) : Out :=
  compute2 h b (fun x y => .narrow (ext (x &&& y).toNat (widthBits w) false)) s
def execOr (w : Width) (h : Hdr) (b : Option (BitVec 29)) (s : State) : Out :=
  compute2 h b (fun x y => .narrow (ext (x ||| y).toNat (widthBits w) false)) s
def execXor (w : Width) (h : Hdr) (b : Option (BitVec 29)) (s : State) : Out :=
  compute2 h b (fun x y => .narrow (ext (x ^^^ y).toNat (widthBits w) false)) s
def execAndn (w : Width) (h : Hdr) (b : Option (BitVec 29)) (s : State) : Out :=
  compute2 h b (fun x y => .narrow (ext (x &&& ~~~y).toNat (widthBits w) false)) s

/-- SHL, SHR, SRA, ROTL (Table 3-4): the count is U(B, 64) mod w. -/
def execShl (w : Width) (h : Hdr) (b : Option (BitVec 29)) (s : State) : Out :=
  intOp2 w true h b (fun x y w => x % 2 ^ w * 2 ^ (y % w)) s
def execShr (w : Width) (h : Hdr) (b : Option (BitVec 29)) (s : State) : Out :=
  intOp2 w false h b (fun x y w => x % 2 ^ w / 2 ^ (y % w)) s
def execSra (w : Width) (h : Hdr) (b : Option (BitVec 29)) (s : State) : Out :=
  intOp2 w true h b (fun x y w => wrapN (sInt x w / ((2 ^ (y % w) : Nat) : Int)) w) s
def execRotl (w : Width) (h : Hdr) (b : Option (BitVec 29)) (s : State) : Out := intOp2 w false h b rotlN s

/-- The smaller or the larger of two w-bit values (Table 3-4, R142). -/
def minMaxN (mx u : Bool) (x y w : Nat) : Nat :=
  let less := if u then decide (x % 2 ^ w < y % 2 ^ w) else decide (sInt x w < sInt y w)
  if less = mx then y % 2 ^ w else x % 2 ^ w

/-- MIN, MAX (Table 3-4). -/
def execMin (w : Width) (u : Bool) (h : Hdr) (b : Option (BitVec 29)) (s : State) : Out := intOp2 w (!u) h b (minMaxN false u) s
def execMax (w : Width) (u : Bool) (h : Hdr) (b : Option (BitVec 29)) (s : State) : Out := intOp2 w (!u) h b (minMaxN true u) s

/-- The narrowing that .sat selects (R91). -/
def satNarrowing (sat : Bool) : Narrowing := if sat then .ssat else .wrap

/-- ABS, NEG (Table 3-4): wrapped or saturated. -/
def execAbs (w : Width) (sat : Bool) (h : Hdr) (s : State) : Out :=
  intOp1 w true h (fun x w => narrowTo (sInt x w).natAbs w (satNarrowing sat)) s
def execNeg (w : Width) (sat : Bool) (h : Hdr) (s : State) : Out :=
  intOp1 w true h (fun x w => narrowTo (-sInt x w) w (satNarrowing sat)) s

/-- CLZ, CTZ, POPC, BREV, BSWAP (Table 3-4). -/
def execClz (w : Width) (h : Hdr) (s : State) : Out := intOp1 w false h clzN s
def execCtz (w : Width) (h : Hdr) (s : State) : Out := intOp1 w false h ctzN s
def execPopc (w : Width) (h : Hdr) (s : State) : Out := intOp1 w false h popcN s
def execBrev (w : Width) (h : Hdr) (s : State) : Out := intOp1 w false h brevN s
def execBswap (w : Width) (h : Hdr) (s : State) : Out := intOp1 w false h bswapN s

/-- EXTR (R93). -/
def execExtr (w : Width) (u : Bool) (h : Hdr) (b : Option (BitVec 29)) (s : State) : Out :=
  intOp2 w (!u) h b (fun x k w => extrN x k w u) s

/-- INSB (R93): A, the field B or the immediate, the control C. -/
def execInsb (w : Width) (h : Hdr) (b : Option (BitVec 29)) (s : State) : Out :=
  compute h (fun _ => if b.isSome then [0, 2] else [0, 1, 2]) (fun x =>
    let f := match b with
      | none => x.b'.word
      | some i => i.signExtend 64
    let y := narrowTok (insbN x.a.word.toNat f.toNat x.c'.word.toNat (widthBits w)) (widthBits w) false
    (y, y)) s

/-- The source width of SEXT and ZEXT (R94). -/
def extBits : ExtWidth → Nat
  | .b8 => 8 | .b16 => 16 | .b32 => 32

/-- SEXT, ZEXT (R94). -/
def execSext (e : ExtWidth) (h : Hdr) (s : State) : Out :=
  compute1 h (fun x => .narrow (BitVec.ofInt 64 (sInt x.toNat (extBits e)))) s
def execZext (e : ExtWidth) (h : Hdr) (s : State) : Out :=
  compute1 h (fun x => .narrow (BitVec.ofNat 64 (x.toNat % 2 ^ extBits e))) s

/-- LEA (R95). -/
def execLea (sc : BitVec 2) (h : Hdr) (b : Option (BitVec 29)) (s : State) : Out :=
  compute2 h b (fun x y => .narrow (x + y <<< sc.toNat)) s

/-- ADDX (R96): the sum to T0, the carry as a predicate to T1. -/
def execAddx (w : Width) (h : Hdr) (s : State) : Out :=
  compute h (ops [0, 1, 2]) (fun x =>
    let cin := match x.c' with
      | .pred c => ofBool c
      | c => c.word.toNat % 2
    let n := widthBits w
    let v := uns x.a.word n + uns x.b'.word n + cin
    (narrowTok v n false, .pred (decide (2 ^ n ≤ v)))) s

end Sys2Proof.Machine
end

