-- ==== Sys2Proof/Machine/NarrowFp.lean ====
section
/-! DEFINITION. Narrow floating-point forms, opcodes 0x40 to 0x4E (03_scalar_control.md R104 to R113). -/

namespace Sys2Proof.Machine

/-- A narrow operand as a value of a format (R78, R121). -/
def Site.fp (x : Site) (f : Fmt) (t : Token) : Val := f.read x.b.ftz t.word.toNat

/-- A value rounded into a format as a narrow token, with the flags of the operation and of the rounding (R106). -/
def Site.roundTok (x : Site) (f : Fmt) (r : Rnd) (v : Val × Flags) : Token × Flags :=
  let y := f.round (x.rnd r) x.b.ftz v.1
  (.narrow (BitVec.ofNat 64 y.1), v.2 ||| y.2)

/-- FADD, FSUB, FMUL, FDIV: two operands, one rounding. -/
def fpOp2 (f : FRnd) (h : Hdr) (op : Rnd → Val → Val → Val × Flags) (s : State) : Out :=
  computeFp h (ops [0, 1]) (fun x =>
    x.roundTok (fmtD f.d) f.rnd (op (x.rnd f.rnd) (x.fp (fmtD f.d) x.a) (x.fp (fmtD f.d) x.b'))) s

/-- FADD (R106, Table 3-7). -/
def execFadd (f : FRnd) (h : Hdr) (s : State) : Out := fpOp2 f h addVal s
/-- FSUB. -/
def execFsub (f : FRnd) (h : Hdr) (s : State) : Out := fpOp2 f h (fun md a b => addVal md a b.neg) s
/-- FMUL. -/
def execFmul (f : FRnd) (h : Hdr) (s : State) : Out := fpOp2 f h (fun _ a b => mulVal a b) s
/-- FDIV. -/
def execFdiv (f : FRnd) (h : Hdr) (s : State) : Out := fpOp2 f h (fun _ a b => divVal a b) s

/-- FFMA (R106): one rounding. -/
def execFfma (f : FRnd) (h : Hdr) (s : State) : Out :=
  computeFp h (ops [0, 1, 2]) (fun x =>
    let g := fmtD f.d
    x.roundTok g f.rnd (fmaVal (x.rnd f.rnd) (x.fp g x.a) (x.fp g x.b') (x.fp g x.c'))) s

/-- FSQRT. -/
def execFsqrt (f : FRnd) (h : Hdr) (s : State) : Out :=
  computeFp h (ops [0]) (fun x => x.roundTok (fmtD f.d) f.rnd (sqrtVal (x.fp (fmtD f.d) x.a))) s

/-- FMIN, FMAX (R107): the chosen operand is delivered as it is; a flushed subnormal as a zero (R121). -/
def fpMinMax (mx d : Bool) (h : Hdr) (s : State) : Out :=
  computeFp h (ops [0, 1]) (fun x =>
    let r := minMaxVal mx (x.fp (fmtD d) x.a) (x.fp (fmtD d) x.b')
    (.narrow (BitVec.ofNat 64 ((fmtD d).round .rne false r.1).1), r.2)) s

def execFmin (d : Bool) (h : Hdr) (s : State) : Out := fpMinMax false d h s
def execFmax (d : Bool) (h : Hdr) (s : State) : Out := fpMinMax true d h s

/-- FCMP (R108). -/
def execFcmp (d : Bool) (c : FCond) (h : Hdr) (s : State) : Out :=
  computeFp h (ops [0, 1]) (fun x =>
    let r := fcondHolds c (x.fp (fmtD d) x.a) (x.fp (fmtD d) x.b')
    (.pred r.1, r.2)) s

/-- FCVT (R109): D names the destination, the other format is the source. -/
def execFcvt (f : FRnd) (h : Hdr) (s : State) : Out :=
  computeFp h (ops [0]) (fun x =>
    let r := convertVal (fmtD f.d) false (x.rnd f.rnd) x.b.ftz (x.fp (fmtD (!f.d)) x.a)
    (.narrow (BitVec.ofNat 64 r.1), r.2)) s

/-- The width in bits of an integer operand or result (R110). -/
def intBits (i64 : Bool) : Nat := if i64 then 64 else 32

/-- FCVTI (R110). -/
def execFcvti (f : FRnd) (h : Hdr) (i64 u : Bool) (s : State) : Out :=
  computeFp h (ops [0]) (fun x =>
    let w := intBits i64
    let lo : Int := if u then 0 else -(2 ^ (w - 1) : Int)
    let hi : Int := if u then 2 ^ w - 1 else 2 ^ (w - 1) - 1
    let r := toInt (x.rnd f.rnd) lo hi (x.fp (fmtD f.d) x.a)
    (narrowTok (wrapN r.1 w) w (!u), r.2)) s

/-- ICVTF (R111). -/
def execIcvtf (f : FRnd) (h : Hdr) (i64 u : Bool) (s : State) : Out :=
  computeFp h (ops [0]) (fun x =>
    let w := intBits i64
    let v : Int := if u then (uns x.a.word w : Nat) else sgn x.a.word w
    x.roundTok (fmtD f.d) f.rnd (ofIntVal v, 0)) s

/-- FABS and FNEG (R112): the sign bit alone; a NaN becomes the canonical NaN. No flag, no flush. -/
def fpSign (d : Bool) (h : Hdr) (g : Nat → Nat → Nat) (s : State) : Out :=
  compute h (ops [0]) (fun x =>
    let f := fmtD d
    let v := x.a.word.toNat % 2 ^ f.width
    let y := if (f.decode v).isNan then f.qnan else g v (f.width - 1)
    (.narrow (BitVec.ofNat 64 y), .narrow (BitVec.ofNat 64 y))) s

def execFabs (d : Bool) (h : Hdr) (s : State) : Out := fpSign d h (fun v k => v % 2 ^ k) s
def execFneg (d : Bool) (h : Hdr) (s : State) : Out :=
  fpSign d h (fun v k => if v < 2 ^ k then v + 2 ^ k else v - 2 ^ k) s

/-- FCLASS (R112). -/
def execFclass (d : Bool) (h : Hdr) (s : State) : Out :=
  compute1 h (fun v => .narrow (BitVec.ofNat 64 (2 ^ classBit (fmtD d) (v.toNat % 2 ^ (fmtD d).width)))) s

end Sys2Proof.Machine
end

