-- ==== Sys2Proof/Machine/Pager.lean ====
section
/-! DEFINITION. The pager (10 R308, R309): translation faults of engine commands are posted, retried and given up. -/

namespace Sys2Proof.Machine

/-- A command of an engine as the pager sees it: its fault slot, the time of its first posting, its ENG code, the slot of its
committing thread, its cluster (Table 10-8), and for whom it translates. -/
structure EngView where
  fslot : Option Nat
  first : Option Nat
  kind : Nat
  slot : Nat
  cl : Nat
  who : Who
  deriving DecidableEq, Repr

/-- The command that a reference names, if it is there. -/
def State.engView (s : State) : EngRef → Option EngView
  | .copy cl cmd =>
    ((s.cl cl).cmd cmd).map fun c =>
      ⟨c.fslot, c.firstPost, match c.op with | .copy _ _ => 0 | .gather _ _ => 1 | .scatter _ _ => 1 | .offer _ _ => 5, c.slot, cl, c.who cl⟩
  | .matrix g ctx => (s.mxHead g ctx).map fun c => ⟨c.fslot, c.firstPost, 2, c.slot, gridCluster g, c.who⟩
  | .streamIn slot p => (tget s.thr slot).map fun t => ⟨(t.inPort p).fslot, (t.inPort p).firstPost, 3, slot, slotCluster slot,
      match (t.inPort p).pat with | some pat => t.portWho slot pat | none => t.who slot (slotGrid slot)⟩
  | .streamOut slot p => (tget s.thr slot).map fun t => ⟨(t.outPort p).fslot, (t.outPort p).firstPost, 3, slot, slotCluster slot,
      match (t.outPort p).out with | (pat, _, _) :: _ => t.portWho slot pat | [] => t.who slot (slotGrid slot)⟩
  | .deposit id => (s.net.deposits.find? (·.id == id)).map fun d => ⟨d.fslot, d.firstPost, 4, d.ep.slot, d.stop, d.who⟩

/-- A command's fault slot and first posting are changed. -/
def State.engSet (s : State) (e : EngRef) (f first : Option Nat) : State :=
  match e with
  | .copy cl cmd => s.modCmd cl cmd fun c => { c with fslot := f, firstPost := first }
  | .matrix g ctx =>
    s.modGrid g fun x => { x with mx := x.mx.modify ctx fun l => l.modify 0 fun c => { c with fslot := f, firstPost := first } }
  | .streamIn slot p => s.modIn slot p fun q => { q with fslot := f, firstPost := first }
  | .streamOut slot p => s.modOut slot p fun q => { q with fslot := f, firstPost := first }
  | .deposit id =>
    s.modNet fun x => { x with deposits := x.deposits.map fun d => if d.id = id then { d with fslot := f, firstPost := first } else d }

/-- A translation fault: address, level, malformed, non-canonical, a write. -/
structure EngFault where
  va : W64
  lvl : Nat
  mal : Bool
  nc : Bool
  wr : Bool
  deriving DecidableEq, Repr

/-- The translation that a fault leaves undone. -/
def EngFault.givenUp (x : EngFault) : GivenUp := ⟨x.va, x.wr⟩

/-- The translation fault in which an attempt ended. -/
def EngRes.fault {α : Type} : EngRes α → Option EngFault
  | .page va lvl mal nc wr => some ⟨va, lvl, mal, nc, wr⟩
  | _ => none

/-- The translation fault that a command meets now. -/
def State.engFault (s : State) : EngRef → Option EngFault
  | .copy cl cmd => ((s.cl cl).cmd cmd).bind fun c => if c.st = .running then (s.copyTry cl c true none).fault else none
  | .matrix g ctx =>
    (s.mxHead g ctx).bind fun c =>
      if !c.started || c.landing.isSome || c.quit then none
      else (s.group c.gid).bind fun gr =>
        match s.engWord c.who gr c.handle.sync with
        | .done s _ => (s.matrixTry c true).fault
        | .err s _ _ _ => (s.matrixTry c true).fault
        | r => r.fault
  | .streamIn slot p =>
    (tget s.thr slot).bind fun t =>
      (t.inPort p).pat.bind fun pat =>
        let q := t.inPort p
        if q.stopped ∨ pat.total ≤ q.pos ∨ 16 ≤ q.fifo.length + q.taken.length ∨ s.storesPending slot q.order then none
        else (s.portRead slot t pat q.pos true).fault
  | .streamOut slot p =>
    (tget s.thr slot).bind fun t =>
      match (t.outPort p).out, (t.outPort p).landing with
      | (pat, i, w) :: _, none => (s.portWrite slot t pat i ((wideBytes w).take pat.elen) 0 true).fault
      | _, _ => none
  | .deposit id =>
    (s.net.deposits.find? (·.id == id)).bind fun d => if d.landing.isSome then none else (s.depositTry d true).fault

/-- A command ends with error 0x01 (R309), for want of a translation. -/
def State.engAbandon (s : State) (e : EngRef) (x : GivenUp) : State :=
  let s := s.engSet e none none
  let s := match s.engView e with | some v => s.dropWalks v.who (some x.va) | none => s
  match e with
  | .copy cl cmd => (match (s.cl cl).cmd cmd with | some c => s.copyAbandon cl c x | none => s)
  | .matrix g ctx => s.matrixAbandon g ctx
  | .streamIn slot p => s.inFail slot p .pageFault x.va
  | .streamOut slot p =>
    (match tget s.thr slot with
    | some t =>
      (match (t.outPort p).out with
      | (pat, _, _) :: _ => s.outFail slot p t pat 0x01 x.va
      | [] => s)
    | none => s)
  | .deposit id => (match s.net.deposits.find? (·.id == id) with | some d => s.depositAbandon d | none => s)

/-- The descriptor of Table 10-8. -/
def pagerDesc (v : EngView) (f : Nat) (x : EngFault) : W64 :=
  BitVec.ofNat 64 (v.who.asid.toNat * 2 ^ 48 + f * 2 ^ 42 + ofBool x.wr * 2 ^ 41 + ofBool x.nc * 2 ^ 40 + (if x.nc then 0 else x.lvl) * 2 ^ 37
    + ofBool x.mal * 2 ^ 36 + v.kind * 2 ^ 24 + v.cl % 128 * 2 ^ 9 + slotGrid v.slot % 4 * 2 ^ 7 + slotInGrid v.slot * 2 ^ 4
    + clusterDie v.cl * 4)

/-- LIMIT of the pager entry, in ninths of a nanosecond. -/
def pagerLimit (e : BitVec 512) : Nat :=
  let n := (hG e 4).toNat % 2 ^ 32
  576 * (if n = 0 then 4096 else n)

/-- The lowest free fault slot of a die. -/
def Die.freeSlot (d : Die) : Option Nat := (List.range 64).find? fun f => (tget d.fslots f).isNone

/-- The pager's word of a slot is set (step 2 of R308), leaving GEN. -/
def State.armPager (s : State) (l : WLoc) : State :=
  let o := s.syncWord l
  s.setSync l o { o with count := 0, target := 1, armed := true, error := false }

/-- The pager's word of a slot is set, then the launch of entry 4,095 submitted as INVOKE.q submits one (steps 2 and 3 of R308, R322): an entry
that cannot be used for it and a record that fails R313 are reported and count as posted; `false` where the launch is refused. That an address
of the word which does not translate, or lies on a page that no sync word may, ends the command at once is the model's choice (log entry
64). -/
def State.postFault (s : State) (die f : Nat) (e : EngRef) (v : EngView) (x : EngFault) (first : Nat) : Tried Bool :=
  let h := (s.die die).handler 4095
  let q := hQueue h
  let ref := hG h 3 + BitVec.ofNat 64 (16 * f)
  (s.dieGate (s.queue die q).ptb ref true).tried <|
  let w := s.dieWord (s.queue die q).ptb ref .store
  match w.2 with
  | .inl _ => .done w.1 false
  | .inr l =>
    (w.1.opGate l).tried <|
    let posted (s : State) : State :=
      (s.modDie die fun d =>
        { d with fslots := tput d.fslots f ⟨e, x.va, x.wr, l, (w.1.syncWord l).gen, first, pagerLimit h⟩ }).engSet e (some f) (some first)
    let bad (s : State) (q : Nat) : State := s.report die q 2 s.dev 4095
    let s := w.1.armPager l
    if !hQok h || (s.queue die q).asid != hAsid h then .done (posted (bad s 0)) true
    else
      (s.accept die q ⟨s.mclk, .pager, .inr (hRecord h), some (hArgs h x.va (pagerDesc v f x))⟩).bind fun s a =>
        match a with
        | .accepted => .done (posted s) true
        | .invalid _ _ => .done (posted (bad s q)) true
        | .refused _ => .done s false

/-- ENGINE_FAULT_POST (R308): the fault of a command takes a free slot and is posted; without one it waits, and the wait counts. -/
def execEngineFaultPost (die : Nat) (e : EngRef) (s : State) : Out :=
  match s.engView e with
  | none => .fault .noSuch
  | some v =>
    if v.fslot.isSome then .fault .noSuch
    else
      match s.engFault e with
      | none => .fault .noSuch
      | some x =>
        let h := (s.die die).handler 4095
        let first := v.first.getD s.ns9
        if !hV h then .next (s.engAbandon e x.givenUp)
        else if pagerLimit h ≤ s.ns9 - first then .next (s.engAbandon e x.givenUp)
        else
          match (s.die die).freeSlot with
          | none => if v.first.isSome then .fault .notReady else .next (s.engSet e none (some first))
          | some f =>
            match s.postFault die f e v x first with
            | .done s posted => .next (if posted then s.dropWalks v.who (some x.va) else s.engAbandon e x.givenUp)
            | .act s => .next s
            | .wait => .fault .notReady

/-- A fault slot is freed. -/
def State.freeFslot (s : State) (die f : Nat) : State := s.modDie die fun d => { d with fslots := tdel d.fslots f }

/-- Does the translation of a fault slot still fail? -/
def State.stillFaults (s : State) (v : EngView) (x : FSlot) : Bool :=
  !canonical x.va || (match (s.walkAccess v.who (if x.wr then .store else .load) x.va x.wr false).2 with | .fault _ _ => true | .entry _ => false)

/-- PAGER_RETRY (R309): the word's generation has advanced, the slot is free and the command walks again; a retry that succeeds ends the
time of the first posting. A slot whose command is gone is free too. -/
def execPagerRetry (die f : Nat) (s : State) : Out :=
  match tget (s.die die).fslots f with
  | none => .fault .noSuch
  | some x =>
    match s.engView x.eng with
    | some v =>
      if v.fslot ≠ some f then .next (s.freeFslot die f)
      else if (s.syncWord x.word).gen ≠ x.gen then
        .next ((s.freeFslot die f).engSet x.eng none (if s.stillFaults v x then some x.first else none))
      else .fault .notReady
    | none => .next (s.freeFslot die f)

/-- PAGER_ABANDON (R309): ERROR of the word is 1. -/
def execPagerAbandon (die f : Nat) (s : State) : Out :=
  match tget (s.die die).fslots f with
  | none => .fault .noSuch
  | some x => if (s.syncWord x.word).error then .next ((s.freeFslot die f).engAbandon x.eng ⟨x.va, x.wr⟩) else .fault .notReady

/-- PAGER_LIMIT_EXPIRY (R309): no retry has succeeded in time. -/
def execPagerLimitExpiry (die f : Nat) (s : State) : Out :=
  match tget (s.die die).fslots f with
  | none => .fault .noSuch
  | some x => if x.limit ≤ s.ns9 - x.first then .next ((s.freeFslot die f).engAbandon x.eng ⟨x.va, x.wr⟩) else .fault .notReady

end Sys2Proof.Machine
end

