-- ==== Sys2Proof/Machine/Sched.lean ====
section
/-! DEFINITION. The distributor (11 R323 to R330): readiness of a queue's head, selection, placement, the first fetch of a group, the
release of slots and the end of groups. -/

namespace Sys2Proof.Machine

/-! ### Queues and their heads (R317, R323) -/

/-- The oldest record of a queue that still has groups to dispatch. -/
def Queue.record (q : Queue) : Option QRec := q.store.head?
def Queue.hasHead (q : Queue) : Bool := !q.resume.isEmpty || q.record.isSome

/-- Table 11-4: while the store has room, the oldest record of the overflow area moves into it; one that cannot be read is dropped and
reported. The fuel is the number of records there. -/
def State.refill (s : State) (d q : Nat) : Nat → State
  | 0 => s
  | k + 1 =>
    let x := s.queue d q
    match x.overf with
    | [] => s
    | r :: l =>
      if x.store.length < x.depth then
        let s' := s.modQueue d q fun x => { x with overf := l }
        (if s.overOk x 0 then s'.modQueue d q fun x => { x with store := x.store ++ [r] }
         else s'.report d q 5 0 (BitVec.ofNat 64 x.ovbase)).refill d q k
      else s

/-- The head record leaves its queue; the next one becomes head. -/
def State.dropHead (s : State) (d q : Nat) : State :=
  let s := s.modQueue d q fun x => { x with store := x.store.drop 1, readyAt := none, depLoc := none }
  s.refill d q ((s.queue d q).overf.length)

/-- SetErr at the completion word of a launch or group, if it has one that can be reached (R323, R334). -/
def State.setErrDone (s : State) (ptbase donew : W64) (code : Nat) : State :=
  if donew = 0 then s
  else
    match s.dieWord ptbase donew .store with
    | (s', .inr w) => s'.setErr w code
    | (s', .inl _) => s'

/-- An event that ends with an operation on a completion word, once the word's table entries can be read (R389). -/
def State.doneGate (s : State) (ptbase donew : W64) (r : Out) : Out := if donew = 0 then r else (s.dieGate ptbase donew true).out r

/-- The whole head record is abandoned (R323). -/
def State.abandonHead (s : State) (d q : Nat) (r : QRec) (code info : Nat) : State :=
  let x := s.queue d q
  ((s.dropHead d q).report d q code info (recDepw r.bits)).setErrDone x.ptb (recDonew r.bits) 0x50

/-- DEPENDENCE_READY (R323): the head of a queue becomes ready, its dependence word is found, or the record is abandoned. -/
def execDependenceReady (die q : Nat) (s : State) : Out :=
  let x := s.queue die q
  if x.readyAt.isSome then .fault .noSuch
  else
    let ready (s : State) : Out := .next (s.modQueue die q fun x => { x with readyAt := some s.ns9 })
    if !x.resume.isEmpty then ready s
    else
      match x.record with
      | none => .fault .noSuch
      | some r =>
        if recDepw r.bits = 0 then ready s
        else
          match x.depLoc with
          | none =>
            (s.dieGate x.ptb (recDepw r.bits) false).out <| s.doneGate x.ptb (recDonew r.bits) <|
            match s.dieWord x.ptb (recDepw r.bits) .load with
            | (s', .inl c) => .next (s'.abandonHead die q r 0x0B c.code)
            | (s', .inr w) => .next (s'.modQueue die q fun x => { x with depLoc := some w })
          | some w =>
            let v := s.syncWord w
            if genPassed v.gen (recDepgen r.bits) then ready s
            else if v.error || v.never then s.doneGate x.ptb (recDonew r.bits) (.next (s.abandonHead die q r 0x04 v.ecode))
            else .fault .notReady

/-! ### Room (R272, R325, R333) -/

/-- Is a slot of a grid bound, or borrowed by a fused core of its cluster (R39)? -/
def State.slotTaken (s : State) (g i : Nat) : Bool :=
  s.thr.any fun p => p.1 == 8 * g + i || (p.2.sys.fused && slotCluster p.1 == g / 4 && slotInGrid p.1 == i)
def State.freeSlots (s : State) (g : Nat) : List Nat := (List.range 8).filter fun i => !s.slotTaken g i
/-- The pool units of a grid that no group holds. -/
def State.freeUnits (s : State) (g : Nat) : List Nat := (List.range 128).filter fun u => (tget (s.grid g).owners u).isNone

/-- The first cluster of a die in the order of its pointer with enough fitting grids, and those grids. -/
def State.findRoom (s : State) (d grids slots units : Nat) : Option (Nat × List Nat) :=
  (List.range 128).findSome? fun i =>
    let c := 128 * d + ((s.die d).cp + i) % 128
    let l := ((List.range 4).map (4 * c + ·)).filter fun g =>
      decide (slots ≤ (s.freeSlots g).length) && decide (units ≤ (s.freeUnits g).length)
    if grids ≤ l.length then some (c, l.take grids) else none

/-- Units of a grid go to a group of an ASID. -/
def State.takeUnits (s : State) (g : Nat) (l : List Nat) (gid : Nat) (asid : BitVec 16) : State :=
  s.modGrid g fun x => { x with owners := l.foldl (fun o u => tput o u (gid, asid)) x.owners }
/-- Units of a grid are free; the ASID of their occupant is remembered (R273). -/
def State.giveUnits (s : State) (g : Nat) (l : List Nat) : State :=
  s.modGrid g fun x =>
    l.foldl (fun x u =>
      match tget x.owners u with
      | some o => { x with owners := tdel x.owners u, lastAsid := tput x.lastAsid u o.2 }
      | none => x) x

/-- The bytes of a pool unit, and the zeroing of units (R273). -/
def unitBase (g u : Nat) : Nat := g * 2 ^ 19 + u * 4096
def State.zeroUnits (s : State) (g : Nat) (l : List Nat) : State :=
  let gone (a : Nat) : Bool := l.any fun u => decide (unitBase g u ≤ a) && decide (a < unitBase g u + 4096)
  { s with pool := s.pool.filter fun c => !gone c.1
           coh := { s.coh with poisonPool := s.coh.poisonPool.filter fun w => !gone (8 * w) } }
/-- Did a unit's previous occupant belong to another ASID? -/
def State.foreign (s : State) (g u : Nat) (asid : BitVec 16) : Bool :=
  match tget (s.grid g).lastAsid u with
  | some a => a != asid
  | none => false

/-- A member of a group takes the lowest free units of its grid. -/
def State.makeMember (s : State) (g : Nat) (partw : BitVec 32) (slots : Nat) : Member :=
  let l := s.freeUnits g
  let nr := slots * partF partw
  { grid := g, regU := l.take nr, spadU := (l.drop nr).take (partSpad partw), accU := (l.drop (nr + partSpad partw)).take (partAcc partw) }

def Member.units (m : Member) : List Nat := m.regU ++ m.spadU ++ m.accU

/-! ### Placing a group (R325, R328) -/

/-- A thread as its launch makes it (R328, Tables 1-1 to 1-3): the space of its queue as it is bound, STATUS.IMG that of the
record until the header of the first block has shown the tag of its page (log entry 52). -/
def launchThread (x : Queue) (r : QRec) (gid j t : Nat) : Thread :=
  let base := Thread.launch (partWides (recPartw r.bits)) gid t
  { base with
    pc := recCode r.bits
    regs := { base.regs with g := (List.range 24).map fun i => if i = 0 then 0 else if i ≤ 7 then r.args.getD (i - 1) 0 else 0 }
    widths := recWidths r.bits
    first := some (recCode r.bits, recImg r.bits)
    sys := { base.sys with
      mode := recSupv r.bits, img := recImg r.bits, tvec := x.tvec, ptbase := x.ptb &&& 0x000FFFFFFFFFF000, asid := x.asid
      wid := BitVec.ofNat 64 (j * recThreads r.bits + t), partw := recPartw r.bits } }

/-- Contents of the units that a group is granted (R273): its scratchpad is zeroed if the record says so or one of its units belonged to another
ASID, and every such unit of its accumulators, which then hold defined values. -/
def State.prepareUnits (s : State) (l : List Member) (zero : Bool) (asid : BitVec 16) : State × List (Nat × Nat) :=
  let zero := zero || l.any fun m => m.spadU.any fun u => s.foreign m.grid u asid
  let acc := l.map fun m => (m.grid, m.accU.filter fun u => s.foreign m.grid u asid)
  let s := if zero then l.foldl (fun (s : State) m => s.zeroUnits m.grid m.spadU) s else s
  (acc.foldl (fun (s : State) p => s.zeroUnits p.1 p.2) s, (acc.map fun p => p.2.map fun u => (unitBase p.1 u, 4096)).flatten)

/-- A cluster that is not ON wakes for a binding (R443). -/
def State.wakeFor (s : State) (c : Nat) : State := if (s.cl c).power = .on then s else s.post [.clusterWake c]

/-- A group of a record is placed, if a cluster has room for it. -/
def State.placeGroup (s : State) (d : Nat) (h : HeldSel) (r : QRec) (j : Nat) : Option State :=
  let x := s.queue d h.queue
  let n := recThreads r.bits
  let pw := recPartw r.bits
  let slots := partSlots pw
  match s.findRoom d ((n + 7) / 8) slots (slots * partF pw + partSpad pw + partAcc pw) with
  | none => none
  | some (c, grids) =>
    let (gid, s) := s.newUid
    let members := grids.map fun g => s.makeMember g pw slots
    let (s, zeroed) := s.prepareUnits members (recZero r.bits) x.asid
    let s := members.foldl (fun (s : State) m => s.takeUnits m.grid m.units gid x.asid) s
    let g : Group :=
      { die := d, cl := c % 128, queue := h.queue, j := j, n := n, members := members, q := r.q, save := recSave r.bits
        donew := recDonew r.bits, partw := pw, level := h.level, base := h.base, asid := x.asid, ptbase := x.ptb
        widths := recWidths r.bits, live := List.range n, saved := [], started := false, accDefined := zeroed }
    let s := { s with grp := tput s.grp gid g }
    let s := (List.range n).foldl (fun (p : State × State) t =>
      let grid := grids.getD (t / 8) 0
      let slot := 8 * grid + (p.2.freeSlots grid).getD (t % 8) 0
      let coh : Coh := { p.1.coh with poisonRegs := p.1.coh.poisonRegs.filter fun x => x.1 != slot }
      -- what the dependence word's generation released is seen (R323)
      ({ p.1 with thr := tput p.1.thr slot { launchThread x r gid j t with acquired := s.ns9 }, coh := coh }, p.2)) (s, s) |>.1
    some (((s.modDie d fun y => { y with cp := (c + 1) % 128 }).wakeFor c).post [.firstBlockFetch gid])

/-- A slot that holds the place of a thread which is being restored. -/
def restoringThread (gid t : Nat) : Thread := { Thread.launch 4 gid t with ending := true, saving := true }

/-- A resume item is placed (R333): one thread on its own grid, a fused one on a slot free on all four, a group anywhere. -/
def State.placeResume (s : State) (d : Nat) (h : HeldSel) (r : Resume) : Option State :=
  let bound (s : State) (c : Nat) (slots : List (Nat × Nat)) : State :=
    let s := slots.foldl (fun (s : State) p =>
      { s with thr := tput s.thr p.2 (restoringThread r.gid p.1)
               coh := { s.coh with poisonRegs := s.coh.poisonRegs.filter fun x => x.1 != p.2 } }) s
    let s : State := { s with restores := s.restores ++ [⟨d, h.queue, r, slots.map Prod.snd⟩] }
    (s.wakeFor c).post [.resumeItemRestore d h.queue]
  if r.whole then
    match tget s.resumed r.gid with
    | none => some s
    | some g =>
      let slots := partSlots g.partw
      match s.findRoom d g.members.length slots (slots * partF g.partw + partSpad g.partw + partAcc g.partw) with
      | none => none
      | some (c, grids) =>
        let members := grids.map fun x => s.makeMember x g.partw slots
        let free := s
        let s := members.foldl (fun (s : State) m => s.takeUnits m.grid m.units r.gid g.asid) s
        let remap (a : Nat × Nat) : List (Nat × Nat) :=
          ((g.members.zip members).map fun p => ((p.1.accU.zip p.2.accU).filterMap fun u =>
            if unitBase p.1.grid u.1 ≤ a.1 ∧ a.1 < unitBase p.1.grid u.1 + 4096 then
              some (unitBase p.2.grid u.2 + (a.1 - unitBase p.1.grid u.1), a.2) else none)).flatten
        let g' : Group := { g with members := members, cl := c % 128, accDefined := (g.accDefined.map remap).flatten, level := h.level }
        let s := { s with resumed := tdel s.resumed r.gid, grp := tput s.grp r.gid g' }
        let places := r.threads.map fun t =>
          let grid := grids.getD (t.tidx / 8) 0
          (t.tidx, 8 * grid + (free.freeSlots grid).getD (t.tidx % 8) 0)
        some (bound (s.modDie d fun y => { y with cp := (c + 1) % 128 }) c places)
  else
    match s.group r.gid, r.threads with
    | some g, t :: _ =>
      let home := (g.members[t.tidx / 8]?).map (·.grid)
      match home with
      | none => some s
      | some grid =>
        let c := grid / 4
        let ok (i : Nat) : Bool := if r.fused then (List.range 4).all fun k => !s.slotTaken (4 * c + k) i else !s.slotTaken grid i
        let units := (s.freeUnits grid).take (partF g.partw)
        match (List.range 8).find? ok with
        | none => none
        | some i =>
          if units.length < partF g.partw then none
          else
            let s := s.takeUnits grid units r.gid g.asid
            let s := s.modGroup r.gid fun g =>
              { g with members := g.members.map fun m => if m.grid = grid then { m with regU := m.regU ++ units } else m }
            some (bound s c [(t.tidx, 8 * grid + i)])
    | _, _ => some s

/-- Place of R324: the state with the selection bound, or nothing. -/
def State.place (s : State) (d : Nat) (h : HeldSel) : Option State :=
  match h.sel with
  | .group r j => s.placeGroup d h r j
  | .resume r => s.placeResume d h r

/-! ### Selection (R324) -/

/-- Base of a queue's head. -/
def Queue.base (q : Queue) : Nat :=
  match q.resume, q.record with
  | r :: _, _ => r.base
  | [], some r => min (recPrio r.bits) q.pmax
  | [], none => 0

/-- Level of a queue: its base and what its age adds, at most 7. -/
def Queue.level (q : Queue) (now : Nat) : Nat :=
  min 7 (q.base + (now - max q.lastSel (q.readyAt.getD now)) / 180000)

/-- Is the head of a queue a launch of the pager entry? -/
def Queue.pagerHead (q : Queue) : Bool :=
  match q.resume, q.record with
  | [], some r => r.pager
  | _, _ => false

/-- The queues from which the step may select. -/
def State.eligible (s : State) (d : Nat) : List Nat :=
  (List.range 64).filter fun q =>
    let x := s.queue d q
    x.hasHead && x.readyAt.isSome
      && (match (s.die d).held with
          | none => true
          | some h => decide (h.level < x.level s.ns9) || x.pagerHead)

/-- The queue of a list at its highest level that comes first from the level's pointer. -/
def State.pick (s : State) (d : Nat) (l : List Nat) : Option (Nat × Nat) :=
  let top := l.foldl (fun m q => max m ((s.queue d q).level s.ns9)) 0
  let rr := (s.die d).rr.getD top 0
  let key (q : Nat) : Nat := (q + 64 - rr) % 64
  (l.filter fun q => (s.queue d q).level s.ns9 == top).foldl (fun (b : Option (Nat × Nat)) q =>
    match b with
    | none => some (q, top)
    | some p => if key q < key p.1 then some (q, top) else b) none

/-- The next group of a queue's head. -/
def Queue.next (x : Queue) (q level : Nat) : Option HeldSel :=
  match x.resume, x.record with
  | r :: _, _ => some { queue := q, sel := .resume r, level := level, base := x.base }
  | [], some r => some { queue := q, sel := .group r r.next, level := level, base := x.base }
  | [], none => none

/-- A selection leaves its queue: the queue's age restarts; a record whose groups are all selected goes. -/
def State.takeSel (s : State) (d : Nat) (h : HeldSel) : State :=
  let s := s.modQueue d h.queue fun x => { x with lastSel := s.ns9 }
  match h.sel with
  | .resume _ => s.modQueue d h.queue fun x => { x with resume := x.resume.drop 1, readyAt := none }
  | .group r j =>
    if recCount r.bits ≤ j + 1 then s.dropHead d h.queue
    else s.modQueue d h.queue fun x => { x with store := x.store.modify 0 fun y => { y with next := j + 1 } }

/-- The selection part of the step, `none` where it changes nothing. -/
def State.select (s : State) (d : Nat) : Option State :=
  match s.pick d (s.eligible d) with
  | none => none
  | some (q, level) =>
    match (s.queue d q).next q level with
    | none => none
    | some h =>
      let took (s : State) : State :=
        (s.takeSel d h).modDie d fun y => { y with rr := y.rr.set level ((q + 1) % 64) }
      match (s.die d).held, s.place d h with
      | some _, none => none
      | _, some s' => some (took s')
      | none, none => some ((took s).modDie d fun y => { y with held := some h })

/-- DISTRIBUTOR_STEP (R324, R325): the step of R324 line by line, which may bind the held group and a newly selected one, where the sentence
before it says at most one group per mclk (log entry 72). -/
def execDistributorStep (die : Nat) (s : State) : Out :=
  let placed := (s.die die).held.bind fun h => s.place die h
  match placed with
  | some s' =>
    let s' := s'.modDie die fun y => { y with held := none }
    .next ((s'.select die).getD s')
  | none =>
    match s.select die with
    | some s' => .next s'
    | none => .fault .notReady

/-- FIRST_BLOCK_FETCH (R328): once the cluster is ON, every thread of the group asks for its first block. -/
def execFirstBlockFetch (group : Nat) (s : State) : Out :=
  match s.group group with
  | none => .fault .noSuch
  | some g =>
    if g.started then .fault .noSuch
    else if (s.cl (128 * g.die + g.cl)).power ≠ .on then .fault .notReady
    else
      let s := s.modGroup group fun g => { g with started := true }
      .next ((s.membersOf group).foldl (fun (s : State) slot =>
        match tget s.thr slot with
        | none => s
        | some t =>
          match t.wanted with
          | some (a, red, false) => s.grant slot t a red false
          | _ => s) s)

/-! ### Release of slots, end of groups (R329, R330) -/

/-- Has everything that a thread committed come to its end: stores, commands, what waits behind fences, a LAUNCH on its way to its queue? -/
def State.drained (s : State) (slot : Nat) (t : Thread) : Bool :=
  !(s.agenda.any fun i => match i with | .recordAcceptance _ _ ⟨_, .thread x _ _ _, _, _⟩ => x == slot | _ => false) &&
  t.tail.isEmpty && !s.storesPending slot s.uid
    && !((s.cl (slotCluster slot)).copyQ.any fun c => c.slot == slot)
    && !(s.allMx.any fun c => c.slot == slot)
    && t.outp.all fun q => q.out.isEmpty

/-- The register-file units of a slot go back (R329). -/
def State.freeSlot (s : State) (slot : Nat) (t : Thread) : State :=
  let s := { s with thr := tdel s.thr slot }
  match s.group t.gid with
  | none => s
  | some g =>
    let f := partF g.partw
    let grid := slotGrid slot
    let gone := ((g.members.filter (·.grid == grid)).map fun m => m.regU.take f).flatten
    (s.giveUnits grid gone).modGroup t.gid fun g =>
      { g with live := g.live.filter (· != t.tidx)
               members := g.members.map fun m => if m.grid = grid then { m with regU := m.regU.drop f } else m }

/-- SLOT_RELEASE (R329). -/
def execSlotRelease (slot : Nat) (s : State) : Out :=
  match tget s.thr slot with
  | none => .fault .noSuch
  | some t =>
    if !t.ending || t.saving then .fault .noSuch
    else if !s.drained slot t then .fault .notReady
    else .next (s.freeSlot slot t)

/-- Has a member of a group committed an interest with a scratchpad destination that is neither answered nor failed (R206, R330)? -/
def State.spadInterests (s : State) (gid : Nat) : Bool :=
  (s.net.recs.any fun r => match r.path with | .endp e => e.group == gid && e.spad | _ => false)
    || s.net.deposits.any fun d => d.ep.group == gid && d.ep.spad

/-- Every unit of a group goes back; its cluster may now be idle. -/
def State.freeGroup (s : State) (gid : Nat) (g : Group) : State :=
  let s := g.members.foldl (fun (s : State) m => s.giveUnits m.grid m.units) s
  { s with grp := tdel s.grp gid }.modCl (128 * g.die + g.cl) fun c => { c with since := s.ns9 }

/-- Answers kept for threads that are gone are dropped (R228). -/
def State.dropRejects (s : State) (gone : Nat → Bool) : State := { s with rejects := s.rejects.filter fun r => !gone r.thread }

/-- GROUP_END (R330). -/
def execGroupEnd (group : Nat) (s : State) : Out :=
  match s.group group with
  | none => .fault .noSuch
  | some g =>
    if !g.live.isEmpty || !g.saved.isEmpty then .fault .noSuch
    else if s.spadInterests group then .fault .notReady
    else
      s.doneGate g.ptbase g.donew <|
      let s := (s.freeGroup group g).dropRejects fun t => t / 64 == group
      .next (if g.donew = 0 then s
        else
          match s.dieWord g.ptbase g.donew .store with
          | (s', .inr w) => s'.arrive w 1
          | (s', .inl _) => s')

end Sys2Proof.Machine
end

