-- ==== Sys2Proof/Machine/Save.lean ====
section
/-! DEFINITION. The spill engine (11 R331 to R334): saving a slot or a group, the save area of Tables 11-8 and 11-9, and restoring a
resume item. Where the tables do not lay a field out to the bit, the places of its parts are the model's (log entry 11). -/

namespace Sys2Proof.Machine

/-! ### The thread context block (Table 11-9) -/

/-- Bytes at rising offsets, the gaps zero, up to a length. -/
def layBytes (len : Nat) : Nat → List (Nat × List Byte) → List Byte
  | at_, [] => List.replicate (len - at_) 0
  | at_, (off, l) :: rest => List.replicate (off - at_) 0 ++ l ++ layBytes len (off + l.length) rest

def b8 (x : W64) : List Byte := leBytes x.toNat 8

/-- The status words of the uncovered matrix records of a context, and of the copy records. -/
def Thread.mstatus (t : Thread) (ctx : Nat) : W64 := mrecStatus (t.mrecs.filter (·.ctx == ctx))

/-- A handle in 16 bytes: offset [31:0], MC [34:32], NC [39:35], format [40], span [41], bound [42]; the sync reference. -/
def handleBytes (h : Option Handle) : List Byte :=
  match h with
  | none => List.replicate 16 0
  | some h =>
    leBytes (h.off % 2 ^ 32 + h.mc.toNat * 2 ^ 32 + h.nc.toNat * 2 ^ 35 + (match h.fmt with | .f32 => 0 | .i32 => 2 ^ 40)
      + ofBool h.span * 2 ^ 41 + 2 ^ 42) 8 ++ b8 h.sync

/-- A handle from its 16 bytes. -/
def handleOf (l : List Byte) : Option Handle :=
  let x := leNat (l.take 8)
  if x.testBit 42 then
    some { off := x % 2 ^ 32, mc := BitVec.ofNat 3 (bitsOf x 34 32), nc := BitVec.ofNat 5 (bitsOf x 39 35)
           fmt := if x.testBit 40 then .i32 else .f32, span := x.testBit 41, sync := BitVec.ofNat 64 (leNat (l.drop 8)) }
  else none

/-- A stream port in 32 bytes: base, record offset, control word, position; of an input port the tokens in its FIFO stand in the
position's bits [63:56]. -/
def portBytes (pat : Option Pattern) (pos fifo : Nat) : List Byte :=
  match pat with
  | none => List.replicate 32 0
  | some p => b8 p.base ++ b8 p.recOff ++ b8 p.ctl ++ leBytes (pos % 2 ^ 56 + fifo * 2 ^ 56) 8

/-- The elements of a FIFO that a save keeps: a failed element is not saved (R222). -/
def savedFifo (p : InPort) : List WideBits := p.fifo.filterMap fun e => match e with | .ok w => some w | .failed _ _ => none

/-- A message in 64 bytes. -/
def hmsgBytes (m : HMsg) : List Byte := b8 m.code ++ b8 m.a0 ++ b8 m.a1 ++ leBytes m.sender 8 ++ List.replicate 32 0

/-- Sleep ticks that remain (R331): zero where no limit runs. -/
def State.sleepTicks (s : State) (t : Thread) : Nat :=
  match t.asleep, t.sleepUntil with
  | true, some e => max 1 ((e - s.ns9 + 575) / 576)
  | _, _ => 0

/-- The context block of a thread. -/
def State.contextBytes (s : State) (t : Thread) : List Byte :=
  let x := t.perfDue.foldl SysRegs.countPerf t.sys
  let flags : Nat := ofBool t.asleep + ofBool t.wakeLatch * 2 + ofBool t.latPoison.set * 4 + ofBool t.latReject.set * 8
    + ofBool (t.latPoison.more || t.latReject.more) * 16 + t.msgs.length * 32 + ofBool x.fused * 256
  let preds := t.regs.p.zipIdx.foldl (fun n p => n + ofBool p.1 * 2 ^ p.2) 0
  let fifo (p : Nat) : List Byte := ((savedFifo (t.inPort p)).map wideBytes).flatten
  layBytes 0x3000 0 [
    (0x000, ([t.pc, t.ic.setWidth 64, t.status, x.fpcsr.setWidth 64, x.tvec, x.tpc, x.tcause, x.tval, x.tinfo, x.invst, x.hpc, x.hg1,
      x.hg2, x.wid].map b8).flatten),
    (0x070, leBytes flags 8),
    (0x078, leBytes (s.sleepTicks t) 8),
    (0x080, b8 t.latPoison.tval ++ b8 t.latReject.tval),
    (0x090, leBytes preds 8),
    (0x098, ((List.range 4).map fun c => b8 (t.mstatus c)).flatten),
    (0x0B8, b8 (crecStatus t.crecs)),
    (0x0C0, ((List.range 16).map fun i =>
      match t.regs.v[i]? with | some w => leBytes (w.e.toNat + ofBool w.t * 2 ^ 15) 2 | none => [0, 0]).flatten),
    (0x0E0, b8 (x.hic.setWidth 64)),
    (0x100, (x.perf.map fun v => b8 (v.setWidth 64)).flatten),
    (0x180, (t.regs.h.map handleBytes).flatten),
    (0x200, (t.regs.g.map b8).flatten),
    (0x300, (t.inp.map fun p => portBytes p.pat p.pos (savedFifo p).length).flatten ++ (t.outp.map fun q => portBytes q.pat q.next 0).flatten),
    (0x400, (t.msgs.map hmsgBytes).flatten),
    (0x800, (t.regs.v.map fun w => wideBytes w.data).flatten),
    (0x1000, fifo 0 ++ List.replicate (2048 - (fifo 0).length) 0 ++ fifo 1 ++ List.replicate (2048 - (fifo 1).length) 0
      ++ fifo 2 ++ List.replicate (2048 - (fifo 2).length) 0 ++ fifo 3)]

/-- What of a thread its context block must hold as it stands when the save ends: not the counters, which go on. -/
def Thread.savedView (t : Thread) : Thread := { t with sys := { t.sys with perf := [] }, perfDue := [], qpend := [] }

/-- What a resume item keeps of a thread beside its block. -/
def Thread.savedThread (t : Thread) : SavedThread :=
  let dims (p : Option Pattern) : W64 × List (W64 × BitVec 32) := match p with | some p => (p.owner, p.dims) | none => (0, [])
  { tidx := t.tidx, asid := t.sys.asid, ptbase := t.sys.ptbase
    ports := (t.inp.map fun p => dims p.pat) ++ t.outp.map fun q => dims q.pat, first := t.first, icDue := t.icDue, hicDue := t.hicDue }

/-! ### Saving a slot (R331, R334) -/

def contextAt (g : Group) (t : Nat) : W64 := g.save + BitVec.ofNat 64 (0x1000 + 0x3000 * t)

/-- Step 1: the thread's fetch stops and its uncommitted blocks are discarded. -/
def State.stopThread (s : State) (slot : Nat) : State :=
  (s.cutThread slot 0 4).modThread slot fun t => { t with saving := true }

/-- A thread goes on after a save: a message or a latch that has come meanwhile finds it at a boundary (R229, R245, R333). -/
def Thread.goOn (t : Thread) : Thread :=
  { t with saving := false, boundary := t.boundary || (!t.msgs.isEmpty && !t.sys.handler) || t.asyncTrap.isSome }

/-- A save is abandoned (R334): the thread goes on from its discarded blocks. -/
def State.resumeThread (s : State) (slot : Nat) : State := s.modThread slot Thread.goOn

/-- May a stopped thread's context be written (R331 step 2)? -/
def State.saveReady (s : State) (slot : Nat) (t : Thread) : Bool :=
  s.drained slot t && !(s.coh.tlbinvs.any fun x => t.syncHold.contains x.id)

/-- The words of a request that ends well, or with an error code. -/
def State.arriveAll (s : State) (l : List (Option WLoc)) : State := l.foldl (fun s w => s.arriveOpt w 1) s
def State.setErrAll (s : State) (l : List (Option WLoc)) (code : Nat) : State := l.foldl (fun s w => s.setErrOpt w code) s

/-- The save of a slot under way. -/
def State.saveOf (s : State) (whole : Bool) (target : Nat) : Option Save :=
  s.saves.find? fun x => x.whole == whole && x.target == target
def State.dropSave (s : State) (x : Save) : State :=
  { s with saves := s.saves.filter fun y => !(y.whole == x.whole && y.target == x.target) }

/-- A resume item at the front of its queue, behind older resume items (R331, R333). -/
def State.addResume (s : State) (d q : Nat) (r : Resume) : State :=
  s.modQueue d q fun x => { x with resume := x.resume ++ [r], readyAt := if x.resume.isEmpty then some s.ns9 else x.readyAt }

/-- A save is changed. -/
def State.modSave (s : State) (x : Save) (g : Save → Save) : State :=
  { s with saves := s.saves.map fun y => if y.whole == x.whole && y.target == x.target then g y else y }

/-- The bytes of a save are written, and then awaited where their pages are of another module; `k` goes on with whether all of them are
there (R334). Where a thread has changed meanwhile, by a message, an answer or a latch (R228, R331), they are written again. -/
def State.writeSave (s : State) (x : Save) (g : Group) (who : List Thread) (l : List (W64 × List Byte)) (k : State → Bool → State) : Out :=
  let who := who.map Thread.savedView
  let settle (s : State) (id : Nat) : Out :=
    if s.engLanding id then .next (s.modSave x fun y => { y with landing := some (id, who) })
    else let r := s.engSettled id 0 0; .next (k (r.1.dropSave x) (r.2.2 == 0))
  match x.landing with
  | some (id, w) =>
    if s.engLanding id then .fault .notReady
    else if w = who then settle s id
    else .next ((s.engSettled id 0 0).1.modSave x fun y => { y with landing := none })
  | none =>
    let n := s.newUid
    match n.2.dieWrite g.die g.ptbase n.1 l with
    | .wait => .fault .notReady
    | .act s' => .next s'
    | .done s' true => settle s' n.1
    | .done s' false => .next (k (s'.dropSave x) false)

/-- The save of a slot goes on: once it is drained, its context is written and its slot freed. -/
def State.saveOn (s : State) (x : Save) (slot : Nat) (t : Thread) : Out :=
  match s.group t.gid with
  | none => .fault .noSuch
  | some g =>
    if !s.saveReady slot t then .fault .notReady
    else
      s.writeSave x g [t] [(contextAt g t.tidx, s.contextBytes t)] fun s ok =>
        if ok then
          let s := (s.freeSlot slot t).modGroup t.gid fun g => { g with saved := g.saved ++ [t.tidx] }
          (s.addResume g.die g.queue
            { gid := t.gid, whole := false, fused := t.sys.fused, base := g.base, level := g.level, threads := [t.savedThread] }).arriveAll x.words
        else ((s.resumeThread slot).report g.die g.queue 7 slot g.save).setErrAll x.words 0x52

/-- SLOT_SAVE (R331): a request begins, joins a save under way, or is refused; a save under way goes on. -/
def execSlotSave (slot : Nat) (word : Option WLoc) (s : State) : Out :=
  match tget s.thr slot with
  | none => .next (s.arriveOpt word 1)
  | some t =>
    if t.ending then .next (s.arriveOpt word 1)
    else
      match s.group t.gid with
      | none => .fault .noSuch
      | some g =>
        match s.saveOf false slot, s.saveOf true t.gid with
        | some x, _ =>
          if word.isSome then .next (s.modSave x fun y => { y with words := y.words ++ [word] })
          else s.saveOn x slot t
        | none, some x =>
          if word.isSome then .next (s.modSave x fun y => { y with words := y.words ++ [word] })
          else .fault .noSuch
        | none, none =>
          if g.save = 0 then .next (s.setErrOpt word 0x51)
          else if (s.grid (slotGrid slot)).dbg.frozen then .fault .notReady
          else
            let s := s.stopThread slot
            .next { s with saves := s.saves ++ [{ whole := false, target := slot, words := [word], landing := none : Save }] }

/-! ### Saving a group (R332, Table 11-8) -/

/-- The slots of a group's threads. -/
def State.groupSlots (s : State) (gid : Nat) : List (Nat × Thread) := s.thr.filter fun p => p.2.gid == gid

/-- The group header. -/
def headerBytes (g : Group) (saved : List Nat) : List Byte :=
  layBytes 0x1000 0 [
    (0x000, leBytes g.j 8 ++ leBytes g.partw.toNat 8 ++ leBytes g.members.length 8
      ++ leBytes (saved.foldl (fun n t => n ||| 2 ^ t) 0) 8 ++ b8 g.donew ++ leBytes (g.level + g.base * 256) 8),
    (0x080, (g.q.map b8).flatten)]

/-- The accumulator partition of a member. -/
def State.accBytes (s : State) (m : Member) : List Byte := (m.accU.map fun u => rdBytes s.pool (unitBase m.grid u) 4096).flatten

/-- The parts of a group's save area with their addresses. -/
def State.saveParts (s : State) (g : Group) (l : List (Nat × Thread)) (saved : List Nat) : List (W64 × List Byte) :=
  let spad := g.save + BitVec.ofNat 64 (0x1000 + 0x3000 * g.n)
  let acc := spad + BitVec.ofNat 64 g.spadSize
  (g.save, headerBytes g saved) :: (l.map fun p => (contextAt g p.2.tidx, s.contextBytes p.2))
    ++ [(spad, s.spadRead g 0 g.spadSize), (acc, (g.members.map s.accBytes).flatten)]

/-- Is a byte of the group's units poisoned (R386)? -/
def State.groupPoison (s : State) (g : Group) : Bool :=
  g.members.any fun m => (m.spadU ++ m.accU).any fun u =>
    s.coh.poisonPool.any fun w => decide (unitBase m.grid u ≤ 8 * w) && decide (8 * w < unitBase m.grid u + 4096)

/-- Does a resume item hold one thread of a group? -/
def Resume.single (r : Resume) (gid : Nat) : Bool := r.gid == gid && !r.whole

/-- The resume items of single threads of a group, in their queue or held by the distributor, leave it: they come back with the group (R332). -/
def State.takeSingles (s : State) (gid : Nat) (g : Group) : State × List Resume :=
  let held := match (s.die g.die).held with
    | some h => (match h.sel with | .resume r => if r.single gid then [r] else [] | .group _ _ => [])
    | none => []
  let s' := if held.isEmpty then s else s.modDie g.die fun d => { d with held := none }
  (s'.modQueue g.die g.queue fun q => { q with resume := q.resume.filter fun i => !i.single gid },
    held ++ (s.queue g.die g.queue).resume.filter fun i => i.single gid)

/-- Every thread of a group that runs stops (R331, step 1). -/
def State.stopGroup (s : State) (gid : Nat) : State :=
  (s.groupSlots gid).foldl (fun (s : State) p => if p.2.ending || p.2.saving then s else s.stopThread p.1) s

/-- The save of a group goes on: a thread that has come back meanwhile stops too, and once all are drained the area is written. -/
def State.groupSaveOn (s : State) (x : Save) (gid : Nat) (g : Group) : Out :=
  let l := s.groupSlots gid
  if l.any fun p => !p.2.saving && !p.2.ending then .next (s.stopGroup gid)
  else if (l.any fun p => p.2.ending || !s.saveReady p.1 p.2 || (s.saveOf false p.1).isSome) || s.spadInterests gid then .fault .notReady
  else
    let finish (s : State) (ok : Bool) : State :=
      if ok then
        let (s, mine) := s.takeSingles gid g
        let s := l.foldl (fun (s : State) p => s.freeSlot p.1 p.2) s
        let members := match s.group gid with | some g => g | none => g
        let s := s.freeGroup gid members
        let s := { s with resumed := tput s.resumed gid { members with live := [], saved := [] } }
        (s.addResume g.die g.queue
          { gid := gid, whole := true, fused := false, base := g.base, level := g.level
            threads := (mine.map (·.threads)).flatten ++ l.map fun p => p.2.savedThread }).arriveAll x.words
      else
        let who := match l with | p :: _ => p.1 | [] => 4096 * g.die
        ((l.foldl (fun (s : State) p => s.resumeThread p.1) s).report g.die g.queue 7 who g.save).setErrAll x.words 0x52
    if s.groupPoison g then .next (finish (s.dropSave x) false)
    else s.writeSave x g (l.map (·.2)) (s.saveParts g l (g.saved ++ l.map fun p => p.2.tidx)) finish

/-- GROUP_SAVE (R332). -/
def execGroupSave (group : Nat) (word : Option WLoc) (s : State) : Out :=
  match s.group group with
  | none =>
    match s.saveOf true group with
    | some x => .next ((s.dropSave x).arriveAll (word :: x.words))
    | none => .next (s.arriveOpt word 1)
  | some g =>
    match s.saveOf true group with
    | some x =>
      if word.isSome then .next (s.modSave x fun y => { y with words := y.words ++ [word] })
      else s.groupSaveOn x group g
    | none =>
      if g.save = 0 then .next (s.setErrOpt word 0x51)
      else
        let l := s.groupSlots group
        if l.any fun p => (s.grid (slotGrid p.1)).dbg.frozen then .fault .notReady
        else
          let s := s.stopGroup group
          .next { s with saves := s.saves ++ [{ whole := true, target := group, words := [word], landing := none : Save }] }

/-! ### Restoring (R333, R334) -/

/-- Records that give a saved status word again: failed ones first. -/
def mrecsOf (ctx : Nat) (w : W64) : List MRec :=
  let err := bitsOf w.toNat 31 24
  let n := bitsOf w.toNat 23 16
  let fl : BitVec 5 := w.extractLsb' 0 5
  if w = 0 then [] else (List.range (max 1 n)).map fun i => ⟨0, ctx, true, if i < n then err else 0, fl⟩
def crecsOf (w : W64) : List CRec :=
  let n := w.toNat % 256
  (List.range n).map fun i => ⟨0, true, if i < bitsOf w.toNat 23 16 then bitsOf w.toNat 31 24 else 0, if i = 0 then bitsOf w.toNat 15 8 else 0⟩

/-- An input port from its 32 bytes, its FIFO, its dimensions and the block that bound it. -/
def inPortOf (l fifo : List Byte) (bound : W64 × List (W64 × BitVec 32)) (order : Nat) : InPort :=
  if bound.2.isEmpty then InPort.reset
  else
    let w (i : Nat) : W64 := BitVec.ofNat 64 (leNat ((l.drop (8 * i)).take 8))
    { InPort.reset with
      pat := some ⟨bound.1, w 0, w 1, w 2, bound.2, none⟩, pos := (w 3).toNat % 2 ^ 56, order := order
      fifo := (List.range ((w 3).toNat / 2 ^ 56)).map fun i => .ok (ofBytes ((fifo.drop (128 * i)).take 128)) }
def outPortOf (l : List Byte) (bound : W64 × List (W64 × BitVec 32)) (order : Nat) : OutPort :=
  if bound.2.isEmpty then OutPort.reset
  else
    let w (i : Nat) : W64 := BitVec.ofNat 64 (leNat ((l.drop (8 * i)).take 8))
    { OutPort.reset with pat := some ⟨bound.1, w 0, w 1, w 2, bound.2, none⟩, next := (w 3).toNat, order := order }

/-- An answer that came while its sender was pre-empted is recorded (R228). -/
def Thread.takeReject (t : Thread) (r : SavedReject) : Thread :=
  let t := t.reject r.reason r.hidx r.dev
  if r.trap then { t with latReject := t.latReject.raise t.sys.invst } else t

/-- A thread from its context block, the reserved bits of its registers zero (R14), with the answers that have come meanwhile (R228). A message
or latch that waits finds it at a boundary (R229, R333). The one bit for TINFO.MORE is that of the POISON latch if it is set (log entry 65). -/
def State.threadOf (s : State) (g : Group) (gid : Nat) (x : SavedThread) (l : List Byte) : Thread :=
  let part (off n : Nat) : List Byte := (l.drop off).take n
  let w (off : Nat) : W64 := BitVec.ofNat 64 (leNat (part off 8))
  let st := w 0x10
  let fl := (w 0x70).toNat
  let wides := partWides g.partw
  let base := Thread.launch wides gid x.tidx
  let poison := fl.testBit 2
  let out := (s.coh.reqs.filter fun r => match r.who with | .invoke _ th _ _ => th == gid * 64 + x.tidx | _ => false).length
  let invst := (w 0x48 &&& 0xFFFFFFFFFF000000) ||| BitVec.ofNat 64 (out * 2 ^ 16)
  let asleep := fl.testBit 0
  let ticks := (w 0x78).toNat
  let msgs := (List.range (bitsOf fl 7 5)).map fun i =>
    (⟨w (0x400 + 64 * i), w (0x408 + 64 * i), w (0x410 + 64 * i), (w (0x418 + 64 * i)).toNat⟩ : HMsg)
  let put (y : SysRegs) (p : Nat × Nat) : SysRegs := y.write p.1 (w p.2)
  let t : Thread := { base with
    pc := align64 (w 0), ic := (w 8).setWidth 32
    regs :=
      { g := (List.range 24).map fun i => if i = 0 then 0 else w (0x200 + 8 * i)
        v := (List.range wides).map fun i =>
          let sc := leNat (part (0x0C0 + 2 * i) 2)
          { data := ofBytes (part (0x800 + 128 * i) 128), t := sc.testBit 15, e := BitVec.ofNat 8 sc : Wide }
        p := (List.range 16).map fun i => i == 0 || (w 0x90).getLsbD i
        h := (List.range 8).map fun i => handleOf (part (0x180 + 16 * i) 16) }
    inp := (List.range 4).map fun i => inPortOf (part (0x300 + 32 * i) 32) (part (0x1000 + 2048 * i) 2048) (x.ports.getD i (0, [])) s.uid
    outp := (List.range 2).map fun i => outPortOf (part (0x380 + 32 * i) 32) (x.ports.getD (4 + i) (0, [])) s.uid
    msgs := msgs, asleep := asleep && msgs.isEmpty, wakeLatch := fl.testBit 1
    sleepUntil := if asleep && ticks != 0 then some (s.ns9 + 576 * ticks) else none
    latPoison := ⟨poison, w 0x80, poison && fl.testBit 4⟩
    latReject := ⟨fl.testBit 3, w 0x88, !poison && fl.testBit 3 && fl.testBit 4⟩
    mrecs := ((List.range 4).map fun c => mrecsOf c (w (0x98 + 8 * c))).flatten
    crecs := crecsOf (w 0xB8)
    widths := g.widths
    first := x.first, icDue := x.icDue, hicDue := x.hicDue
    sys := { [(0x001, 0x18), (0x008, 0x50), (0x009, 0x58), (0x00A, 0x60), (0x00B, 0xE0), (0x010, 0x20), (0x011, 0x28), (0x012, 0x30),
        (0x013, 0x38), (0x014, 0x40)].foldl put base.sys with
      mode := st.getLsbD 0, img := st.extractLsb' 4 6, fused := st.getLsbD 12, fuseFail := st.getLsbD 13, handler := st.getLsbD 15
      invst := invst, wid := w 0x68
      perf := (List.range 16).map fun i => (w (0x100 + 8 * i)).setWidth 48
      partw := g.partw, ptbase := x.ptbase, asid := x.asid } }
  ((s.rejects.filter fun r => r.thread == gid * 64 + x.tidx).foldl Thread.takeReject t).goOn

/-- The ranges of the save area that a resume item is restored from: of a group its q registers, scratchpad and accumulators, then the context
blocks of the threads. -/
def Resume.ranges (r : Resume) (g : Group) : List (W64 × Nat) :=
  let spad := g.save + BitVec.ofNat 64 (0x1000 + 0x3000 * g.n)
  (if r.whole then
      [(g.save + 0x80, 128), (spad, g.spadSize), (spad + BitVec.ofNat 64 g.spadSize, 4096 * partAcc g.partw * g.members.length)]
    else [])
    ++ r.threads.map fun x => (contextAt g x.tidx, 0x3000)

/-- Bytes cut into parts of these lengths. -/
def cutBytes : List Nat → List Byte → List (List Byte)
  | [], _ => []
  | n :: r, l => l.take n :: cutBytes r (l.drop n)

/-- The threads of a resume item come back on their slots. -/
def State.restoreThreads (s : State) (g : Group) (gid : Nat) (l : List ((SavedThread × Nat) × List Byte)) : State :=
  l.foldl (fun (s : State) p =>
    let x := p.1.1
    ({ s with thr := tput s.thr p.1.2 (s.threadOf g gid x p.2) }.modGroup gid fun g =>
      { g with live := g.live ++ [x.tidx], saved := g.saved.filter (· != x.tidx) }).dropRejects fun t => t == gid * 64 + x.tidx) s

/-- The q registers, the scratchpad and the accumulators of a whole group. -/
def State.restoreGroup (s : State) (g : Group) (gid : Nat) (q l a : List Byte) : State :=
  let s := g.members.foldl (fun (s : State) m => s.zeroUnits m.grid (m.spadU ++ m.accU)) s
  let s := s.spadWrite g 0 l
  let s := (g.members.foldl (fun (p : State × List Byte) m =>
    m.accU.foldl (fun (p : State × List Byte) u =>
      ({ p.1 with pool := wrBytes p.1.pool (unitBase m.grid u) (p.2.take 4096) }, p.2.drop 4096)) p) (s, a)).1
  s.modGroup gid fun g => { g with q := (List.range 16).map fun i => BitVec.ofNat 64 (leNat ((q.drop (8 * i)).take 8)) }

/-- A resume item is restored from the bytes of its ranges. -/
def State.restoreItem (s : State) (g : Group) (r : Restore) (l : List (List Byte)) : State :=
  let threads := r.item.threads.zip r.slots
  if r.item.whole then
    (s.restoreGroup g r.item.gid (l.getD 0 []) (l.getD 1 []) (l.getD 2 [])).restoreThreads g r.item.gid (threads.zip (l.drop 3))
  else s.restoreThreads g r.item.gid (threads.zip l)

/-- A resume item that cannot be read is dropped, and its threads with it (R334). -/
def State.dropItem (s : State) (g : Group) (r : Restore) : State :=
  let gid := r.item.gid
  let s := r.slots.foldl (fun (s : State) slot => match tget s.thr slot with | some t => s.freeSlot slot t | none => s) s
  let gone := r.item.threads.map (·.tidx)
  let s := s.modGroup gid fun g => { g with saved := g.saved.filter fun t => !gone.contains t }
  let s := s.dropRejects fun t => t / 64 == gid && gone.contains (t % 64)
  let s := if r.item.whole then s.freeGroup gid ((s.group gid).getD g) else s
  (s.report g.die g.queue 8 g.j g.save).setErrDone g.ptbase g.donew 0x53

/-- RESUME_ITEM_RESTORE (R333, R334): a placed item is restored, or dropped with its threads. -/
def execResumeItemRestore (die q : Nat) (s : State) : Out :=
  match s.restores.find? fun r => r.die == die && r.q == q with
  | none => .fault .noSuch
  | some r =>
    match s.group r.item.gid with
    | none => .fault .noSuch
    | some g =>
      if (s.cl (128 * g.die + g.cl)).power ≠ .on then .fault .notReady
      else
        let ranges := r.item.ranges g
        let rest (s : State) : State := { s with restores := (takeFirst (fun x => x == r) s.restores).2 }
        match s.dieRead g.die g.ptbase ranges with
        | .wait => .fault .notReady
        | .act s' => .next s'
        | .done s' (some l) => .next ((rest s').restoreItem g r (cutBytes (ranges.map (·.2)) l))
        | .done s' none => s'.doneGate g.ptbase g.donew (.next ((rest s').dropItem g r))

end Sys2Proof.Machine
end

