-- ==== Sys2Proof/Machine/SoftErrors.lean ====
section
/-! DEFINITION. Soft errors (18 R442, 09 R291): what an uncorrectable error of each memory does, the retirement of an L2 share, and the
patrol scrub. -/

namespace Sys2Proof.Machine

/-- A share of an L2 bank is retired (R291): its dirty lines are poisoned, all its lines leave it, a RETIRE record is written (bank and
share in INFO as 16·bank + share), the retirement list keeps it, and a bank with fewer than two shares of VC 0 is reported. -/
def State.retireShare (s : State) (d sh : Nat) : State :=
  let lines := s.coh.l2.filter fun e => e.2.die == d && e.2.share == sh
  let dirty := (lines.filter fun e => e.2.dirty).map (·.1)
  let s := dirty.foldl (fun (s : State) y =>
    let s := s.poisonLine y
    -- the home of a line of another module hears of it (R386)
    if 2 ^ 60 ≤ y then (s.writeBack y).clearPeer y else s) s
  let s := { s with coh := { s.coh with l2 := s.coh.l2.filter fun e => !(e.2.die == d && e.2.share == sh) } }
  let s := s.modDie d fun x => { x with retired := if x.retired.contains sh then x.retired else sh :: x.retired }
  let s := s.shaveDie d 0x17 sh 0 (BitVec.ofNat 64 dirty.length)
  let few := ((s.die d).sharesOf 0 (sh / 16)).length < 2
  s.modPlat fun p =>
    { p with retireList := if p.retireList.contains (2048 * d + sh) then p.retireList else p.retireList ++ [2048 * d + sh]
             reports := if few then p.reports ++ [.fewShares d (sh / 16)] else p.reports }

/-- An error in the L2 data of a line: a clean one is refetched, a dirty one retires its share. -/
def State.l2Error (s : State) (y : Nat) : State :=
  match tget s.coh.l2 y with
  | none => s
  | some l =>
    if !l.dirty then { s with coh := { s.coh with l2 := tdel s.coh.l2 y } }
    else s.retireShare l.die l.share

/-- The command of a matrix context meets an error in its accumulator: error 0x05, its region as R172 leaves it. -/
def State.accError (s : State) (grid ctx : Nat) (c : MCmd) : State :=
  match s.group c.gid with
  | none => s.matrixEnd grid ctx c 0x05 0
  | some g =>
    match s.engWord c.who g c.handle.sync with
    | .done s w => s.matrixFinish grid ctx c w 0x05 0
    | _ => s.matrixEnd grid ctx c 0x05 0

/-- SOFT_ERROR (R442, Table 18-6). -/
def execSoftError (site : ErrSite) (s : State) : Out :=
  match site with
  | .correctable => .next (s.modPlat fun p => { p with corrected := p.corrected + 1 })
  | .hbm line => .next (s.poisonLine line)
  | .l2 line => .next (s.l2Error line)
  | .l1 cl line => .next { s with coh := { s.coh with l1 := s.coh.l1.filter fun x => !(x.cl == cl && x.line == line) } }
  | .blockCache cl line => .next { s with coh := { s.coh with bc := s.coh.bc.filter fun x => !(x.cl == cl && x.line == line) } }
  | .register slot reg =>
    .next (if s.regPoison slot reg then s else { s with coh := { s.coh with poisonRegs := (slot, reg) :: s.coh.poisonRegs } })
  | .scratchpad b _ off =>
    (match tget s.thr b.slot with
     | none => .fault .noSuch
     | some t =>
       match s.group t.gid with
       | none => .fault .noSuch
       | some g =>
         match g.spadAt off.toNat with
         | none => .fault .noSuch
         | some a => .next { s with coh := { s.coh with
             poisonPool := if s.coh.poisonPool.contains (a / 8) then s.coh.poisonPool else a / 8 :: s.coh.poisonPool } })
  | .accumulator grid ctx =>
    (match s.mxHead grid ctx with
     | none => .fault .noSuch
     | some c => if c.started then .next (s.accError grid ctx c) else .fault .noSuch)
  | .tileStore stop asid name => .next (s.modNet fun x => { x with tiles := x.tiles.filter fun t => !t.here stop asid name })
  | .buffers => execWarmReset (s.freezeModule 0)

/-- PATROL_SCRUB (R442): a scrub changes no result; an error that it meets is a SOFT_ERROR of its line. -/
def execPatrolScrub (_die : Nat) (s : State) : Out := .next s

end Sys2Proof.Machine
end

