-- ==== Sys2Proof/Machine/VcMigration.lean ====
section
/-! DEFINITION. Live migration of a virtual cache (09 R292, R293). A share that a cache gives up belongs to the number 64 above it
until the migration ends. -/

namespace Sys2Proof.Machine

/-- The shares that a bank gives up and those that it claims from VC 0 under a new record: the highest of its own, the lowest of
VC 0's (which they are is not architectural). -/
def Die.giveUp (d : Die) (vc : Nat) (new : Vc) (bank : Nat) : List Nat := (d.sharesOf vc bank).drop (new.wants bank)
def Die.claim (d : Die) (vc : Nat) (new : Vc) (bank : Nat) : List Nat :=
  (d.sharesOf 0 bank).take (new.wants bank - (d.sharesOf vc bank).length)

/-- The lines that a migration must walk: those of the cache whose place changes, and VC 0's in claimed shares, lines of other modules among
them (R381). -/
def State.departing (s : State) (die vc : Nat) (old new : Vc) (gone claimed : List Nat) : List Nat :=
  (s.coh.l2.filter fun e =>
    e.2.die == die &&
      ((e.2.vc == vc && (old.lsz != new.lsz || gone.contains e.2.share || new.bankOf (l2Place e.1) != some e.2.bank))
        || (e.2.vc == 0 && claimed.contains e.2.share))).map (·.1)

/-- VC_MIGRATION_START (R292, steps 2 to 4): RESIZING, shares claimed, the departing lines listed. -/
def execVcMigrationStart (die vc : Nat) (s : State) : Out :=
  let d := s.die die
  match d.migs.find? (·.vc == vc) with
  | none => .fault .noSuch
  | some m =>
    if m.started then .fault .noSuch
    else
      let gone := if vc = 0 then [] else ((List.range 128).map (d.giveUp vc m.new)).flatten
      let claimed := if vc = 0 then [] else ((List.range 128).map (d.claim vc m.new)).flatten
      let walk := s.departing die vc m.old m.new gone claimed
      .next (s.modDie die fun d =>
        { d with vcs := tput d.vcs vc { m.new with state := .resizing }
                 shares := claimed.foldl (fun t x => tput t x vc) (gone.foldl (fun t x => tput t x (64 + vc)) d.shares)
                 migs := d.migs.map fun x => if x.vc = vc then { x with walk := walk, started := true } else x })

/-- The pieces of the L2 line that holds a piece. -/
def State.piecesWith (s : State) (y : Nat) : List Nat :=
  match tget s.coh.l2 y with
  | none => []
  | some l => (s.coh.l2.filter fun e =>
      e.2.die == l.die && e.2.vc == l.vc && e.2.share == l.share && decide (e.1 / 4 = y / 4)).map (·.1)

/-- The die whose migration walks a line: its home, or for a line of another module the one that holds it. -/
def State.walkDie (s : State) (line : Nat) : Nat :=
  if line < 2 ^ 60 then homeDie (128 * line)
  else ((List.range 4).find? fun d => (s.die d).migs.any fun m => m.walk.contains line).getD 0

/-- LINE_MOVE (R292 step 4, R293): the line is written back, then moved to its new place in one step, or invalidated: VC 0's lines in
claimed shares are moved whatever the record changes. -/
def execLineMove (line : Nat) (s : State) : Out :=
  let die := s.walkDie line
  match (s.die die).migs.find? (fun m => m.walk.contains line) with
  | none => .fault .noSuch
  | some m =>
    let done (l : List Nat) (s : State) : State := s.modDie die fun d =>
      { d with migs := d.migs.map fun x => if x.vc = m.vc then { x with walk := x.walk.filter fun y => !l.contains y } else x }
    match tget s.coh.l2 line with
    | none => .next (done [line] s)
    | some l =>
      if 2 ^ 60 ≤ line then .next (done [line] ((s.dropLine line).allocatePeer die (line - 2 ^ 60) l.data))
      else if l.vc = m.vc ∧ (m.old.lsz ≠ m.new.lsz ∨ m.new.state = .disabled) then .next (done [line] (s.dropLine line))
      else
        let ps := (s.piecesWith line).filter fun y => m.walk.contains y
        .next (done ps ((ps.foldl (·.dropLine ·) s).allocate line l.vc))

/-- VC_MIGRATION_END (R292 step 5). -/
def execVcMigrationEnd (die vc : Nat) (s : State) : Out :=
  match (s.die die).migs.find? (·.vc == vc) with
  | none => .fault .noSuch
  | some m =>
    if !m.started then .fault .noSuch
    else if !m.walk.isEmpty then .fault .notReady
    else
      .next ((s.modDie die fun d =>
        { d with vcs := tput d.vcs vc { m.new with gen := m.old.gen + 1 }
                 shares := d.shares.filter fun p => p.2 != 64 + vc
                 migs := d.migs.filter fun x => x.vc != vc }).arriveOpt m.sync 1)

end Sys2Proof.Machine
end

