-- ==== Sys2Proof/Machine/Dispatch.lean ====
section
/-! DEFINITION. One arm for each constructor of Instr: a direct call of its meaning. -/

namespace Sys2Proof.Machine

/-- What an instruction or event does (spec/opcode_table.json, one arm per row). -/
def exec (i : Instr) (s : State) : Host.Outcome State Fault Refusal :=
  match i with
  | .mov h => Sys2Proof.Machine.execMov h s
  | .movi sh h imm => Sys2Proof.Machine.execMovi sh h imm s
  | .arg h q => Sys2Proof.Machine.execArg h q s
  | .null h => Sys2Proof.Machine.execNull h s
  | .br pm ex off => Sys2Proof.Machine.execBr pm ex off s
  | .bri pm ex => Sys2Proof.Machine.execBri pm ex s
  | .call h ex off => Sys2Proof.Machine.execCall h ex off s
  | .ret pm ex => Sys2Proof.Machine.execRet pm ex s
  | .iter h => Sys2Proof.Machine.execIter h s
  | .halt pm ex => Sys2Proof.Machine.execHalt pm ex s
  | .add w n h b => Sys2Proof.Machine.execAdd w n h b s
  | .sub w n h b => Sys2Proof.Machine.execSub w n h b s
  | .mul w n h b => Sys2Proof.Machine.execMul w n h b s
  | .mulh w u h b => Sys2Proof.Machine.execMulh w u h b s
  | .div w u h b => Sys2Proof.Machine.execDiv w u h b s
  | .rem w u h b => Sys2Proof.Machine.execRem w u h b s
  | .madd w n h => Sys2Proof.Machine.execMadd w n h s
  | .and w h b => Sys2Proof.Machine.execAnd w h b s
  | .or w h b => Sys2Proof.Machine.execOr w h b s
  | .xor w h b => Sys2Proof.Machine.execXor w h b s
  | .andn w h b => Sys2Proof.Machine.execAndn w h b s
  | .shl w h b => Sys2Proof.Machine.execShl w h b s
  | .shr w h b => Sys2Proof.Machine.execShr w h b s
  | .sra w h b => Sys2Proof.Machine.execSra w h b s
  | .rotl w h b => Sys2Proof.Machine.execRotl w h b s
  | .min w u h b => Sys2Proof.Machine.execMin w u h b s
  | .max w u h b => Sys2Proof.Machine.execMax w u h b s
  | .abs w sat h => Sys2Proof.Machine.execAbs w sat h s
  | .neg w sat h => Sys2Proof.Machine.execNeg w sat h s
  | .clz w h => Sys2Proof.Machine.execClz w h s
  | .ctz w h => Sys2Proof.Machine.execCtz w h s
  | .popc w h => Sys2Proof.Machine.execPopc w h s
  | .brev w h => Sys2Proof.Machine.execBrev w h s
  | .bswap w h => Sys2Proof.Machine.execBswap w h s
  | .extr w u h b => Sys2Proof.Machine.execExtr w u h b s
  | .insb w h b => Sys2Proof.Machine.execInsb w h b s
  | .sext w h => Sys2Proof.Machine.execSext w h s
  | .zext w h => Sys2Proof.Machine.execZext w h s
  | .lea sh h b => Sys2Proof.Machine.execLea sh h b s
  | .addx w h => Sys2Proof.Machine.execAddx w h s
  | .cmp c h w b => Sys2Proof.Machine.execCmp c h w b s
  | .tstb clr h b => Sys2Proof.Machine.execTstb clr h b s
  | .pand na nb h => Sys2Proof.Machine.execPand na nb h s
  | .por na nb h => Sys2Proof.Machine.execPor na nb h s
  | .pnot h => Sys2Proof.Machine.execPnot h s
  | .sel h => Sys2Proof.Machine.execSel h s
  | .steer h => Sys2Proof.Machine.execSteer h s
  | .merge t0 t1 => Sys2Proof.Machine.execMerge t0 t1 s
  | .pget h => Sys2Proof.Machine.execPget h s
  | .fadd f h => Sys2Proof.Machine.execFadd f h s
  | .fsub f h => Sys2Proof.Machine.execFsub f h s
  | .fmul f h => Sys2Proof.Machine.execFmul f h s
  | .ffma f h => Sys2Proof.Machine.execFfma f h s
  | .fdiv f h => Sys2Proof.Machine.execFdiv f h s
  | .fsqrt f h => Sys2Proof.Machine.execFsqrt f h s
  | .fmin d h => Sys2Proof.Machine.execFmin d h s
  | .fmax d h => Sys2Proof.Machine.execFmax d h s
  | .fcmp d c h => Sys2Proof.Machine.execFcmp d c h s
  | .fcvt f h => Sys2Proof.Machine.execFcvt f h s
  | .fcvti f h i64 u => Sys2Proof.Machine.execFcvti f h i64 u s
  | .icvtf f h i64 u => Sys2Proof.Machine.execIcvtf f h i64 u s
  | .fabs d h => Sys2Proof.Machine.execFabs d h s
  | .fneg d h => Sys2Proof.Machine.execFneg d h s
  | .fclass d h => Sys2Proof.Machine.execFclass d h s
  | .ld sz h lsid ord off => Sys2Proof.Machine.execLd sz h lsid ord off s
  | .st sz pm lsid ord off => Sys2Proof.Machine.execSt sz pm lsid ord off s
  | .ldw sz h lsid ord off => Sys2Proof.Machine.execLdw sz h lsid ord off s
  | .stw sz pm lsid ord off => Sys2Proof.Machine.execStw sz pm lsid ord off s
  | .lds sz h lsid off => Sys2Proof.Machine.execLds sz h lsid off s
  | .sts sz pm lsid off => Sys2Proof.Machine.execSts sz pm lsid off s
  | .ldsw sz h lsid off => Sys2Proof.Machine.execLdsw sz h lsid off s
  | .stsw sz pm lsid off => Sys2Proof.Machine.execStsw sz pm lsid off s
  | .atom w op h lsid ord off => Sys2Proof.Machine.execAtom w op h lsid ord off s
  | .cas w xchg h lsid ord off => Sys2Proof.Machine.execCas w xchg h lsid ord off s
  | .fatom d op h lsid ord off => Sys2Proof.Machine.execFatom d op h lsid ord off s
  | .pref k pm lsid off => Sys2Proof.Machine.execPref k pm lsid off s
  | .fence k pm lsid sc => Sys2Proof.Machine.execFence k pm lsid sc s
  | .clineClean pm lsid off => Sys2Proof.Machine.execClineClean pm lsid off s
  | .clineInval pm lsid off => Sys2Proof.Machine.execClineInval pm lsid off s
  | .clineFlush pm lsid off => Sys2Proof.Machine.execClineFlush pm lsid off s
  | .clineZero pm lsid off => Sys2Proof.Machine.execClineZero pm lsid off s
  | .clineReclaim pm lsid off => Sys2Proof.Machine.execClineReclaim pm lsid off s
  | .sarm pm lsid ord off => Sys2Proof.Machine.execSarm pm lsid ord off s
  | .swait t h lsid ord off => Sys2Proof.Machine.execSwait t h lsid ord off s
  | .sadd pm lsid ord off => Sys2Proof.Machine.execSadd pm lsid ord off s
  | .sread f h lsid ord off => Sys2Proof.Machine.execSread f h lsid ord off s
  | .want spad pm lsid life gmask => Sys2Proof.Machine.execWant spad pm lsid life gmask s
  | .offer spad r pm lsid => Sys2Proof.Machine.execOffer spad r pm lsid s
  | .wdrop pm lsid => Sys2Proof.Machine.execWdrop pm lsid s
  | .vadd h ty n => Sys2Proof.Machine.execVadd h ty n s
  | .vsub h ty n => Sys2Proof.Machine.execVsub h ty n s
  | .vmul h ty n => Sys2Proof.Machine.execVmul h ty n s
  | .vmulh h ty u => Sys2Proof.Machine.execVmulh h ty u s
  | .vmin h ty u => Sys2Proof.Machine.execVmin h ty u s
  | .vmax h ty u => Sys2Proof.Machine.execVmax h ty u s
  | .vabs h ty sat => Sys2Proof.Machine.execVabs h ty sat s
  | .vand h ty => Sys2Proof.Machine.execVand h ty s
  | .vor h ty => Sys2Proof.Machine.execVor h ty s
  | .vxor h ty => Sys2Proof.Machine.execVxor h ty s
  | .vshl h ty cnt => Sys2Proof.Machine.execVshl h ty cnt s
  | .vshr h ty cnt => Sys2Proof.Machine.execVshr h ty cnt s
  | .vsra h ty cnt => Sys2Proof.Machine.execVsra h ty cnt s
  | .vcmp c h ty => Sys2Proof.Machine.execVcmp c h ty s
  | .vsel h => Sys2Proof.Machine.execVsel h s
  | .vrep h ty => Sys2Proof.Machine.execVrep h ty s
  | .vext h ty u lane => Sys2Proof.Machine.execVext h ty u lane s
  | .vins h ty lane => Sys2Proof.Machine.execVins h ty lane s
  | .vperm h ty => Sys2Proof.Machine.execVperm h ty s
  | .vredi op h ty u => Sys2Proof.Machine.execVredi op h ty u s
  | .viota h ty imm => Sys2Proof.Machine.execViota h ty imm s
  | .vdp4 sg h sat => Sys2Proof.Machine.execVdp4 sg h sat s
  | .vfadd h ty rnd sc => Sys2Proof.Machine.execVfadd h ty rnd sc s
  | .vfsub h ty rnd sc => Sys2Proof.Machine.execVfsub h ty rnd sc s
  | .vfmul h ty rnd sc => Sys2Proof.Machine.execVfmul h ty rnd sc s
  | .vffma h ty rnd sc => Sys2Proof.Machine.execVffma h ty rnd sc s
  | .vfmin h ty sc => Sys2Proof.Machine.execVfmin h ty sc s
  | .vfmax h ty sc => Sys2Proof.Machine.execVfmax h ty sc s
  | .vfdiv h rnd sc => Sys2Proof.Machine.execVfdiv h rnd sc s
  | .vfsqrt h rnd sc => Sys2Proof.Machine.execVfsqrt h rnd sc s
  | .vfrsq h rnd sc => Sys2Proof.Machine.execVfrsq h rnd sc s
  | .vfexp2 h rnd sc => Sys2Proof.Machine.execVfexp2 h rnd sc s
  | .vfcmp c h ty sc => Sys2Proof.Machine.execVfcmp c h ty sc s
  | .vfcvt h dst src rnd sc sat u part => Sys2Proof.Machine.execVfcvt h dst src rnd sc sat u part s
  | .vfreda h ty rnd sc => Sys2Proof.Machine.execVfreda h ty rnd sc s
  | .vfredm mx h ty sc => Sys2Proof.Machine.execVfredm mx h ty sc s
  | .vscaleImm h ty imm => Sys2Proof.Machine.execVscaleImm h ty imm s
  | .vscaleReg h ty => Sys2Proof.Machine.execVscaleReg h ty s
  | .vscaleClear h ty rnd sat => Sys2Proof.Machine.execVscaleClear h ty rnd sat s
  | .vpackPack h dst src rnd sc sat u => Sys2Proof.Machine.execVpackPack h dst src rnd sc sat u s
  | .vpackUnpack h dst src sc u half => Sys2Proof.Machine.execVpackUnpack h dst src sc u half s
  | .mma ga gb h x => Sys2Proof.Machine.execMma ga gb h x s
  | .mmar rb h x => Sys2Proof.Machine.execMmar rb h x s
  | .mmac g h x => Sys2Proof.Machine.execMmac g h x s
  | .accset int h acc mc nc span => Sys2Proof.Machine.execAccset int h acc mc nc span s
  | .accz h acc ctx => Sys2Proof.Machine.execAccz h acc ctx s
  | .accld spad h acc ctx => Sys2Proof.Machine.execAccld spad h acc ctx s
  | .accst spad h acc ctx => Sys2Proof.Machine.execAccst spad h acc ctx s
  | .accrd h acc => Sys2Proof.Machine.execAccrd h acc s
  | .accwr h acc ctx => Sys2Proof.Machine.execAccwr h acc ctx s
  | .mwait all h ctx => Sys2Proof.Machine.execMwait all h ctx s
  | .copy k h gmask => Sys2Proof.Machine.execCopy k h gmask s
  | .gather i64 spad h => Sys2Proof.Machine.execGather i64 spad h s
  | .scatter i64 spad h => Sys2Proof.Machine.execScatter i64 spad h s
  | .strin h port dim => Sys2Proof.Machine.execStrin h port dim s
  | .strout h port dim => Sys2Proof.Machine.execStrout h port dim s
  | .srecv h port => Sys2Proof.Machine.execSrecv h port s
  | .ssend h port => Sys2Proof.Machine.execSsend h port s
  | .cwait h => Sys2Proof.Machine.execCwait h s
  | .launch pm q => Sys2Proof.Machine.execLaunch pm q s
  | .invokeQ t pm hidx => Sys2Proof.Machine.execInvokeQ t pm hidx s
  | .invokeH t pm hidx => Sys2Proof.Machine.execInvokeH t pm hidx s
  | .hret pm => Sys2Proof.Machine.execHret pm s
  | .yield pm => Sys2Proof.Machine.execYield pm s
  | .fuse pm => Sys2Proof.Machine.execFuse pm s
  | .split pm => Sys2Proof.Machine.execSplit pm s
  | .widf f h => Sys2Proof.Machine.execWidf f h s
  | .wake pm => Sys2Proof.Machine.execWake pm s
  | .sleep pm => Sys2Proof.Machine.execSleep pm s
  | .trap pm num => Sys2Proof.Machine.execTrap pm num s
  | .bkpt pm num => Sys2Proof.Machine.execBkpt pm num s
  | .eret pm => Sys2Proof.Machine.execEret pm s
  | .mfsr h code => Sys2Proof.Machine.execMfsr h code s
  | .mtsr pm code => Sys2Proof.Machine.execMtsr pm code s
  | .tlbinvVa pm => Sys2Proof.Machine.execTlbinvVa pm s
  | .tlbinvAsid pm => Sys2Proof.Machine.execTlbinvAsid pm s
  | .tlbinvAll pm => Sys2Proof.Machine.execTlbinvAll pm s
  | .tlbsync pm => Sys2Proof.Machine.execTlbsync pm s
  | .vcdef pm => Sys2Proof.Machine.execVcdef pm s
  | .biasHost pm => Sys2Proof.Machine.execBiasHost pm s
  | .biasDev pm => Sys2Proof.Machine.execBiasDev pm s
  | .namedef pm => Sys2Proof.Machine.execNamedef pm s
  | .htdef pm => Sys2Proof.Machine.execHtdef pm s
  | .preempt pm grp => Sys2Proof.Machine.execPreempt pm grp s
  | .blockFetch slot addr => Sys2Proof.Machine.execBlockFetch slot addr s
  | .mapTimeCheck b => Sys2Proof.Machine.execMapTimeCheck b s
  | .registerForward b => Sys2Proof.Machine.execRegisterForward b s
  | .blockCommit slot => Sys2Proof.Machine.execBlockCommit slot s
  | .residentIterationCommit slot => Sys2Proof.Machine.execResidentIterationCommit slot s
  | .blockQuiescence b => Sys2Proof.Machine.execBlockQuiescence b s
  | .trapEntry slot => Sys2Proof.Machine.execTrapEntry slot s
  | .loadDataReturn b idx => Sys2Proof.Machine.execLoadDataReturn b idx s
  | .storeDrain grid => Sys2Proof.Machine.execStoreDrain grid s
  | .atomicPerform uid => Sys2Proof.Machine.execAtomicPerform uid s
  | .atomicResult uid => Sys2Proof.Machine.execAtomicResult uid s
  | .fenceWaitEnd slot => Sys2Proof.Machine.execFenceWaitEnd slot s
  | .syncWordArrival w n => Sys2Proof.Machine.execSyncWordArrival w n s
  | .matrixCommandStart grid ctx => Sys2Proof.Machine.execMatrixCommandStart grid ctx s
  | .matrixCommandComplete grid ctx => Sys2Proof.Machine.execMatrixCommandComplete grid ctx s
  | .mwaitDelivery b idx => Sys2Proof.Machine.execMwaitDelivery b idx s
  | .accrdDelivery b idx => Sys2Proof.Machine.execAccrdDelivery b idx s
  | .copyCommandStart cl cmd => Sys2Proof.Machine.execCopyCommandStart cl cmd s
  | .copyCommandComplete cl cmd => Sys2Proof.Machine.execCopyCommandComplete cl cmd s
  | .cwaitDelivery b idx => Sys2Proof.Machine.execCwaitDelivery b idx s
  | .streamPrefetch slot port => Sys2Proof.Machine.execStreamPrefetch slot port s
  | .outputElementWrite slot port => Sys2Proof.Machine.execOutputElementWrite slot port s
  | .pageWalk walk => Sys2Proof.Machine.execPageWalk walk s
  | .engineFaultPost die e => Sys2Proof.Machine.execEngineFaultPost die e s
  | .pagerRetry die f => Sys2Proof.Machine.execPagerRetry die f s
  | .pagerAbandon die f => Sys2Proof.Machine.execPagerAbandon die f s
  | .pagerLimitExpiry die f => Sys2Proof.Machine.execPagerLimitExpiry die f s
  | .tlbinvComplete id => Sys2Proof.Machine.execTlbinvComplete id s
  | .tableRecordInstall id => Sys2Proof.Machine.execTableRecordInstall id s
  | .vcMigrationStart die vc => Sys2Proof.Machine.execVcMigrationStart die vc s
  | .lineMove line => Sys2Proof.Machine.execLineMove line s
  | .vcMigrationEnd die vc => Sys2Proof.Machine.execVcMigrationEnd die vc s
  | .directoryReadMiss cl line => Sys2Proof.Machine.execDirectoryReadMiss cl line s
  | .directoryWrite line data mask => Sys2Proof.Machine.execDirectoryWrite line data mask s
  | .directoryEntryEviction line => Sys2Proof.Machine.execDirectoryEntryEviction line s
  | .probeArrival cl line stamp => Sys2Proof.Machine.execProbeArrival cl line stamp s
  | .grantArrival cl line => Sys2Proof.Machine.execGrantArrival cl line s
  | .probeResponse cl line => Sys2Proof.Machine.execProbeResponse cl line s
  | .homeTimeout die agent => Sys2Proof.Machine.execHomeTimeout die agent s
  | .requesterDeadlineExpiry id => Sys2Proof.Machine.execRequesterDeadlineExpiry id s
  | .replayRequest port fseq => Sys2Proof.Machine.execReplayRequest port fseq s
  | .interest arr p => Sys2Proof.Machine.execInterest arr p s
  | .addPacket p => Sys2Proof.Machine.execAddPacket p s
  | .tile stop asid name data => Sys2Proof.Machine.execTile stop asid name data s
  | .nack stop asid name code => Sys2Proof.Machine.execNack stop asid name code s
  | .place stop asid name goal pl => Sys2Proof.Machine.execPlace stop asid name goal pl s
  | .interestDeadlineExpiry stop asid name => Sys2Proof.Machine.execInterestDeadlineExpiry stop asid name s
  | .depositComplete id => Sys2Proof.Machine.execDepositComplete id s
  | .tileStoreFilled stop asid name => Sys2Proof.Machine.execTileStoreFilled stop asid name s
  | .tileRetentionExpiry stop asid name => Sys2Proof.Machine.execTileRetentionExpiry stop asid name s
  | .tileStoreFree stop asid name => Sys2Proof.Machine.execTileStoreFree stop asid name s
  | .recordAcceptance die q r => Sys2Proof.Machine.execRecordAcceptance die q r s
  | .dependenceReady die q => Sys2Proof.Machine.execDependenceReady die q s
  | .distributorStep die => Sys2Proof.Machine.execDistributorStep die s
  | .firstBlockFetch group => Sys2Proof.Machine.execFirstBlockFetch group s
  | .handlerMessageEntry slot => Sys2Proof.Machine.execHandlerMessageEntry slot s
  | .sleepLimitExpiry slot => Sys2Proof.Machine.execSleepLimitExpiry slot s
  | .slotRelease slot => Sys2Proof.Machine.execSlotRelease slot s
  | .groupEnd group => Sys2Proof.Machine.execGroupEnd group s
  | .slotSave slot word => Sys2Proof.Machine.execSlotSave slot word s
  | .groupSave group word => Sys2Proof.Machine.execGroupSave group word s
  | .resumeItemRestore die q => Sys2Proof.Machine.execResumeItemRestore die q s
  | .biasFlipStart page toHost word => Sys2Proof.Machine.execBiasFlipStart page toHost word s
  | .biasFlushEnd page => Sys2Proof.Machine.execBiasFlushEnd page s
  | .biasRecallEnd page => Sys2Proof.Machine.execBiasRecallEnd page s
  | .histogramBinOverflow grid node bin => Sys2Proof.Machine.execHistogramBinOverflow grid node bin s
  | .monitorSample die j => Sys2Proof.Machine.execMonitorSample die j s
  | .traceDrain die => Sys2Proof.Machine.execTraceDrain die s
  | .clusterRetentionEntry cl => Sys2Proof.Machine.execClusterRetentionEntry cl s
  | .clusterGating cl => Sys2Proof.Machine.execClusterGating cl s
  | .clusterWake cl => Sys2Proof.Machine.execClusterWake cl s
  | .softError site => Sys2Proof.Machine.execSoftError site s
  | .patrolScrub die => Sys2Proof.Machine.execPatrolScrub die s
  | .rd port m => Sys2Proof.Machine.execRd port m s
  | .wr port m => Sys2Proof.Machine.execWr port m s
  | .atomMessage port m => Sys2Proof.Machine.execAtomMessage port m s
  | .pgs port m => Sys2Proof.Machine.execPgs port m s
  | .pgx port m => Sys2Proof.Machine.execPgx port m s
  | .pginv port m => Sys2Proof.Machine.execPginv port m s
  | .pgrcl port m => Sys2Proof.Machine.execPgrcl port m s
  | .pgrsp port m => Sys2Proof.Machine.execPgrsp port m s
  | .wbd port m => Sys2Proof.Machine.execWbd port m s
  | .pggnt port m => Sys2Proof.Machine.execPggnt port m s
  | .data port m => Sys2Proof.Machine.execData port m s
  | .ack port m => Sys2Proof.Machine.execAck port m s
  | .atrsp port m => Sys2Proof.Machine.execAtrsp port m s
  | .invq port m => Sys2Proof.Machine.execInvq port m s
  | .invh port m => Sys2Proof.Machine.execInvh port m s
  | .invans port m => Sys2Proof.Machine.execInvans port m s
  | .wakeMessage port m => Sys2Proof.Machine.execWakeMessage port m s
  | .err port m => Sys2Proof.Machine.execErr port m s
  | .agent port m => Sys2Proof.Machine.execAgent port m s
  | .flitReceive port beats => Sys2Proof.Machine.execFlitReceive port beats s
  | .linkDown port => Sys2Proof.Machine.execLinkDown port s
  | .invocationWindowStore die q bytes => Sys2Proof.Machine.execInvocationWindowStore die q bytes s
  | .queueConfigWrite die q word val => Sys2Proof.Machine.execQueueConfigWrite die q word val s
  | .memrd port la own => Sys2Proof.Machine.execMemrd port la own s
  | .memwr port la data mask => Sys2Proof.Machine.execMemwr port la data mask s
  | .meminv port la => Sys2Proof.Machine.execMeminv port la s
  | .birsp port la => Sys2Proof.Machine.execBirsp port la s
  | .hostSnoop port k la => Sys2Proof.Machine.execHostSnoop port k la s
  | .hostLinkPowerState port low => Sys2Proof.Machine.execHostLinkPowerState port low s
  | .gctlFreeze grid => Sys2Proof.Machine.execGctlFreeze grid s
  | .gctlResume grid => Sys2Proof.Machine.execGctlResume grid s
  | .gctlList grid => Sys2Proof.Machine.execGctlList grid s
  | .stopListRead grid => Sys2Proof.Machine.execStopListRead grid s
  | .mfrz val => Sys2Proof.Machine.execMfrz val s
  | .hctlDump die => Sys2Proof.Machine.execHctlDump die s
  | .hctlClr die => Sys2Proof.Machine.execHctlClr die s
  | .windowRegisterWrite la val => Sys2Proof.Machine.execWindowRegisterWrite la val s
  | .pwrctlWrite val => Sys2Proof.Machine.execPwrctlWrite val s
  | .thermalStep up => Sys2Proof.Machine.execThermalStep up s
  | .thermalTrip => Sys2Proof.Machine.execThermalTrip s
  | .thermalTripClear => Sys2Proof.Machine.execThermalTripClear s
  | .coldReset => Sys2Proof.Machine.execColdReset s
  | .warmReset => Sys2Proof.Machine.execWarmReset s
  | .getVersion => Sys2Proof.Machine.execGetVersion s
  | .getCapabilities => Sys2Proof.Machine.execGetCapabilities s
  | .negotiateAlgorithms version mldsa sha3 => Sys2Proof.Machine.execNegotiateAlgorithms version mldsa sha3 s
  | .getDigests => Sys2Proof.Machine.execGetDigests s
  | .getCertificate => Sys2Proof.Machine.execGetCertificate s
  | .challenge nonce => Sys2Proof.Machine.execChallenge nonce s
  | .getMeasurements nonce => Sys2Proof.Machine.execGetMeasurements nonce s
  | .keyExchange exchange => Sys2Proof.Machine.execKeyExchange exchange s
  | .moduleThaw => Sys2Proof.Machine.execModuleThaw s
  | .scanShift => Sys2Proof.Machine.execScanShift s
  | .hostReset => Sys2Proof.Machine.execHostReset s
  | .hostMeasurementRequest j digest => Sys2Proof.Machine.execHostMeasurementRequest j digest s
  | .moduleFreeze => Sys2Proof.Machine.execModuleFreeze s
  | .powerTransition => Sys2Proof.Machine.execPowerTransition s

end Sys2Proof.Machine
end

