-- ==== Sys2Proof/Machine/Choose.lean ====
section
/-! DEFINITION. What acts next: the entries that issue in a clk (01 R38, 12 R336), its commits (12 R343), the events of the agenda and those
that the state itself calls for, the clock and its counters (12 R335, R355, 18 R434), and the word placed for a fetch. -/

namespace Sys2Proof.Machine

/-! ### The clock (R335, R355, R434) -/

/-- The place of an entry: its block's grid and its node, as one number. -/
def nodeKey (slot : Nat) (t : Thread) (b : Block) (i : Nat) : Nat := 20 * blockGrid slot t b + nodeOf i

/-- Does a load of a block, issued before this clk, wait for its data? A SWAIT's wait is counted by itself (Table 12-8). -/
def State.loadWaits (s : State) (slot : Nat) (b : Block) : Bool :=
  b.accs.any fun a => !a.store && a.space == .mem && a.data.isEmpty
    && (match b.entries[a.idx]? with | some e => e.st == .waiting && !e.opIn [0x61] | none => false)
    && !(s.issued.any fun x => x.2 == ⟨slot, b.seq, b.ic, a.idx⟩)

/-- Is an entry the target of one of its block that issued in this clk? The token is there in a later clk (R337). -/
def State.fedNow (s : State) (slot : Nat) (b : Block) (i : Nat) : Bool :=
  s.issued.any fun x => x.2.slot == slot && x.2.seq == b.seq && x.2.ic == b.ic && (match b.entries[x.2.idx]? with
    | some e => entryOf (targetOf (fieldsOf e.word).t0) == some i || entryOf (targetOf (fieldsOf e.word).t1) == some i
    | none => false)

/-- The entries of a block that may issue, lowest index first; none on a frozen grid (R408), none of a block at a breakpoint (R406). -/
def State.readyIn (s : State) (slot : Nat) (t : Thread) (b : Block) : List Nat :=
  if b.state != .fire || t.saving || t.ending || t.blockBreak b || (s.grid (blockGrid slot t b)).dbg.frozen then []
  else (b.entries.zipIdx.filter fun e => b.readyEntry e.2 e.1 && !s.fedNow slot b e.2).map (·.2)

/-- Did a ready entry of a slot not issue because another slot issued at its node? -/
def State.outrun (s : State) (slot : Nat) (t : Thread) : Bool :=
  t.blocks.any fun b => (s.readyIn slot t b).any fun i => s.issued.any fun x => x.1 == nodeKey slot t b i && x.2.slot != slot

/-- Does an SRECV of a block wait on an empty FIFO? -/
def Thread.streamWaits (t : Thread) (b : Block) : Bool :=
  b.state == .fire && b.entries.any fun e =>
    e.st == .idle && e.opIn [0xB5] && (match decode e.word with
      | .ok (.srecv h p) => pmMatches h.pm e.p == some true && (t.inPort p.toNat).fifo.isEmpty && (t.inPort p.toNat).pat.isSome
      | _ => false)

/-- The grid on which a thread waits for a frame of the pool (R37). -/
def State.frameGrid (s : State) (slot : Nat) (t : Thread) : Option Nat := (clusterGrids slot).find? (s.callsFrame slot t)

/-- The ready entries of a block that did not issue, as they stand. -/
def State.readySites (s : State) (slot : Nat) (t : Thread) (b : Block) : List Site :=
  (s.readyIn slot t b).filterMap fun i => (b.entries[i]?).map fun e => ⟨⟨slot, b.seq, b.ic, i⟩, t, b, e⟩

/-- The counters of Table 12-8 that count in a clk. PERF1, PERF9 and PERF10 count at their events; PERF5 and PERF7 count what tokens and bank
conflicts take on the way, which the model gives no time, and stay as they are (log entry 2). -/
def State.counting (s : State) (slot : Nat) (t : Thread) : List Nat :=
  let old := t.blocks.head?
  let is (p : Block → Bool) : Bool := match old with | some b => p b | none => false
  (if t.ending && t.saving then [] else [0])
    ++ (if (t.blocks.any fun b => b.state == .fetch) && !(t.blocks.any fun b => b.state == .fire || b.state == .complete) then [2] else [])
    ++ (if (s.frameGrid slot t).any fun g => !s.frameFree slot t g then [3] else [])
    ++ (if s.outrun slot t then [4] else [])
    ++ (if t.blocks.any fun b => s.loadWaits slot b || (s.readySites slot t b).any s.loadStalls then [6] else [])
    ++ (if (s.openWalks.any fun w => match w.who with | .access b _ => b.slot == slot | .prefetch _ b _ => b.slot == slot | .fetch _ _ => false | .engine _ _ => false)
          || t.blocks.any (fun b => (s.readySites slot t b).any s.xlateStalls) then [8] else [])
    ++ (if is fun b => b.state == .complete && (s.blockFault slot t b).isNone && !s.reserves slot t b then [11] else [])
    ++ (if is fun b => s.swaits.any fun x => x.b.slot == slot && x.b.seq == b.seq && x.b.ic == b.ic then [12] else [])
    ++ (if t.blocks.any t.streamWaits then [13] else [])
    ++ (if is fun b => b.entries.any fun e => e.st == .waiting && e.opIn [0xA7, 0xA9, 0xB7] then [14] else [])
    ++ (if t.asleep then [15] else [])

/-- The oldest block of a thread whose commit has all that it needs makes its reservations, but not on a frozen grid (R343, R409). -/
def State.reserve (s : State) (slot : Nat) (t : Thread) : Thread :=
  match t.blocks with
  | b :: l => if !(s.grid (blockGrid slot t b)).dbg.frozen && s.mayCommit slot t b then { t with blocks := { b with reserved := true } :: l } else t
  | [] => t

/-- What the end of a clk leaves of a thread: its complete blocks (R30, R87), its counters, which do not count on a frozen grid (R397), and
since when it waits for a frame (R37). -/
def State.endThreadClk (s : State) (slot : Nat) (t : Thread) : Thread :=
  let counts := if (s.grid (slotGrid slot)).dbg.frozen then [] else t.perfDue ++ s.counting slot t
  s.reserve slot
    { t with
      blocks := t.blocks.map Block.settle
      sys := counts.foldl (fun x j => x.countPerf j) t.sys
      perfDue := []
      frameWait := if (s.frameGrid slot t).isSome then some (t.frameWait.getD s.clk) else none }

/-- How far the time base goes in a clk of a power level, in 112ths of its cycle: it keeps 1.8 GHz where clk has 3.6, 3.2, 2.8, 2.4 and 1.8
(Table 18-2, R434). -/
def timePerClk : Nat → Nat
  | 0 => 56 | 1 => 63 | 2 => 72 | 3 => 84
  | _ => 112

/-- The end of a clk: the time base goes on (R434), the counters count, after the writes of the clk's commits (R354), the clks of frozen grids
are kept apart (R411). In a frozen module, and in one held in reset, every clock stands still (R414, R432). -/
def State.clockTick (s : State) : State :=
  if s.plat.frozen || s.plat.inReset then s
  else
    let p := s.phase + timePerClk s.plat.act
    { s with
      clk := s.clk + 1
      time := s.time + p / 112
      phase := p % 112
      issued := [], committed := [], loaded := []
      thr := s.thr.map fun p => (p.1, s.endThreadClk p.1 p.2)
      grids := tmap (fun g => if g.dbg.frozen then { g with dbg := { g.dbg with frozenClk := g.dbg.frozenClk + 1 } } else g) s.grids }

/-! ### Entries (R38, R74) -/

/-- The threads in the rotating order of the clk (R38). -/
def State.turnOrder (s : State) : List (Nat × Thread) :=
  ((List.range 8).map fun j => s.thr.filter fun p => s.turnOf p.1 == j).flatten

/-- The entries that may fire or absorb at nodes that have not issued in this clk, with their nodes (R38): by the rotating order of the slots,
the oldest block of a slot first, the lowest entry of a block first. -/
def State.readyEntries (s : State) : List (Nat × Cursor) :=
  ((s.turnOrder.map fun p =>
    (p.2.blocks.map fun b => (s.readyIn p.1 p.2 b).map fun i =>
      (nodeKey p.1 p.2 b i, (⟨p.1, b.seq, b.ic, i⟩ : Cursor))).flatten).flatten).filter fun x => !(s.issued.any fun y => y.1 == x.1)

/-- The word of the entry at a place. -/
def State.wordAt (s : State) (c : Cursor) : Option W64 :=
  (tget s.thr c.slot).bind fun t => (t.findBlock c.seq c.ic).bind fun b => (b.entries[c.idx]?).map (·.word)

/-- The state that an instruction or event leads to, if it leads to one. -/
def State.act (s : State) (i : Instr) : Option State :=
  match exec i s with
  | .next s => some s
  | .fault _ => none
  | .refused _ => none

/-- An entry fires: its word is decoded, and its meaning applied with the cursor on it. -/
def State.fireAt (s : State) (c : Cursor) : Option State :=
  (s.wordAt c).bind fun w =>
    match decode w with
    | .ok i => State.act { s with cur := some c } i
    | .error _ => none

/-- The first of the ready entries that can go on issues: its node has issued in this clk. -/
def State.issueNext (s : State) : Option State :=
  s.readyEntries.findSome? fun x => (s.fireAt x.2).map fun t => { t with issued := s.issued ++ [x], cur := none }

/-! ### Commits (R24, R343) -/

/-- The grid on which the oldest block of a thread runs. -/
def headGrid (p : Nat × Thread) : Nat := match p.2.blocks with | b :: _ => blockGrid p.1 p.2 b | [] => slotGrid p.1

/-- Can the oldest block of a thread commit now: on a frozen grid only if its reservations were made before (R409)? -/
def State.canCommit (s : State) (p : Nat × Thread) : Bool :=
  match p.2.blocks with
  | b :: _ => b.exit.isSome && s.mayCommit p.1 p.2 b && (b.reserved || !(s.grid (blockGrid p.1 p.2 b)).dbg.frozen)
  | [] => false

/-- Does a thread take the commit of its grid: does no other there that can commit come before it in the rotating order (R343)? -/
def State.takesCommit (s : State) (p : Nat × Thread) : Bool :=
  s.canCommit p && !(s.thr.any fun q => headGrid q == headGrid p && decide (s.turnOf q.1 < s.turnOf p.1) && s.canCommit q)

/-- The oldest block of a slot commits: its grid and its slot have committed in this clk. -/
def State.commitSlot (s : State) (p : Nat × Thread) : Option State :=
  ((s.act (.blockCommit p.1)).orElse fun _ => s.act (.residentIterationCommit p.1)).map fun t =>
    { t with committed := s.committed ++ [(headGrid p, p.1)] }

/-- The next commit of a clk: one on each grid (R343), in ascending order of the slots, so that the writes of one clk to a q register come in
that order (R24). -/
def State.commitNext (s : State) : Option State :=
  (s.thr.filter fun p => s.committed.all fun c => decide (c.2 < p.1) && c.1 != headGrid p).findSome? fun p =>
    if s.takesCommit p then s.commitSlot p else none

/-! ### Events -/

/-- The events under way that may act, in order: the first whose condition holds acts; one whose record is gone is dropped. -/
def State.agendaFrom (s : State) (ok : Instr → Bool) : List Instr → List Instr → Option State
  | _, [] => none
  | kept, i :: l =>
    if !ok i then s.agendaFrom ok (kept ++ [i]) l
    else
    match exec i { s with agenda := kept ++ l } with
    | .next s => some s
    | .fault .noSuch => s.agendaFrom ok kept l
    | .fault .notReady => s.agendaFrom ok (kept ++ [i]) l
    | .fault .noEntry => s.agendaFrom ok kept l
    | .refused _ => s.agendaFrom ok kept l

def State.agendaFirst (s : State) (ok : Instr → Bool) : Option State := s.agendaFrom ok [] s.agenda

/-- What a block in flight calls for. -/
def blockEvents (slot : Nat) (b : Block) : List Instr :=
  let r : BRef := ⟨slot, b.seq, b.ic⟩
  match b.state with
  | .map => [.mapTimeCheck r]
  | .fire => [.registerForward r, .blockQuiescence r]
  | _ => if b.resident then [.registerForward r] else []

/-- The results that the entries of a block wait for; on a frozen grid only those of loads (R408). -/
def deliveryEvents (slot : Nat) (frozen : Bool) (b : Block) : List Instr :=
  let r : BRef := ⟨slot, b.seq, b.ic⟩
  (b.entries.zipIdx.filter fun e => e.1.st == .waiting).flatMap fun e =>
    if frozen then [.loadDataReturn r e.2] else [.loadDataReturn r e.2, .mwaitDelivery r e.2, .accrdDelivery r e.2, .cwaitDelivery r e.2]

/-- Is the grid of a block frozen? -/
def State.held (s : State) (slot : Nat) (t : Thread) (b : Block) : Bool := (s.grid (blockGrid slot t b)).dbg.frozen

/-- What a thread calls for. On a frozen grid a frame that has been granted still gets its words (R409). -/
def State.threadEvents (s : State) (slot : Nat) (t : Thread) : List Instr :=
  let fetching := (t.blocks ++ t.shadow.toList).filter fun b => b.state == .fetch && b.held.isEmpty
  let all : List (List Instr) :=
    [fetching.map fun b => .blockFetch slot b.addr,
     (t.wanted.map fun w => Instr.blockFetch slot w.1).toList,
     t.blocks.flatMap (fun b => if s.held slot t b then [] else blockEvents slot b),
     [.trapEntry slot, .handlerMessageEntry slot],
     t.blocks.flatMap (fun b => deliveryEvents slot (s.held slot t b) b),
     [.fenceWaitEnd slot, .sleepLimitExpiry slot, .slotRelease slot],
     (List.range 4).map (Instr.streamPrefetch slot),
     (List.range 2).map (Instr.outputElementWrite slot)]
  all.flatten

/-- What a grid calls for. -/
def gridEvents (n : Nat) (g : Grid) : List Instr :=
  let matrix : List Instr := g.mx.zipIdx.flatMap fun c =>
    if c.1.isEmpty then [] else [.matrixCommandStart n c.2, .matrixCommandComplete n c.2]
  if g.sb.isEmpty then matrix else .storeDrain n :: matrix

/-- The streams of a thread that may meet a translation fault. -/
def Thread.streamRefs (slot : Nat) (t : Thread) : List EngRef :=
  (((List.range 4).filter fun k => (t.inPort k).pat.isSome).map (EngRef.streamIn slot)).append
    (((List.range 2).filter fun k => !(t.outPort k).out.isEmpty).map (EngRef.streamOut slot))

/-- The engine commands, streams and deposits of the module that may meet a translation fault. -/
def State.engines (s : State) : List (Nat × EngRef) :=
  let all : List (List (Nat × EngRef)) :=
    [s.cls.flatMap fun c => c.2.copyQ.map fun x => (clusterDie c.1, .copy c.1 x.id),
     s.grids.flatMap fun g => (g.2.mx.zipIdx.filter fun c => !c.1.isEmpty).map fun c => (gridDie g.1, .matrix g.1 c.2),
     s.thr.flatMap fun p => (p.2.streamRefs p.1).map fun e => (slotDie p.1, e),
     s.net.deposits.map fun d => (clusterDie d.stop, .deposit d.id)]
  all.flatten

/-- What a cluster calls for. -/
def clusterEvents (n : Nat) (c : Cluster) : List Instr :=
  c.copyQ.flatMap fun x => [.copyCommandStart n x.id, .copyCommandComplete n x.id]

/-- What the migration of a virtual cache calls for. -/
def migEvents (n : Nat) (m : Migration) : List Instr :=
  .vcMigrationStart n m.vc :: .vcMigrationEnd n m.vc :: m.walk.map Instr.lineMove

/-- What a die calls for. -/
def dieEvents (n : Nat) (d : Die) : List Instr :=
  let all : List (List Instr) :=
    [(d.queues.filter fun q => q.2.readyAt.isNone).map fun q => .dependenceReady n q.1,
     [.distributorStep n],
     d.migs.flatMap (migEvents n),
     d.fslots.flatMap fun f => [.pagerRetry n f.1, .pagerAbandon n f.1, .pagerLimitExpiry n f.1]]
  all.flatten

/-- What goes on in the coherence of the module calls for. -/
def Coh.events (c : Coh) : List Instr :=
  let all : List (List Instr) :=
    [(c.flying.filter fun f => f.u.op.isAtomic).map fun f => if f.performed then .atomicResult f.u.uid else .atomicPerform f.u.uid,
     c.tlbinvs.map fun x => .tlbinvComplete x.id,
     (c.walks.filter (·.res.isNone)).map fun w => .pageWalk w.id,
     (c.fills.filter Fill.blank).map fun f => .directoryReadMiss f.cl f.line,
     c.grants.map fun g => .grantArrival g.cl g.line,
     c.flips.map fun f => if f.toHost then .biasFlushEnd f.page else .biasRecallEnd f.page,
     c.awaits.map fun w => .homeTimeout w.die w.agent,
     c.reqs.map fun r => .requesterDeadlineExpiry r.id]
  all.flatten

/-- What the named-data network calls for. -/
def Net.events (x : Net) : List Instr :=
  let all : List (List Instr) :=
    [x.ents.map fun e => .interestDeadlineExpiry e.stop e.asid e.name,
     x.recs.map fun r => .interestDeadlineExpiry r.stop r.asid r.name,
     x.tiles.flatMap fun t => [.tileRetentionExpiry t.stop t.asid t.name, .tileStoreFree t.stop t.asid t.name],
     x.deposits.map fun d => .depositComplete d.id]
  all.flatten

/-- What the platform calls for: the end of a power transition (R435), a trip (R432). -/
def State.platEvents (s : State) : List Instr :=
  let p := s.plat
  (if p.busy then [.powerTransition] else [])
    ++ (if p.above 105 && !p.trip then [.thermalTrip] else [])

/-- The events that the state calls for; the power controllers look at one cluster after another (R443). -/
def State.ownEvents (s : State) : List Instr :=
  let all : List (List Instr) :=
    [s.thr.flatMap fun p => s.threadEvents p.1 p.2,
     s.grids.flatMap fun g => gridEvents g.1 g.2,
     s.cls.flatMap fun c => clusterEvents c.1 c.2,
     [.clusterRetentionEntry (s.clk % 512), .clusterGating (s.clk % 512)],
     s.dies.flatMap fun d => dieEvents d.1 d.2,
     s.engines.map fun e => .engineFaultPost e.1 e.2,
     s.grp.map fun g => .groupEnd g.1,
     s.saves.map fun x => if x.whole then .groupSave x.target none else .slotSave x.target none,
     s.restores.map fun r => .resumeItemRestore r.die r.q,
     s.installs.map fun x => .tableRecordInstall x.id,
     s.platEvents,
     s.coh.events,
     s.net.events]
  all.flatten

/-- What comes of itself: an event, the first message of a channel at a port, a request held at its page, an operation held at its word,
or a step of the thermal floor (R432). -/
inductive Work where
  | event (i : Instr)
  | message (port vc : Nat)
  | held (page : Nat)
  | word (w : WLoc)
  | thermal (up : Bool)

/-- All that may come of itself. -/
def State.ownWork (s : State) : List Work :=
  (s.links.ports.map fun p => ((List.range 3).filter fun v => p.2.queue.any fun m => classVc m.cls.toNat == v).map fun v => Work.message p.1 v).flatten
    ++ ((s.coh.parked.map (·.1)).eraseDups.map .held)
    ++ ((s.coh.words.map (·.1)).eraseDups.map .word)
    ++ (([true, false].filter fun up => s.plat.stepDue up s.ns9).map .thermal)
    ++ s.ownEvents.map .event

def State.work (s : State) : Work → Option State
  | .event i => s.act i
  | .message p v => s.takeMsg p v
  | .held pg => s.unpark pg
  | .word w => s.retryWord w
  | .thermal up => match execThermalStep up s with | .next s => some s | _ => none

/-- The first of what comes of itself, beginning at a place that goes round with the clk, so that each has its turn. -/
def State.workFirst (s : State) : Option State :=
  match s.ownWork with
  | [] => none
  | l => (l.rotateLeft (s.clk % l.length)).findSome? s.work

/-- The events come first, then what comes of itself. -/
def State.eventFirst (s : State) : Option State := (s.agendaFirst fun _ => true).orElse fun _ => s.workFirst

/-- What a module held in reset or frozen still takes: resets, the end of a trip, thaw and scan (R414, R432, R437, R439). -/
def staysAwake : Instr → Bool
  | .coldReset => true
  | .warmReset => true
  | .thermalTripClear => true
  | .thermalTrip => true
  | .moduleThaw => true
  | .scanShift => true
  | _ => false

/-- The monitors of KIND 6 look at the values that operations on their words have left, in order (R413). -/
def State.lookAtWords (s : State) : State := s.samples.foldl (fun s x => (s.act (.monitorSample x.1 x.2.1)).getD s) s

/-- What a die does every mclk, which is every second clk: its monitors of KIND 1 to 5 take a sample (R413), and a record goes to its trace
sink (R401); a port with no message to send returns the credits it owes in an idle flit (R392, R395). -/
def State.mclkWork (s : State) : State :=
  let s := { s with links := { s.links with ports := tmap Port.idle s.links.ports } }
  s.dies.foldl (fun s d =>
    let s := ((List.range 16).filter fun j => s.monitorDue d.1 j).foldl (fun s j => (s.act (.monitorSample d.1 j)).getD s) s
    (s.act (.traceDrain d.1)).getD s) s

/-- The clk ends. -/
def State.endClk (s : State) : State :=
  let t := s.clockTick
  if t.clk % 2 = 0 && t.clk != s.clk then t.mclkWork else t

/-- One step of the machine: one of the entries that issue in the clk, then one of its commits, and once there is none the clk ends with an
event, if one may act (log entry 1). A module that is frozen or in reset takes only what wakes it. -/
def State.advance (s : State) : State :=
  if s.plat.frozen || s.plat.inReset then
    ((s.agendaFirst staysAwake).orElse fun _ => s.platEvents.findSome? fun i => if staysAwake i then s.act i else none).getD s
  else
    ((s.issueNext.orElse fun _ => s.commitNext).getD ((s.eventFirst).getD s).endClk).lookAtWords

/-! ### A word placed for the fetch -/

/-- The first entry of a block at which the opcode may stand (Table 2-7). -/
def legalIndex (op : Nat) : Nat := ((List.range 120).find? fun i => (nodeClassOf op).fits (nodeOf i)).getD 0

/-- A token of the kind that an operand takes. -/
def wordToken (f : Fields) (k : Nat) : Token :=
  match operandKind f k with
  | .wide => .wide ⟨0, false, 0⟩
  | .pred => .pred true
  | .predOnly => .pred true
  | _ => .narrow 0

/-- An entry that holds a word with every operand it has, and the predicate that it waits for. -/
def wordEntry (w : W64) : Entry :=
  let f := fieldsOf w
  let op (k : Nat) : Option Token := if f.hasOperand k then some (wordToken f k) else none
  { Entry.fresh w with a := op 0, b := op 1, c := op 2, p := if f.pm = 0 then none else some (f.pm == 1) }

/-- A block in FIRE that holds one word (log entry 10). -/
def wordBlock (w : W64) : Block :=
  let n := legalIndex (fieldsOf w).op.toNat
  { seq := 0, addr := 0, ic := 0, pos := 0, state := .fire, image := [], img := 0, page2 := none, resident := false, later := false
    left := none, reads := [], writes := []
    entries := List.replicate n { Entry.fresh 0 with st := .absorbed } ++ [wordEntry w]
    exit := none, held := [], accs := [], effs := [], lsids := [], flags := 0, fp := some 0, quiesced := false, marked := false
    pred := none, asked := false, reserved := false }

/-- The thread of that block, and its group. -/
def wordThread (w : W64) : Thread := { Thread.launch 16 0 0 with blocks := [wordBlock w], nextSeq := 1, nextPos := 1 }
def wordGroup : Group :=
  { die := 0, cl := 0, queue := 0, j := 0, n := 1, members := [⟨0, [], [], []⟩], q := List.replicate 16 0, save := 0, donew := 0
    partw := 0, level := 0, base := 0, asid := 0, ptbase := 0, widths := [0, 0, 0, 0, 0, 0], live := [0], saved := [], started := true
    accDefined := [] }

/-- The word stands in the only entry of the only thread that can go on: slot 0 (log entry 10). -/
def State.placeWord (s : State) (w : W64) : State :=
  { s with thr := [(0, wordThread w)], grp := tput s.grp 0 wordGroup, agenda := [], issued := [], committed := [], loaded := [], samples := [] }

end Sys2Proof.Machine
end

