-- ==== Sys2Proof/Machine/Step.lean ====
section
/-! DEFINITION. The step of the machine, and a word placed where it takes its next instruction. -/

namespace Sys2Proof.Machine

/-- One indivisible step (spec/95_what_each_step_holds.md). -/
def step (s : State) : Host.Outcome State Fault Refusal := .next s.advance

/-- `s` with an instruction word in FIRE as the one entry that the next step fires; no form is longer than 64 bits (R60). -/
def State.withFetchWord (s : State) (nbits w : Nat) : State := if nbits ≤ 64 then s.placeWord (BitVec.ofNat 64 w) else s

end Sys2Proof.Machine
end

