-- ==== Sys2Proof/Safety.lean ====
section
/-! DEFINITION. The terms in which the statements speak: the canonical form of the memories, an entry that fires, the operands it
holds, what a form delivers, and what the firing of a form leaves as it was. -/

namespace Sys2Proof.Machine

/-- The three memories of the module are in canonical form, and the lines of the L2 are listed once each, rising. -/
def State.MemInv (s : State) : Prop :=
  s.hbm.wf = true ∧ s.host.wf = true ∧ s.pool.wf = true ∧ (s.coh.l2.map (·.1)).Pairwise (· < ·)

/-- A clean line of this module's HBM in the L2 is what HBM holds (R284, R285). -/
def State.Clean (s : State) : Prop :=
  ∀ y x, tget s.coh.l2 y = some x → x.dirty = false → y < 2 ^ 60 → x.data = s.hbmLine y

/-! ### Firing (R61, R74, R76) -/

/-- The entry `x` at the cursor fires: its predicate has the value that PM asks for, and the operands have arrived. -/
def Ready (s : State) (x : Site) (pm : Pm) (need : List Nat) : Prop :=
  s.site = some x ∧ pmMatches pm x.e.p = some true ∧ x.has need = true

/-- It fires, and none of the operands is a null. -/
def Fires (s : State) (x : Site) (pm : Pm) (need : List Nat) : Prop := Ready s x pm need ∧ x.anyNull need = false

/-- It fires with two narrow operands, the second perhaps an immediate. -/
def Fires2 {n : Nat} (s : State) (x : Site) (pm : Pm) (b : Option (BitVec n)) (p q : W64) : Prop :=
  Ready s x pm (opsG b x) ∧ x.e.a = some (.narrow p)
    ∧ (match b with | some i => q = i.signExtend 64 | none => x.e.b = some (.narrow q))

/-- It fires with one narrow operand. -/
def Fires1 (s : State) (x : Site) (pm : Pm) (p : W64) : Prop := Ready s x pm [0] ∧ x.e.a = some (.narrow p)

/-- It fires with three narrow operands. -/
def Fires3 (s : State) (x : Site) (pm : Pm) (p q r : W64) : Prop :=
  Ready s x pm [0, 1, 2] ∧ x.e.a = some (.narrow p) ∧ x.e.b = some (.narrow q) ∧ x.e.c = some (.narrow r)

/-- It fires with one, two or three unscaled wide operands. -/
def FiresV1 (s : State) (x : Site) (pm : Pm) (p : WideBits) : Prop := Ready s x pm [0] ∧ x.e.a = some (unscaled p)
def FiresV2 (s : State) (x : Site) (pm : Pm) (p q : WideBits) : Prop :=
  Ready s x pm [0, 1] ∧ x.e.a = some (unscaled p) ∧ x.e.b = some (unscaled q)
def FiresV3 (s : State) (x : Site) (pm : Pm) (p q r : WideBits) : Prop :=
  Ready s x pm [0, 1, 2] ∧ x.e.a = some (unscaled p) ∧ x.e.b = some (unscaled q) ∧ x.e.c = some (unscaled r)

/-- The answer of a form that delivers two tokens, one to each target. -/
def delivers2 (s : State) (x : Site) (h : Hdr) (u v : Token) : Out := .next ((s.mark x .fired).deliver x.ref h u v)

/-- The answer of a form that delivers one token to both targets. -/
def delivers (s : State) (x : Site) (h : Hdr) (v : Token) : Out := delivers2 s x h v v

/-- The answer of a form that delivers a narrow value to both targets. -/
def gives (s : State) (x : Site) (h : Hdr) (v : W64) : Out := delivers s x h (.narrow v)

/-- The answer of a form whose failure is held by its block until the block is the oldest (R32). -/
def holds (s : State) (x : Site) (c : Cause) (tval : W64) (lsid : Option Nat) : Out :=
  .next ((s.mark x .fired).holdAt x c tval lsid)

/-! ### Narrow values by width (R77) -/

/-- The low w bits of a word, sign-extended or zero-extended to 64. -/
def lowS (w : Width) (v : W64) : W64 := match w with | .w32 => (v.setWidth 32).signExtend 64 | .w64 => v
def lowU (w : Width) (v : W64) : W64 := match w with | .w32 => (v.setWidth 32).setWidth 64 | .w64 => v

/-- The bits of a width. -/
def bitsW : Width → Nat | .w32 => 32 | .w64 => 64

/-- An exact integer brought into the signed or unsigned range of a width. -/
def clampS (w : Width) (v : Int) : W64 := BitVec.ofInt 64 (max (-(2 ^ (bitsW w - 1) : Int)) (min v (2 ^ (bitsW w - 1) - 1)))
def clampU (w : Width) (v : Nat) : W64 := BitVec.ofNat 64 (min v (2 ^ bitsW w - 1))

/-- The pairwise combination of 2^n values from place `j` · 2^n on (R132). -/
def pairwise {α : Type} (f : α → α → α) : Nat → (Nat → α) → Nat → α
  | 0, v, j => v j
  | n + 1, v, j => f (pairwise f n v (2 * j)) (pairwise f n v (2 * j + 1))

/-! ### Memory forms and forms that wait for the commit -/

/-- The first bytes of a value, lowest first (R10). -/
def bytesOf {n : Nat} (v : BitVec n) (k : Nat) : List Byte := (List.range k).map fun i => v.extractLsb' (8 * i) 8

/-- An access translates: no walk for the entry is under way, the TLBs give its pieces, and the load-store queue has a place (R345). -/
def Reaches (s : State) (x : Site) (k : AKind) (va : W64) (len : Nat) (ps : List Piece) : Prop :=
  s.walking x.ref x.idx = false ∧ s.translate x.who k va len = .ok ps ∧ s.noPlace x ps = false

/-- A reference names a sync word for the entry (R193). -/
def Refers (s : State) (x : Site) (store : Bool) (ref : W64) (l : WLoc) (ps : List Piece) : Prop :=
  s.walking x.ref x.idx = false ∧ s.refTo x.who (s.group x.t.gid) store ref = .ok l ps ∧ s.noPlace x ps = false

/-- The sync word of an operand of the forms of chapter 07: 0 names none (R212). -/
def NamesWord (s : State) (x : Site) (ref : W64) (w : Option WLoc) : Prop :=
  if ref = 0 then w = none
  else if ref.toNat % 16 = 1 then
    ∃ g, s.group x.t.gid = some g ∧ g.inSpad (refBase ref).toNat 16 = true ∧ w = (g.spadAt (refBase ref).toNat).map fun a => .pool a ref
  else ref.toNat % 16 = 0 ∧ ∃ l ps, Refers s x true ref l ps ∧ w = some l

/-- The answer of a form whose effect waits for the commit (R33), with the word and the pieces that it reached. -/
def recordsAt (s : State) (x : Site) (i : Instr) (l : Option WLoc) (ps : List Piece) : Out :=
  .next ((s.mark x .fired).recordAt x i [] l ps)
def records (s : State) (x : Site) (i : Instr) : Out := recordsAt s x i none []

/-- The same for a form with an LSID (R179). -/
def resolvesAt (s : State) (x : Site) (lsid : Nat) (i : Instr) (l : Option WLoc) (ps : List Piece) : Out :=
  .next (((s.mark x .fired).resolveAt x.ref x.idx lsid .performed).recordAt x i [] l ps)

/-- The answer of a command form: its effect waits for the commit, and its issue token 0 is delivered (R157, R211). -/
def issues (s : State) (x : Site) (h : Hdr) (i : Instr) : Out :=
  .next (((s.mark x .fired).record x i []).deliver x.ref h (.narrow 0) (.narrow 0))

/-- The answer of a form whose operands fail: ENGINE_OPERAND with its reason and the letter of the operand (R212). -/
def badOp (s : State) (x : Site) (reason letter : Nat) : Out :=
  holds s x .engineOperand (BitVec.ofNat 64 (reason + 256 * letter)) none

/-- The answer of a form whose result an event will deliver. -/
def awaits (s : State) (x : Site) (i : Instr) : Out :=
  .next (((s.mark x .fired).record x i []).modBlock x.ref fun b => b.modEntry x.idx fun e => { e with st := .waiting })

/-- The answer of a store-class form: its access is recorded (R179). -/
def storesAt (s : State) (x : Site) (a : Access) (writes : Bool) : Out := .next ((s.mark x .fired).addStore x a writes)

/-- The form reads no register of an uncached page as it fires, and moves no line: no PREF, a load of cached pages, an SREAD or SWAIT at
a word of the scratchpad (R189, R263, R285). -/
def Cached (s : State) (x : Site) : Instr → Prop
  | .ld sz _ _ _ off => ∀ ps, s.translate x.who .load (x.a.word + off.signExtend 64) (ldBytes sz) = .ok ps → ∀ q ∈ ps, q.leaf.cmode ≠ 3
  | .ldw sz _ _ _ off => ∀ ps, s.translate x.who .load (x.a.word + off.signExtend 64) (wideLen sz) = .ok ps → ∀ q ∈ ps, q.leaf.cmode ≠ 3
  | .pref _ _ _ _ => False
  | .sread _ _ _ _ off => ∀ l ps, s.refTo x.who (s.group x.t.gid) false (effAddr x.a.word off) = .ok l ps → ps = []
  | .swait _ _ _ _ off => ∀ l ps, s.refTo x.who (s.group x.t.gid) false (effAddr x.a.word off) = .ok l ps → ps = []
  | _ => True

/-! ### What a firing leaves as it was (R33) -/

/-- A byte of the module's memory as it is read at its home stays as it was, and so do host memory, the pools, the group registers, the
platform, and the committed state of every thread: what a read that moves lines into the L2 leaves (R285). -/
structure KeepsArch (s t : State) : Prop where
  hbm : ∀ a < 2 ^ 40, t.hbmByte a = s.hbmByte a
  host : t.host = s.host
  pool : t.pool = s.pool
  grp : t.grp = s.grp
  plat : t.plat = s.plat
  net : t.net = s.net
  clk : t.clk = s.clk
  time : t.time = s.time
  thr : ∀ slot, (tget t.thr slot).map (fun z => (z.pc, z.ic, z.regs, z.msgs, z.asleep, z.ending))
    = (tget s.thr slot).map fun z => (z.pc, z.ic, z.regs, z.msgs, z.asleep, z.ending)
  sys : ∀ slot, (tget t.thr slot).map (fun z => { z.sys with perf := [] })
    = (tget s.thr slot).map fun z => { z.sys with perf := [] }

/-- The same memories, group registers and platform; the same committed registers, pc, mode and trap registers of every thread:
the same lines in the L2: everything architectural but the counters PERF and what stands in the blocks in flight. -/
structure SameArch (s t : State) : Prop where
  l2 : t.coh.l2 = s.coh.l2
  hbm : t.hbm = s.hbm
  host : t.host = s.host
  pool : t.pool = s.pool
  grp : t.grp = s.grp
  plat : t.plat = s.plat
  net : t.net = s.net
  clk : t.clk = s.clk
  time : t.time = s.time
  thr : ∀ slot, (tget t.thr slot).map (fun z => (z.pc, z.ic, z.regs, z.msgs, z.asleep, z.ending))
    = (tget s.thr slot).map fun z => (z.pc, z.ic, z.regs, z.msgs, z.asleep, z.ending)
  sys : ∀ slot, (tget t.thr slot).map (fun z => { z.sys with perf := [] })
    = (tget s.thr slot).map fun z => { z.sys with perf := [] }

end Sys2Proof.Machine
end

