-- ==== Sys2Proof/Certificates/Slice0/Obligations.lean ====
section
/-! DEFINITION. The statements for the provers, each with the rules of spec/ that it formalises. -/

open Sys2Proof Sys2Proof.Machine

/-! ### Narrow integers (03 R77, R91 to R96) -/

/-- R91, R96: ADD, SUB, MUL and MADD keep the low w bits of the exact value, sign-extended. ADDX adds A, B and a carry, which is a
predicate or bit 0 of a narrow token; the sum goes to T0 and the carry out, a predicate, to T1. -/
def Obligations.IntegerWrap : Prop :=
  (∀ (s : State) (x : Site) (h : Hdr) (b : Option (BitVec 29)) (w : Width) (p q r : W64),
    (Fires2 s x h.pm b p q →
      exec (.add w .wrap h b) s = gives s x h (lowS w (p + q))
      ∧ exec (.sub w .wrap h b) s = gives s x h (lowS w (p - q))
      ∧ exec (.mul w .wrap h b) s = gives s x h (lowS w (p * q)))
    ∧ (Fires3 s x h.pm p q r → exec (.madd w .wrap h) s = gives s x h (lowS w (p * q + r))))
  ∧ (∀ (s : State) (x : Site) (h : Hdr) (w : Width) (p q : W64) (c : Token) (cin : Bool),
    Ready s x h.pm [0, 1, 2] → x.e.a = some (.narrow p) → x.e.b = some (.narrow q) → x.e.c = some c →
    (c = .pred cin ∨ ∃ v : W64, c = .narrow v ∧ v.getLsbD 0 = cin) →
    exec (.addx w h) s = delivers2 s x h
      (.narrow (lowU w (p + q + (if cin then 1 else 0))))
      (.pred (decide (2 ^ bitsW w ≤ (lowU w p).toNat + (lowU w q).toNat + (if cin then 1 else 0)))))

/-- R91: with .sat the exact signed value, and with .u.sat the exact unsigned value, is brought into the range of w bits. -/
def Obligations.IntegerSaturation : Prop :=
  ∀ (s : State) (x : Site) (h : Hdr) (b : Option (BitVec 29)) (w : Width) (p q r : W64),
    (Fires2 s x h.pm b p q →
      exec (.add w .ssat h b) s = gives s x h (clampS w ((lowS w p).toInt + (lowS w q).toInt))
      ∧ exec (.sub w .ssat h b) s = gives s x h (clampS w ((lowS w p).toInt - (lowS w q).toInt))
      ∧ exec (.mul w .ssat h b) s = gives s x h (clampS w ((lowS w p).toInt * (lowS w q).toInt))
      ∧ exec (.add w .usat h b) s = gives s x h (clampU w ((lowU w p).toNat + (lowU w q).toNat))
      ∧ exec (.sub w .usat h b) s = gives s x h (clampU w ((lowU w p).toNat - (lowU w q).toNat))
      ∧ exec (.mul w .usat h b) s = gives s x h (clampU w ((lowU w p).toNat * (lowU w q).toNat)))
    ∧ (Fires3 s x h.pm p q r →
      exec (.madd w .ssat h) s = gives s x h (clampS w ((lowS w p).toInt * (lowS w q).toInt + (lowS w r).toInt))
      ∧ exec (.madd w .usat h) s = gives s x h (clampU w ((lowU w p).toNat * (lowU w q).toNat + (lowU w r).toNat)))

/-- R91, R92, Table 3-4: MULH gives the high half of the exact product; DIV rounds toward zero and REM takes the sign of A; division
by zero gives all ones and the remainder A; the most negative number by -1 wraps. -/
def Obligations.IntegerQuotients : Prop :=
  ∀ (s : State) (x : Site) (h : Hdr) (b : Option (BitVec 29)) (p q : W64), Fires2 s x h.pm b p q →
    exec (.mulh .w64 false h b) s = gives s x h (((p.signExtend 128 * q.signExtend 128) >>> 64).setWidth 64)
    ∧ exec (.mulh .w64 true h b) s = gives s x h (((p.setWidth 128 * q.setWidth 128) >>> 64).setWidth 64)
    ∧ exec (.mulh .w32 false h b) s = gives s x h ((lowS .w32 p * lowS .w32 q).sshiftRight 32)
    ∧ exec (.mulh .w32 true h b) s = gives s x h ((lowU .w32 p * lowU .w32 q) >>> 32)
    ∧ exec (.div .w64 false h b) s = gives s x h (if q = 0 then BitVec.allOnes 64 else p.sdiv q)
    ∧ exec (.div .w64 true h b) s = gives s x h (if q = 0 then BitVec.allOnes 64 else p.udiv q)
    ∧ exec (.rem .w64 false h b) s = gives s x h (if q = 0 then p else p.srem q)
    ∧ exec (.rem .w64 true h b) s = gives s x h (if q = 0 then p else p.umod q)
    ∧ exec (.div .w32 false h b) s = gives s x h
        (if q.setWidth 32 = 0 then BitVec.allOnes 64 else ((p.setWidth 32).sdiv (q.setWidth 32)).signExtend 64)
    ∧ exec (.div .w32 true h b) s = gives s x h
        (if q.setWidth 32 = 0 then 0xFFFFFFFF else ((p.setWidth 32).udiv (q.setWidth 32)).setWidth 64)
    ∧ exec (.rem .w32 false h b) s = gives s x h
        (if q.setWidth 32 = 0 then lowS .w32 p else ((p.setWidth 32).srem (q.setWidth 32)).signExtend 64)
    ∧ exec (.rem .w32 true h b) s = gives s x h
        (if q.setWidth 32 = 0 then lowU .w32 p else ((p.setWidth 32).umod (q.setWidth 32)).setWidth 64)

/-- Table 3-4, R95: the bitwise forms; the shifts, whose count is taken modulo w; LEA. -/
def Obligations.LogicAndShifts : Prop :=
  ∀ (s : State) (x : Site) (h : Hdr) (b : Option (BitVec 29)) (w : Width) (sc : BitVec 2) (p q : W64), Fires2 s x h.pm b p q →
    exec (.and w h b) s = gives s x h (lowU w (p &&& q))
    ∧ exec (.or w h b) s = gives s x h (lowU w (p ||| q))
    ∧ exec (.xor w h b) s = gives s x h (lowU w (p ^^^ q))
    ∧ exec (.andn w h b) s = gives s x h (lowU w (p &&& ~~~q))
    ∧ exec (.shl w h b) s = gives s x h (lowS w (p <<< (q.toNat % bitsW w)))
    ∧ exec (.shr w h b) s = gives s x h (lowU w p >>> (q.toNat % bitsW w))
    ∧ exec (.sra w h b) s = gives s x h ((lowS w p).sshiftRight (q.toNat % bitsW w))
    ∧ exec (.rotl .w64 h b) s = gives s x h (p.rotateLeft (q.toNat % 64))
    ∧ exec (.rotl .w32 h b) s = gives s x h (((p.setWidth 32).rotateLeft (q.toNat % 32)).setWidth 64)
    ∧ exec (.lea sc h b) s = gives s x h (p + q <<< sc.toNat)

/-- Table 3-4: MIN and MAX compare as signed or unsigned values; ABS and NEG wrap, or saturate at the largest value. -/
def Obligations.MinMaxAbsNeg : Prop :=
  ∀ (s : State) (x : Site) (h : Hdr) (b : Option (BitVec 29)) (w : Width) (p q : W64),
    (Fires2 s x h.pm b p q →
      exec (.min w false h b) s = gives s x h (if (lowS w p).slt (lowS w q) then lowS w p else lowS w q)
      ∧ exec (.max w false h b) s = gives s x h (if (lowS w p).slt (lowS w q) then lowS w q else lowS w p)
      ∧ exec (.min w true h b) s = gives s x h (if (lowU w p).ult (lowU w q) then lowU w p else lowU w q)
      ∧ exec (.max w true h b) s = gives s x h (if (lowU w p).ult (lowU w q) then lowU w q else lowU w p))
    ∧ (Fires1 s x h.pm p →
      exec (.abs w false h) s = gives s x h (lowS w (if (lowS w p).slt 0 then -p else p))
      ∧ exec (.neg w false h) s = gives s x h (lowS w (-p))
      ∧ exec (.abs w true h) s = gives s x h (clampS w ((lowS w p).toInt.natAbs : Nat))
      ∧ exec (.neg w true h) s = gives s x h (clampS w (-(lowS w p).toInt)))

/-- Table 3-4: CLZ and CTZ count the zero bits before the first one bit from above and from below, POPC the one bits; BREV and BSWAP
turn the order of the bits and of the bytes. -/
def Obligations.BitCounts : Prop :=
  ∀ (s : State) (x : Site) (h : Hdr) (w : Width) (p : W64), Fires1 s x h.pm p →
    exec (.clz w h) s = gives s x h
      (BitVec.ofNat 64 ((List.range (bitsW w)).takeWhile fun i => !p.getLsbD (bitsW w - 1 - i)).length)
    ∧ exec (.ctz w h) s = gives s x h (BitVec.ofNat 64 ((List.range (bitsW w)).takeWhile fun i => !p.getLsbD i).length)
    ∧ exec (.popc w h) s = gives s x h (BitVec.ofNat 64 ((List.range (bitsW w)).filter fun i => p.getLsbD i).length)
    ∧ (∃ v, exec (.brev w h) s = gives s x h v ∧ ∀ j, v.getLsbD j = (decide (j < bitsW w) && p.getLsbD (bitsW w - 1 - j)))
    ∧ (∃ v, exec (.bswap w h) s = gives s x h v
        ∧ ∀ j, v.getLsbD j = (decide (j < bitsW w) && p.getLsbD (bitsW w - 8 - j / 8 * 8 + j % 8)))

/-- R93, R94: EXTR takes a field, extended by its sign or by zeros; INSB puts one into A; position and length stand in the control
word, and an empty field, or one that begins beyond the width, has no bits. SEXT and ZEXT. -/
def Obligations.BitFields : Prop :=
  ∀ (s : State) (x : Site) (h : Hdr) (b : Option (BitVec 29)) (w : Width) (u : Bool) (p q k : W64),
    let len (c : W64) : Nat :=
      if (c.extractLsb' 0 6).toNat < bitsW w then min (c.extractLsb' 8 7).toNat (bitsW w - (c.extractLsb' 0 6).toNat) else 0
    (Fires2 s x h.pm b p q →
      ∃ v, exec (.extr w u h b) s = gives s x h v ∧ ∀ j, j < 64 → v.getLsbD j =
        (decide (0 < len q) &&
          (if j < len q then p.getLsbD ((q.extractLsb' 0 6).toNat + j)
           else !u && p.getLsbD ((q.extractLsb' 0 6).toNat + len q - 1))))
    ∧ (Ready s x h.pm (if b.isSome then [0, 2] else [0, 1, 2]) → x.e.a = some (.narrow p) → x.e.c = some (.narrow k) →
        (match b with | some i => q = i.signExtend 64 | none => x.e.b = some (.narrow q)) →
      ∃ v, exec (.insb w h b) s = gives s x h v ∧ ∀ j, v.getLsbD j =
        (if (k.extractLsb' 0 6).toNat ≤ j ∧ j < (k.extractLsb' 0 6).toNat + len k then q.getLsbD (j - (k.extractLsb' 0 6).toNat)
         else decide (j < bitsW w) && p.getLsbD j))
    ∧ (Fires1 s x h.pm p →
      exec (.sext .b8 h) s = gives s x h ((p.setWidth 8).signExtend 64)
      ∧ exec (.sext .b16 h) s = gives s x h ((p.setWidth 16).signExtend 64)
      ∧ exec (.sext .b32 h) s = gives s x h ((p.setWidth 32).signExtend 64)
      ∧ exec (.zext .b8 h) s = gives s x h ((p.setWidth 8).setWidth 64)
      ∧ exec (.zext .b16 h) s = gives s x h ((p.setWidth 16).setWidth 64)
      ∧ exec (.zext .b32 h) s = gives s x h ((p.setWidth 32).setWidth 64))

/-! ### Compare, predicates, selection, moves (03 R81 to R85, R97 to R103) -/

/-- R97, R98, R103: CMP compares w-bit values as signed or unsigned numbers, TSTB tests one bit of A; PGET turns a predicate into 1 or 0. -/
def Obligations.CompareAndTest : Prop :=
  ∀ (s : State) (x : Site) (h : Hdr) (w : Width),
    (∀ (b : Option (BitVec 28)) (p q : W64), Fires2 s x h.pm b p q →
      exec (.cmp .eq h w b) s = delivers s x h (.pred (lowU w p == lowU w q))
      ∧ exec (.cmp .ne h w b) s = delivers s x h (.pred (lowU w p != lowU w q))
      ∧ exec (.cmp .lt h w b) s = delivers s x h (.pred ((lowS w p).slt (lowS w q)))
      ∧ exec (.cmp .le h w b) s = delivers s x h (.pred ((lowS w p).sle (lowS w q)))
      ∧ exec (.cmp .gt h w b) s = delivers s x h (.pred ((lowS w q).slt (lowS w p)))
      ∧ exec (.cmp .ge h w b) s = delivers s x h (.pred ((lowS w q).sle (lowS w p)))
      ∧ exec (.cmp .ltu h w b) s = delivers s x h (.pred ((lowU w p).ult (lowU w q)))
      ∧ exec (.cmp .leu h w b) s = delivers s x h (.pred ((lowU w p).ule (lowU w q)))
      ∧ exec (.cmp .gtu h w b) s = delivers s x h (.pred ((lowU w q).ult (lowU w p)))
      ∧ exec (.cmp .geu h w b) s = delivers s x h (.pred ((lowU w q).ule (lowU w p))))
    ∧ (∀ (b : Option (BitVec 29)) (p q : W64), Fires2 s x h.pm b p q →
      exec (.tstb false h b) s = delivers s x h (.pred (p.getLsbD (q.toNat % 64)))
      ∧ exec (.tstb true h b) s = delivers s x h (.pred (!p.getLsbD (q.toNat % 64))))
    ∧ (∀ v : Bool, Ready s x h.pm [0] → x.e.a = some (.pred v) → exec (.pget h) s = gives s x h (if v then 1 else 0))

/-- R99 to R102: the predicate forms; SEL delivers A or B, of whatever kind, by C; STEER delivers A to T0 alone or to T1 alone by B;
MERGE delivers the one token that has come to A or B, and holds TOKEN_OVERRUN where both have come. -/
def Obligations.PredicatesAndSelection : Prop :=
  ∀ (s : State) (x : Site) (h : Hdr),
    (∀ (na nb p q : Bool), Ready s x h.pm [0, 1] → x.e.a = some (.pred p) → x.e.b = some (.pred q) →
      exec (.pand na nb h) s = delivers s x h (.pred ((p ^^ na) && (q ^^ nb)))
      ∧ exec (.por na nb h) s = delivers s x h (.pred ((p ^^ na) || (q ^^ nb))))
    ∧ (∀ p : Bool, Ready s x h.pm [0] → x.e.a = some (.pred p) → exec (.pnot h) s = delivers s x h (.pred (!p)))
    ∧ (∀ (u v : Token) (c : Bool), Ready s x h.pm [0, 1, 2] → x.e.a = some u → x.e.b = some v → x.e.c = some (.pred c) →
      exec (.sel h) s = delivers s x h (if c then u else v))
    ∧ (∀ (u : Token) (c : Bool), Ready s x h.pm [0, 1] → x.e.a = some u → x.e.b = some (.pred c) →
      exec (.steer h) s = .next ((s.mark x .fired).deliver1 x.ref (if c then h.t0 else h.t1) u))
    ∧ (∀ (t0 t1 : Target) (u : Token), s.site = some x →
      (x.e.a = some u → x.e.b = none → exec (.merge t0 t1) s = delivers s x ⟨.always, t0, t1⟩ u)
      ∧ (x.e.a = none → x.e.b = some u → exec (.merge t0 t1) s = delivers s x ⟨.always, t0, t1⟩ u)
      ∧ (∀ v, x.e.a = some u → x.e.b = some v → exec (.merge t0 t1) s = holds s x .tokenOverrun 0 none))

/-- R81 to R85, R45, R233: MOV delivers the token at operand A unchanged; MOVI its constant; NULL nulls; ITER the iteration count; WIDF a
field of WID by the widths of the launch. ARG delivers the token that its entry took when its block entered FIRE or its iteration started:
the q register of the group as a narrow token, as it was before the first write that the thread does not see yet (R23; how soon it sees one
is in log entry 53), or the value that an older block of the thread has put into its write slot for the register. -/
def Obligations.MovesAndConstants : Prop :=
  (∀ (s : State) (r : BRef) (t : Thread) (b : Block) (i : Nat) (q : BitVec 4) (g : Group),
    let reg : BitVec 7 := BitVec.ofNat 7 (0x30 + q.toNat)
    s.block r = some (t, b) → s.group t.gid = some g → b.state = .fire → t.mayIterate b = false → b.args = [(i, q)] →
    (∀ e ∈ b.reads, e.done = true) → b.fp.isSome = true → t.olderMapped b = true → s.readsPoison r.slot t b reg = false →
    let takes (tok : Token) : Prop := ∃ m t' b', exec (.registerForward r) s = .next m ∧ m.block r = some (t', b')
      ∧ (b'.entries[i]?).bind (·.a) = some tok
    (forwardFrom reg (t.older b).reverse = .committed → (t.regWait.any fun x => x.1 == reg) = false → t.qHeld q.toNat s.clk = false →
      takes (.narrow (match (t.qpend.filter (·.reg == q.toNat)).drop (t.qSeen q.toNat s.clk) with
        | [] => g.q.getD q.toNat 0
        | p :: _ => p.old)))
    ∧ ∀ tok, forwardFrom reg (t.older b).reverse = .got tok → takes tok)
  ∧ ∀ (s : State) (x : Site) (h : Hdr),
    (∀ (u : Token) (q : BitVec 4), Ready s x h.pm [0] → x.e.a = some u →
      exec (.mov h) s = delivers s x h u ∧ exec (.arg h q) s = delivers s x h u)
    ∧ (Ready s x h.pm [] →
      (∀ imm, exec (.movi .none h imm) s = gives s x h (imm.signExtend 64))
      ∧ (∀ imm, exec (.movi .sh29 h imm) s = gives s x h (imm.signExtend 64 * 2 ^ 29))
      ∧ (∀ imm, exec (.movi .sh58 h imm) s = gives s x h (imm.signExtend 64 * 2 ^ 58))
      ∧ exec (.null h) s = delivers s x h .null
      ∧ exec (.iter h) s = gives s x h (x.b.ic.setWidth 64)
      ∧ ∀ f : BitVec 4, ∃ v : W64, exec (.widf f h) s = gives s x h v
          ∧ v.toNat = x.t.sys.wid.toNat / 2 ^ (x.t.widths.take f.toNat).sum % 2 ^ x.t.widths.getD f.toNat 0)

/-- R86 to R90: the first exit of a block to fire gives the block its exit address and discards the younger blocks that another address
was predicted for: BR, CALL and HALT from the block address and the offset in units of 64 bytes, BRI and RET from operand A, which must
be a multiple of 64, else ALIGN is held; CALL also delivers the address of the block image that follows. A second exit is EXIT_ERROR. -/
def Obligations.ExitsFire : Prop :=
  ∀ (s : State) (x : Site),
    let m := s.mark x .fired
    let out (a : W64) (halt : Bool) : State := (m.redirect x.ref a).modBlock x.ref fun b => { b with exit := some ⟨x.idx, a, halt⟩ }
    let twice : State := m.modBlock x.ref fun b => b.hold .fire x.idx (b.insTrap .exitError 0 x.idx none)
    (∀ (pm : Pm) (ex : BitVec 3) (off : BitVec 27), Ready s x pm (trigger x) →
      let a : W64 := x.b.addr + off.signExtend 64 * 64
      (x.b.exit = none →
        exec (.br pm ex off) s = .next (out a false)
        ∧ exec (.halt pm ex) s = .next (out x.b.addr true)
        ∧ ∀ t0 t1, exec (.call ⟨pm, t0, t1⟩ ex off) s = .next ((out a false).deliver x.ref ⟨pm, t0, t1⟩
            (.narrow (returnAddr x.b)) (.narrow (returnAddr x.b))))
      ∧ (x.b.exit ≠ none → exec (.br pm ex off) s = .next twice ∧ exec (.halt pm ex) s = .next twice
        ∧ ∀ t0 t1, exec (.call ⟨pm, t0, t1⟩ ex off) s = .next (twice.deliver x.ref ⟨pm, t0, t1⟩
            (.narrow (returnAddr x.b)) (.narrow (returnAddr x.b)))))
    ∧ (∀ (pm : Pm) (ex : BitVec 3) (p : W64), Fires1 s x pm p →
      (p.toNat % 64 = 0 → x.b.exit = none → exec (.bri pm ex) s = .next (out p false) ∧ exec (.ret pm ex) s = .next (out p false))
      ∧ (p.toNat % 64 = 0 → x.b.exit ≠ none → exec (.bri pm ex) s = .next twice ∧ exec (.ret pm ex) s = .next twice)
      ∧ (p.toNat % 64 ≠ 0 → exec (.bri pm ex) s = holds s x .align p none ∧ exec (.ret pm ex) s = holds s x .align p none))

/-! ### Floating point (03 R104 to R113, 04 R114 to R121) -/

/-- R104 to R113: the operands are read as exact values of their format, a subnormal as a zero under FTZ; the exact result is rounded
once by the rounding of the form or of FPCSR; its flags are united in the block. R112, R115: FABS clears and FNEG turns the sign bit, a
NaN becoming the canonical one, with no flag and no flush; FCLASS delivers exactly one bit, of the ten classes. -/
def Obligations.NarrowFloat : Prop :=
  (∀ (s : State) (x : Site) (h : Hdr) (f : FRnd) (d : Bool) (p q r : W64), x.b.fp.isSome = true →
    let g (t : W64) (d : Bool) : Val := (fmtD d).read x.b.ftz t.toNat
    let out (v : W64) (fl : Flags) : Out := .next (((s.mark x .fired).raise x fl).deliver x.ref h (.narrow v) (.narrow v))
    let rounded (v : Val × Flags) : Out :=
      out (BitVec.ofNat 64 ((fmtD f.d).round (x.rnd f.rnd) x.b.ftz v.1).1) (v.2 ||| ((fmtD f.d).round (x.rnd f.rnd) x.b.ftz v.1).2)
    (Ready s x h.pm [0, 1] → x.e.a = some (.narrow p) → x.e.b = some (.narrow q) →
      exec (.fadd f h) s = rounded (addVal (x.rnd f.rnd) (g p f.d) (g q f.d))
      ∧ exec (.fsub f h) s = rounded (addVal (x.rnd f.rnd) (g p f.d) (g q f.d).neg)
      ∧ exec (.fmul f h) s = rounded (mulVal (g p f.d) (g q f.d))
      ∧ exec (.fdiv f h) s = rounded (divVal (g p f.d) (g q f.d))
      ∧ (let v := minMaxVal false (g p d) (g q d)
         exec (.fmin d h) s = out (BitVec.ofNat 64 ((fmtD d).round .rne false v.1).1) v.2)
      ∧ (let v := minMaxVal true (g p d) (g q d)
         exec (.fmax d h) s = out (BitVec.ofNat 64 ((fmtD d).round .rne false v.1).1) v.2)
      ∧ ∀ c, let v := fcondHolds c (g p d) (g q d)
         exec (.fcmp d c h) s = .next (((s.mark x .fired).raise x v.2).deliver x.ref h (.pred v.1) (.pred v.1)))
    ∧ (Fires3 s x h.pm p q r → exec (.ffma f h) s = rounded (fmaVal (x.rnd f.rnd) (g p f.d) (g q f.d) (g r f.d)))
    ∧ (Fires1 s x h.pm p →
      exec (.fsqrt f h) s = rounded (sqrtVal (g p f.d))
      ∧ (let v := (fmtD f.d).round (x.rnd f.rnd) x.b.ftz (g p (!f.d))
         exec (.fcvt f h) s = out (BitVec.ofNat 64 v.1) (v.2 ||| sigFlag [g p (!f.d)]))
      ∧ exec (.icvtf f h true false) s = rounded (ofIntVal p.toInt, 0)
      ∧ exec (.icvtf f h true true) s = rounded (ofIntVal (p.toNat : Int), 0)
      ∧ exec (.icvtf f h false false) s = rounded (ofIntVal (lowS .w32 p).toInt, 0)
      ∧ exec (.icvtf f h false true) s = rounded (ofIntVal ((lowU .w32 p).toNat : Int), 0)
      ∧ (let v := toInt (x.rnd f.rnd) (-2 ^ 63) (2 ^ 63 - 1) (g p f.d); exec (.fcvti f h true false) s = out (BitVec.ofInt 64 v.1) v.2)
      ∧ (let v := toInt (x.rnd f.rnd) 0 (2 ^ 64 - 1) (g p f.d); exec (.fcvti f h true true) s = out (BitVec.ofInt 64 v.1) v.2)
      ∧ (let v := toInt (x.rnd f.rnd) (-2 ^ 31) (2 ^ 31 - 1) (g p f.d); exec (.fcvti f h false false) s = out (BitVec.ofInt 64 v.1) v.2)
      ∧ (let v := toInt (x.rnd f.rnd) 0 (2 ^ 32 - 1) (g p f.d); exec (.fcvti f h false true) s = out (BitVec.ofInt 64 v.1) v.2)))
  ∧ (∀ (s : State) (x : Site) (h : Hdr) (p : W64), Fires1 s x h.pm p →
    (let nan := p.extractLsb' 52 11 = BitVec.allOnes 11 ∧ p.extractLsb' 0 52 ≠ 0
     exec (.fabs true h) s = gives s x h (if nan then 0x7FF8000000000000 else p &&& 0x7FFFFFFFFFFFFFFF)
     ∧ exec (.fneg true h) s = gives s x h (if nan then 0x7FF8000000000000 else p ^^^ 0x8000000000000000))
    ∧ (let nan := p.extractLsb' 23 8 = BitVec.allOnes 8 ∧ p.extractLsb' 0 23 ≠ 0
       exec (.fabs false h) s = gives s x h (if nan then 0x7FC00000 else p &&& 0x7FFFFFFF)
       ∧ exec (.fneg false h) s = gives s x h (if nan then 0x7FC00000 else lowU .w32 (p ^^^ 0x80000000)))
    ∧ ∀ d, ∃ k < 10, exec (.fclass d h) s = gives s x h ((1 : W64) <<< k))

/-- R118: what a format holds exactly is rounded to itself: for every encoding of a finite number or an infinity of the six formats of
Table 4-1, in every rounding mode and without a flush, decoding and rounding give the encoding back and raise no flag. -/
def Obligations.RoundOfExact : Prop :=
  ∀ (f : Fmt) (md : Rnd) (n : Nat), f ∈ [fmtE4M3, fmtE5M2, fmtFP16, fmtBF16, fmtFP32, fmtFP64] → n < 2 ^ f.width →
    (f.decode n).isNan = false → f.round md false (f.decode n) = (n, 0)

/-! ### Wide tokens (05 R138 to R154, 04 R125, R126, R132) -/

/-- R142, R143: the lane-wise sums, products, minima and maxima of unscaled tokens: every lane of the unscaled result is the exact
integer brought into the width of a lane as the form says. -/
def Obligations.WideArithmetic : Prop :=
  ∀ (s : State) (x : Site) (h : Hdr) (ty : ETy) (p q : WideBits), ty.isInt = true →
    let w := ty.width
    let lanes1 (f : Int → Int) (i : Instr) : Prop :=
      ∃ d, exec i s = delivers s x h (unscaled d) ∧ ∀ j < ty.lanes, sInt (laneOf d w j) w = f (sInt (laneOf p w j) w)
    let lanesS (f : Int → Int → Int) (i : Instr) : Prop :=
      ∃ d, exec i s = delivers s x h (unscaled d)
        ∧ ∀ j < ty.lanes, sInt (laneOf d w j) w = f (sInt (laneOf p w j) w) (sInt (laneOf q w j) w)
    let lanesU (f : Nat → Nat → Nat) (i : Instr) : Prop :=
      ∃ d, exec i s = delivers s x h (unscaled d) ∧ ∀ j < ty.lanes, laneOf d w j = f (laneOf p w j) (laneOf q w j)
    let clip (v : Int) : Int := max (-(2 ^ (w - 1) : Int)) (min v (2 ^ (w - 1) - 1))
    (FiresV2 s x h.pm p q →
      lanesU (fun a b => (a + b) % 2 ^ w) (.vadd h ty .wrap)
      ∧ lanesU (fun a b => (a + 2 ^ w - b) % 2 ^ w) (.vsub h ty .wrap)
      ∧ lanesU (fun a b => a * b % 2 ^ w) (.vmul h ty .wrap)
      ∧ lanesS (fun a b => clip (a + b)) (.vadd h ty .ssat)
      ∧ lanesS (fun a b => clip (a - b)) (.vsub h ty .ssat)
      ∧ lanesS (fun a b => clip (a * b)) (.vmul h ty .ssat)
      ∧ lanesU (fun a b => min (a + b) (2 ^ w - 1)) (.vadd h ty .usat)
      ∧ lanesU (fun a b => a - b) (.vsub h ty .usat)
      ∧ lanesU (fun a b => min (a * b) (2 ^ w - 1)) (.vmul h ty .usat)
      ∧ lanesU (fun a b => a * b / 2 ^ w) (.vmulh h ty true)
      ∧ lanesS (fun a b => a * b / 2 ^ w) (.vmulh h ty false)
      ∧ lanesU (fun a b => min a b) (.vmin h ty true)
      ∧ lanesU (fun a b => max a b) (.vmax h ty true)
      ∧ lanesS (fun a b => min a b) (.vmin h ty false)
      ∧ lanesS (fun a b => max a b) (.vmax h ty false))
    ∧ (FiresV1 s x h.pm p → lanes1 (fun a => clip a.natAbs) (.vabs h ty true)
      ∧ lanes1 (fun a => if a = -(2 ^ (w - 1) : Int) then a else a.natAbs) (.vabs h ty false))

/-- R143, R144, R141: the bitwise forms over all 1,024 bits; the shifts by a constant or by the lanes of B modulo the width; VCMP's masks;
VSEL bit by bit, with the scale of A. -/
def Obligations.WideBitwise : Prop :=
  ∀ (s : State) (x : Site) (h : Hdr) (ty : ETy) (p q r : WideBits), ty.isInt = true →
    let w := ty.width
    let lanes (f : Nat → Nat → Nat) (i : Instr) : Prop :=
      ∃ d, exec i s = delivers s x h (unscaled d) ∧ ∀ j < ty.lanes, laneOf d w j = f (laneOf p w j) (laneOf q w j)
    (FiresV2 s x h.pm p q →
      exec (.vand h ty) s = delivers s x h (unscaled (p &&& q))
      ∧ exec (.vor h ty) s = delivers s x h (unscaled (p ||| q))
      ∧ exec (.vxor h ty) s = delivers s x h (unscaled (p ^^^ q))
      ∧ lanes (fun a b => a * 2 ^ (b % w) % 2 ^ w) (.vshl h ty none)
      ∧ lanes (fun a b => a / 2 ^ (b % w)) (.vshr h ty none)
      ∧ lanes (fun a b => (sInt a w / 2 ^ (b % w) % 2 ^ w).toNat) (.vsra h ty none)
      ∧ lanes (fun a b => if a = b then 2 ^ w - 1 else 0) (.vcmp .eq h ty)
      ∧ lanes (fun a b => if a = b then 0 else 2 ^ w - 1) (.vcmp .ne h ty)
      ∧ lanes (fun a b => if sInt a w < sInt b w then 2 ^ w - 1 else 0) (.vcmp .lt h ty)
      ∧ lanes (fun a b => if sInt a w ≤ sInt b w then 2 ^ w - 1 else 0) (.vcmp .le h ty)
      ∧ lanes (fun a b => if sInt b w < sInt a w then 2 ^ w - 1 else 0) (.vcmp .gt h ty)
      ∧ lanes (fun a b => if sInt b w ≤ sInt a w then 2 ^ w - 1 else 0) (.vcmp .ge h ty)
      ∧ lanes (fun a b => if a < b then 2 ^ w - 1 else 0) (.vcmp .ltu h ty)
      ∧ lanes (fun a b => if a ≤ b then 2 ^ w - 1 else 0) (.vcmp .leu h ty)
      ∧ lanes (fun a b => if b < a then 2 ^ w - 1 else 0) (.vcmp .gtu h ty)
      ∧ lanes (fun a b => if b ≤ a then 2 ^ w - 1 else 0) (.vcmp .geu h ty))
    ∧ (∀ n : BitVec 7, n.toNat < w → FiresV1 s x h.pm p →
      lanes (fun a _ => a * 2 ^ n.toNat % 2 ^ w) (.vshl h ty (some n))
      ∧ lanes (fun a _ => a / 2 ^ n.toNat) (.vshr h ty (some n))
      ∧ lanes (fun a _ => (sInt a w / 2 ^ n.toNat % 2 ^ w).toNat) (.vsra h ty (some n)))
    ∧ (∀ (t : Bool) (e : BitVec 8), Ready s x h.pm [0, 1, 2] → x.e.a = some (.wide ⟨p, t, e⟩) → x.e.b = some (.wide ⟨q, t, e⟩) →
        x.e.c = some (unscaled r) → exec (.vsel h) s = delivers s x h (.wide ⟨(p &&& r) ||| (q &&& ~~~r), t, e⟩))

/-- R145, R146, R148, R141: VREP fills the lanes with the low bits of A; VEXT takes one lane out, VINS puts one in, the lane named by a
constant or by a narrow operand modulo the number of lanes; VPERM takes for each lane the lane that B names; VIOTA counts up from its
constant. VINS and VPERM keep the scale of A. -/
def Obligations.WideMoves : Prop :=
  ∀ (s : State) (x : Site) (h : Hdr) (ty : ETy) (p q : WideBits) (t : Bool) (e : BitVec 8) (v k : W64),
    let w := ty.width
    (Fires1 s x h.pm v → ∃ d, exec (.vrep h ty) s = delivers s x h (unscaled d) ∧ ∀ j < ty.lanes, laneOf d w j = v.toNat % 2 ^ w)
    ∧ (∀ (lane : Option (BitVec 7)) (j : Nat), (match lane with | some n => j = n.toNat | none => j = k.toNat % ty.lanes) → j < ty.lanes →
      (Ready s x h.pm (opsG lane x) → x.e.a = some (.wide ⟨p, t, e⟩) → (lane = none → x.e.b = some (.narrow k)) →
        exec (.vext h ty true lane) s = gives s x h (BitVec.ofNat 64 (laneOf p w j))
        ∧ (ty.isInt = true → exec (.vext h ty false lane) s = gives s x h (BitVec.ofInt 64 (sInt (laneOf p w j) w)))
        ∧ (ty.isInt = false → exec (.vext h ty false lane) s = gives s x h (BitVec.ofNat 64 (laneOf p w j))))
      ∧ (Ready s x h.pm (if lane.isSome then [0, 1] else [0, 1, 2]) → x.e.a = some (.wide ⟨p, t, e⟩) → x.e.b = some (.narrow v) →
          (lane = none → x.e.c = some (.narrow k)) →
        ∃ d, exec (.vins h ty lane) s = delivers s x h (.wide ⟨d, t, e⟩)
          ∧ ∀ i < ty.lanes, laneOf d w i = if i = j then v.toNat % 2 ^ w else laneOf p w i))
    ∧ (Ready s x h.pm [0, 1] → x.e.a = some (.wide ⟨p, t, e⟩) → x.e.b = some (unscaled q) →
      ∃ d, exec (.vperm h ty) s = delivers s x h (.wide ⟨d, t, e⟩)
        ∧ ∀ j < ty.lanes, laneOf d w j = laneOf p w (laneOf q w j % ty.lanes))
    ∧ (∀ imm : BitVec 13, Ready s x h.pm [] →
      ∃ d, exec (.viota h ty imm) s = delivers s x h (unscaled d)
        ∧ ∀ j < ty.lanes, (laneOf d w j : Int) = (imm.toInt + j) % 2 ^ w)

/-- R147, R149: VREDI combines the lanes of A from lane 0 upward and delivers the value extended by its sign, or by zeros with .u; VDP4
adds to each I32 lane of C the four products of the bytes of A and B, wrapped or saturated. -/
def Obligations.WideReductions : Prop :=
  ∀ (s : State) (x : Site) (h : Hdr) (ty : ETy) (p q r : WideBits), ty.isInt = true →
    let w := ty.width
    let l := (List.range ty.lanes).map fun j => laneOf p w j
    let outU (i : Instr) (n : Nat) : Prop := exec i s = gives s x h (BitVec.ofNat 64 n)
    let outS (i : Instr) (n : Int) : Prop := exec i s = gives s x h (BitVec.ofInt 64 n)
    let extended (u : Bool) (v : W64) : Prop := v = if u then BitVec.ofNat 64 (v.toNat % 2 ^ w) else BitVec.ofInt 64 (sInt v.toNat w)
    (FiresV1 s x h.pm p →
      outU (.vredi .add h ty true) (l.sum % 2 ^ w)
      ∧ outS (.vredi .add h ty false) (sInt l.sum w)
      ∧ (∃ m ∈ l, outU (.vredi .min h ty true) m ∧ ∀ a ∈ l, m ≤ a)
      ∧ (∃ m ∈ l, outU (.vredi .max h ty true) m ∧ ∀ a ∈ l, a ≤ m)
      ∧ (∃ m ∈ l, outS (.vredi .min h ty false) (sInt m w) ∧ ∀ a ∈ l, sInt m w ≤ sInt a w)
      ∧ (∃ m ∈ l, outS (.vredi .max h ty false) (sInt m w) ∧ ∀ a ∈ l, sInt a w ≤ sInt m w)
      ∧ (∀ u, ∃ v : W64, exec (.vredi .and h ty u) s = gives s x h v ∧ extended u v ∧ ∀ k < w, v.getLsbD k = l.all fun a => a.testBit k)
      ∧ (∀ u, ∃ v : W64, exec (.vredi .or h ty u) s = gives s x h v ∧ extended u v ∧ ∀ k < w, v.getLsbD k = l.any fun a => a.testBit k)
      ∧ (∀ u, ∃ v : W64, exec (.vredi .xor h ty u) s = gives s x h v ∧ extended u v
          ∧ ∀ k < w, v.getLsbD k = ((l.filter fun a => a.testBit k).length % 2 == 1)))
    ∧ (FiresV3 s x h.pm p q r →
      ∀ sg : Dp4Sign,
        let ra (v : Nat) : Int := match sg with | .ss => sInt v 8 | .su => sInt v 8 | _ => v
        let rb (v : Nat) : Int := match sg with | .ss => sInt v 8 | .us => sInt v 8 | _ => v
        let dot (j : Nat) : Int := sInt (laneOf r 32 j) 32
          + ra (laneOf p 8 (4 * j)) * rb (laneOf q 8 (4 * j)) + ra (laneOf p 8 (4 * j + 1)) * rb (laneOf q 8 (4 * j + 1))
          + ra (laneOf p 8 (4 * j + 2)) * rb (laneOf q 8 (4 * j + 2)) + ra (laneOf p 8 (4 * j + 3)) * rb (laneOf q 8 (4 * j + 3))
        (∃ d, exec (.vdp4 sg h false) s = delivers s x h (unscaled d) ∧ ∀ j < 32, (laneOf d 32 j : Int) = dot j % 2 ^ 32)
        ∧ (∃ d, exec (.vdp4 sg h true) s = delivers s x h (unscaled d)
            ∧ ∀ j < 32, sInt (laneOf d 32 j) 32 = max (-(2 ^ 31 : Int)) (min (dot j) (2 ^ 31 - 1))))

/-- R126, R141: a scaled token at an operand that must be unscaled is SCALE_TAG, its TVAL the exponent and the letter of the first such
operand; here for the integer forms and, with SC = 0, for the floating-point forms of one and two operands. -/
def Obligations.ScaledOperand : Prop :=
  ∀ (s : State) (x : Site) (h : Hdr) (ty : ETy) (d : WideBits) (e : BitVec 8) (p : WideBits) (n : Narrowing) (rnd : Rnd),
    (Ready s x h.pm [0, 1] → x.e.a = some (.wide ⟨d, true, e⟩) → (∃ w, x.e.b = some (.wide w)) →
      exec (.vadd h ty n) s = holds s x .scaleTag (e.setWidth 64) none
      ∧ exec (.vand h ty) s = holds s x .scaleTag (e.setWidth 64) none
      ∧ (x.b.fp.isSome = true → exec (.vfadd h ty rnd false) s = holds s x .scaleTag (e.setWidth 64) none))
    ∧ (Ready s x h.pm [0, 1] → x.e.a = some (unscaled p) → x.e.b = some (.wide ⟨d, true, e⟩) →
      exec (.vmul h ty n) s = holds s x .scaleTag (e.setWidth 64 + 256) none
      ∧ exec (.vperm h ty) s = holds s x .scaleTag (e.setWidth 64 + 256) none
      ∧ (x.b.fp.isSome = true → exec (.vfmul h ty rnd false) s = holds s x .scaleTag (e.setWidth 64 + 256) none))
    ∧ (Ready s x h.pm [0] → x.e.a = some (.wide ⟨d, true, e⟩) → x.b.fp.isSome = true →
      exec (.vfsqrt h rnd false) s = holds s x .scaleTag (e.setWidth 64) none)
    ∧ (∀ a b c : Wide, Ready s x h.pm [0, 1, 2] → x.e.a = some (.wide a) → x.e.b = some (.wide b) → x.e.c = some (.wide c) →
      ((a.t ≠ b.t ∨ a.e ≠ b.e) → exec (.vsel h) s = holds s x .scaleTag (b.e.setWidth 64 + 256) none)
      ∧ (a.t = b.t → a.e = b.e → c.t = true → exec (.vsel h) s = holds s x .scaleTag (c.e.setWidth 64 + 512) none))

/-- R126, R133, R150: the lane-wise floating-point forms: a lane is read in its format, multiplied by two to the power of the token's
scale exponent, operated on exactly and rounded once; the flags of the lanes are united. With SC = 0 the operands are unscaled. -/
def Obligations.WideFloat : Prop :=
  ∀ (s : State) (x : Site) (h : Hdr) (ty : ETy) (r : Rnd) (sc : Bool) (a b c : Wide), ty.isArith = true → x.b.fp.isSome = true →
    let val (ty : ETy) (t : Wide) (j : Nat) : Val :=
      ((fmtOf ty).read x.b.ftz (laneOf t.data ty.width j)).scale (if t.t then t.e.toInt else 0)
    let lanes (ty : ETy) (r : Rnd) (f : Nat → Val × Flags) (i : Instr) : Prop :=
      ∃ d fl, exec i s = .next (((s.mark x .fired).raise x fl).deliver x.ref h (unscaled d) (unscaled d))
        ∧ (∀ j < ty.lanes, laneOf d ty.width j = ((fmtOf ty).round (x.rnd r) x.b.ftz (f j).1).1)
        ∧ ∀ k, fl.getLsbD k = (List.range ty.lanes).any fun j =>
            ((f j).2 ||| ((fmtOf ty).round (x.rnd r) x.b.ftz (f j).1).2).getLsbD k
    (Ready s x h.pm [0, 1] → x.e.a = some (.wide a) → x.e.b = some (.wide b) → (sc = false → a.t = false ∧ b.t = false) →
      lanes ty r (fun j => addVal (x.rnd r) (val ty a j) (val ty b j)) (.vfadd h ty r sc)
      ∧ lanes ty r (fun j => addVal (x.rnd r) (val ty a j) (val ty b j).neg) (.vfsub h ty r sc)
      ∧ lanes ty r (fun j => mulVal (val ty a j) (val ty b j)) (.vfmul h ty r sc)
      ∧ lanes ty .fpcsr (fun j => minMaxVal false (val ty a j) (val ty b j)) (.vfmin h ty sc)
      ∧ lanes ty .fpcsr (fun j => minMaxVal true (val ty a j) (val ty b j)) (.vfmax h ty sc)
      ∧ lanes .fp32 r (fun j => divVal (val .fp32 a j) (val .fp32 b j)) (.vfdiv h r sc)
      ∧ ∀ cc, ∃ d fl, exec (.vfcmp cc h ty sc) s = .next (((s.mark x .fired).raise x fl).deliver x.ref h (unscaled d) (unscaled d))
          ∧ ∀ j < ty.lanes, laneOf d ty.width j = if (fcondHolds cc (val ty a j) (val ty b j)).1 then 2 ^ ty.width - 1 else 0)
    ∧ (Ready s x h.pm [0, 1, 2] → x.e.a = some (.wide a) → x.e.b = some (.wide b) → x.e.c = some (.wide c) →
        (sc = false → a.t = false ∧ b.t = false ∧ c.t = false) →
      lanes ty r (fun j => fmaVal (x.rnd r) (val ty a j) (val ty b j) (val ty c j)) (.vffma h ty r sc))
    ∧ (Ready s x h.pm [0] → x.e.a = some (.wide a) → (sc = false → a.t = false) →
      lanes .fp32 r (fun j => sqrtVal (val .fp32 a j)) (.vfsqrt h r sc)
      ∧ lanes .fp32 r (fun j => rsqVal (val .fp32 a j)) (.vfrsq h r sc)
      ∧ lanes .fp32 r (fun j => exp2Val (val .fp32 a j)) (.vfexp2 h r sc))

/-- R132, R151, R153, R154: the conversions, the reductions and the scale forms: VFCVT and VPACK convert the lanes that they name and
leave the others zero; VSCALE moves the scale exponent, SCALE_TAG outside -128 to 127, or applies it. That an integer VPACK with SC = 1
applies the scale of a token and rounds to an integer is the model's choice (log entry 45), and so is the flush of a BF16 subnormal that is
widened to FP32 under FTZ (log entry 46). -/
def Obligations.WideConversions : Prop :=
  ∀ (s : State) (x : Site) (h : Hdr) (ty dst src : ETy) (r : Rnd) (sc sat u half : Bool) (part : BitVec 2) (a b : Wide),
    x.b.fp.isSome = true →
    let val (ty : ETy) (t : Wide) (j : Nat) : Val :=
      ((fmtOf ty).read x.b.ftz (laneOf t.data ty.width j)).scale (if t.t then t.e.toInt else 0)
    let wide (i : Instr) (f : WideBits → Prop) : Prop :=
      ∃ d fl, exec i s = .next (((s.mark x .fired).raise x fl).deliver x.ref h (unscaled d) (unscaled d)) ∧ f d
    let scaled (md : Rnd) (t : Wide) (v : Int) : Int := if t.t then (roundInt md (decide (v < 0)) v.natAbs t.e.toInt).1 else v
    (Ready s x h.pm [0] → x.e.a = some (.wide a) →
      ((sc = false → a.t = false) → ty.isFloat = true →
        let sum (u v : Val) : Val := fmtFP32.decode (fmtFP32.round .rne x.b.ftz (addVal .rne u v).1).1
        (∃ fl, exec (.vfreda h ty r sc) s = .next (((s.mark x .fired).raise x fl).deliver x.ref h
            (.narrow (BitVec.ofNat 64 (fmtFP32.round .rne false (pairwise sum ty.lanes.log2 (val ty a) 0)).1))
            (.narrow (BitVec.ofNat 64 (fmtFP32.round .rne false (pairwise sum ty.lanes.log2 (val ty a) 0)).1))))
        ∧ ∀ mx, let v := pairwise (fun u v => (minMaxVal mx u v).1) ty.lanes.log2 (val ty a) 0
            ∃ fl, exec (.vfredm mx h ty sc) s = .next (((s.mark x .fired).raise x fl).deliver x.ref h
              (.narrow (BitVec.ofNat 64 (fmtFP32.round .rne (x.b.ftz && a.t) v).1))
              (.narrow (BitVec.ofNat 64 (fmtFP32.round .rne (x.b.ftz && a.t) v).1))))
      ∧ ((sc = false → a.t = false) → (Instr.vfcvt h dst src r sc sat u part).wf = true →
        let n := 128 / max dst.bytes src.bytes
        let conv (j : Nat) : Nat :=
          let v := if src.isInt then (ofIntVal (if u then (laneOf a.data src.width j : Int) else sInt (laneOf a.data src.width j) src.width)).scale
            (if a.t then a.e.toInt else 0) else val src a j
          if dst.isInt then
            ((toInt (x.rnd r) (if u then 0 else -(2 ^ (dst.width - 1) : Int)) (if u then 2 ^ dst.width - 1 else 2 ^ (dst.width - 1) - 1) v).1
              % 2 ^ dst.width).toNat
          else (convertVal (fmtOf dst) sat (x.rnd r) x.b.ftz v).1
        wide (.vfcvt h dst src r sc sat u part) fun d => ∀ j < dst.lanes,
          laneOf d dst.width j =
            if dst.bytes ≤ src.bytes then (if n * part.toNat ≤ j ∧ j < n * part.toNat + n then conv (j - n * part.toNat) else 0)
            else conv (n * part.toNat + j))
      ∧ ((sc = false → a.t = false) → (Instr.vpackUnpack h dst src sc u half).wf = true →
        wide (.vpackUnpack h dst src sc u half) fun d => ∀ j < dst.lanes,
          let k := (if half then dst.lanes else 0) + j
          laneOf d dst.width j =
            if dst.isInt then
              (scaled x.b.rm a (if u then (laneOf a.data src.width k : Int) else sInt (laneOf a.data src.width k) src.width) % 2 ^ dst.width).toNat
            else (convertVal (fmtOf dst) false x.b.rm x.b.ftz (val src a k)).1)
      ∧ (ty.isFloat = true →
        wide (.vscaleClear h ty r sat) fun d => ∀ j < ty.lanes,
          laneOf d ty.width j = (convertVal (fmtOf ty) sat (x.rnd r) x.b.ftz (val ty a j)).1)
      ∧ (∀ imm : BitVec 13,
        let e : Int := (if a.t then a.e.toInt else 0) + imm.toInt
        (-128 ≤ e → e ≤ 127 → exec (.vscaleImm h ty imm) s = delivers s x h (.wide ⟨a.data, true, BitVec.ofInt 8 e⟩))
        ∧ (e < -128 ∨ 127 < e → exec (.vscaleImm h ty imm) s = holds s x .scaleTag ((BitVec.ofInt 8 e).setWidth 64 + 1024) none)))
    ∧ (∀ k : W64, Ready s x h.pm [0, 1] → x.e.a = some (.wide a) → x.e.b = some (.narrow k) →
        let e : Int := (if a.t then a.e.toInt else 0) + k.toInt
        (-128 ≤ e → e ≤ 127 → exec (.vscaleReg h ty) s = delivers s x h (.wide ⟨a.data, true, BitVec.ofInt 8 e⟩))
        ∧ (e < -128 ∨ 127 < e → exec (.vscaleReg h ty) s = holds s x .scaleTag ((BitVec.ofInt 8 e).setWidth 64 + 1024) none))
    ∧ (Ready s x h.pm [0, 1] → x.e.a = some (.wide a) → x.e.b = some (.wide b) → (sc = false → a.t = false ∧ b.t = false) →
        (Instr.vpackPack h dst src r sc sat u).wf = true →
        let t (j : Nat) : Wide := if j < src.lanes then a else b
        let narrowed (v : Int) : Int :=
          if sat then (if u then max 0 (min v (2 ^ dst.width - 1)) else max (-(2 ^ (dst.width - 1) : Int)) (min v (2 ^ (dst.width - 1) - 1))) else v
        wide (.vpackPack h dst src r sc sat u) fun d => ∀ j < dst.lanes,
          laneOf d dst.width j =
            if dst.isInt then (narrowed (scaled (x.rnd r) (t j) (sInt (laneOf (t j).data src.width (j % src.lanes)) src.width)) % 2 ^ dst.width).toNat
            else (convertVal (fmtOf dst) sat (x.rnd r) x.b.ftz (val src (t j) (j % src.lanes))).1)


/-! ### Memory, synchronisation, named data (06) -/

/-- R184, R177, R178, R181, R263: a cacheable load whose order allows it, whose address translates and whose bytes are all there takes them,
lowest first, extends them as its size says, and ends as `finishLoad` says; one of an uncached page reads its home when its block is
the oldest (R263), and brings its line into the L2 there (R289); a scratchpad load is aligned to its size, or to 16 bytes,
and lies within the group scratchpad. A load that a range lock or a watchpoint stops asks nothing of its home (R181, R405). Choices of the
model: a load takes all its bytes in one step (log entry 37, R253); an uncached load waits for its own stores to reach the home (log entry
54); what a register window answers (log entry 39); and a read of host memory always leaves by CXL port 0 (log entry 67). -/
def Obligations.Loads : Prop :=
  ∀ (s : State) (x : Site) (h : Hdr) (lsid : BitVec 5) (ord : MOrd) (off : BitVec 22) (p : W64),
    Fires s x h.pm [0] → x.e.a = some (.narrow p) →
    s.loadGate x.slot x.t x.b lsid.toNat = true → s.storeWaits x.slot x.t x.b lsid.toNat = false →
    let va : W64 := p + off.signExtend 64
    let m := s.mark x .fired
    let narrow (sz : LdSize) (l : List Byte) : Token :=
      .narrow (if ldSigned sz then BitVec.ofInt 64 (sInt (leNat l) (8 * ldBytes sz)) else BitVec.ofNat 64 (leNat l % 2 ^ (8 * ldBytes sz)))
    let wide (l : List Byte) : Token := unscaled (BitVec.ofNat 1024 (leNat l))
    (∀ (n : Nat) (ps : List Piece), Reaches s x .load va n ps → (∀ q ∈ ps, q.leaf.cmode ≠ 3) →
      let g := s.gather x.ref x.idx x.t x.b lsid.toNat ps
      g.wait = false → g.missing = [] → g.loose = false →
      let ends (tok : Token) : Out := .next ((m.dropWaiter (.load x.ref x.idx)).finishLoad x.ref x.idx h lsid.toNat tok
        ⟨x.idx, lsid.toNat, false, .mem, va, n, ps, g.bytes, g.srcs⟩ g.poison g.timeout)
      (∀ sz, ldBytes sz = n → exec (.ld sz h lsid ord off) s = ends (narrow sz g.bytes))
      ∧ (∀ sz, wideLen sz = n → exec (.ldw sz h lsid ord off) s = ends (wide g.bytes)))
    ∧ (∀ (n : Nat) (ps : List Piece), Reaches s x .load va n ps → (∃ q ∈ ps, q.leaf.cmode = 3) → x.t.isOldest x.b = true →
        s.uncachedBefore x.slot x.t x.b lsid.toNat = false → s.bytesHome x.slot x.t x.b lsid.toNat ps = true →
      let stopped : Out := .next (m.finishLoad x.ref x.idx h lsid.toNat .null ⟨x.idx, lsid.toNat, false, .mem, va, n, ps, [], []⟩ false false)
      ((s.loadStopped x.slot x.t x.b .mem va n).isSome = true →
        (∀ sz, ldBytes sz = n → exec (.ld sz h lsid ord off) s = stopped)
        ∧ (∀ sz, wideLen sz = n → exec (.ldw sz h lsid ord off) s = stopped))
      ∧ (s.loadStopped x.slot x.t x.b .mem va n = none →
      let forms (s' : State) (l : List Byte) (poison dead : Bool) : Prop :=
        let ends (tok : Token) : Out := .next (s'.finishLoad x.ref x.idx h lsid.toNat tok
          ⟨x.idx, lsid.toNat, false, .mem, va, n, ps, l, []⟩ poison dead)
        (∀ sz, ldBytes sz = n → exec (.ld sz h lsid ord off) s = ends (narrow sz l))
        ∧ (∀ sz, wideLen sz = n → exec (.ldw sz h lsid ord off) s = ends (wide l))
      ((∀ q ∈ ps, paLa q.pa < 2 ^ 40 ∧ s.gate (paLa q.pa / 128) false (some (.load x.ref x.idx)) = .go) →
        let n := ps.foldl (fun s q => s.allocate (paLa q.pa / 128) q.leaf.vc.toNat) m
        forms n (ps.map fun q => n.laBytes (paLa q.pa) q.len).flatten (ps.any fun q => n.poisoned (paLa q.pa / 128))
          (ps.any fun q => (n.die (homeDie (128 * (paLa q.pa / 128)))).agent (slotCluster x.slot) == 2))
      ∧ (∀ q, ps = [q] →
        (2 ^ 40 ≤ paLa q.pa → paLa q.pa < 2 ^ 41 →
          forms (m.tellHost 0 (.d2hRead (paLa q.pa) false)) (s.laBytes (paLa q.pa) q.len) false false)
        ∧ (2 ^ 41 ≤ paLa q.pa → forms (m.windowLoad (paLa q.pa) q.len).1 (m.windowLoad (paLa q.pa) q.len).2 false false))))
    ∧ (∀ g, s.group x.t.gid = some g →
      let bytes (n : Nat) : List Byte := (List.range n).map fun i => s.spadByte x.t x.b g lsid.toNat (va.toNat + i)
      let bad (n : Nat) : Bool := (List.range n).any fun i =>
        match g.spadAt (va.toNat + i) with | some a => s.coh.poisonPool.contains (a / 8) | none => false
      let form (i : Instr) (n align : Nat) (tok : Token) : Prop :=
        (va.toNat % align ≠ 0 → exec i s = holds s x .align va (some lsid.toNat))
        ∧ (va.toNat % align = 0 → g.spadSize < va.toNat + n → exec i s = holds s x .prot va (some lsid.toNat))
        ∧ (va.toNat % align = 0 → va.toNat + n ≤ g.spadSize → x.t.spadOpaque x.b lsid.toNat va.toNat n = false → s.noPlace x [] = false →
          exec i s = .next (m.finishLoad x.ref x.idx h lsid.toNat tok
            ⟨x.idx, lsid.toNat, false, .spad, va, n, [], bytes n, []⟩ (bad n) false))
      (∀ sz, form (.lds sz h lsid off) (ldBytes sz) (ldBytes sz) (narrow sz (bytes (ldBytes sz))))
      ∧ (∀ sz, form (.ldsw sz h lsid off) (wideLen sz) 16 (wide (bytes (wideLen sz)))))

/-- R184, R177, R178, R181: a store records the low bytes of operand B, lowest first, for its address, and its LSID is performed; a data
watchpoint, a scaled token, an unaligned scratchpad address or one outside the group scratchpad is held instead. A store of memory is
translated once no fence of an older block holds it back (R422). -/
def Obligations.Stores : Prop :=
  ∀ (s : State) (x : Site) (pm : Pm) (lsid : BitVec 5) (ord : MOrd) (off : BitVec 22) (p : W64),
    Fires s x pm [0, 1] → x.e.a = some (.narrow p) →
    let va : W64 := p + off.signExtend 64
    let mem (i : Instr) (l : List Byte) : Prop := ∀ ps, s.fenceGate x.slot x.t x.b = true → Reaches s x .store va l.length ps →
      (x.t.watch x.b false true va l.length = none →
        exec i s = storesAt s x ⟨x.idx, lsid.toNat, true, .mem, va, l.length, ps, l, []⟩ true)
      ∧ ∀ v, x.t.watch x.b false true va l.length = some v → exec i s = holds s x .watch v (some lsid.toNat)
    let spad (i : Instr) (align : Nat) (l : List Byte) : Prop := ∀ g, s.group x.t.gid = some g →
      (va.toNat % align ≠ 0 → exec i s = holds s x .align va (some lsid.toNat))
      ∧ (va.toNat % align = 0 → g.spadSize < va.toNat + l.length → exec i s = holds s x .prot va (some lsid.toNat))
      ∧ (va.toNat % align = 0 → va.toNat + l.length ≤ g.spadSize → s.noPlace x [] = false →
        exec i s = storesAt s x ⟨x.idx, lsid.toNat, true, .spad, va, l.length, [], l, []⟩ true)
    (∀ q : W64, x.e.b = some (.narrow q) → ∀ sz,
      mem (.st sz pm lsid ord off) (bytesOf q (stBytes sz)) ∧ spad (.sts sz pm lsid off) (stBytes sz) (bytesOf q (stBytes sz)))
    ∧ (∀ (d : WideBits) (e : BitVec 8) (sz : WideSize),
      (x.e.b = some (.wide ⟨d, false, e⟩) →
        mem (.stw sz pm lsid ord off) (bytesOf d (wideLen sz)) ∧ spad (.stsw sz pm lsid off) 16 (bytesOf d (wideLen sz)))
      ∧ (x.e.b = some (.wide ⟨d, true, e⟩) →
        exec (.stw sz pm lsid ord off) s = holds s x .scaleTag (e.setWidth 64 + 256) (some lsid.toNat)
        ∧ exec (.stsw sz pm lsid off) s = holds s x .scaleTag (e.setWidth 64 + 256) (some lsid.toNat)))

/-- R178, R187, R188: an atomic at an address that is a multiple of its size is recorded as a store-class access, its write slots count
as filled and await the home's answer; an unaligned address is ALIGN. What it writes for the old value of its location: the sum, the
bitwise forms, the smaller or larger as signed or unsigned numbers; CAS writes C where the old value is B; CAS.xchg writes B. -/
def Obligations.Atomics : Prop :=
  (∀ (s : State) (x : Site) (h : Hdr) (lsid : BitVec 5) (ord : MOrd) (off : BitVec 22) (p : W64), x.e.a = some (.narrow p) →
    let va : W64 := p + off.signExtend 64
    let form (i : Instr) (need : List Nat) (n : Nat) : Prop := Fires s x h.pm need →
      (va.toNat % n ≠ 0 → exec i s = holds s x .align va (some lsid.toNat))
      ∧ (va.toNat % n = 0 → ∀ ps, s.fenceGate x.slot x.t x.b = true → Reaches s x .store va n ps →
        (x.t.watch x.b true true va n = none →
          exec i s = .next (((s.mark x .fired).addStore x ⟨x.idx, lsid.toNat, true, .mem, va, n, ps, [], []⟩ true).modBlock x.ref
            fun b => (b.awaitAtomic h.t0).awaitAtomic h.t1))
        ∧ ∀ v, x.t.watch x.b true true va n = some v → exec i s = holds s x .watch v (some lsid.toNat))
    (∀ w op, form (.atom w op h lsid ord off) [0, 1] (bitsW w / 8))
    ∧ (∀ w, form (.cas w false h lsid ord off) [0, 1, 2] (bitsW w / 8) ∧ form (.cas w true h lsid ord off) [0, 1] (bitsW w / 8))
    ∧ (∀ op, form (.fatom false op h lsid ord off) [0, 1] 4 ∧ form (.fatom true op h lsid ord off) [0, 1] 8))
  ∧ (∀ (w : Width) (b c old : W64),
    let lo (v : W64) : Nat := (lowU w v).toNat
    let new (op : AtomOp) : Nat := (DrainOp.atomic w op b).new (lo old)
    new .add = lo (old + b) ∧ new .and = lo (old &&& b) ∧ new .or = lo (old ||| b) ∧ new .xor = lo (old ^^^ b)
    ∧ new .min = (if (lowS w old).slt (lowS w b) then lo old else lo b)
    ∧ new .max = (if (lowS w old).slt (lowS w b) then lo b else lo old)
    ∧ new .minu = Nat.min (lo old) (lo b) ∧ new .maxu = Nat.max (lo old) (lo b)
    ∧ (DrainOp.cas w false b c).new (lo old) = (if lo old = lo b then lo c else lo old)
    ∧ (DrainOp.cas w true b c).new (lo old) = lo b
    ∧ ∀ d, let f := fmtD d
      let n := if d then 64 else 32
      let x := f.read false (old.toNat % 2 ^ n)
      let y := f.read false (b.toNat % 2 ^ n)
      (DrainOp.fatom d .fadd b).new (old.toNat % 2 ^ n) = (f.round .rne false (addVal .rne x y).1).1
      ∧ (DrainOp.fatom d .fmin b).new (old.toNat % 2 ^ n) = (f.round .rne false (minMaxVal false x y).1).1
      ∧ (DrainOp.fatom d .fmax b).new (old.toNat % 2 ^ n) = (f.round .rne false (minMaxVal true x y).1).1)

/-- R189 to R191, R180: PREF performs whatever its translation finds, and never faults, once its queue, its misses and the walks have a
place for it (R353); FENCE performs as it fires and acts at the commit; a CLINE form records the line of its address. -/
def Obligations.PrefetchFenceLine : Prop :=
  ∀ (s : State) (x : Site) (pm : Pm) (lsid : BitVec 5) (off : BitVec 22) (p : W64),
    let va : W64 := p + off.signExtend 64
    let performed := (s.mark x .fired).resolveAt x.ref x.idx lsid.toNat .performed
    (∀ k, Fires s x pm [0] → x.e.a = some (.narrow p) → s.prefRoom x off = true →
      match s.translate x.who .load va 1 with
      | .ok ps => exec (.pref k pm lsid off) s = .next (ps.foldl (fun s q => s.prefetch x.who.cl (x.prefGrid off) k q) performed)
      | .fault _ _ => exec (.pref k pm lsid off) s = .next performed
      | .miss a => exec (.pref k pm lsid off) s = .next (performed.startWalk x.who a false (.prefetch x.slot x.ref x.idx)))
    ∧ (∀ k sc, Ready s x pm (trigger x) → exec (.fence k pm lsid sc) s = .next performed)
    ∧ (Fires s x pm [0] → x.e.a = some (.narrow p) → s.fenceGate x.slot x.t x.b = true → ∀ q ps,
        let n := s.lineBytes q
        let base : W64 := BitVec.ofNat 64 (va.toNat / n * n)
        let line (data : List Byte) : Access :=
          ⟨x.idx, lsid.toNat, true, .mem, base, n, [{ q with pa := q.pa / n * n, len := n }], data, []⟩
        (Reaches s x .load va 1 (q :: ps) → x.t.watch x.b true false base n = none →
          exec (.clineClean pm lsid off) s = storesAt s x (line []) false
          ∧ exec (.clineInval pm lsid off) s = storesAt s x (line []) false
          ∧ exec (.clineFlush pm lsid off) s = storesAt s x (line []) false)
        ∧ (Reaches s x .store va 1 (q :: ps) → x.t.watch x.b false true base n = none →
          exec (.clineZero pm lsid off) s = storesAt s x (line (List.replicate n 0)) true
          ∧ exec (.clineReclaim pm lsid off) s = storesAt s x (line []) true))

/-- R192 to R203: SARM and SADD record their operation on the word of their reference; SREAD delivers the field of the word as its bytes
are now; SWAIT ends at once where the word wakes it, and else waits at the word. That a thread that has read a word, or waited for it, has
met the threads that operated on it (`meetWord`, the handshake of R23) is the model's choice (log entry 53). -/
def Obligations.SyncForms : Prop :=
  ∀ (s : State) (x : Site) (lsid : BitVec 5) (ord : MOrd) (off : BitVec 22) (p : W64), x.e.a = some (.narrow p) →
    let ref : W64 := p + off.signExtend 64
    let m := s.mark x .fired
    (∀ pm l ps, Fires s x pm [0, 1] → s.fenceGate x.slot x.t x.b = true → Refers s x true ref l ps → (ps ≠ [] → x.t.watch x.b false true (refBase ref) 16 = none) →
      let acc := wordAccess x lsid.toNat true ref ps
      exec (.sarm pm lsid ord off) s = .next ((m.addStore x acc true).recordAt x (.sarm pm lsid ord off) [] (some l) ps)
      ∧ exec (.sadd pm lsid ord off) s = .next ((m.addStore x acc true).recordAt x (.sadd pm lsid ord off) [] (some l) ps))
    ∧ (∀ (h : Hdr) (l : WLoc) (ps : List Piece), s.loadGate x.slot x.t x.b lsid.toNat = true → Refers s x false ref l ps →
        s.wordTurn x lsid.toNat ps = true → s.wordGate x l = .go →
      let reads (f : SyncField) (bs : List Byte) : State :=
        let a := { wordAccess x lsid.toNat false ref ps with data := bs }
        let v := (SyncWord.ofNat (leNat bs)).field f
        let n := (m.wordRead ps).modBlock x.ref fun b => { (b.resolveLsid x.idx lsid.toNat .performed) with accs := b.accs ++ [a] }
        ((n.meetWord x.slot l).deliver x.ref h (.narrow v) (.narrow v)).loadDone x.ref x.idx a
      (∀ f dev la vc r bs, Fires s x h.pm [0] → l = .mem dev la vc r → s.wordMem x lsid.toNat (dev * 2 ^ 52 + la) = some bs →
        (s.wordFault x l ref = none → exec (.sread f h lsid ord off) s = .next (reads f bs))
        ∧ ∀ c v, s.wordFault x l ref = some (c, v) → exec (.sread f h lsid ord off) s = holds s x c v (some lsid.toNat))
      ∧ (∀ f a r g, Fires s x h.pm [0] → l = .pool a r → s.group x.t.gid = some g → s.wordFault x l ref = none →
          x.t.spadOpaque x.b lsid.toNat (refBase ref).toNat 16 = false →
        let bs := (List.range 16).map fun i => s.spadByte x.t x.b g lsid.toNat ((refBase ref).toNat + i)
        exec (.sread f h lsid ord off) s = .next (reads f bs))
      ∧ (∀ (t : Bool) (g : W64), Fires s x h.pm [0, 1] → x.e.b = some (.narrow g) → s.wordClear x l ref = true →
        s.wordFault x l ref = none →
        let n := ((m.wordRead ps).markLoaded x.ref x.idx).modBlock x.ref fun b => { b with accs := b.accs ++ [wordAccess x lsid.toNat false ref ps] }
        ((s.syncWord l).wakes g.toNat = true →
          exec (.swait t h lsid ord off) s = .next ((n.meetWord x.slot l).swaitEnd x.ref x.idx h lsid.toNat t ref (s.syncWord l)))
        ∧ ((s.syncWord l).wakes g.toNat = false → ∃ n, exec (.swait t h lsid ord off) s = .next n
            ∧ n.swaits = s.swaits ++ [⟨x.ref, x.idx, l, g.setWidth 16, t, ref⟩])))

/-- R204 to R209: WANT, OFFER and WDROP are performed as they fire and act at the commit; a destination or source that is not a multiple
of 16, or a length that is not from 16 to 65,536 in steps of 16, is ALIGN; a mask that names a member the group has not is PROT. That
this PROT, and the one of a group without a partition, name operand C is the model's choice (log entry 18), and so is the order of the
checks (log entry 36). -/
def Obligations.NamedForms : Prop :=
  ∀ (s : State) (x : Site) (pm : Pm) (lsid : BitVec 5) (spad : Bool) (b c : W64),
    (Fires s x pm [0, 1] → s.formFull x = false → exec (.wdrop pm lsid) s = resolvesAt s x lsid.toNat (.wdrop pm lsid) none [])
    ∧ (Fires s x pm [0, 1, 2] → x.e.b = some (.narrow b) → x.e.c = some (.narrow c) →
      let align (v : W64) : Out := holds s x .align v (some lsid.toNat)
      let prot : Out := holds s x .prot c (some lsid.toNat)
      (∀ life gmask g, s.group x.t.gid = some g →
        let i : Instr := .want spad pm lsid life gmask
        (b.toNat % 16 ≠ 0 → exec i s = align b)
        ∧ (b.toNat % 16 = 0 → g.maskBeyond gmask = true → exec i s = prot)
        ∧ (b.toNat % 16 = 0 → gmask = 0 → ∀ l ps, Refers s x true c l ps → exec i s = resolvesAt s x lsid.toNat i (some l) ps)
        ∧ (b.toNat % 16 = 0 → g.maskBeyond gmask = false → gmask ≠ 0 → s.formFull x = false →
            exec i s = if c.toNat % 16 = 0 then prot else if c.toNat % 16 ≠ 1 then align c
              else if g.part = 0 then prot else resolvesAt s x lsid.toNat i none []))
      ∧ (∀ r, let i : Instr := .offer spad r pm lsid
        (b.toNat % 16 ≠ 0 → exec i s = align b)
        ∧ (b.toNat % 16 = 0 → (c.toNat < 16 ∨ 65536 < c.toNat ∨ c.toNat % 16 ≠ 0) → exec i s = align c)
        ∧ (b.toNat % 16 = 0 → 16 ≤ c.toNat → c.toNat ≤ 65536 → c.toNat % 16 = 0 → s.formFull x = false → exec i s = resolvesAt s x lsid.toNat i none [])))

/-! ### Matrix, engines, streams (05, 07) -/

/-- R156, R157, R160, R161, R166, R167, R173: a matrix form fires with its operands, is recorded for the commit and delivers its issue
token; ACCRD and MWAIT await their delivery; a register operand that must be unscaled is SCALE_TAG. -/
def Obligations.MatrixForms : Prop :=
  ∀ (s : State) (x : Site) (h : Hdr) (acc mc : BitVec 3) (nc : BitVec 5) (ctx : BitVec 2) (m : MmArgs) (ga gb fl : Bool),
    (Fires s x h.pm [0, 1, 2] →
      exec (.mma ga gb h m) s = issues s x h (.mma ga gb h m)
      ∧ exec (.mmac ga h m) s = issues s x h (.mmac ga h m)
      ∧ (∀ (d : WideBits) (t : Bool) (e : BitVec 8) (rb : Bool),
          (if rb then x.e.b else x.e.a) = some (.wide ⟨d, t, e⟩) →
          exec (.mmar rb h m) s =
            if t = true ∧ m.sc = false then holds s x .scaleTag (e.setWidth 64 + (if rb then 256 else 0)) none
            else issues s x h (.mmar rb h m)))
    ∧ (Fires s x h.pm [0, 1] →
      exec (.accld fl h acc ctx) s = issues s x h (.accld fl h acc ctx)
      ∧ exec (.accst fl h acc ctx) s = issues s x h (.accst fl h acc ctx)
      ∧ (∀ (d : WideBits) (t : Bool) (e : BitVec 8), x.e.b = some (.wide ⟨d, t, e⟩) →
          exec (.accwr h acc ctx) s =
            if t = true then holds s x .scaleTag (e.setWidth 64 + 256) none else issues s x h (.accwr h acc ctx))
      ∧ (∀ ref : W64, x.e.b = some (.narrow ref) →
          (ref = 0 ∨ ref.toNat % 16 ≠ 0 ∨ ∃ l ps, Refers s x true ref l ps) →
          exec (.accset ga h acc mc nc fl) s = issues s x h (.accset ga h acc mc nc fl)))
    ∧ (Fires s x h.pm [0] → exec (.accrd h acc) s = awaits s x (.accrd h acc))
    ∧ (Fires s x h.pm [] →
      exec (.accz h acc ctx) s = issues s x h (.accz h acc ctx)
      ∧ exec (.mwait fl h ctx) s = awaits s x (.mwait fl h ctx))

/-- R212, R216 to R220: COPY, GATHER and SCATTER check their operands in the order of the reasons and hold the first failure; a command
that passes is recorded for the commit and delivers its issue token. CWAIT awaits its delivery. That reasons 0x04 and 0x06 carry the letter
of operand B is the model's choice (log entry 49), and so is the order in which failures are looked for (log entry 36). -/
def Obligations.EngineForms : Prop :=
  ∀ (s : State) (x : Site) (h : Hdr) (a b c : W64) (g : Group),
    (Fires s x h.pm [0, 1, 2] → x.e.a = some (.narrow a) → x.e.b = some (.narrow b) → x.e.c = some (.narrow c) →
        s.group x.t.gid = some g →
      let sync (mask : BitVec 4) : Bool := !c.getLsbD 35 || g.wordFits mask (16 * bitsOf c.toNat 63 36)
      (∀ (k : CopyKind) (mask : BitVec 4), let len := c.toNat % 2 ^ 32
        exec (.copy k h mask) s =
          if a.toNat % 16 ≠ 0 then badOp s x 0x01 0
          else if b.toNat % 16 ≠ 0 then badOp s x 0x01 1
          else if len % 16 ≠ 0 then badOp s x 0x01 2
          else if len = 0 then badOp s x 0x02 2
          else if bitsOf c.toNat 34 32 ≠ 0 then badOp s x 0x03 2
          else if ∃ j ∈ List.range 4, mask.getLsbD j = true ∧ g.members.length ≤ j then badOp s x 0x04 1
          else if k = .ms ∧ g.rangeFits mask b.toNat len = false then badOp s x 0x05 1
          else if k = .sm ∧ g.spadSize < a.toNat + len then badOp s x 0x05 0
          else if sync mask = false then badOp s x 0x05 2
          else if k = .mm ∧ a.toNat < b.toNat + len ∧ b.toNat < a.toNat + len then badOp s x 0x06 1
          else issues s x h (.copy k h mask))
      ∧ (∀ i64 spad, let n := bitsOf c.toNat 31 16
          let rs := 16 * (c.toNat % 4096)
          let form (i : Instr) : Prop := exec i s =
            if a.toNat % 16 ≠ 0 then badOp s x 0x01 0
            else if b.toNat / 2 ^ 32 % 16 ≠ 0 ∨ b.toNat % 2 ^ 32 % 16 ≠ 0 then badOp s x 0x01 1
            else if n = 0 ∨ rs = 0 then badOp s x 0x02 2
            else if bitsOf c.toNat 34 32 ≠ 0 ∨ bitsOf c.toNat 15 12 ≠ 0 then badOp s x 0x03 2
            else if g.spadSize < b.toNat / 2 ^ 32 + n * rs ∨ g.spadSize < b.toNat % 2 ^ 32 + n * (if i64 then 8 else 4) then
              badOp s x 0x05 1
            else if sync 0 = false then badOp s x 0x05 2
            else issues s x h i
          form (.gather i64 spad h) ∧ form (.scatter i64 spad h)))
    ∧ (Fires s x h.pm [] → exec (.cwait h) s = awaits s x (.cwait h))

/-- R221 to R224: STRIN and STROUT of the oldest block read their record in the scratchpad and are recorded; SRECV takes the first element
of its port, faults as a failed element says, or delivers a null and true at the end of the pattern; SSEND gives its port the element. That
STRIN and STROUT wait for their block to be the oldest is the model's reading (log entry 22); that SV = 1 of a STRIN is reason 0x03 at
operand C, and that SSEND at an unbound port names operand A, are its choices (log entry 49). -/
def Obligations.StreamForms : Prop :=
  ∀ (s : State) (x : Site) (h : Hdr) (port : BitVec 3) (dim : BitVec 2),
    let m := s.mark x .fired
    let n := dim.toNat + 1
    (∀ (a b c : W64) (g : Group), Fires s x h.pm [0, 1, 2] → x.e.a = some (.narrow a) → x.e.b = some (.narrow b) →
        x.e.c = some (.narrow c) → x.t.isOldest x.b = true → s.group x.t.gid = some g →
        a.toNat % 16 = 0 → b.toNat % 16 = 0 → 1 ≤ c.toNat % 16 → c.toNat % 16 ≤ 8 → bitsOf c.toNat 34 5 = 0 →
        b.toNat + 16 * n ≤ g.spadSize → (c.getLsbD 35 = true → 16 * bitsOf c.toNat 63 36 + 16 ≤ g.spadSize) →
        x.t.spadOpaque x.b 0 b.toNat (16 * n) = false →
        s.rangeLocked (slotCluster x.slot) .spad x.t.gid b.toNat (16 * n) false = false →
        s.spadPoison g b.toNat (16 * n) = none →
      let bytes := (List.range (16 * n)).map fun j => s.spadByte x.t x.b g 0 (b.toNat + j)
      patternBad bytes n = none →
      let done (i : Instr) : Out := .next ((m.record x i bytes).deliver x.ref h (.narrow 0) (.narrow 0))
      (c.getLsbD 35 = false → exec (.strin h port dim) s = done (.strin h port dim))
      ∧ (c.getLsbD 35 = true → exec (.strin h port dim) s = badOp s x 0x03 2)
      ∧ exec (.strout h port dim) s = done (.strout h port dim))
    ∧ (∀ pat, Fires s x h.pm [] → x.t.portBusy x.b (bindsIn port.toNat) (usesIn port.toNat) = false →
        x.b.used (usesIn port.toNat) = false → (x.t.inPort port.toNat).pat = some pat →
      let q := x.t.inPort port.toNat
      (∀ w rest, q.fifo = .ok w :: rest →
        exec (.srecv h port) s = .next (((m.modIn x.slot port.toNat fun y =>
          { y with fifo := rest, taken := y.taken ++ [(x.b.ic, .ok w)] }).record x (.srecv h port) []).deliver x.ref h
            (unscaled w) (.pred false)))
      ∧ (∀ f v rest, q.fifo = .failed f v :: rest →
        exec (.srecv h port) s = .next ((m.modIn x.slot port.toNat fun y =>
          { y with fifo := rest, taken := y.taken ++ [(x.b.ic, .failed f v)] }).holdAt x f v none))
      ∧ (q.fifo = [] → pat.total ≤ q.pos →
        exec (.srecv h port) s = .next ((m.record x (.srecv h port) []).deliver x.ref h .null (.pred true))))
    ∧ (∀ (pat : Pattern) (d : WideBits) (e : BitVec 8), Fires s x h.pm [0] →
      (x.e.a = some (.wide ⟨d, true, e⟩) → exec (.ssend h port) s = holds s x .scaleTag (e.setWidth 64) none)
      ∧ (x.e.a = some (.wide ⟨d, false, e⟩) → x.t.portBusy x.b (bindsOut port.toNat) (usesOut port.toNat) = false →
        x.b.used (usesOut port.toNat) = false → (x.t.outPort port.toNat).waiting = none →
        let q := x.t.outPort port.toNat
        (q.pat = none → exec (.ssend h port) s = badOp s x 0x07 0)
        ∧ (q.pat = some pat → pat.total ≤ q.next → exec (.ssend h port) s = badOp s x 0x08 0)
        ∧ (q.pat = some pat → q.next < pat.total → q.pend.length + q.out.length < 16 →
          exec (.ssend h port) s = .next (((m.modOut x.slot port.toNat fun y =>
            { y with pend := y.pend ++ [(x.b.ic, y.next, d)], next := y.next + 1 }).record x (.ssend h port) []).deliver x.ref h
              (.narrow 0) (.narrow 0)))))

/-! ### Threads and the system (07) -/

/-- R211, R212, R225 to R234: the thread forms check their target word or record address, hold BAD_STATE where the thread's state forbids
them, and else are recorded for the commit. -/
def Obligations.ThreadForms : Prop :=
  ∀ (s : State) (x : Site) (pm : Pm) (q : BitVec 12) (t : Bool) (a : W64),
    (Fires s x pm (trigger x) →
      exec (.yield pm) s = records s x (.yield pm)
      ∧ exec (.sleep pm) s = records s x (.sleep pm)
      ∧ exec (.hret pm) s = (if x.t.sys.handler then records s x (.hret pm) else holds s x .badState 1 none)
      ∧ exec (.fuse pm) s = (if x.b.resident ∨ x.t.sys.handler then holds s x .badState 2 none else records s x (.fuse pm))
      ∧ exec (.split pm) s = (if x.b.resident ∨ x.t.sys.handler then holds s x .badState 2 none else records s x (.split pm)))
    ∧ (x.e.a = some (.narrow a) →
      (Fires s x pm [0] →
        (a.toNat % 64 ≠ 0 → exec (.launch pm q) s = badOp s x 0x01 0)
        ∧ (a.toNat % 64 = 0 → ∀ ps, Reaches s x .load a 64 ps → exec (.launch pm q) s = recordsAt s x (.launch pm q) none ps)
        ∧ exec (.wake pm) s = (if bitsOf a.toNat 63 36 ≠ 0 ∨ a.toNat % 1024 ≠ 0 then badOp s x 0x03 0 else records s x (.wake pm)))
      ∧ (Fires s x pm [0, 1, 2] →
        exec (.invokeQ t pm q) s = (if bitsOf a.toNat 63 36 ≠ 0 ∨ a.toNat % 2 ^ 22 ≠ 0 then badOp s x 0x03 0
          else records s x (.invokeQ t pm q))
        ∧ exec (.invokeH t pm q) s = (if bitsOf a.toNat 63 36 ≠ 0 ∨ a.toNat % 1024 ≠ 0 then badOp s x 0x03 0
          else records s x (.invokeH t pm q))))

/-- R211, R235 to R241: MFSR of the oldest block delivers the register as it is committed; the other system forms are recorded for the
commit, once their selector, record address and sync word pass; a second TRAP or BKPT of a block is BAD_STATE. -/
def Obligations.SystemForms : Prop :=
  ∀ (s : State) (x : Site) (pm : Pm),
    (Fires s x pm (trigger x) →
      exec (.eret pm) s = records s x (.eret pm)
      ∧ exec (.tlbinvAll pm) s = records s x (.tlbinvAll pm)
      ∧ exec (.tlbsync pm) s = records s x (.tlbsync pm)
      ∧ (∀ num, exec (.trap pm num) s = (if x.b.trapped then holds s x .badState 3 none else records s x (.trap pm num))
        ∧ exec (.bkpt pm num) s = (if x.b.trapped then holds s x .badState 3 none else records s x (.bkpt pm num)))
      ∧ (∀ code t0 t1, x.t.isOldest x.b = true → exec (.mfsr ⟨pm, t0, t1⟩ code) s = gives s x ⟨pm, t0, t1⟩ (x.t.readSr code.toNat)))
    ∧ (Fires s x pm [0] →
      (∀ code, exec (.mtsr pm code) s = records s x (.mtsr pm code)) ∧ exec (.tlbinvAsid pm) s = records s x (.tlbinvAsid pm))
    ∧ (∀ a b : W64, x.e.a = some (.narrow a) → x.e.b = some (.narrow b) →
      (Fires s x pm [0, 1, 2] →
        exec (.tlbinvVa pm) s = records s x (.tlbinvVa pm)
        ∧ ∀ c : W64, x.e.c = some (.narrow c) →
          let table (i : Instr) (sel : W64) : Prop :=
            (a &&& ~~~sel ≠ 0 → exec i s = badOp s x 0x03 0)
            ∧ (a &&& ~~~sel = 0 → b.toNat % 64 ≠ 0 → exec i s = badOp s x 0x01 1)
            ∧ (a &&& ~~~sel = 0 → b.toNat % 64 = 0 → ∀ w ps, NamesWord s x c w → Reaches s x .load b 64 ps →
              exec i s = recordsAt s x i w ps)
          table (.vcdef pm) 0x33F ∧ table (.namedef pm) 0x3FFF ∧ table (.htdef pm) 0x3FFF)
      ∧ (Fires s x pm [0, 1] →
        (∀ w ps, NamesWord s x b w → Reaches s x .store a 1 ps →
          let form (i : Instr) : Prop :=
            exec i s = if ∃ p ∈ ps, p.leaf.cmode ≠ 2 then holds s x .prot a none else recordsAt s x i w ps
          form (.biasHost pm) ∧ form (.biasDev pm))
        ∧ (∀ grp w, NamesWord s x b w →
          exec (.preempt pm grp) s =
            if bitsOf a.toNat 63 36 ≠ 0 ∨ a.toNat % 1024 ≠ 0 then badOp s x 0x03 0
            else if bitsOf a.toNat 35 24 ≠ s.dev then badOp s x 0x09 0
            else recordsAt s x (.preempt pm grp) w [])))


/-! ### Frames, commits, traps (01, 07, 12) -/

/-- R30, R37, R340, R341, R71, R20, R45, R87: BLOCK_FETCH grants the block that its thread wants a frame, and goes on with the fetch of one
that has it, whose successor is then predicted; MAP_TIME_CHECK holds the first failure of the oldest block, discards a younger block that
fails, or lets a block into FIRE with the register values that are there;
REGISTER_FORWARD gives a block a value that has become available, and starts the next iteration of a resident block; BLOCK_QUIESCENCE
marks a block in which nothing more can happen, and holds EXIT_ERROR with the place of what is missing. Choices of the model: the IC that
a mapped block takes where a header could not be read (`icFor`, `dueAfter`: log entry 30), when the next iteration starts (log entry 20),
that a younger block that fails its check is discarded at once (log entries 20 and 40), and STATUS.IMG at the first fetch (log entry 52). -/
def Obligations.FrameEvents : Prop :=
  ∀ (s : State) (r : BRef) (t : Thread) (b : Block),
    (∀ a red sh, tget s.thr r.slot = some t → (∀ y ∈ t.blocks ++ t.shadow.toList, y.fetching a = false) →
      t.wanted = some (a, red, sh) → s.groupStarted t.gid = true → (s.grid (blockGrid r.slot t (t.newFrame a))).dbg.frozen = false →
      (sh = true ∨ s.frameFree r.slot t (blockGrid r.slot t (t.newFrame a)) = true) →
      exec (.blockFetch r.slot a) s = .next (s.grant r.slot t a red sh))
    ∧ (∀ ps l, tget s.thr r.slot = some t → b ∈ t.blocks → b.fetching b.addr = true →
      (∀ y ∈ t.blocks ++ t.shadow.toList, y.fetching b.addr = true → y = b) →
      let w : Who := t.who r.slot (blockGrid r.slot t b)
      let n := imageBytes ((words64 (l.take 64)).getD 0 0)
      let reads (ps : List Piece) : Prop := (∀ p ∈ ps, ∀ k ∈ p.keys, s.stale (slotCluster r.slot) k s.ns9 = false)
        ∧ s.gates (slotDie r.slot) false none (s.codeLines ps) = .go
      s.translate w .fetch b.addr 64 = .ok (ps.take 4) → reads (ps.take 4) → s.codeBytes r.slot b.addr (ps.take 4) = .bytes (l.take 64) →
      (t.wrongImage b.addr (ps.take 4) = true → exec (.blockFetch r.slot b.addr) s =
        .next ((s.dropWaiter (.fetch r.slot b.addr)).modFetch r.slot b.addr fun y => y.fetchFault .imageTag b.addr))
      ∧ (t.wrongImage b.addr (ps.take 4) = false →
        s.translate w .fetch b.addr n = .ok ps → reads ps → s.codeBytes r.slot b.addr ps = .bytes l →
        exec (.blockFetch r.slot b.addr) s =
          .next ((((s.codeRead ps).dropWaiter (.fetch r.slot b.addr)).modThread r.slot fun t => t.launchImg b ps).modFetch r.slot b.addr fun y =>
          let z := y.fetched b.addr ps l
          { z with pred := (s.grid (blockGrid r.slot t b)).pred.predict r.slot z.mapped })))
    ∧ (s.block r = some (t, b) →
      (b.state = .map → b.held = [] →
        (∀ f, mapFail t.mapFor b = some f → exec (.mapTimeCheck r) s =
          .next (if t.isOldest b then s.modBlock r fun y => y.hold .map 127 f.trap else s.dropUnmapped r.slot t b))
        ∧ (mapFail t.mapFor b = none →
          let z : Block := { b.mapped with state := .fire, ic := t.icFor b.mapped }
          exec (.mapTimeCheck r) s = .next ((s.modThread r.slot fun t =>
            { t with blocks := t.blocks.map fun w => if w.seq == r.seq && w.ic == r.ic then z else w
                     sys := if t.isOldest b then { t.sys with resid := z.resident } else t.sys
                     ic := if t.isOldest b then z.ic else t.ic
                     icDue := if t.isOldest b then t.dueAfter z else t.icDue }).takeReads ⟨r.slot, z.seq, z.ic⟩)))
      ∧ (t.mayIterate b = true → exec (.registerForward r) s =
          .next ((s.modThread r.slot fun t => { t with blocks := t.blocks ++ [b.nextIter] }).takeReads ⟨r.slot, b.nextIter.seq, b.nextIter.ic⟩))
      ∧ (∀ t' y, t.mayIterate b = false → b.state = .fire → (s.takeReads r).block r = some (t', y) →
          (y.reads ≠ b.reads ∨ y.args ≠ b.args ∨ y.fp ≠ b.fp) → exec (.registerForward r) s = .next (s.takeReads r))
      ∧ (b.quiet = true → exec (.blockQuiescence r) s = .next (s.modBlock r fun y =>
          let q : Block := { y with quiesced := true }
          match y.unfinished with
          | none => q
          | some l => q.hold .exitQ 127 ⟨.exitError, 0, tinfo l y.itag 0 0 false⟩)))

/-- R34, R35, R44: the oldest block commits once it is complete, without a failure, with everything reserved: its effects are released
in order, then its exit is followed; so does an iteration of a resident block. The order of R35: first the write slots, each of which reaches
its register, the system registers and the flags; then the store-class accesses with the fences, WANT, OFFER and WDROP, in ascending LSID,
each store-class access among them; then the other recorded effects in ascending instruction index. R301: PTBASE and ASID follow last. R262,
R280: what stands behind a fence is released in its turn. -/
def Obligations.CommitEvents : Prop :=
  ∀ (s : State) (slot : Nat) (t : Thread), tget s.thr slot = some t →
    (∀ (b : Block) (l : List Block) (x : FiredExit), t.blocks = b :: l → b.exit = some x → s.mayCommit slot t b = true →
      let n := (((s.modThread slot fun t => { t with syncHold := [] }).release slot b).recheckLoads slot).commitEnd slot b x
      (b.resident = false → exec (.blockCommit slot) s = .next n)
      ∧ (b.resident = true → exec (.residentIterationCommit slot) s = .next n))
    ∧ (∀ b : Block,
      let begun := s.modThread slot fun t =>
        { t with sys := { t.sys with img := b.img }, sibReads := t.sibReads ++ (b.accs.map (·.srcs)).flatten }
      let registers := ((begun.commitWrites slot b).commitMtsr slot false b).modThread slot fun t =>
        { t with sys := { t.sys with fpcsr := t.sys.fpcsr ||| b.flags.setWidth 32 } }
      let stores := b.storeItems.foldl (fun m p => m.commitStore slot b p) (registers.clearRecords slot b)
      let others := (b.byIndex.filter fun e => e.ins.lsid.isNone).foldl (fun m e => m.commitEffect slot b e) stores
      s.release slot b = (others.consumeTaken slot b).commitMtsr slot true b
      ∧ (b.storeItems.map (·.1)).Pairwise (· ≤ ·)
      ∧ (∀ a, (a.lsid, StoreItem.acc a) ∈ b.storeItems ↔ a ∈ b.accs ∧ a.store = true)
      ∧ (b.byIndex.map (·.idx)).Pairwise (· ≤ ·) ∧ (∀ e, e ∈ b.byIndex ↔ e ∈ b.effs)
      ∧ (∀ w ∈ b.writes, ∀ v : W64, w.tok = some (.narrow v) → 1 ≤ w.reg.toNat → w.reg.toNat < 24 → t.regs.g.length = 24 →
          (∀ y ∈ b.writes, y.reg = w.reg → y = w) →
          ∃ u, tget (s.commitWrites slot b).thr slot = some u ∧ u.regs.g.getD w.reg.toNat 0 = v))
    ∧ (∀ x, t.tail ≠ [] → s.nextItem slot t = some x → exec (.fenceWaitEnd slot) s =
        .next ((s.modThread slot fun t => { t with tail := t.tail.filter fun y => y.order != x.order }).releaseItem slot x.sender x.item))

/-- R242, R243, R245, Tables 7-11 to 7-13: the failure of the oldest block is taken with TPC its address, and a trap of a boundary with
TPC the pc; taking a trap saves pc, mode and cause in TPC and TCAUSE, sets TVAL and TINFO, enters supervisor mode for the causes of
class S, goes on at TVEC, and discards every block in flight; it changes no register. R237, R407: a return takes pc and mode from TPC
and TCAUSE.PMODE, marks the block of a WATCH or BREAK, and changes nothing else. -/
def Obligations.TrapEntryAndReturn : Prop :=
  (∀ (s : State) (slot : Nat) (t : Thread), tget s.thr slot = some t →
    let taken (n : State) (asynch : Bool) (pc : W64) (c : Cause) (tval info : W64) : Prop := ∃ u, tget n.thr slot = some u
      ∧ u.pc = t.sys.tvec ∧ u.sys.tpc = pc &&& ~~~(0x3F : W64)
      ∧ u.sys.tcause = (if asynch then 0x8000000000000000 else 0) + (if t.sys.mode then 0x4000000000000000 else 0) + BitVec.ofNat 64 c.code
      ∧ u.sys.tval = tval ∧ u.sys.tinfo = info ∧ u.sys.mode = (t.sys.mode || c.sup) ∧ u.sys.resid = false
      ∧ u.blocks = [] ∧ u.shadow = none ∧ u.asleep = false ∧ u.boundary = false ∧ u.regs = t.regs ∧ u.ic = t.ic ∧ u.msgs = t.msgs
    s.frozenFor slot t = false → t.saving = false →
    (∀ b l x, t.boundary = false → t.blocks = b :: l → s.blockFault slot t b = some x →
      ∃ n, exec (.trapEntry slot) s = .next n ∧ taken n false b.addr x.cause x.tval x.tinfo)
    ∧ (t.boundary = true →
      (∀ x pc, t.postTrap = some (x, pc) → ∃ n, exec (.trapEntry slot) s = .next n ∧ taken n true pc x.cause x.tval x.tinfo)
      ∧ (∀ x, t.postTrap = none → t.asyncTrap = some x →
        ∃ n, exec (.trapEntry slot) s = .next n ∧ taken n true t.pc x.cause x.tval x.tinfo)))
  ∧ (∀ t : Thread, t.trapReturn = { t with
    pc := t.sys.tpc &&& ~~~(0x3F : W64)
    sys := { t.sys with mode := t.sys.tcause.getLsbD 62 }
    dbgMark := if t.sys.tcause.toNat % 2 ^ 16 = 0x30 ∨ t.sys.tcause.toNat % 2 ^ 16 = 0x31 then some (t.sys.tpc &&& ~~~(0x3F : W64)) else t.dbgMark })

/-- R235, Table 7-10: what MFSR reads after an MTSR of the same number: the bits that the register holds; of STATUS a one at FUSEFAIL clears
it and nothing else is written (R26); INVST keeps its count of outstanding invocations (R228); the numbers that have no register read as 0
(R404), and they and those that only the machine writes take nothing; a write of one number leaves every other as it was. -/
def Obligations.SystemRegisters : Prop :=
  ∀ (t : Thread) (c d : Nat) (v : W64), t.sys.perf.length = 16 → t.sys.dbg.length = 24 →
    let after : Thread := { t with sys := t.sys.write c v }
    (∀ m : W64, (c, m) ∈ [(0x001, 0x1FFF), (0x008, ~~~0x3F), (0x009, ~~~0), (0x00A, ~~~0), (0x00B, 0xFFFFFFFF), (0x010, ~~~0x3F),
        (0x011, ~~~0x3F), (0x012, 0xC00000000000FFFF), (0x013, ~~~0), (0x014, 0x0FFFFFE0E0FF1F7F), (0x020, 0x000FFFFFFFFFF000),
        (0x021, 0xFFFF)] → after.readSr c = v &&& m)
    ∧ (0x030 ≤ c → c ≤ 0x03F → after.readSr c = v &&& 0xFFFFFFFFFFFF)
    ∧ (0x040 ≤ c → c ≤ 0x047 → after.readSr c = if c % 2 = 0 then v else v &&& 0x1F07)
    ∧ (0x048 ≤ c → c ≤ 0x04F → after.readSr c = if c % 2 = 0 then v &&& ~~~0x3F else v &&& 1)
    ∧ (0x050 ≤ c → c ≤ 0x057 → after.readSr c = if c % 4 = 3 then v &&& 0xF else v)
    ∧ (c = 0x000 → after.readSr c = if v.getLsbD 13 then t.readSr c &&& ~~~(0x2000 : W64) else t.readSr c)
    ∧ (c = 0x004 → after.readSr c = (v &&& 0xFFFFFFFFFF000000) ||| (t.readSr c &&& 0xFF0000))
    ∧ (0x058 ≤ d → d ≤ 0x05F → after.readSr d = 0)
    ∧ (c ∈ [0x002, 0x003, 0x005] ∨ 0x057 < c → ∀ k, after.readSr k = t.readSr k)
    ∧ (c ≠ d → after.readSr d = t.readSr d)

/-- R229, R230, R234: a message is entered at a boundary at which no handler runs: pc, g1, g2 and IC are saved, the message gives pc, g1
and g2. A SLEEP ends when its limit has passed. -/
def Obligations.BoundaryEvents : Prop :=
  ∀ (s : State) (slot : Nat) (t : Thread), tget s.thr slot = some t →
    (∀ m rest, t.msgs = m :: rest → t.boundary = true → t.sys.handler = false → t.postTrap = none → t.asyncTrap = none →
      t.saving = false → t.ending = false → s.frozenFor slot t = false → t.regs.g.length = 24 →
      (∀ y ∈ t.regWait, y.1 ≠ 1 ∧ y.1 ≠ 2) →
      ∃ n u, exec (.handlerMessageEntry slot) s = .next n ∧ tget n.thr slot = some u
        ∧ u.pc = m.code &&& ~~~(0x3F : W64) ∧ u.regs.g.getD 1 0 = m.a0 ∧ u.regs.g.getD 2 0 = m.a1 ∧ u.msgs = rest
        ∧ u.sys.hpc = t.pc ∧ u.sys.hg1 = t.regs.g.getD 1 0 ∧ u.sys.hg2 = t.regs.g.getD 2 0 ∧ u.sys.hic = t.ic
        ∧ u.sys.handler = true ∧ u.sys.mode = t.sys.mode ∧ u.boundary = false ∧ u.blocks = []
        ∧ (∀ k, k ≠ 1 → k ≠ 2 → u.regs.g.getD k 0 = t.regs.g.getD k 0) ∧ u.regs.v = t.regs.v ∧ u.regs.p = t.regs.p ∧ u.regs.h = t.regs.h)
    ∧ (∀ e, t.asleep = true → t.sleepUntil = some e → e ≤ s.ns9 →
      exec (.sleepLimitExpiry slot) s = .next (s.modThread slot fun t => { t with asleep := false, sleepUntil := none }))

/-! ### Memory on its way (06, 08, 10) -/

/-- R181, R185, R346, R302, R303, R306: a waiting load takes what its lines now hold, all its bytes in one step (the model's reading, log entry
37: R253 lets pieces read at differing moments); a walk that may run, and that its homes let go on, ends for every access that missed as it
did: it puts the leaf into the TLBs or holds PAGE_FAULT. R182, R405: how a load ends: a held range first, then a watchpoint, then poison, then an expired request, each held by the block with the
address; else it is performed, its access is recorded, and its token is delivered. -/
def Obligations.LoadReturnsAndOutcome : Prop :=
  (∀ (s : State),
    (∀ (r : BRef) (idx : Nat) (t : Thread) (b : Block) (e : Entry) (a : Access) (i : Instr) (h : Hdr) (lsid len : Nat) (k : LoadAs),
      s.block r = some (t, b) → b.entries[idx]? = some e → e.st = .waiting → b.accs.find? (fun a => a.idx == idx) = some a →
      decode e.word = .ok i → loadForm i = some (h, lsid, len, k) →
      let g := s.gather r idx t b lsid a.pieces
      g.wait = false → g.missing = [] → g.loose = false →
      exec (.loadDataReturn r idx) s = .next ((s.dropWaiter (.load r idx)).finishLoad r idx h lsid (k.token g.bytes)
        ⟨idx, lsid, false, .mem, a.va, len, a.pieces, g.bytes, g.srcs⟩ g.poison g.timeout))
    ∧ (∀ (id : Nat) (w : Walk), s.openWalks.find? (·.id == id) = some w →
      s.walkRuns w = true → (∀ y ∈ s.openWalks, y.miss = w.miss → s.walkHeld y = false) → s.walkGate w = .go →
      let m := s.endWalk id
      let rest (n : State) : State := (s.openWalks.filter fun y => y.miss == w.miss && y.id != id).foldl
        (fun n y => (n.endWalk y.id).walkOne y true) n
      (∀ r idx, w.who = .access r idx → exec (.pageWalk id) s = .next (rest (m.walkEntry w r idx false)))
      ∧ (∀ sup img, w.who = .engine sup img → exec (.pageWalk id) s = .next (rest (m.walkEngine w sup img false)))
      ∧ (∀ slot r idx, w.who = .prefetch slot r idx → exec (.pageWalk id) s = .next (rest (m.walkPref w slot r idx false)))
      ∧ (∀ slot addr t, w.who = .fetch slot addr → tget s.thr slot = some t →
        let q := m.walkAccess ⟨w.cl, some w.grid, w.asid, w.ptbase, t.sys.mode, t.sys.img⟩ .fetch w.va false false
        match q.2 with
        | .entry _ => exec (.pageWalk id) s = .next (rest q.1)
        | .fault _ _ => exec (.pageWalk id) s = .next (rest (q.1.modFetch slot addr fun b => b.fetchFault .pageFault w.va)))))
  ∧ (∀ (s : State) (r : BRef) (idx : Nat) (h : Hdr) (lsid : Nat) (tok : Token) (a : Access) (poison timeout : Bool) (t : Thread) (b : Block),
    s.block r = some (t, b) →
    let m := s.modBlock r fun y => y.modEntry idx fun e => { e with st := .fired }
    let ends := s.finishLoad r idx h lsid tok a poison timeout
    let fails (c : Cause) (v : W64) : State := m.modBlock r fun y => y.hold .fire idx (y.insTrap c v idx (some lsid))
    let locked := s.rangeLocked (slotCluster r.slot) a.space (if a.space = .mem then t.sys.asid.toNat else t.gid) a.va.toNat a.len false
    let watch := if a.space = .mem then t.watch b true false a.va a.len else none
    (locked = true → ends = fails .rangeLock a.va)
    ∧ (locked = false → ∀ v, watch = some v → ends = fails .watch v)
    ∧ (locked = false → watch = none → poison = true → ends = fails .poison a.va)
    ∧ (locked = false → watch = none → poison = false → timeout = true → ends = fails .timeout a.va)
    ∧ (locked = false → watch = none → poison = false → timeout = false →
        ends = ((m.modBlock r fun y =>
          { (y.resolveLsid idx lsid .performed) with accs := (y.accs.filter fun z => z.idx != idx) ++ [a] }).deliver r h tok tok).loadDone r idx a))

/-- R187, R188, R254 to R265: the oldest unit of a store buffer reaches the homes of its lines when nothing holds it, one part after another
(R253), the parts having all its pieces between them; an atomic leaves the buffer and performs at its home on its own (the model's reading,
log entry 23); its old value reaches the registers that await it. R195, R198: an arrival at a sync word and its arming count, complete when
the count meets the target, armed or not stop at 2^40 - 1, and set the error of an overrun. -/
def Obligations.DrainEvents : Prop :=
  ∀ (s : State),
    (∀ (g : Nat) (u : Machine.Unit) (rest : List Machine.Unit), (s.grid g).sb = u :: rest → s.unitHeld g u = false →
      let m := s.modGrid g fun x => { x with sb := rest }
      (u.op.isAtomic = true → exec (.storeDrain g) s =
        .next { m with coh := { m.coh with flying := s.coh.flying ++ [⟨u, g, false, 0, false⟩] } })
      ∧ (u.op.isAtomic = false → (∀ k ∈ u.lines, s.refuses (gridCluster g) k.1 = false) →
        s.wordBusy u = false →
        let p := u.part s.dev s.clk
        let n := (s.modGrid g fun x => { x with sb := p.2.toList ++ rest }).drainUnit g p.1
        (∀ q, q ∈ u.pieces ↔ q ∈ p.1.pieces ∨ ∃ v ∈ p.2, q ∈ v.pieces)
        ∧ (s.unitGate (gridDie g) p.1 = .go → (p.2.isSome = true ∨ n.asked (· == ReqWho.unit u.uid) = false) →
          exec (.storeDrain g) s = .next n)))
    ∧ (∀ (uid : Nat) (f : Flying) (p : Piece) (ps : List Piece),
      s.coh.flying.find? (fun f => f.u.uid == uid && f.u.op.isAtomic && !f.performed) = some f → s.behindAtomic f.grid f.u = false →
      f.u.pieces = p :: ps → paDev p.pa = s.dev →
      let la := paLa p.pa
      (la < 2 ^ 40 → s.biasOf (la / 4096) ≠ .host → s.poisoned (la / 128) = false → s.refuses (gridCluster f.grid) (keyOf p.pa) = false →
        s.lineGate (gridDie f.grid) (keyOf p.pa) true (some (.unit uid)) = .go →
        let old := leNat (s.laBytes la f.u.op.bytes)
        exec (.atomicPerform uid) s =
          .next ((s.writeLa la p.leaf.vc.toNat (leBytes (f.u.op.new old) f.u.op.bytes) (.thread f.grid)).atomDone uid old false))
      ∧ (la < 2 ^ 40 → (s.biasOf (la / 4096) = .host ∨ s.poisoned (la / 128) = true) →
        exec (.atomicPerform uid) s = .next (s.atomDone uid 0 true))
      ∧ (2 ^ 40 ≤ la → la < 2 ^ 41 →
        let old := leNat (s.laBytes la f.u.op.bytes)
        exec (.atomicPerform uid) s =
          .next ((s.writeHost la (leBytes (f.u.op.new old) f.u.op.bytes) (.thread f.grid)).atomDone uid old false)))
    ∧ (∀ (uid : Nat) (f : Flying) (t : Thread), s.coh.flying.find? (fun f => f.u.uid == uid && f.u.op.isAtomic) = some f → f.performed = true →
      tget s.thr f.u.slot = some t →
      let m : State := { s with coh := { s.coh with flying := s.coh.flying.filter (·.u.uid != uid) } }
      let v := if f.poisoned then 0 else f.result
      let n := (((t.regWait.filter fun x => x.2 == uid).map fun x => x.1).foldl (fun (s : State) r => s.writeReg f.u.slot r (.narrow v)) m).modThread
        f.u.slot fun t => { t with regWait := t.regWait.filter (·.2 != uid) }
      exec (.atomicResult uid) s = .next (if f.poisoned then n.raisePoison f.u.slot f.u.va else n))
    ∧ (∀ w n, exec (.syncWordArrival w n) s = .next (s.arrive w n))
    ∧ (∀ (w : SyncWord) (n : Nat), w.count < 2 ^ 40 →
      let v := w.count + n
      let code := if w.ecode = 0 then 0x10 else w.ecode
      let gen := (w.gen + 1) % 65536
      (v < 2 ^ 40 → (w.armed = false ∨ v < w.target) → w.arrive n = { w with count := v })
      ∧ (v < 2 ^ 40 → w.armed = true → v = w.target → w.arrive n = { w with count := 0, gen := gen })
      ∧ (v < 2 ^ 40 → w.armed = true → w.target < v →
          w.arrive n = { w with count := v - w.target, gen := gen, overrun := true, error := true, ecode := code })
      ∧ (2 ^ 40 ≤ v → w.armed = true → w.target < 2 ^ 40 →
          w.arrive n = { w with count := 2 ^ 40 - 1 - w.target, gen := gen, overrun := true, error := true, ecode := code })
      ∧ (2 ^ 40 ≤ v → w.armed = false → w.arrive n = { w with count := 2 ^ 40 - 1, overrun := true, error := true, ecode := code })
      ∧ (∀ b : W64, b.getLsbD 63 = false →
          w.sarm b = if b.getLsbD 62 then { w with armed := false }
            else ({ w with target := b.toNat % 2 ^ 40, armed := true } : SyncWord).arrive 0)
      ∧ (∀ b : W64, b.getLsbD 63 = true →
          w.sarm b = ({ w with count := 0, error := false, never := false, overrun := false, ecode := 0 } : SyncWord).sarm
            (b &&& 0x7FFFFFFFFFFFFFFF)))

/-- R377 to R386, R283, R374, R376: the directory: a miss is served with the line as its home holds it, a write probes every copy, a probe
and a grant act on the copies of their cluster, a probe wakes a cluster in RETENTION, rounds of probes keep to the bound of R379, a response
closes its probe, and a deadline that passes ends what awaited it. -/
def Obligations.DirectoryEvents : Prop :=
  ∀ (s : State) (cl line : Nat),
    (∀ f, s.openFill cl line = some f → (∀ g ∈ s.coh.grants, (g.cl == cl && g.line == line) = false) → lineDev line = s.dev →
      lineLa line < 2 ^ 40 →
      let y := lineLa line / 128
      (s.die (homeDie (128 * y))).agent cl ≠ 2 → s.gate y false (some (.fill cl line)) = .go → s.lineLoad y < 127 → s.poisoned y = false → s.biasOf (y / 32) ≠ .host →
      let n := (s.allocate y f.vc.toNat).addSharer y (some cl)
      exec (.directoryReadMiss cl line) s = .next (n.sendGrant cl line (n.dirEnt y).seq (n.homeLine y) false))
    ∧ (∀ data mask, line < 2 ^ 33 → s.lineGate (homeDie (128 * line)) (s.ownKey line) true none = .go →
      exec (.directoryWrite line data mask) s = .next (s.homeWrite line 0 (maskedBytes data mask) .engine))
    ∧ (∀ e, tget s.coh.dir line = some e → (∀ g ∈ s.coh.grants, (g.line == s.ownKey line) = false) →
      (e.sharers ≠ [] →
        (s.probeGate line = .go → exec (.directoryEntryEviction line) s = .next ((s.probeAll line none).post [.directoryEntryEviction line]))
        ∧ ∀ m, s.probeGate line = .act m → exec (.directoryEntryEviction line) s = .next (m.post [.directoryEntryEviction line]))
      ∧ (e.sharers = [] → e.unacked = 0 →
        exec (.directoryEntryEviction line) s = .next { s.dropLine line with coh := { (s.dropLine line).coh with dir := tdel (s.dropLine line).coh.dir line } }))
    ∧ (∀ stamp, exec (.probeArrival cl line stamp) s =
        .next (((s.wakeCluster cl).applyProbe cl line stamp none).post [.probeResponse cl (lineLa line / 128)]))
    ∧ ((s.cl cl).power = .retention → ((s.wakeCluster cl).cl cl).power = .on)
    ∧ (∀ g, s.coh.grants.find? (fun g => g.cl == cl && g.line == line) = some g →
      let m : State := { s with coh := { s.coh with grants := (takeFirst (fun (x : Grant) => x.cl == cl && x.line == line) s.coh.grants).2 } }
      exec (.grantArrival cl line) s = .next (match s.openFill cl line with | none => m | some f => m.fillWith f g))
    ∧ ((s.die (homeDie (128 * line))).agent cl = 2 → exec (.probeResponse cl line) s = .next s)
    ∧ ((s.die (homeDie (128 * line))).agent cl ≠ 2 → s.awaiting cl line = true →
      exec (.probeResponse cl line) s = .next ((s.answered cl line).modDir line fun e => { e with unacked := e.unacked - 1 }))
    ∧ (∀ die agent w, w ∈ s.coh.awaits → w.die = die → w.agent = agent → w.sent + w.limit ≤ s.ns9 →
      let m := s.setAgent die agent 2
      exec (.homeTimeout die agent) s = .next (if agent < 1024 then m.deadCluster die agent
        else if agent = hostAgent then m.deadHost die else m.deadModule die ((agent - 1024) / 4)))
    ∧ (∀ id r, s.coh.reqs.find? (·.id == id) = some r → r.issued + 450000 ≤ s.ns9 →
      exec (.requesterDeadlineExpiry id) s = .next (s.failReq r))

/-- R185, R257, R378: the canonical memory: a byte written is read back, and every other byte, and the canonical form, are kept; so for the
bytes of a range. R285, R386: a write that a home accepts is read back at the home, through the L2 and HBM alike, and every other byte
of HBM, of the host and of the pools reads as before; a poisoned line drops it. A clean line of the L2 stays what HBM holds (R284). A read that allocates a line changes no byte. -/
def Obligations.MemoryLaws : Prop :=
  (∀ m : Memory, m.wf = true →
    (∀ a v, (wr1 m a v).wf = true ∧ rd1 (wr1 m a v) a = v ∧ ∀ b, b ≠ a → rd1 (wr1 m a v) b = rd1 m b)
    ∧ (∀ a l, (wrBytes m a l).wf = true ∧ rdBytes (wrBytes m a l) a l.length = l
        ∧ ∀ b, (b < a ∨ a + l.length ≤ b) → rd1 (wrBytes m a l) b = rd1 m b)
    ∧ (∀ n : Memory, n.wf = true → (∀ a, rd1 n a = rd1 m a) → n = m))
  ∧ (∀ (s : State) (la vc : Nat) (l : List Byte) (src : WrSrc), s.MemInv → s.Clean → la % 128 + l.length ≤ 128 → la + l.length ≤ 2 ^ 40 →
    let n := s.writeLa la vc l src
    n.host = s.host ∧ n.pool = s.pool ∧ n.Clean
    ∧ (s.poisoned (la / 128) = false → n.laBytes la l.length = l)
    ∧ (∀ a < 2 ^ 40, (a < la ∨ la + l.length ≤ a ∨ s.poisoned (la / 128) = true) → n.hbmByte a = s.hbmByte a))
  ∧ (∀ (s : State) (y vc : Nat), s.MemInv → s.Clean →
    let n := s.allocate y vc
    n.host = s.host ∧ n.pool = s.pool ∧ n.Clean ∧ ∀ a < 2 ^ 40, n.hbmByte a = s.hbmByte a)

/-! ### Engines, pager, tables (05, 07, 09, 10) -/

/-- R170 to R173, R167: a matrix command starts when no older one holds its region, and ends with its result counted or its error set on
the handle's sync word; one that the pager has given up ends with code 0x01 (R309). R220: a form that awaits commands delivers once its block is the oldest and the commands are done. -/
def Obligations.MatrixCommandsAndWaits : Prop :=
  (∀ (s : State) (grid ctx : Nat) (c : MCmd), s.mxHead grid ctx = some c →
    (∀ g, c.started = false → s.group c.gid = some g →
      (∀ d ∈ s.allMx, (decide (d.order < c.order) && d.overlaps c g && (mxWrites c.ins || mxWrites d.ins)) = false) →
      s.storesPending c.slot c.order = false →
      exec (.matrixCommandStart grid ctx) s =
        .next (s.modGrid grid fun x => { x with mx := x.mx.modify ctx fun l => l.modify 0 fun c => { c with started := true } }))
    ∧ (c.started = true → c.fslot = none →
      (s.group c.gid = none → exec (.matrixCommandComplete grid ctx) s = .next (s.matrixEnd grid ctx c 0 0))
      ∧ (∀ g m w, s.group c.gid = some g → s.engWord c.who g c.handle.sync = .done m w →
        (c.quit = true → exec (.matrixCommandComplete grid ctx) s = .next (m.matrixFinish grid ctx c w 0x01 0))
        ∧ (c.quit = false → (∀ n f n' fl, c.landing = none → m.matrixTry c true = .done n f → m.matrixTry c false = .done n' fl →
          (n'.engLanding c.id = false → exec (.matrixCommandComplete grid ctx) s =
            .next ((n'.engSettled c.id 0 0).1.matrixFinish grid ctx c w (n'.engSettled c.id 0 0).2.2 fl))
          ∧ (n'.engLanding c.id = true → exec (.matrixCommandComplete grid ctx) s = .next (n'.modGrid grid fun x =>
              { x with mx := x.mx.modify ctx fun l => l.modify 0 fun c => { c with landing := some fl } })))
        ∧ (∀ fl, c.landing = some fl → m.engLanding c.id = false → exec (.matrixCommandComplete grid ctx) s =
            .next ((m.engSettled c.id 0 0).1.matrixFinish grid ctx c w (m.engSettled c.id 0 0).2.2 fl))
        ∧ (∀ n code k v, c.landing = none → m.matrixTry c true = .err n code k v →
          exec (.matrixCommandComplete grid ctx) s = .next (n.matrixFinish grid ctx c w code 0))))))
  ∧ (∀ (s : State) (r : BRef) (idx : Nat) (t : Thread) (b : Block) (e : Entry), s.block r = some (t, b) → b.entries[idx]? = some e →
    e.st = .waiting → t.isOldest b = true →
    let m := s.modBlock r fun y => y.modEntry idx fun e => { e with st := .fired }
    (∀ all h ctx, decode e.word = .ok (.mwait all h ctx) → (∀ q ∈ t.mcovered all ctx, q.done = true) →
      exec (.mwaitDelivery r idx) s = .next ((m.acquire r.slot).deliver r h (.narrow (mrecStatus (t.mcovered all ctx))) (.narrow (mrecStatus (t.mcovered all ctx)))))
    ∧ (∀ h, decode e.word = .ok (.cwait h) → (∀ q ∈ t.crecs, q.done = true) →
      exec (.cwaitDelivery r idx) s = .next ((m.acquire r.slot).deliver r h (.narrow (crecStatus t.crecs)) (.narrow (crecStatus t.crecs))))
    ∧ (∀ h acc hd g, decode e.word = .ok (.accrd h acc) → handleView t b idx acc = some hd → s.group t.gid = some g →
      (∀ c ∈ s.allMx, c.gid ≠ t.gid) →
      let p := (e.a.getD .null).word.toNat
      p % 65536 < hd.tileRows → bitsOf p 31 16 < hd.tileCols →
      let q := s.tileRow t.gid hd (g.memberOf (slotGrid r.slot)) (p % 65536)
        ((List.range 32).filterMap fun j => if bitsOf p 31 16 + j < hd.tileCols then some (bitsOf p 31 16 + j) else none)
      exec (.accrdDelivery r idx) s = .next ((q.1.modBlock r fun y => y.modEntry idx fun e => { e with st := .fired }).deliver r h
        (unscaled (ofLanes 32 q.2)) (unscaled (ofLanes 32 q.2)))))

/-- R215, R219, R222, R223, R349, R350: a command of the copy engine starts in the order of its queue, four at once, and ends with its
bytes counted and its code recorded, once every home that it wrote to has answered (R196); one that the pager has given up ends with code
0x01, the bytes before the unresolved translation counted (R309); a stream port reads its next element, or writes the oldest committed one. -/
def Obligations.CopyAndStreamEvents : Prop :=
  ∀ (s : State) (cl cmd : Nat),
    (∀ c, (s.cl cl).cmd cmd = some c →
      (c.st = .queued → (∀ x ∈ (s.cl cl).copyQ.takeWhile (·.id != cmd), x.st ≠ .queued) →
        ((s.cl cl).copyQ.filter fun x => x.st.runs).length < 4 → s.storesPending c.slot c.order = false →
        ((∃ a b, c.op = .offer a b) → s.offerWaits c = false) →
        exec (.copyCommandStart cl cmd) s = .next (s.modCmd cl cmd fun c => { c with st := .running }))
      ∧ (∀ k code, c.st = .landing k code → s.engLanding cmd = false →
        let r := s.engSettled c.id k code
        exec (.copyCommandComplete cl cmd) s = .next ((r.1.copyCount c r.2.1 r.2.2).copyEnd cl c r.2.2 0))
      ∧ (c.st = .running → c.fslot = none → ∀ m q n k code tile, s.copyTry cl c true none = .done m q →
        s.copyTry cl c false none = .done n (k, code, tile) →
        ((∀ a b, c.op ≠ .offer a b) →
          (n.engLanding c.id = true →
            exec (.copyCommandComplete cl cmd) s = .next (n.modCmd cl c.id fun c => { c with st := .landing k code }))
          ∧ (n.engLanding c.id = false →
            let r := n.engSettled c.id k code
            exec (.copyCommandComplete cl cmd) s = .next ((r.1.copyCount c r.2.1 r.2.2).copyEnd cl c r.2.2 0)))
        ∧ ∀ sp ret, c.op = .offer sp ret →
          exec (.copyCommandComplete cl cmd) s = .next (if code ≠ 0 then n.copyEnd cl c code code
            else ((n.freeChuck cl c.id).modCmd cl cmd fun c => { c with st := .placing }).post
              [.place cl c.asid c.a .lookup ⟨.engine cl cmd, ret, tile⟩]))
      ∧ (∀ va wr m q n k code tile, c.st = .quitting va wr → (∀ a b, c.op ≠ .offer a b) →
        s.copyTry cl c true (some ⟨va, wr⟩) = .done m q → s.copyTry cl c false (some ⟨va, wr⟩) = .done n (k, code, tile) →
        n.engLanding c.id = false →
        let r := n.engSettled c.id k 0x01
        exec (.copyCommandComplete cl cmd) s = .next ((r.1.copyCount c r.2.1 r.2.2).copyEnd cl c r.2.2 0)))
    ∧ (∀ (slot port : Nat) (t : Thread), tget s.thr slot = some t →
      (∀ pat m k n l, (t.inPort port).pat = some pat → (t.inPort port).stopped = false → (t.inPort port).pos < pat.total →
        (t.inPort port).fifo.length + (t.inPort port).taken.length < 16 → (t.inPort port).fslot = none → s.storesPending slot (t.inPort port).order = false →
        s.portRead slot t pat (t.inPort port).pos true = .done m k → s.portRead slot t pat (t.inPort port).pos false = .done n l →
        exec (.streamPrefetch slot port) s =
          .next (n.modIn slot port fun q => { q with fifo := q.fifo ++ [.ok (ofBytes l)], pos := q.pos + 1, firstPost := none }))
      ∧ (∀ pat i w rest m j n k, (t.outPort port).out = (pat, i, w) :: rest → (t.outPort port).landing = none → (t.outPort port).fslot = none →
        let l := (wideBytes w).take pat.elen
        let id := s.newUid.1
        s.portWrite slot t pat i l 0 true = .done m j → s.newUid.2.portWrite slot t pat i l id false = .done n k →
        (n.engLanding id = true →
          exec (.outputElementWrite slot port) s = .next (n.modOut slot port fun q => { q with landing := some (id, k) }))
        ∧ (n.engLanding id = false → n.engLost id = 0 → ctlSv pat.ctl = false →
          exec (.outputElementWrite slot port) s = .next ((n.engSettled id k 0).1.modOut slot port OutPort.pop))))

/-- R308 to R311, R239, R288, R292, R293: a fault of an engine is posted in the lowest free slot, or its command gives up where the pager
cannot be used; a retry, an error and the limit end its wait; a TLBINV removes the translations it names, waits for the stores and the
engine accesses that a removed entry translated, and completes; a table record is installed, or refused with its code: of a VCDEF, the
first of its die with no migration under way, an invalid record with 0x40, one that would leave a bank fewer than two shares of VC 0
with 0x41, one that keeps a cache DISABLED installed at once, any other by a migration; a migration claims its shares, moves its lines and
ends. -/
def Obligations.PagerAndTableEvents : Prop :=
  ∀ (s : State) (die f : Nat),
    (∀ e v x, s.engView e = some v → v.fslot = none → s.engFault e = some x →
      let h := (s.die die).handler 4095
      ((hV h = false ∨ pagerLimit h ≤ s.ns9 - v.first.getD s.ns9) → exec (.engineFaultPost die e) s = .next (s.engAbandon e x.givenUp))
      ∧ (hV h = true → s.ns9 - v.first.getD s.ns9 < pagerLimit h → ∀ k, (s.die die).freeSlot = some k →
        (∀ m, s.postFault die k e v x (v.first.getD s.ns9) = .done m true →
          exec (.engineFaultPost die e) s = .next (m.dropWalks v.who (some x.va)))
        ∧ (∀ m, s.postFault die k e v x (v.first.getD s.ns9) = .done m false →
            exec (.engineFaultPost die e) s = .next (m.engAbandon e x.givenUp))
        ∧ (∀ m, s.postFault die k e v x (v.first.getD s.ns9) = .act m → exec (.engineFaultPost die e) s = .next m)))
    ∧ (∀ x, tget (s.die die).fslots f = some x →
      (∀ v, s.engView x.eng = some v → v.fslot = some f → (s.syncWord x.word).gen ≠ x.gen →
        exec (.pagerRetry die f) s =
          .next ((s.freeFslot die f).engSet x.eng none (if s.stillFaults v x then some x.first else none)))
      ∧ ((s.syncWord x.word).error = true →
        exec (.pagerAbandon die f) s = .next ((s.freeFslot die f).engAbandon x.eng ⟨x.va, x.wr⟩))
      ∧ (x.limit ≤ s.ns9 - x.first →
        exec (.pagerLimitExpiry die f) s = .next ((s.freeFslot die f).engAbandon x.eng ⟨x.va, x.wr⟩)))
    ∧ (∀ id x, s.coh.tlbinvs.find? (·.id == id) = some x →
      (x.bound = none → s.storesPending x.slot id = false → ∃ n, exec (.tlbinvComplete id) s = .next n
        ∧ (∀ g e, e ∈ (n.grid g).tlb → x.hits e = false) ∧ (∀ c e, e ∈ (n.cl c).tlb → x.hits e = false))
      ∧ (∀ k, x.bound = some k →
        ((∀ g ∈ s.grids, ∀ u ∈ g.2.sb, u.uid < k → x.hitsUnit u = false) → (∀ f ∈ s.coh.flying, f.u.uid < k → x.hitsUnit f.u = false) →
          (∀ w ∈ s.openWalks, k ≤ w.id) → s.engineUses x k = false → exec (.tlbinvComplete id) s =
            .next { s with coh := { s.coh with tlbinvs := s.coh.tlbinvs.filter (·.id != id) } })
        ∧ (((∃ g ∈ s.grids, ∃ u ∈ g.2.sb, u.uid < k ∧ x.hitsUnit u = true)
            ∨ (∃ r ∈ s.coh.reqs, r.id < k ∧ s.goneHolds x r.pa = true ∧ ∃ i n, r.who = .engine i n)) →
          exec (.tlbinvComplete id) s = .fault .notReady)))
    ∧ (∀ id x, s.installs.find? (·.id == id) = some x → s.storesPending x.slot id = false →
      ∀ k r, s.recordRead x.die x.piece = .done k (some r) →
      let m : State := { k with installs := k.installs.filter (·.id != id) }
      (∀ pm, x.form = .vcdef pm → (s.die x.die).migs = [] →
        (∀ y ∈ s.installs, y.id < id → y.die = x.die → ∀ pm', y.form ≠ .vcdef pm') →
        let old := (m.die x.die).vc x.idx
        let new : Vc := { vcOf r with gen := old.gen }
        let migrate (v : Vc) : State := m.modDie x.die fun d => { d with migs := d.migs ++ [⟨x.idx, old, v, x.sync, [], false⟩] }
        exec (.tableRecordInstall id) s = .next (
          if x.idx = 0 then
            (if vc0Valid r old then migrate { old with repl := new.repl } else m.setErrOpt x.sync 0x40)
          else if vcValid r = false then m.setErrOpt x.sync 0x40
          else if (List.range 128).any fun bank =>
              decide (((m.die x.die).sharesOf 0 bank).length + ((m.die x.die).sharesOf x.idx bank).length < new.wants bank + 2)
            then m.setErrOpt x.sync 0x41
          else if old.state = .disabled ∧ new.state = .disabled then
            (m.modDie x.die fun d => { d with vcs := tput d.vcs x.idx new }).arriveOpt x.sync 1
          else migrate new))
      ∧ (∀ pm, x.form = .namedef pm → exec (.tableRecordInstall id) s = .next (
        if nameValid r x.die x.idx then
          (m.modDie x.die fun d => { d with names := if r = 0 then tdel d.names x.idx else tput d.names x.idx r }).arriveOpt x.sync 1
        else m.setErrOpt x.sync 0x40))
      ∧ (∀ pm, x.form = .htdef pm → exec (.tableRecordInstall id) s = .next (
        if r.getLsbD 103 then m.setErrOpt x.sync 0x40
        else (m.modDie x.die fun d => { d with handlers := if r = 0 then tdel d.handlers x.idx else tput d.handlers x.idx r }).arriveOpt x.sync 1)))
    ∧ (∀ vc m, (s.die die).migs.find? (·.vc == vc) = some m →
      (m.started = false → ∃ n, exec (.vcMigrationStart die vc) s = .next n ∧ ((n.die die).vc vc).state = .resizing)
      ∧ (m.started = true → m.walk = [] → exec (.vcMigrationEnd die vc) s = .next ((s.modDie die fun d =>
          { d with vcs := tput d.vcs vc { m.new with gen := m.old.gen + 1 }
                   shares := d.shares.filter fun p => p.2 != 64 + vc
                   migs := d.migs.filter fun x => x.vc != vc }).arriveOpt m.sync 1)))
    ∧ (∀ line m, (s.die (s.walkDie line)).migs.find? (fun m => m.walk.contains line) = some m →
      ∃ n, exec (.lineMove line) s = .next n ∧ ∀ x ∈ (n.die (s.walkDie line)).migs, x.vc = m.vc → line ∉ x.walk)


/-! ### Named data, scheduling, bias (06, 11, 13, 14) -/

/-- R360 to R369, R207: what the packets of named data do at a stop, and how pending interests, placed tiles and deposits
end: a deposit goes on in pieces of at most 512 bytes, each counted once every home of its bytes has answered (R196). What has reached a
router and goes first (R369) is waited for. -/
def Obligations.NamedDataEvents : Prop :=
  ∀ (s : State) (stop : Nat) (asid : BitVec 16) (name : W64),
    (∀ arr p, s.ndEarlier p.stop (3 + inputPort arr) = false → exec (.interest arr p) s = .next (s.interest arr p))
    ∧ (∀ data, s.ndEarlier stop 1 = false → exec (.tile stop asid name data) s = .next (s.reply stop asid name data))
    ∧ (∀ code, s.ndEarlier stop 2 = false → exec (.nack stop asid name code) s =
        .next ((s.ndRecs stop asid name).foldl (fun s r => s.backNack stop asid name code r.path) (s.freeEnt stop asid name)))
    ∧ (∀ p : NdAdd, s.ndEarlier p.stop (3 + inputPort p.arr) = false →
      (∀ t, s.ndEnt p.stop p.asid p.name = none → s.tileAt p.stop p.asid p.name = some t → t.st = .held →
        exec (.addPacket p) s = .next (s.spend p.stop p.asid p.name p.weight))
      ∧ (s.ndEnt p.stop p.asid p.name = none → s.tileAt p.stop p.asid p.name = none → exec (.addPacket p) s = .next s)
      ∧ ∀ e, s.ndEnt p.stop p.asid p.name = some e → e.fwd = none →
        ∃ n, exec (.addPacket p) s = .next n
          ∧ n.ndEnt p.stop p.asid p.name = some { e with weight := e.weight + p.weight, sentDeadline := max e.sentDeadline p.deadline })
    ∧ (∀ goal pl, goal ≠ .lookup →
      (hopOf stop name goal = none → exec (.place stop asid name goal pl) s = s.placeHere stop asid name pl)
      ∧ ∀ d, hopOf stop name goal = some (.dir d) →
        exec (.place stop asid name goal pl) s = .next (s.post [.place (neighbor stop d) asid name goal pl]))
    ∧ (∀ pl, stop = lookupStop (stop / 128) name → s.resolveName (stop / 128) asid name = none →
        exec (.place stop asid name .lookup pl) s = .next (s.placed pl.origin name 0x21))
    ∧ (∀ r, (s.ndRecs stop asid name).find? (fun r => decide (r.deadline * 576 ≤ s.ns9)) = some r →
      s.ndEarlier stop 64 = false →
      let m := s.modNet fun x => { x with recs := (takeFirst (· == r) x.recs).2 }
      let n := if (m.ndRecs stop asid name).isEmpty then m.freeEnt stop asid name else m
      exec (.interestDeadlineExpiry stop asid name) s = .next (match r.path with
        | .endp e => (n.endWords e).foldl (fun (s : State) w => s.wordBy stop w (.setErr 0x20)) n
        | _ => n))
    ∧ (∀ t, s.tileAt stop asid name = some t →
      (t.st = .filling →
        let n := (s.modTile stop asid name fun t => { t with st := .held }).placed t.origin name 0
        n.ndEnt stop asid name = none → exec (.tileStoreFilled stop asid name) s = .next n)
      ∧ (∀ e, t.st = .held → t.ret = .until e → e ≤ s.ns9 →
        exec (.tileRetentionExpiry stop asid name) s = .next (s.modTile stop asid name fun t => { t with st := .draining }))
      ∧ (t.st = .draining → t.readers = 0 →
        exec (.tileStoreFree stop asid name) s = .next
          ((s.modNet fun x => { x with tiles := x.tiles.filter fun t => !t.here stop asid name }).retryPlaces stop)))
    ∧ (let counted (n : State) (d : Deposit) (k code : Nat) : State :=
        let r := n.engSettled d.id k code
        let m := if r.2.1 = 0 then r.1 else (n.endWords d.ep).foldl (fun (s : State) w => s.wordBy d.stop w (.arrive r.2.1)) r.1
        if r.2.2 ≠ 0 ∨ d.data.length ≤ d.at_ + k then m.depositEnd d r.2.2
        else m.modDeposit d.id fun e => { e with at_ := d.at_ + k, landing := none }
      ∀ id d, s.net.deposits.find? (·.id == id) = some d →
        (∀ m q n k code, d.landing = none → d.fslot = none → (∃ r ∈ (s.cl d.stop).chuck, r.owner = id) →
          s.depositTry d true = .done m q → s.depositTry d false = .done n (k, code) →
          (n.engLanding d.id = false → exec (.depositComplete id) s = .next (counted n d k code))
          ∧ (n.engLanding d.id = true →
            exec (.depositComplete id) s = .next (n.modDeposit d.id fun e => { e with landing := some (k, code) })))
        ∧ ∀ k code, d.landing = some (k, code) → s.engLanding d.id = false → s.engLanding id = false →
            exec (.depositComplete id) s = .next (counted s d k code))

/-- R313 to R334: a record that passes its tests is enqueued, one that does not is reported or refused, and an INVOKE.q's packet is answered;
a queue's head becomes ready, or, where its dependence word shows ERROR or NEVER, is abandoned with code 0x50 at its completion word
(R323; 0x02's handler is log entry 61); its groups are placed and start; the end of a group arrives at its completion word (R330); an ended thread leaves its slot and an ended group its cluster; a save and a restore go their way. R332,
R334: a request to save a group stops every thread of it and is kept until the save ends, or is refused where the group has no save
area; one for a group that is gone is answered at once, one for a group whose save is under way joins it; and once the threads are
drained and the bytes of the save area are written, every request is answered and the group waits in its queue as a resume item. -/
def Obligations.SchedulingEvents : Prop :=
  (∀ (s : State) (die q : Nat),
    (∀ r : Submission,
      (∀ m, s.accept die q r = .done m .accepted → exec (.recordAcceptance die q r) s =
        .next (match r.src with | .invoke port p => m.respond port p 0x26 0 [] | _ => m))
      ∧ (∀ m code datum, s.accept die q r = .done m (.invalid code datum) → exec (.recordAcceptance die q r) s =
        .next (match r.src with
          | .invoke port p => (m.report die q 2 p.src.toNat (BitVec.ofNat 64 (invHidx p))).respond port p 0x26 0 []
          | _ => m.report die q code 0 datum))
      ∧ (∀ m reason slot va a sup, s.accept die q r = .done m (.refused reason) → r.src = .thread slot va a sup →
        exec (.recordAcceptance die q r) s = .next (m.modThread slot fun t =>
          { t with sys := { t.sys with invst := invstReject t.sys.invst reason q s.dev } }))
      ∧ (∀ m reason, s.accept die q r = .done m (.refused reason) →
        (∀ port p, r.src = .invoke port p →
          exec (.recordAcceptance die q r) s = .next (m.respond port p 0x26 (BitVec.ofNat 16 reason) []))
        ∧ (r.src = .window → exec (.recordAcceptance die q r) s = .next (m.report die q 6 reason (BitVec.ofNat 64 q)))
        ∧ (r.src = .pager → exec (.recordAcceptance die q r) s = .next m))
      ∧ (∀ m, s.accept die q r = .act m →
        exec (.recordAcceptance die q r) s = .next { m with agenda := .recordAcceptance die q r :: m.agenda })
      ∧ (s.submitsBefore die q r = false → (s.queue die q).en = false → s.accept die q r = .done s (.refused 7)))
    ∧ (∀ r, (s.queue die q).readyAt = none → (s.queue die q).resume = [] → (s.queue die q).record = some r → recDepw r.bits = 0 →
        exec (.dependenceReady die q) s = .next (s.modQueue die q fun x => { x with readyAt := some s.ns9 }))
    ∧ (∀ r w, (s.queue die q).readyAt = none → (s.queue die q).resume = [] → (s.queue die q).record = some r → recDepw r.bits ≠ 0 →
        (s.queue die q).depLoc = some w →
      (genPassed (s.syncWord w).gen (recDepgen r.bits) = true →
        exec (.dependenceReady die q) s = .next (s.modQueue die q fun x => { x with readyAt := some s.ns9 }))
      ∧ (genPassed (s.syncWord w).gen (recDepgen r.bits) = false → ((s.syncWord w).error = true ∨ (s.syncWord w).never = true) →
        (recDonew r.bits = 0 ∨ s.dieGate (s.queue die q).ptb (recDonew r.bits) true = .go) →
        exec (.dependenceReady die q) s =
          .next (((s.dropHead die q).report die q 0x04 (s.syncWord w).ecode (recDepw r.bits)).setErrDone (s.queue die q).ptb
            (recDonew r.bits) 0x50)))
    ∧ (∀ ptb donew code, (donew = 0 → s.setErrDone ptb donew code = s)
      ∧ (donew ≠ 0 → ∀ n w, s.dieWord ptb donew .store = (n, .inr w) → s.setErrDone ptb donew code = n.setErr w code))
    ∧ ((s.die die).held = none → ∀ n, s.select die = some n → exec (.distributorStep die) s = .next n)
    ∧ (∀ h n, (s.die die).held = some h → s.place die h = some n →
        let m := n.modDie die fun y => { y with held := none }
        exec (.distributorStep die) s = .next ((m.select die).getD m))
    ∧ (∀ gid g, s.group gid = some g →
      (g.started = false → (s.cl (128 * g.die + g.cl)).power = .on →
        ∃ n, exec (.firstBlockFetch gid) s = .next n ∧ n.group gid = some { g with started := true })
      ∧ (g.live = [] → g.saved = [] → s.spadInterests gid = false →
        let m := (s.freeGroup gid g).dropRejects fun t => t / 64 == gid
        (g.donew = 0 → exec (.groupEnd gid) s = .next m)
        ∧ (g.donew ≠ 0 → s.dieGate g.ptbase g.donew true = .go → ∀ n w, m.dieWord g.ptbase g.donew .store = (n, .inr w) →
          exec (.groupEnd gid) s = .next (n.arrive w 1))))
    ∧ (∀ slot t, tget s.thr slot = some t → t.ending = true → t.saving = false → s.drained slot t = true →
        exec (.slotRelease slot) s = .next (s.freeSlot slot t))
    ∧ (∀ slot word, tget s.thr slot = none → exec (.slotSave slot word) s = .next (s.arriveOpt word 1))
    ∧ (∀ slot word t g, tget s.thr slot = some t → t.ending = false → s.group t.gid = some g → s.saveOf false slot = none →
        s.saveOf true t.gid = none →
      (g.save = 0 → exec (.slotSave slot word) s = .next (s.setErrOpt word 0x51))
      ∧ (g.save ≠ 0 → (s.grid (slotGrid slot)).dbg.frozen = false → exec (.slotSave slot word) s =
          .next { s.stopThread slot with saves := (s.stopThread slot).saves ++ [⟨false, slot, [word], none⟩] }))
    ∧ (∀ r g m, s.restores.find? (fun r => r.die == die && r.q == q) = some r → s.group r.item.gid = some g →
        (s.cl (128 * g.die + g.cl)).power = .on →
      let rest (s : State) : State := { s with restores := (takeFirst (fun x => x == r) s.restores).2 }
      (∀ l, s.dieRead g.die g.ptbase (r.item.ranges g) = .done m (some l) →
        exec (.resumeItemRestore die q) s = .next ((rest m).restoreItem g r (cutBytes ((r.item.ranges g).map (·.2)) l)))
      ∧ (s.dieRead g.die g.ptbase (r.item.ranges g) = .done m none →
        (g.donew = 0 ∨ m.dieGate g.ptbase g.donew true = .go) →
        exec (.resumeItemRestore die q) s = .next ((rest m).dropItem g r))))
  ∧ (∀ (s : State) (gid : Nat) (word : Option WLoc),
    (s.group gid = none → s.saveOf true gid = none → exec (.groupSave gid word) s = .next (s.arriveOpt word 1))
    ∧ ∀ g, s.group gid = some g →
      (s.saveOf true gid = none → g.save = 0 → exec (.groupSave gid word) s = .next (s.setErrOpt word 0x51))
      ∧ (s.saveOf true gid = none → g.save ≠ 0 → (∀ p ∈ s.groupSlots gid, (s.grid (slotGrid p.1)).dbg.frozen = false) →
        exec (.groupSave gid word) s = .next { s.stopGroup gid with saves := (s.stopGroup gid).saves ++ [⟨true, gid, [word], none⟩] })
      ∧ ∀ x, s.saveOf true gid = some x →
        (∀ w, exec (.groupSave gid (some w)) s = .next (s.modSave x fun y => { y with words := y.words ++ [some w] }))
        ∧ (∀ p ∈ s.groupSlots gid, p.2.saving = true ∧ p.2.ending = false ∧ s.saveReady p.1 p.2 = true ∧ s.saveOf false p.1 = none) →
          s.spadInterests gid = false →
          let mine := s.groupSlots gid
          (s.groupPoison g = true → ∃ n, exec (.groupSave gid none) s = .next n ∧ ∃ m : State, n = m.setErrAll x.words 0x52)
          ∧ (s.groupPoison g = false → x.landing = none →
            ∀ m, s.newUid.2.dieWrite g.die g.ptbase s.newUid.1
                (s.saveParts g mine (g.saved ++ mine.map fun p => p.2.tidx)) = .done m true → m.engLanding s.newUid.1 = false →
              (m.engSettled s.newUid.1 0 0).2.2 = 0 →
              ∃ n, exec (.groupSave gid none) s = .next n ∧ ∃ m : State, n = m.arriveAll x.words ∧ (tget m.resumed gid).isSome = true
                ∧ ∃ r ∈ (m.queue g.die g.queue).resume, r.gid = gid ∧ r.whole = true))

/-- R388 to R391, R389: a bias flip invalidates the device's copies or snoops the host's, and ends when every answer has come; the host's
requests are served at the home and answered; a DEAD host's are refused. -/
def Obligations.BiasAndHostEvents : Prop :=
  ∀ (s : State) (port la : Nat),
    (∀ page toHost word,
      (s.biasOf page = (if toHost then Bias.host else .device) → exec (.biasFlipStart page toHost word) s = .next (s.arriveOpt word 1))
      ∧ (let m : State := { s with coh := { s.coh with flips := s.coh.flips ++ [⟨page, toHost, word⟩] } }
        (toHost = true → s.biasOf page = .device → exec (.biasFlipStart page toHost word) s =
          .next ((pageLines page).foldl (fun (s : State) y => (s.dropLine y).probeRound y) (m.setBias page .flushing)))
        ∧ (toHost = false → s.biasOf page = .host → exec (.biasFlipStart page toHost word) s =
          .next ((m.setBias page .recalling).snoopPage page))))
    ∧ (∀ page f, s.flipOf page true = some f →
      ((∀ y ∈ pageLines page, (s.dirEnt y).sharers = [] ∧ s.lineAwaits y = false) →
        exec (.biasFlushEnd page) s = .next (s.endFlip f .host))
      ∧ ((∃ y ∈ pageLines page, s.canProbe y = true) →
        exec (.biasFlushEnd page) s = .next (((pageLines page).filter s.canProbe).foldl (·.probeRound ·) s)))
    ∧ (∀ page f, s.flipOf page false = some f → (∀ w ∈ s.coh.awaits, w.agent ≠ hostAgent ∨ w.line / 64 ≠ page) →
        exec (.biasRecallEnd page) s = .next ((s.unmark page).endFlip f .device))
    ∧ (s.hostDead (hdm la) = true → ∀ own data mask,
        let n := s.tellHost port (.refusal (hdm la / 64 * 64))
        exec (.memrd port la own) s = .next n ∧ exec (.memwr port la data mask) s = .next n ∧ exec (.meminv port la) s = .next n)
    ∧ (s.hostDead (hdm la) = false →
      let a := hdm la
      let pg := a / 4096
      (s.parkedAt pg = false → s.pageHeld pg = false → exec (.meminv port la) s =
        .next ((if s.biasOf pg = .host then (s.filterRoom pg).markHost (a / 64) true else s).tellHost port (.memAck (a / 64 * 64))))
      ∧ ((s.parkedAt pg = true ∨ s.pageHeld pg = true) → exec (.meminv port la) s = .next (s.park pg (.hostInv port a)))
      ∧ (∀ own, s.parkedAt pg = true → exec (.memrd port la own) s = .next (s.park pg (.hostRead port a own)))
      ∧ (∀ own, s.parkedAt pg = false →
        (∀ n, s.serveHostRead port a own = .done n → exec (.memrd port la own) s = .next n)
        ∧ (s.serveHostRead port a own = .wait → exec (.memrd port la own) s = .next (s.park pg (.hostRead port a own))))
      ∧ (∀ data mask, s.parkedAt pg = false → s.biasOf pg ≠ .recalling →
        (∀ n, s.serveHostWrite port a data mask = .done n → exec (.memwr port la data mask) s = .next n)
        ∧ (s.serveHostWrite port a data mask = .wait → exec (.memwr port la data mask) s = .next (s.park pg (.hostWrite port a data mask)))))
    ∧ ((∀ w ∈ s.coh.awaits, w.agent ≠ hostAgent ∨ w.line ≠ hdm la / 64) → exec (.birsp port la) s = .next s)
    ∧ (∀ w m, s.coh.awaits.find? (fun w => w.agent == hostAgent && w.line == hdm la / 64) = some w → s.hostDead (hdm la) = false →
        w.stamp ≠ 1 →
        let n := s.answered hostAgent (hdm la / 64)
        let left := m &&& ~~~((1 : BitVec 64) <<< (hdm la / 64 % 64))
        tget n.coh.filter (hdm la / 64 / 64) = some m → left ≠ 0 →
        exec (.birsp port la) s = .next { n with coh := { n.coh with filter := tput n.coh.filter (hdm la / 64 / 64) left } })
    ∧ (∀ k, k ≠ .inv → exec (.hostSnoop port k la) s = .next (s.tellHost port (.snoopAnswer la)))
    ∧ (∃ n, exec (.hostSnoop port .inv la) s = .next n ∧ (∀ x ∈ n.coh.l1, x.line ≠ s.dev * 2 ^ 45 + la / 128)
        ∧ (∀ x ∈ n.coh.bc, x.line / 2 ≠ s.dev * 2 ^ 45 + la / 128)
        ∧ n.links.toHost = s.links.toHost ++ [(port, .snoopAnswer la)])
    ∧ (∀ low, ∃ n, exec (.hostLinkPowerState port low) s = .next n
        ∧ n.links.cxlLow = (s.links.cxlLow.filter (· != port)) ++ if low then [port] else [])

/-! ### Observation, power, links, resets (14, 15, 18) -/

/-- R401, R403, R408 to R414: a grid is frozen with its cause and resumes; breakpoints that match in the clk of a freeze each set their
slot's bit (R410); a monitor's action freezes the module and every grid with cause 3 (log entry 55); the module freezes, thaws unless it has been scanned, and is
scanned; the stop list, the histogram bins, the monitors and the trace buffers are read, cleared, sampled and drained. -/
def Obligations.ObservationEvents : Prop :=
  ∀ (s : State) (grid die : Nat),
    (∃ n, exec (.gctlFreeze grid) s = .next n ∧ (n.grid grid).dbg.frozen = true
      ∧ ((s.grid grid).dbg.frozen = false → (n.grid grid).dbg.cause = 2) ∧ ((s.grid grid).dbg.frozen = true → n = s))
    ∧ ((s.grid grid).dbg.frozen = true → (s.grid grid).dbg.cause = 1 → (s.grid grid).dbg.since = s.clk →
        ∀ j < 8, ((s.freeze grid 1 (some j)).grid grid).dbg.slots = (s.grid grid).dbg.slots ||| BitVec.ofNat 8 (2 ^ j))
    ∧ (s.plat.frozen = false → s.freezeAll.plat.frozen = true ∧ ∀ g < 2048, (s.freezeAll.grid g).dbg.frozen = true
        ∧ ((s.grid g).dbg.frozen = false → (s.freezeAll.grid g).dbg.cause = 3))
    ∧ (∃ n, exec (.gctlResume grid) s = .next n ∧ (n.grid grid).dbg.frozen = false
      ∧ ((s.grid grid).dbg.frozen = true → (n.grid grid).dbg.cause = 0 ∧ (n.grid grid).dbg.slots = 0))
    ∧ (∃ n, exec (.gctlList grid) s = .next n ∧ (n.grid grid).dbg = { (s.grid grid).dbg with listPos := 0 })
    ∧ (∃ n, exec (.stopListRead grid) s = .next n
      ∧ (n.grid grid).dbg.listPos = (s.grid grid).dbg.listPos + if s.quiet grid then 1 else 0)
    ∧ (∃ n, exec .moduleFreeze s = .next n ∧ n.plat.frozen = true ∧ (s.plat.frozen = true → n = s))
    ∧ (∀ v, ∃ n, exec (.mfrz v) s = .next n ∧ n.plat.frozen = (s.plat.frozen || v.getLsbD 0))
    ∧ (∃ n, exec .moduleThaw s = .next n ∧ n.plat.frozen = (s.plat.frozen && (s.plat.scanned || s.plat.trip)))
    ∧ (∃ n, exec .scanShift s = .next n ∧ n.plat.scanned = (s.plat.scanned || s.plat.frozen))
    ∧ (∀ node bin, exec (.histogramBinOverflow grid node bin) s = .next (s.spillBin grid node bin 65536))
    ∧ (∃ n, exec (.hctlClr die) s = .next n ∧ n.hist = s.hist.filter fun p => p.1 / 320 / 512 != die)
    ∧ exec (.hctlDump die) s = .next (s.dumpBins die)
    ∧ (∀ j, s.samples.find? (fun x => x.1 == die && x.2.1 == j) = none → exec (.monitorSample die j) s = .next (s.sampleMonitor die j))
    ∧ (∀ j v l, s.samples = (die, j, v) :: l → exec (.monitorSample die j) s = .next ({ s with samples := l }.sampleValue die j v))
    ∧ (∀ c, s.traceStop die = some c →
        exec (.traceDrain die) s = .next ((s.sinkOne die c).modDie die fun y => { y with traceRr := (c % 128 + 1) % 128 }))

/-- R432 to R436, R442, R443, R402: power levels and thermal steps, a trip, the power states of a cluster, whose trace buffer has 2 µs to
drain, and what a soft error does where it is detected. -/
def Obligations.PowerAndErrorEvents : Prop :=
  ∀ (s : State) (cl : Nat),
    (∀ v, ∃ n, exec (.pwrctlWrite v) s = .next n ∧ n.plat.req = v.toNat % 8 ∧ n.plat.act = s.plat.act ∧ n.plat.thrm = s.plat.thrm)
    ∧ ((∃ x ∈ s.plat.sensors, 95 < x.2) → s.plat.thrm < 4 → s.plat.thermAt + 9000000 ≤ s.ns9 →
        ∃ n, exec (.thermalStep true) s = .next n ∧ n.plat.thrm = s.plat.thrm + 1 ∧ n.plat.req = s.plat.req)
    ∧ ((∀ x ∈ s.plat.sensors, x.2 < 90) → 0 < s.plat.thrm → s.plat.thermAt + 90000000 ≤ s.ns9 →
        ∃ n, exec (.thermalStep false) s = .next n ∧ n.plat.thrm = s.plat.thrm - 1 ∧ n.plat.req = s.plat.req)
    ∧ ((∃ x ∈ s.plat.sensors, 90 ≤ x.2) → exec (.thermalStep false) s = .fault .notReady)
    ∧ (∃ n, exec .powerTransition s = .next n ∧ n.plat.act = s.plat.pendingLevel.getD s.plat.act)
    ∧ ((∃ x ∈ s.plat.sensors, 105 < x.2) → ∃ n, exec .thermalTrip s = .next n ∧ n.plat.trip = true ∧ n.plat.inReset = true ∧ n.plat.frozen = true)
    ∧ (∃ n, exec .thermalTripClear s = .next n ∧ n.plat.trip = false ∧ n.plat.inReset = s.plat.bootFail.isSome)
    ∧ (∀ la v, exec (.windowRegisterWrite la v) s = .next (s.writeWindow (la / 8 * 8) v))
    ∧ ((s.cl cl).power = .on → s.clusterIdle cl = true → (s.cl cl).since + 900000 ≤ s.ns9 →
        ∃ n, exec (.clusterRetentionEntry cl) s = .next n ∧ (n.cl cl).power = .retention)
    ∧ ((s.cl cl).power = .retention → s.clusterIdle cl = true → (s.cl cl).since + 90000000 ≤ s.ns9 →
      (((s.cl cl).trace = [] ∨ ∃ t, (s.cl cl).drainBy = some t ∧ t ≤ s.ns9) →
        ∃ n, exec (.clusterGating cl) s = .next n ∧ (n.cl cl).power = .gated ∧ (n.cl cl).trace = [] ∧ ∀ p ∈ n.pool, p.1 / 2 ^ 21 ≠ cl)
      ∧ ((s.cl cl).trace ≠ [] → (s.cl cl).drainBy = none →
        exec (.clusterGating cl) s = .next (s.modCl cl fun y => { y with drainBy := some (s.ns9 + 18000) })))
    ∧ ((s.cl cl).power ≠ .on → ∃ n, exec (.clusterWake cl) s = .next n ∧ (n.cl cl).power = .on)
    ∧ exec (.patrolScrub cl) s = .next s
    ∧ (∃ n, exec (.softError .correctable) s = .next n ∧ n.plat.corrected = s.plat.corrected + 1)
    ∧ (∀ line, exec (.softError (.hbm line)) s = .next (s.poisonLine line) ∧ exec (.softError (.l2 line)) s = .next (s.l2Error line)
        ∧ (∃ n, exec (.softError (.l1 cl line)) s = .next n ∧ ∀ x ∈ n.coh.l1, ¬ (x.cl = cl ∧ x.line = line))
        ∧ ∃ n, exec (.softError (.blockCache cl line)) s = .next n ∧ ∀ x ∈ n.coh.bc, ¬ (x.cl = cl ∧ x.line = line))
    ∧ (∀ slot reg, ∃ n, exec (.softError (.register slot reg)) s = .next n ∧ n.regPoison slot reg = true)

/-- R381 to R387, Table 14-8: a request of another module is served at the home, or held at its page; a probe, recall or write-back is
applied and answered. -/
def Obligations.HomeMessages : Prop :=
  ∀ (s : State) (port : Nat) (m : Msg),
    let pg := msgLa m / 4096
    let form (i : Instr) (cls : BitVec 6) (r : Served) : Prop :=
      let p : Parked := .msg port { m with cls := cls }
      (s.parkedAt pg = true → exec i s = .next (s.park pg p))
      ∧ (s.parkedAt pg = false → (∀ n, r = .done n → exec i s = .next n) ∧ (r = .wait → exec i s = .next (s.park pg p))
          ∧ ∀ n, r = .act n → exec i s = .next (n.park pg p))
    form (.rd port m) 0x01 (s.serveRd port m)
    ∧ form (.wr port m) 0x03 (s.serveWr port { m with cls := 0x03 })
    ∧ form (.atomMessage port m) 0x04 (s.serveAtom port { m with cls := 0x04 })
    ∧ form (.pgs port m) 0x05 (s.servePgs port { m with cls := 0x05 })
    ∧ form (.pgx port m) 0x06 (s.servePgx port { m with cls := 0x06 })
    ∧ (∃ n, exec (.pginv port m) s = .next n) ∧ (∃ n, exec (.pgrcl port m) s = .next n)
    ∧ ((s.pageProbe (m.tag.toNat % 4) (msgPage m) (m.aux.setWidth 8)).2 = false →
        let n := ((s.pageProbe (m.tag.toNat % 4) (msgPage m) (m.aux.setWidth 8)).1).respond port m 0x23 m.aux []
        exec (.pginv port m) s = .next n ∧ exec (.pgrcl port m) s = .next n)
    ∧ (s.awaiting (dieAgent m.src.toNat (m.tag.toNat % 4)) pg = false → exec (.pgrsp port m) s = .next s)
    ∧ (∀ e, (s.die (homeDie (msgLa m))).agent (dieAgent m.src.toNat (m.tag.toNat % 4)) ≠ 2 →
        s.awaiting (dieAgent m.src.toNat (m.tag.toNat % 4)) pg = true →
        let n := s.answered (dieAgent m.src.toNat (m.tag.toNat % 4)) pg
        tget n.coh.pages pg = some e → e.st = .excl → e.holders = [4 * m.src.toNat + m.tag.toNat % 4] →
        let ps := tput n.coh.pages pg { e with st := .shared, holders := [], lastRecall := some n.ns9 }
        exec (.pgrsp port m) s = .next { n with coh := { n.coh with pages := ps } })
    ∧ (s.poisoned (msgLa m / 128) = true → exec (.wbd port m) s = .next s)
    ∧ ((s.die (homeDie (msgLa m))).agent (dieAgent m.src.toNat (m.tag.toNat % 4)) ≠ 2 → msgLa m < 2 ^ 40 →
        s.poisoned (msgLa m / 128) = false →
        (m.aux.getLsbD 15 = true → exec (.wbd port m) s = .next (s.poisonLine (msgLa m / 128)))
        ∧ (m.aux.getLsbD 15 = false →
        let y := msgLa m / 128
        let l := maskedBytes (beatsLine m.beats) (BitVec.allOnes 128)
        exec (.wbd port m) s = .next (((s.l2Put y l false).hbmPut y l).wakeWhere (WLoc.inLine y))))

/-- R228, R229, R234, R322, R375, R376, R379, Table 14-8: an answer goes to the request of its tag, and one to no request changes nothing;
an invocation submits a launch, answered when it is accepted (O45), or enqueues a handler message and is answered; a wake and an agent message. -/
def Obligations.AnswerMessages : Prop :=
  ∀ (s : State) (port : Nat) (m : Msg),
    (s.reqOf m = none →
      exec (.pggnt port m) s = .next s ∧ exec (.data port m) s = .next s ∧ exec (.ack port m) s = .next s
      ∧ exec (.atrsp port m) s = .next s ∧ exec (.err port m) s = .next s)
    ∧ (∀ r, s.reqOf m = some r →
      exec (.err port m) s = .next (s.failReq r)
      ∧ (∀ uid, r.who = .unit uid → exec (.atrsp port m) s =
          .next (((s.dropReq r.id).dropLoose (keyOf r.pa) none).atomDone uid ((m.beats.headD 0).toNat % 2 ^ 64) false))
      ∧ (∀ cl line, r.who = .fill cl line → line < 2 ^ 60 → exec (.data port m) s =
          .next ((s.dropReq r.id).sendGrant cl line (m.aux.setWidth 8) (beatsLine m.beats) false))
      ∧ (∀ cl cmd c, r.who = .place cl cmd → ((s.dropReq r.id).cl cl).cmd cmd = some c → exec (.ack port m) s =
          .next ((s.dropReq r.id).copyEnd cl c 0 (m.aux.toNat % 256)))
      ∧ (∀ q dev tag name, r.who = .relay q dev tag name → exec (.ack port m) s = .next ((s.dropReq r.id).transmit q
          ⟨BitVec.ofNat 12 dev, BitVec.ofNat 12 s.dev, 0x21, tag, BitVec.ofNat 16 (m.aux.toNat % 256), name, []⟩))
      ∧ (∀ die pg x, r.who = .page die pg x → r.probe = none → exec (.pggnt port m) s =
          .next { s.dropReq r.id with coh := { (s.dropReq r.id).coh with
            peers := ((s.dropReq r.id).coh.peers.filter fun p => !(p.die == die && p.page == pg))
              ++ [⟨die, pg, m.aux.getLsbD 15, m.aux.setWidth 8⟩] } }))
    ∧ ((∀ r ∈ s.coh.reqs, r.tag ≠ m.tag) → exec (.invans port m) s = .next s)
    ∧ (∀ r d q, s.coh.reqs.find? (fun r => r.tag == m.tag) = some r → r.who = .report d q → m.aux = 0 → exec (.invans port m) s =
        .next { s with coh := { s.coh with reqs := s.coh.reqs.filter (·.id != r.id) } })
    ∧ (∀ r slot th hidx tr, s.coh.reqs.find? (fun r => r.tag == m.tag) = some r → r.who = .invoke slot th hidx tr →
        exec (.invans port m) s = .next ((s.dropReq r.id).invokeAnswered th hidx tr m.aux.toNat m.src.toNat m.addr))
    ∧ (∀ th hidx tr reason dev tw, s.preempted th = true → reason ≠ 0 →
        s.invokeAnswered th hidx tr reason dev tw = { s with rejects := s.rejects ++ [⟨th, tr, reason, hidx, dev⟩] })
    ∧ exec (.wakeMessage port m) s = .next (s.wakeSlot (bitsOf m.addr.toNat 23 10) m.aux)
    ∧ (let e := (s.die (twDie m.addr)).handler (invHidx m)
      let slot := twSlot m.addr
      let bad := (s.report (twDie m.addr) 0 2 m.src.toNat (BitVec.ofNat 64 (invHidx m))).respond port m 0x26 0 []
      ((hV e = false ∨ hQok e = false) → exec (.invq port m) s = .next bad)
      ∧ (hV e = true → hQok e = true →
        (m.aux ≠ hAsid e → exec (.invq port m) s = .next (s.respond port m 0x26 6 []))
        ∧ (m.aux = hAsid e → (s.queue (twDie m.addr) (hQueue e)).asid ≠ hAsid e → exec (.invq port m) s = .next bad)
        ∧ (m.aux = hAsid e → (s.queue (twDie m.addr) (hQueue e)).asid = hAsid e →
          exec (.invq port m) s = .next (s.post [.recordAcceptance (twDie m.addr) (hQueue e)
            ⟨s.mclk, .invoke port m, .inr (hRecord e), some (hArgs e (invA0 m) (invA1 m))⟩])))
      ∧ (hV e = true → hHok e = true → m.aux = hAsid e →
        (tget s.thr slot = none → exec (.invh port m) s = .next (s.respond port m 0x26 4 []))
        ∧ (∀ t, tget s.thr slot = some t → t.ending = false → t.sys.asid = hAsid e →
          (4 ≤ t.msgs.length → exec (.invh port m) s = .next (s.respond port m 0x26 2 []))
          ∧ (t.msgs.length < 4 → exec (.invh port m) s = .next ((s.modThread slot fun t =>
              { t with msgs := t.msgs ++ [⟨recCode e, invA0 m, invA1 m, invSender m⟩], asleep := false, sleepUntil := none
                       boundary := t.boundary || (t.asleep && !t.sys.handler) }).respond port m 0x26 0 [])))))
    ∧ exec (.agent port m) s = .next ((List.range 4).foldl (fun s d => (List.range 4).foldl (fun (s : State) k =>
        let a := dieAgent m.src.toNat k
        if m.aux.getLsbD 0 = false then s.setAgent d a 0 else if (s.die d).agent a = 0 then s.setAgent d a 1 else s) s) s)

/-- R315, R316, R319, R392 to R395: a flit whose check fails or that is out of sequence is not taken, nor is any other flit while a replay
is awaited; one in sequence gives its message beats and credits; a replay sends the kept flits again; a port that goes down loses what it kept; a store at an invocation page is
submitted, and a configuration word written. -/
def Obligations.LinkAndWindowEvents : Prop :=
  ∀ (s : State) (port : Nat),
    (∀ fseq, exec (.replayRequest port fseq) s = .next (s.modPort port fun p => p.replayFrom fseq))
    ∧ exec (.linkDown port) s = .next (s.portDown port)
    ∧ (∀ beats, (s.port port).up = true →
      let h := beats.headD 0
      let good (s : State) : State := (s.modPort port fun p => p.takeCredits h).sendHeld port
      (flitOk beats = false → exec (.flitReceive port beats) s = .next (s.badFlit port true))
      ∧ (flitOk beats = true →
        ((s.port port).wantReplay = true → flitType h ≠ 1 → exec (.flitReceive port beats) s = .next s)
        ∧ (((s.port port).wantReplay = false ∨ flitType h = 1) →
          (flitSeq h ≠ (s.port port).rxNext → exec (.flitReceive port beats) s = .next (s.badFlit port false))
          ∧ (flitSeq h = (s.port port).rxNext → exec (.flitReceive port beats) s = .next (
            if flitType h = 1 then
              good (s.modPort port fun p => (beats.drop 1).zipIdx.foldl (fun (p : Port) b => p.takeBeat (flitSom h b.2) b.1)
                { p with rxNext := p.rxNext + 1, rxSeen := flitSeq h, wantReplay := false, fails := 0 })
            else if flitType h = 2 then (good s).modPort port fun p => p.replayFrom (flitAck h + 1)
            else good s)))))
    ∧ (∀ die q bytes, exec (.invocationWindowStore die q bytes) s = .next (s.post [.recordAcceptance die q ⟨s.mclk, .window, .inr bytes, none⟩]))
    ∧ (∀ die q word v, ∃ n, exec (.queueConfigWrite die q word v) s = .next n ∧ n.queue die q = (s.queue die q).write word.toNat v)

/-- R375, R437 to R441, R432: a cold reset brings the reset state, keeping what the module is and the host's memory, or stops at the
first image that fails, which it reports; a warm reset keeps every byte of memory, the L2's among them, poison, the bias bit of every
page and the black box, and nothing of a program; a trip holds the module against both, a failed image against a warm one; the
measurements (die images: log entry 58) and the answers of the SPDM responder of the port at which a request stands. -/
def Obligations.ResetAndSpdm : Prop :=
  ∀ s : State,
    (s.plat.trip = true → exec .coldReset s = .next s ∧ exec .warmReset s = .next s)
    ∧ (s.plat.trip = false → ∃ n, exec .coldReset s = .next n ∧ n.host = s.host ∧ n.dev = s.dev
      ∧ (bootStop = none → n.thr = [] ∧ n.grp = [] ∧ n.hbm = [] ∧ n.pool = [] ∧ n.coh.l2 = [] ∧ n.time = 0 ∧ n.plat.step = s.plat.step
          ∧ n.plat.inReset = false ∧ n.plat.meas = coldMeasurements)
      ∧ ∀ j, bootStop = some j → n.plat.inReset = true ∧ n.plat.bootFail = some j ∧ n.plat.meas = bootMeasurements j
          ∧ n.plat.reports = s.plat.reports ++ [.imageFailed j])
    ∧ (s.plat.bootFail ≠ none → exec .warmReset s = .next s)
    ∧ (s.plat.trip = false → s.plat.bootFail = none → ∃ n, exec .warmReset s = .next n ∧ n.thr = [] ∧ n.grp = [] ∧ n.pool = []
        ∧ n.coh.l2 = [] ∧ n.host = s.host ∧ n.time = s.time
        ∧ (s.MemInv → s.Clean → ∀ a < 2 ^ 40, n.hbmByte a = s.hbmByte a)
        ∧ (∀ y < 2 ^ 60, n.poisoned y = s.poisoned y)
        ∧ (∀ pg, n.biasOf pg = match s.biasOf pg with | .flushing => .device | .recalling => .host | b => b)
        ∧ n.plat.frozen = false ∧ n.plat.inReset = false ∧ n.plat.warmResets = s.plat.warmResets + 1)
    ∧ exec .hostReset s = .next ((List.range 4).foldl (fun s d => s.setAgent d hostAgent 0) s)
    ∧ (∀ j digest, ∃ n, exec (.hostMeasurementRequest j digest) s = .next n ∧ ∀ k, n.plat.meas[k]? =
        if k = j ∧ 3 ≤ j ∧ j ≤ 7 then (s.plat.meas[k]?).map fun m => extendMeasure m digest else s.plat.meas[k]?)
    ∧ (s.plat.doe < s.plat.spdm.length →
      let x := s.plat.responder
      let answersWith (i : Instr) (a : SpdmAnswer) : Prop := ∃ n, exec i s = .next n
        ∧ n.plat.responder.answers = x.answers ++ (if x.enabled then [a] else [])
        ∧ ∀ k, k ≠ s.plat.doe → n.plat.spdm[k]? = s.plat.spdm[k]?
      let signed (i : Instr) (a : SpdmAnswer) : Prop := answersWith i (if x.usable then a else .unsupportedRequest)
      answersWith .getVersion (.version [0x12, 0x13, 0x14]) ∧ answersWith .getCapabilities .capabilities
      ∧ (∀ v a b, answersWith (.negotiateAlgorithms v a b) (.algorithms (v == 0x14 && a && b) b)
          ∧ ∃ n, exec (.negotiateAlgorithms v a b) s = .next n ∧ n.plat.responder.usable = (v == 0x14 && a && b))
      ∧ signed .getDigests (.digests (Config.sha3_512 Config.certificateChain)) ∧ signed .getCertificate (.certificate Config.certificateChain)
      ∧ (∀ nonce, signed (.challenge nonce) (.challengeAuth (Config.mldsaSign (leBytes nonce.toNat 32)))
          ∧ signed (.getMeasurements nonce) (.measurements s.plat.meas
              (Config.mldsaSign (leBytes nonce.toNat 32 ++ (s.plat.meas.map bytesOf512).flatten))))
      ∧ (∀ k, signed (.keyExchange k) (.keyExchange (Config.mldsaSign (bytesOf512 k)))
          ∧ ∃ n, exec (.keyExchange k) s = .next n ∧ n.plat.responder.keyed = (x.keyed || (x.enabled && x.usable))))

/-! ### The whole machine -/

/-- R60 to R65: a well-formed instruction is read back from the word it is encoded in, with every operand. -/
def Obligations.RoundTrip : Prop :=
  ∀ (i : Instr) (w : W64), i.wf = true → encode i = some w → decode w = .ok i

/-- R60 to R65, R71, Tables 2-7, 2-8, 2-13, 3-6, 5-5: words and what they stand for; words that are refused, and the check that each fails. -/
def Obligations.DecodeSamples : Prop :=
  decode 0x3041822050000000 = .ok (.cmp .gt ⟨.always, .opC 2, .opA 1⟩ .w64 none)
  ∧ decode 0x0102038100000000 = .ok (.mov ⟨.always, .pred 3, .pred 4⟩)
  ∧ decode 0x3502800000000000 = .ok (.sel ⟨.always, .slot 0, .none⟩)
  ∧ decode 0x0504000000000008 = .ok (.br .onTrue 0 8)
  ∧ decode 0x050800000800000A = .ok (.br .onFalse 1 10)
  ∧ decode 0x0000000000000000 = .error .reservedOp
  ∧ decode 0x050C000000000008 = .error .reservedPm
  ∧ decode 0x30F1822050000000 = .error .reservedFn
  ∧ decode 0x0504000040000008 = .error .malformedTarget
  ∧ decode 0x0102038100000001 = .error .mustBeZero

/-- R61, R76, R179: a predicated form waits for its predicate, and absorbs its operands when the value is not the one it asks for, its
LSID predicated out; a computing form with a null among its operands delivers nulls. -/
def Obligations.PredicatesAndNulls : Prop :=
  ∀ (s : State) (x : Site) (i : Instr) (f : Fields), encodeFields i = some f → i.wf = true → s.site = some x →
    (f.pm ≠ 0 →
      (x.e.p = none → exec i s = .fault .notReady)
      ∧ (x.e.p = some (f.pm == 2) → exec i s = .next (s.absorb x (i.lsid.map (·.1)))))
    ∧ (((0x10 ≤ f.op.toNat ∧ f.op.toNat < 0x50) ∨ (0x70 ≤ f.op.toNat ∧ f.op.toNat < 0xA0)) → f.op ≠ 0x35 → f.op ≠ 0x36 → f.op ≠ 0x37 →
      (f.pm = 0 ∨ x.e.p = some (f.pm == 1)) → (∀ k < 3, f.hasOperand k = true → x.e.operand k ≠ none) →
      (∃ k < 3, f.hasOperand k = true ∧ x.e.operand k = some .null) → x.b.fp.isSome = true →
      ∃ h : Hdr, h.t0.code = f.t0 ∧ h.t1.code = f.t1 ∧ exec i s = delivers s x h .null)

/-- R33: a form of the instruction word that fires or absorbs leaves all memory, every register, the pc, the mode, the trap and system
registers and the platform as they were, in its own thread and in every other; what it does outside its block waits for the commit.
An SREAD or SWAIT at a word in memory may move lines (R285): every byte of memory reads as before. Of the other forms that move lines or
read a register at once, PREF and a load of an uncached page, nothing is said here (R189, R263). -/
def Obligations.FiringFrame : Prop :=
  ∀ (s t : State) (x : Site) (i : Instr) (f : Fields), encodeFields i = some f → s.site = some x → exec i s = .next t →
    (Cached s x i → SameArch s t)
    ∧ (s.MemInv → s.Clean → ((∃ fl h l o off, i = .sread fl h l o off) ∨ ∃ w h l o off, i = .swait w h l o off) → KeepsArch s t)

/-- R33, R35: at a commit the registers that write slots of the block name take their values, and every other register of the thread,
HRET's g1 and g2 and the handles of ACCSET apart, and every register of every other thread stays; without effects and scratchpad
stores all memory stays: a store goes to the store buffer. -/
def Obligations.CommitFrame : Prop :=
  ∀ (s n : State) (slot : Nat) (t : Thread) (b : Block) (l : List Block), tget s.thr slot = some t → t.blocks = b :: l →
    (exec (.blockCommit slot) s = .next n ∨ exec (.residentIterationCommit slot) s = .next n) →
    (∀ u, tget n.thr slot = some u →
      (∀ k, (∀ w ∈ b.writes, w.reg.toNat ≠ k) → ((∃ e ∈ b.effs, ∃ pm, e.ins = .hret pm) → k ≠ 1 ∧ k ≠ 2) →
        u.regs.g.getD k 0 = t.regs.g.getD k 0)
      ∧ (∀ k, (∀ w ∈ b.writes, w.reg.toNat ≠ 0x20 + k) → u.regs.v[k]? = t.regs.v[k]?)
      ∧ (∀ k, (∀ w ∈ b.writes, w.reg.toNat ≠ 0x40 + k) → u.regs.p[k]? = t.regs.p[k]?)
      ∧ (∀ k, (∀ e ∈ b.effs, ∀ a h m c d (r : BitVec 3), e.ins = .accset a h r m c d → r.toNat ≠ k) → u.regs.h[k]? = t.regs.h[k]?)
      ∧ (∀ w ∈ b.writes, (b.writes.filter fun y => y.reg == w.reg) = [w] → (∀ e ∈ b.effs, ∀ pm, e.ins ≠ .hret pm) →
        (∀ v, w.tok = some (.narrow v) → 0 < w.reg.toNat → w.reg.toNat < 24 → t.regs.g.length = 24 →
          u.regs.g.getD w.reg.toNat 0 = v)
        ∧ (∀ v, w.tok = some (.wide v) → 0x20 ≤ w.reg.toNat → w.reg.toNat < 0x30 → w.reg.toNat - 0x20 < t.regs.v.length →
          u.regs.v[w.reg.toNat - 0x20]? = some v)
        ∧ (∀ v, w.tok = some (.pred v) → 0x40 < w.reg.toNat → w.reg.toNat < 0x50 → t.regs.p.length = 16 →
          u.regs.p[w.reg.toNat - 0x40]? = some v)))
    ∧ (∀ k, k ≠ slot → (tget n.thr k).map (·.regs) = (tget s.thr k).map (·.regs))
    ∧ (b.effs = [] → (∀ a ∈ b.accs, a.store = true → a.space = .mem) → n.hbm = s.hbm ∧ n.coh.l2 = s.coh.l2 ∧ n.host = s.host ∧ n.pool = s.pool)

/-- R38, R343 and log entry 1: a step of a running module runs one instruction, once. Of the entries that may issue in the clk it is the first,
in their order, whose word decodes to an instruction that goes on, and its node issues no more in this clk; where none goes on, the
next commit; and where there is none either, the clk ends with the head of the agenda, if that goes on. An entry may issue whose node
has not issued in the clk, and a grid that has committed in it commits no more. After each step the monitors look at the words that were
operated on (R413). -/
def Obligations.StepRunsDecoded : Prop :=
  ∀ s : State, s.plat.frozen = false → s.plat.inReset = false →
    (∀ pre x post w i n, s.readyEntries = pre ++ x :: post → (∀ y ∈ pre, s.fireAt y.2 = none) →
      s.wordAt x.2 = some w → decode w = .ok i → exec i { s with cur := some x.2 } = .next n →
      step s = .next { n with issued := s.issued ++ [x], cur := none }.lookAtWords)
    ∧ (∀ n, s.issueNext = none → s.commitNext = some n → step s = .next n.lookAtWords
      ∧ ∃ p ∈ s.thr, ∃ m, (exec (.blockCommit p.1) s = .next m ∨ exec (.residentIterationCommit p.1) s = .next m)
        ∧ n = { m with committed := s.committed ++ [(headGrid p, p.1)] } ∧ ∀ c ∈ s.committed, c.1 ≠ headGrid p)
    ∧ (∀ i l n, s.issueNext = none → s.commitNext = none → s.agenda = i :: l → exec i { s with agenda := l } = .next n →
      step s = .next n.endClk.lookAtWords)
    ∧ (∀ x ∈ s.readyEntries, ∀ y ∈ s.issued, y.1 ≠ x.1)
    ∧ (s.samples = [] → s.lookAtWords = s)

/-- R437, Tables 9-4, 9-5, 11-3, 11-7, 13-1, 18-5: after a cold reset every byte of HBM is 0 and none poisoned, every page has device bias,
every queue block and handler entry is 0, no name is mapped, VC 0 is ACTIVE with every bank and every other virtual cache DISABLED,
every agent is LIVE, no thread runs, and the SPDM responder is enabled. The canonical forms hold. -/
def Obligations.ResetState : Prop :=
  (∀ a, State.reset.hbmByte a = 0) ∧ (∀ y, State.reset.poisoned y = false) ∧ (∀ page, State.reset.biasOf page = .device)
  ∧ (∀ d q, (State.reset.queue d q).qw = List.replicate 7 0 ∧ (State.reset.queue d q).drops = 0 ∧ (State.reset.queue d q).errs = 0)
  ∧ (∀ d k, (State.reset.die d).handler k = 0) ∧ (∀ d asid name, State.reset.resolveName d asid name = none)
  ∧ (∀ d, ((State.reset.die d).vc 0).bmask = BitVec.allOnes 128 ∧ ((State.reset.die d).vc 0).state = .active
      ∧ ∀ v, v ≠ 0 → ((State.reset.die d).vc v).bmask = 0 ∧ ((State.reset.die d).vc v).state = .disabled)
  ∧ (∀ d a, (State.reset.die d).agent a = 0) ∧ State.reset.thr = [] ∧ State.reset.grp = [] ∧ (∀ x ∈ State.reset.plat.spdm, x.enabled = true)
  ∧ State.reset.MemInv ∧ State.reset.Clean

/-- Every step, from every state, keeps the canonical form of the memories and of the L2 (R185, R285, R437): the form in which a byte of memory is
held is this model's (log entry 7). -/
def Obligations.StepKeepsMemory : Prop :=
  ∀ s n : State, s.MemInv → step s = .next n → n.MemInv
end

