-- ==== Sys2Proof/Laws/Tables.lean ====
section
/-! SUPPORT. Numbered tables: a number just set reads back, every other number keeps its value, and the numbers keep rising. -/

namespace Sys2Proof.Machine

variable {α : Type}

/-- The numbers of a table rise strictly. -/
def Rising (t : Table α) : Prop := (t.map (·.1)).Pairwise (· < ·)

@[simp] theorem tget_nil (n : Nat) : tget ([] : Table α) n = none := rfl
@[simp] theorem tput_nil (n : Nat) (v : α) : tput [] n v = [(n, v)] := rfl
@[simp] theorem tdel_nil (n : Nat) : tdel ([] : Table α) n = [] := rfl
@[simp] theorem tmap_nil (f : α → α) : tmap f [] = [] := rfl

@[simp] theorem tget_tput_self (t : Table α) (n : Nat) (v : α) : tget (tput t n v) n = some v := by
  induction t with
  | nil => simp [tget]
  | cons p t ih =>
    obtain ⟨m, w⟩ := p
    by_cases h1 : n < m
    · simp [tput, h1, tget]
    · by_cases h2 : n = m
      · subst h2; simp [tput, tget]
      · simp [tput, h1, h2, tget, ih]

theorem tget_tput_ne (t : Table α) {n k : Nat} (v : α) (h : k ≠ n) : tget (tput t n v) k = tget t k := by
  induction t with
  | nil => simp [tget, h]
  | cons p t ih =>
    obtain ⟨m, w⟩ := p
    by_cases h1 : n < m
    · simp only [tput, h1, if_true, tget, h, if_false]
      by_cases h2 : k < n
      · have : k ≠ m := by omega
        have h3 : k < m := by omega
        simp [h2, this, h3]
      · simp [h2]
    · by_cases h2 : n = m
      · subst h2; simp [tput, tget, h]
      · simp only [tput, h1, h2, if_false, tget, ih]

/-- What a table reads after one number is set. -/
theorem tget_tput (t : Table α) (n k : Nat) (v : α) : tget (tput t n v) k = if k = n then some v else tget t k := by
  by_cases h : k = n
  · subst h; simp
  · simp [h, tget_tput_ne t v h]

theorem tget_tmap (f : α → α) (t : Table α) (n : Nat) : tget (tmap f t) n = (tget t n).map f := by
  induction t with
  | nil => rfl
  | cons p t ih =>
    obtain ⟨m, w⟩ := p
    show tget ((m, f w) :: tmap f t) n = _
    simp only [tget]
    split
    · rfl
    · split
      · rfl
      · exact ih

theorem rising_nil : Rising ([] : Table α) := .nil
theorem Rising.tail {p : Nat × α} {t : Table α} (h : Rising (p :: t)) : Rising t := (List.pairwise_cons.mp h).2
theorem Rising.head {p : Nat × α} {t : Table α} (h : Rising (p :: t)) : ∀ q ∈ t, p.1 < q.1 := by
  intro q hq
  exact (List.pairwise_cons.mp h).1 _ (List.mem_map_of_mem hq)
theorem Rising.cons {p : Nat × α} {t : Table α} (h : Rising t) (h' : ∀ q ∈ t, p.1 < q.1) : Rising (p :: t) := by
  refine List.pairwise_cons.mpr ⟨?_, h⟩
  intro x hx
  obtain ⟨q, hq, rfl⟩ := List.mem_map.mp hx
  exact h' q hq

theorem mem_tput {t : Table α} {n : Nat} {v : α} {q : Nat × α} (h : q ∈ tput t n v) : q = (n, v) ∨ q ∈ t := by
  induction t with
  | nil => simpa using h
  | cons p t ih =>
    obtain ⟨m, w⟩ := p
    simp only [tput] at h
    split at h
    · simpa using h
    · split at h
      · rcases List.mem_cons.mp h with h | h
        · exact .inl h
        · exact .inr (List.mem_cons_of_mem _ h)
      · rcases List.mem_cons.mp h with h | h
        · exact .inr (h ▸ List.mem_cons_self)
        · rcases ih h with h | h
          · exact .inl h
          · exact .inr (List.mem_cons_of_mem _ h)

theorem Rising.tput {t : Table α} (h : Rising t) (n : Nat) (v : α) : Rising (tput t n v) := by
  induction t with
  | nil => exact List.pairwise_singleton _ _
  | cons p t ih =>
    obtain ⟨m, w⟩ := p
    simp only [Machine.tput]
    split
    · rename_i h1
      refine h.cons fun q hq => ?_
      rcases List.mem_cons.mp hq with rfl | hq
      · exact h1
      · exact Nat.lt_trans h1 (h.head q hq)
    · split
      · rename_i h2
        subst h2
        exact h.tail.cons fun q hq => h.head q hq
      · rename_i h1 h2
        refine (ih h.tail).cons fun q hq => ?_
        rcases mem_tput hq with rfl | hq
        · show m < n
          omega
        · exact h.head q hq

theorem mem_tdel {t : Table α} {n : Nat} {q : Nat × α} (h : q ∈ tdel t n) : q ∈ t := by
  induction t with
  | nil => exact h
  | cons p t ih =>
    obtain ⟨m, w⟩ := p
    simp only [tdel] at h
    split at h
    · exact List.mem_cons_of_mem _ h
    · rcases List.mem_cons.mp h with h | h
      · exact h ▸ List.mem_cons_self
      · exact List.mem_cons_of_mem _ (ih h)

theorem Rising.tdel {t : Table α} (h : Rising t) (n : Nat) : Rising (tdel t n) := by
  induction t with
  | nil => exact h
  | cons p t ih =>
    obtain ⟨m, w⟩ := p
    simp only [Machine.tdel]
    split
    · exact h.tail
    · exact (ih h.tail).cons fun q hq => h.head q (mem_tdel hq)

theorem Rising.tmap {t : Table α} (h : Rising t) (f : α → α) : Rising (tmap f t) := by
  have : (Machine.tmap f t).map (·.1) = t.map (·.1) := by
    simp [Machine.tmap, List.map_map, Function.comp_def]
  unfold Rising
  rw [this]
  exact h

theorem Rising.filter {t : Table α} (h : Rising t) (p : Nat × α → Bool) : Rising (t.filter p) :=
  List.Pairwise.sublist (List.filter_sublist.map _) h

theorem tget_eq_none_of_lt {t : Table α} {k : Nat} (h : ∀ q ∈ t, k < q.1) : tget t k = none := by
  cases t with
  | nil => rfl
  | cons p t =>
    obtain ⟨m, w⟩ := p
    have : k < m := h (m, w) List.mem_cons_self
    have h' : k ≠ m := by omega
    simp [tget, this, h']

theorem tget_tdel_self {t : Table α} (h : Rising t) (n : Nat) : tget (tdel t n) n = none := by
  induction t with
  | nil => rfl
  | cons p t ih =>
    obtain ⟨m, w⟩ := p
    simp only [tdel]
    split
    · rename_i h1
      subst h1
      exact tget_eq_none_of_lt h.head
    · rename_i h1
      simp only [tget, h1, if_false]
      split
      · rfl
      · exact ih h.tail

theorem tget_tdel_ne {t : Table α} (h : Rising t) {n k : Nat} (h' : k ≠ n) : tget (tdel t n) k = tget t k := by
  induction t with
  | nil => rfl
  | cons p t ih =>
    obtain ⟨m, w⟩ := p
    simp only [tdel]
    split
    · rename_i h1
      subst h1
      simp only [tget, h', if_false]
      split
      · rename_i h2
        exact tget_eq_none_of_lt fun q hq => Nat.lt_trans h2 (h.head q hq)
      · rfl
    · simp only [tget, ih h.tail]

/-- A value that a table gives is listed in it. -/
theorem mem_of_tget {t : Table α} {n : Nat} {v : α} (h : tget t n = some v) : (n, v) ∈ t := by
  induction t with
  | nil => cases h
  | cons p t ih =>
    obtain ⟨m, w⟩ := p
    simp only [tget] at h
    split at h
    · rename_i h1
      subst h1
      cases h
      exact List.mem_cons_self
    · split at h
      · cases h
      · exact List.mem_cons_of_mem _ (ih h)

end Sys2Proof.Machine
end

