-- ==== Sys2Proof/Laws/State.lean ====
section
/-! SUPPORT. What each named update of the state leaves as it was, field by field, and what it makes of the part it names. -/

namespace Sys2Proof.Machine

variable (s : State)

/-! ### `State.modGrid` -/

@[simp] theorem modGrid_clk (g : Nat) (f : Grid → Grid) : (s.modGrid g f).clk = s.clk := rfl
@[simp] theorem modGrid_time (g : Nat) (f : Grid → Grid) : (s.modGrid g f).time = s.time := rfl
@[simp] theorem modGrid_phase (g : Nat) (f : Grid → Grid) : (s.modGrid g f).phase = s.phase := rfl
@[simp] theorem modGrid_issued (g : Nat) (f : Grid → Grid) : (s.modGrid g f).issued = s.issued := rfl
@[simp] theorem modGrid_committed (g : Nat) (f : Grid → Grid) : (s.modGrid g f).committed = s.committed := rfl
@[simp] theorem modGrid_loaded (g : Nat) (f : Grid → Grid) : (s.modGrid g f).loaded = s.loaded := rfl
@[simp] theorem modGrid_samples (g : Nat) (f : Grid → Grid) : (s.modGrid g f).samples = s.samples := rfl
@[simp] theorem modGrid_fresh (g : Nat) (f : Grid → Grid) : (s.modGrid g f).fresh = s.fresh := rfl
@[simp] theorem modGrid_uid (g : Nat) (f : Grid → Grid) : (s.modGrid g f).uid = s.uid := rfl
@[simp] theorem modGrid_cur (g : Nat) (f : Grid → Grid) : (s.modGrid g f).cur = s.cur := rfl
@[simp] theorem modGrid_agenda (g : Nat) (f : Grid → Grid) : (s.modGrid g f).agenda = s.agenda := rfl
@[simp] theorem modGrid_dev (g : Nat) (f : Grid → Grid) : (s.modGrid g f).dev = s.dev := rfl
@[simp] theorem modGrid_reach (g : Nat) (f : Grid → Grid) : (s.modGrid g f).reach = s.reach := rfl
@[simp] theorem modGrid_hbm (g : Nat) (f : Grid → Grid) : (s.modGrid g f).hbm = s.hbm := rfl
@[simp] theorem modGrid_host (g : Nat) (f : Grid → Grid) : (s.modGrid g f).host = s.host := rfl
@[simp] theorem modGrid_pool (g : Nat) (f : Grid → Grid) : (s.modGrid g f).pool = s.pool := rfl
@[simp] theorem modGrid_coh (g : Nat) (f : Grid → Grid) : (s.modGrid g f).coh = s.coh := rfl
@[simp] theorem modGrid_thr (g : Nat) (f : Grid → Grid) : (s.modGrid g f).thr = s.thr := rfl
@[simp] theorem modGrid_grp (g : Nat) (f : Grid → Grid) : (s.modGrid g f).grp = s.grp := rfl
@[simp] theorem modGrid_cls (g : Nat) (f : Grid → Grid) : (s.modGrid g f).cls = s.cls := rfl
@[simp] theorem modGrid_dies (g : Nat) (f : Grid → Grid) : (s.modGrid g f).dies = s.dies := rfl
@[simp] theorem modGrid_net (g : Nat) (f : Grid → Grid) : (s.modGrid g f).net = s.net := rfl
@[simp] theorem modGrid_links (g : Nat) (f : Grid → Grid) : (s.modGrid g f).links = s.links := rfl
@[simp] theorem modGrid_saves (g : Nat) (f : Grid → Grid) : (s.modGrid g f).saves = s.saves := rfl
@[simp] theorem modGrid_rejects (g : Nat) (f : Grid → Grid) : (s.modGrid g f).rejects = s.rejects := rfl
@[simp] theorem modGrid_resumed (g : Nat) (f : Grid → Grid) : (s.modGrid g f).resumed = s.resumed := rfl
@[simp] theorem modGrid_restores (g : Nat) (f : Grid → Grid) : (s.modGrid g f).restores = s.restores := rfl
@[simp] theorem modGrid_installs (g : Nat) (f : Grid → Grid) : (s.modGrid g f).installs = s.installs := rfl
@[simp] theorem modGrid_swaits (g : Nat) (f : Grid → Grid) : (s.modGrid g f).swaits = s.swaits := rfl
@[simp] theorem modGrid_hist (g : Nat) (f : Grid → Grid) : (s.modGrid g f).hist = s.hist := rfl
@[simp] theorem modGrid_plat (g : Nat) (f : Grid → Grid) : (s.modGrid g f).plat = s.plat := rfl

/-! ### `State.modCl` -/

@[simp] theorem modCl_clk (c : Nat) (f : Cluster → Cluster) : (s.modCl c f).clk = s.clk := rfl
@[simp] theorem modCl_time (c : Nat) (f : Cluster → Cluster) : (s.modCl c f).time = s.time := rfl
@[simp] theorem modCl_phase (c : Nat) (f : Cluster → Cluster) : (s.modCl c f).phase = s.phase := rfl
@[simp] theorem modCl_issued (c : Nat) (f : Cluster → Cluster) : (s.modCl c f).issued = s.issued := rfl
@[simp] theorem modCl_committed (c : Nat) (f : Cluster → Cluster) : (s.modCl c f).committed = s.committed := rfl
@[simp] theorem modCl_loaded (c : Nat) (f : Cluster → Cluster) : (s.modCl c f).loaded = s.loaded := rfl
@[simp] theorem modCl_samples (c : Nat) (f : Cluster → Cluster) : (s.modCl c f).samples = s.samples := rfl
@[simp] theorem modCl_fresh (c : Nat) (f : Cluster → Cluster) : (s.modCl c f).fresh = s.fresh := rfl
@[simp] theorem modCl_uid (c : Nat) (f : Cluster → Cluster) : (s.modCl c f).uid = s.uid := rfl
@[simp] theorem modCl_cur (c : Nat) (f : Cluster → Cluster) : (s.modCl c f).cur = s.cur := rfl
@[simp] theorem modCl_agenda (c : Nat) (f : Cluster → Cluster) : (s.modCl c f).agenda = s.agenda := rfl
@[simp] theorem modCl_dev (c : Nat) (f : Cluster → Cluster) : (s.modCl c f).dev = s.dev := rfl
@[simp] theorem modCl_reach (c : Nat) (f : Cluster → Cluster) : (s.modCl c f).reach = s.reach := rfl
@[simp] theorem modCl_hbm (c : Nat) (f : Cluster → Cluster) : (s.modCl c f).hbm = s.hbm := rfl
@[simp] theorem modCl_host (c : Nat) (f : Cluster → Cluster) : (s.modCl c f).host = s.host := rfl
@[simp] theorem modCl_pool (c : Nat) (f : Cluster → Cluster) : (s.modCl c f).pool = s.pool := rfl
@[simp] theorem modCl_coh (c : Nat) (f : Cluster → Cluster) : (s.modCl c f).coh = s.coh := rfl
@[simp] theorem modCl_thr (c : Nat) (f : Cluster → Cluster) : (s.modCl c f).thr = s.thr := rfl
@[simp] theorem modCl_grp (c : Nat) (f : Cluster → Cluster) : (s.modCl c f).grp = s.grp := rfl
@[simp] theorem modCl_grids (c : Nat) (f : Cluster → Cluster) : (s.modCl c f).grids = s.grids := rfl
@[simp] theorem modCl_dies (c : Nat) (f : Cluster → Cluster) : (s.modCl c f).dies = s.dies := rfl
@[simp] theorem modCl_net (c : Nat) (f : Cluster → Cluster) : (s.modCl c f).net = s.net := rfl
@[simp] theorem modCl_links (c : Nat) (f : Cluster → Cluster) : (s.modCl c f).links = s.links := rfl
@[simp] theorem modCl_saves (c : Nat) (f : Cluster → Cluster) : (s.modCl c f).saves = s.saves := rfl
@[simp] theorem modCl_rejects (c : Nat) (f : Cluster → Cluster) : (s.modCl c f).rejects = s.rejects := rfl
@[simp] theorem modCl_resumed (c : Nat) (f : Cluster → Cluster) : (s.modCl c f).resumed = s.resumed := rfl
@[simp] theorem modCl_restores (c : Nat) (f : Cluster → Cluster) : (s.modCl c f).restores = s.restores := rfl
@[simp] theorem modCl_installs (c : Nat) (f : Cluster → Cluster) : (s.modCl c f).installs = s.installs := rfl
@[simp] theorem modCl_swaits (c : Nat) (f : Cluster → Cluster) : (s.modCl c f).swaits = s.swaits := rfl
@[simp] theorem modCl_hist (c : Nat) (f : Cluster → Cluster) : (s.modCl c f).hist = s.hist := rfl
@[simp] theorem modCl_plat (c : Nat) (f : Cluster → Cluster) : (s.modCl c f).plat = s.plat := rfl

/-! ### `State.modDie` -/

@[simp] theorem modDie_clk (d : Nat) (f : Die → Die) : (s.modDie d f).clk = s.clk := rfl
@[simp] theorem modDie_time (d : Nat) (f : Die → Die) : (s.modDie d f).time = s.time := rfl
@[simp] theorem modDie_phase (d : Nat) (f : Die → Die) : (s.modDie d f).phase = s.phase := rfl
@[simp] theorem modDie_issued (d : Nat) (f : Die → Die) : (s.modDie d f).issued = s.issued := rfl
@[simp] theorem modDie_committed (d : Nat) (f : Die → Die) : (s.modDie d f).committed = s.committed := rfl
@[simp] theorem modDie_loaded (d : Nat) (f : Die → Die) : (s.modDie d f).loaded = s.loaded := rfl
@[simp] theorem modDie_samples (d : Nat) (f : Die → Die) : (s.modDie d f).samples = s.samples := rfl
@[simp] theorem modDie_fresh (d : Nat) (f : Die → Die) : (s.modDie d f).fresh = s.fresh := rfl
@[simp] theorem modDie_uid (d : Nat) (f : Die → Die) : (s.modDie d f).uid = s.uid := rfl
@[simp] theorem modDie_cur (d : Nat) (f : Die → Die) : (s.modDie d f).cur = s.cur := rfl
@[simp] theorem modDie_agenda (d : Nat) (f : Die → Die) : (s.modDie d f).agenda = s.agenda := rfl
@[simp] theorem modDie_dev (d : Nat) (f : Die → Die) : (s.modDie d f).dev = s.dev := rfl
@[simp] theorem modDie_reach (d : Nat) (f : Die → Die) : (s.modDie d f).reach = s.reach := rfl
@[simp] theorem modDie_hbm (d : Nat) (f : Die → Die) : (s.modDie d f).hbm = s.hbm := rfl
@[simp] theorem modDie_host (d : Nat) (f : Die → Die) : (s.modDie d f).host = s.host := rfl
@[simp] theorem modDie_pool (d : Nat) (f : Die → Die) : (s.modDie d f).pool = s.pool := rfl
@[simp] theorem modDie_coh (d : Nat) (f : Die → Die) : (s.modDie d f).coh = s.coh := rfl
@[simp] theorem modDie_thr (d : Nat) (f : Die → Die) : (s.modDie d f).thr = s.thr := rfl
@[simp] theorem modDie_grp (d : Nat) (f : Die → Die) : (s.modDie d f).grp = s.grp := rfl
@[simp] theorem modDie_grids (d : Nat) (f : Die → Die) : (s.modDie d f).grids = s.grids := rfl
@[simp] theorem modDie_cls (d : Nat) (f : Die → Die) : (s.modDie d f).cls = s.cls := rfl
@[simp] theorem modDie_net (d : Nat) (f : Die → Die) : (s.modDie d f).net = s.net := rfl
@[simp] theorem modDie_links (d : Nat) (f : Die → Die) : (s.modDie d f).links = s.links := rfl
@[simp] theorem modDie_saves (d : Nat) (f : Die → Die) : (s.modDie d f).saves = s.saves := rfl
@[simp] theorem modDie_rejects (d : Nat) (f : Die → Die) : (s.modDie d f).rejects = s.rejects := rfl
@[simp] theorem modDie_resumed (d : Nat) (f : Die → Die) : (s.modDie d f).resumed = s.resumed := rfl
@[simp] theorem modDie_restores (d : Nat) (f : Die → Die) : (s.modDie d f).restores = s.restores := rfl
@[simp] theorem modDie_installs (d : Nat) (f : Die → Die) : (s.modDie d f).installs = s.installs := rfl
@[simp] theorem modDie_swaits (d : Nat) (f : Die → Die) : (s.modDie d f).swaits = s.swaits := rfl
@[simp] theorem modDie_hist (d : Nat) (f : Die → Die) : (s.modDie d f).hist = s.hist := rfl
@[simp] theorem modDie_plat (d : Nat) (f : Die → Die) : (s.modDie d f).plat = s.plat := rfl

/-! ### `State.modQueue` -/

@[simp] theorem modQueue_clk (d q : Nat) (f : Queue → Queue) : (s.modQueue d q f).clk = s.clk := rfl
@[simp] theorem modQueue_time (d q : Nat) (f : Queue → Queue) : (s.modQueue d q f).time = s.time := rfl
@[simp] theorem modQueue_phase (d q : Nat) (f : Queue → Queue) : (s.modQueue d q f).phase = s.phase := rfl
@[simp] theorem modQueue_issued (d q : Nat) (f : Queue → Queue) : (s.modQueue d q f).issued = s.issued := rfl
@[simp] theorem modQueue_committed (d q : Nat) (f : Queue → Queue) : (s.modQueue d q f).committed = s.committed := rfl
@[simp] theorem modQueue_loaded (d q : Nat) (f : Queue → Queue) : (s.modQueue d q f).loaded = s.loaded := rfl
@[simp] theorem modQueue_samples (d q : Nat) (f : Queue → Queue) : (s.modQueue d q f).samples = s.samples := rfl
@[simp] theorem modQueue_fresh (d q : Nat) (f : Queue → Queue) : (s.modQueue d q f).fresh = s.fresh := rfl
@[simp] theorem modQueue_uid (d q : Nat) (f : Queue → Queue) : (s.modQueue d q f).uid = s.uid := rfl
@[simp] theorem modQueue_cur (d q : Nat) (f : Queue → Queue) : (s.modQueue d q f).cur = s.cur := rfl
@[simp] theorem modQueue_agenda (d q : Nat) (f : Queue → Queue) : (s.modQueue d q f).agenda = s.agenda := rfl
@[simp] theorem modQueue_dev (d q : Nat) (f : Queue → Queue) : (s.modQueue d q f).dev = s.dev := rfl
@[simp] theorem modQueue_reach (d q : Nat) (f : Queue → Queue) : (s.modQueue d q f).reach = s.reach := rfl
@[simp] theorem modQueue_hbm (d q : Nat) (f : Queue → Queue) : (s.modQueue d q f).hbm = s.hbm := rfl
@[simp] theorem modQueue_host (d q : Nat) (f : Queue → Queue) : (s.modQueue d q f).host = s.host := rfl
@[simp] theorem modQueue_pool (d q : Nat) (f : Queue → Queue) : (s.modQueue d q f).pool = s.pool := rfl
@[simp] theorem modQueue_coh (d q : Nat) (f : Queue → Queue) : (s.modQueue d q f).coh = s.coh := rfl
@[simp] theorem modQueue_thr (d q : Nat) (f : Queue → Queue) : (s.modQueue d q f).thr = s.thr := rfl
@[simp] theorem modQueue_grp (d q : Nat) (f : Queue → Queue) : (s.modQueue d q f).grp = s.grp := rfl
@[simp] theorem modQueue_grids (d q : Nat) (f : Queue → Queue) : (s.modQueue d q f).grids = s.grids := rfl
@[simp] theorem modQueue_cls (d q : Nat) (f : Queue → Queue) : (s.modQueue d q f).cls = s.cls := rfl
@[simp] theorem modQueue_net (d q : Nat) (f : Queue → Queue) : (s.modQueue d q f).net = s.net := rfl
@[simp] theorem modQueue_links (d q : Nat) (f : Queue → Queue) : (s.modQueue d q f).links = s.links := rfl
@[simp] theorem modQueue_saves (d q : Nat) (f : Queue → Queue) : (s.modQueue d q f).saves = s.saves := rfl
@[simp] theorem modQueue_rejects (d q : Nat) (f : Queue → Queue) : (s.modQueue d q f).rejects = s.rejects := rfl
@[simp] theorem modQueue_resumed (d q : Nat) (f : Queue → Queue) : (s.modQueue d q f).resumed = s.resumed := rfl
@[simp] theorem modQueue_restores (d q : Nat) (f : Queue → Queue) : (s.modQueue d q f).restores = s.restores := rfl
@[simp] theorem modQueue_installs (d q : Nat) (f : Queue → Queue) : (s.modQueue d q f).installs = s.installs := rfl
@[simp] theorem modQueue_swaits (d q : Nat) (f : Queue → Queue) : (s.modQueue d q f).swaits = s.swaits := rfl
@[simp] theorem modQueue_hist (d q : Nat) (f : Queue → Queue) : (s.modQueue d q f).hist = s.hist := rfl
@[simp] theorem modQueue_plat (d q : Nat) (f : Queue → Queue) : (s.modQueue d q f).plat = s.plat := rfl

/-! ### `State.modPort` -/

@[simp] theorem modPort_clk (p : Nat) (f : Port → Port) : (s.modPort p f).clk = s.clk := rfl
@[simp] theorem modPort_time (p : Nat) (f : Port → Port) : (s.modPort p f).time = s.time := rfl
@[simp] theorem modPort_phase (p : Nat) (f : Port → Port) : (s.modPort p f).phase = s.phase := rfl
@[simp] theorem modPort_issued (p : Nat) (f : Port → Port) : (s.modPort p f).issued = s.issued := rfl
@[simp] theorem modPort_committed (p : Nat) (f : Port → Port) : (s.modPort p f).committed = s.committed := rfl
@[simp] theorem modPort_loaded (p : Nat) (f : Port → Port) : (s.modPort p f).loaded = s.loaded := rfl
@[simp] theorem modPort_samples (p : Nat) (f : Port → Port) : (s.modPort p f).samples = s.samples := rfl
@[simp] theorem modPort_fresh (p : Nat) (f : Port → Port) : (s.modPort p f).fresh = s.fresh := rfl
@[simp] theorem modPort_uid (p : Nat) (f : Port → Port) : (s.modPort p f).uid = s.uid := rfl
@[simp] theorem modPort_cur (p : Nat) (f : Port → Port) : (s.modPort p f).cur = s.cur := rfl
@[simp] theorem modPort_agenda (p : Nat) (f : Port → Port) : (s.modPort p f).agenda = s.agenda := rfl
@[simp] theorem modPort_dev (p : Nat) (f : Port → Port) : (s.modPort p f).dev = s.dev := rfl
@[simp] theorem modPort_reach (p : Nat) (f : Port → Port) : (s.modPort p f).reach = s.reach := rfl
@[simp] theorem modPort_hbm (p : Nat) (f : Port → Port) : (s.modPort p f).hbm = s.hbm := rfl
@[simp] theorem modPort_host (p : Nat) (f : Port → Port) : (s.modPort p f).host = s.host := rfl
@[simp] theorem modPort_pool (p : Nat) (f : Port → Port) : (s.modPort p f).pool = s.pool := rfl
@[simp] theorem modPort_coh (p : Nat) (f : Port → Port) : (s.modPort p f).coh = s.coh := rfl
@[simp] theorem modPort_thr (p : Nat) (f : Port → Port) : (s.modPort p f).thr = s.thr := rfl
@[simp] theorem modPort_grp (p : Nat) (f : Port → Port) : (s.modPort p f).grp = s.grp := rfl
@[simp] theorem modPort_grids (p : Nat) (f : Port → Port) : (s.modPort p f).grids = s.grids := rfl
@[simp] theorem modPort_cls (p : Nat) (f : Port → Port) : (s.modPort p f).cls = s.cls := rfl
@[simp] theorem modPort_dies (p : Nat) (f : Port → Port) : (s.modPort p f).dies = s.dies := rfl
@[simp] theorem modPort_net (p : Nat) (f : Port → Port) : (s.modPort p f).net = s.net := rfl
@[simp] theorem modPort_saves (p : Nat) (f : Port → Port) : (s.modPort p f).saves = s.saves := rfl
@[simp] theorem modPort_rejects (p : Nat) (f : Port → Port) : (s.modPort p f).rejects = s.rejects := rfl
@[simp] theorem modPort_resumed (p : Nat) (f : Port → Port) : (s.modPort p f).resumed = s.resumed := rfl
@[simp] theorem modPort_restores (p : Nat) (f : Port → Port) : (s.modPort p f).restores = s.restores := rfl
@[simp] theorem modPort_installs (p : Nat) (f : Port → Port) : (s.modPort p f).installs = s.installs := rfl
@[simp] theorem modPort_swaits (p : Nat) (f : Port → Port) : (s.modPort p f).swaits = s.swaits := rfl
@[simp] theorem modPort_hist (p : Nat) (f : Port → Port) : (s.modPort p f).hist = s.hist := rfl
@[simp] theorem modPort_plat (p : Nat) (f : Port → Port) : (s.modPort p f).plat = s.plat := rfl

/-! ### `State.post` -/

@[simp] theorem post_clk (l : List Instr) : (s.post l).clk = s.clk := rfl
@[simp] theorem post_time (l : List Instr) : (s.post l).time = s.time := rfl
@[simp] theorem post_phase (l : List Instr) : (s.post l).phase = s.phase := rfl
@[simp] theorem post_issued (l : List Instr) : (s.post l).issued = s.issued := rfl
@[simp] theorem post_committed (l : List Instr) : (s.post l).committed = s.committed := rfl
@[simp] theorem post_loaded (l : List Instr) : (s.post l).loaded = s.loaded := rfl
@[simp] theorem post_samples (l : List Instr) : (s.post l).samples = s.samples := rfl
@[simp] theorem post_fresh (l : List Instr) : (s.post l).fresh = s.fresh := rfl
@[simp] theorem post_uid (l : List Instr) : (s.post l).uid = s.uid := rfl
@[simp] theorem post_cur (l : List Instr) : (s.post l).cur = s.cur := rfl
@[simp] theorem post_dev (l : List Instr) : (s.post l).dev = s.dev := rfl
@[simp] theorem post_reach (l : List Instr) : (s.post l).reach = s.reach := rfl
@[simp] theorem post_hbm (l : List Instr) : (s.post l).hbm = s.hbm := rfl
@[simp] theorem post_host (l : List Instr) : (s.post l).host = s.host := rfl
@[simp] theorem post_pool (l : List Instr) : (s.post l).pool = s.pool := rfl
@[simp] theorem post_coh (l : List Instr) : (s.post l).coh = s.coh := rfl
@[simp] theorem post_thr (l : List Instr) : (s.post l).thr = s.thr := rfl
@[simp] theorem post_grp (l : List Instr) : (s.post l).grp = s.grp := rfl
@[simp] theorem post_grids (l : List Instr) : (s.post l).grids = s.grids := rfl
@[simp] theorem post_cls (l : List Instr) : (s.post l).cls = s.cls := rfl
@[simp] theorem post_dies (l : List Instr) : (s.post l).dies = s.dies := rfl
@[simp] theorem post_net (l : List Instr) : (s.post l).net = s.net := rfl
@[simp] theorem post_links (l : List Instr) : (s.post l).links = s.links := rfl
@[simp] theorem post_saves (l : List Instr) : (s.post l).saves = s.saves := rfl
@[simp] theorem post_rejects (l : List Instr) : (s.post l).rejects = s.rejects := rfl
@[simp] theorem post_resumed (l : List Instr) : (s.post l).resumed = s.resumed := rfl
@[simp] theorem post_restores (l : List Instr) : (s.post l).restores = s.restores := rfl
@[simp] theorem post_installs (l : List Instr) : (s.post l).installs = s.installs := rfl
@[simp] theorem post_swaits (l : List Instr) : (s.post l).swaits = s.swaits := rfl
@[simp] theorem post_hist (l : List Instr) : (s.post l).hist = s.hist := rfl
@[simp] theorem post_plat (l : List Instr) : (s.post l).plat = s.plat := rfl

/-! ### `State.modThread` -/

@[simp] theorem modThread_clk (k : Nat) (f : Thread → Thread) : (s.modThread k f).clk = s.clk := by unfold State.modThread; split <;> rfl
@[simp] theorem modThread_time (k : Nat) (f : Thread → Thread) : (s.modThread k f).time = s.time := by unfold State.modThread; split <;> rfl
@[simp] theorem modThread_phase (k : Nat) (f : Thread → Thread) : (s.modThread k f).phase = s.phase := by unfold State.modThread; split <;> rfl
@[simp] theorem modThread_issued (k : Nat) (f : Thread → Thread) : (s.modThread k f).issued = s.issued := by unfold State.modThread; split <;> rfl
@[simp] theorem modThread_committed (k : Nat) (f : Thread → Thread) : (s.modThread k f).committed = s.committed := by unfold State.modThread; split <;> rfl
@[simp] theorem modThread_loaded (k : Nat) (f : Thread → Thread) : (s.modThread k f).loaded = s.loaded := by unfold State.modThread; split <;> rfl
@[simp] theorem modThread_samples (k : Nat) (f : Thread → Thread) : (s.modThread k f).samples = s.samples := by unfold State.modThread; split <;> rfl
@[simp] theorem modThread_fresh (k : Nat) (f : Thread → Thread) : (s.modThread k f).fresh = s.fresh := by unfold State.modThread; split <;> rfl
@[simp] theorem modThread_uid (k : Nat) (f : Thread → Thread) : (s.modThread k f).uid = s.uid := by unfold State.modThread; split <;> rfl
@[simp] theorem modThread_cur (k : Nat) (f : Thread → Thread) : (s.modThread k f).cur = s.cur := by unfold State.modThread; split <;> rfl
@[simp] theorem modThread_agenda (k : Nat) (f : Thread → Thread) : (s.modThread k f).agenda = s.agenda := by unfold State.modThread; split <;> rfl
@[simp] theorem modThread_dev (k : Nat) (f : Thread → Thread) : (s.modThread k f).dev = s.dev := by unfold State.modThread; split <;> rfl
@[simp] theorem modThread_reach (k : Nat) (f : Thread → Thread) : (s.modThread k f).reach = s.reach := by unfold State.modThread; split <;> rfl
@[simp] theorem modThread_hbm (k : Nat) (f : Thread → Thread) : (s.modThread k f).hbm = s.hbm := by unfold State.modThread; split <;> rfl
@[simp] theorem modThread_host (k : Nat) (f : Thread → Thread) : (s.modThread k f).host = s.host := by unfold State.modThread; split <;> rfl
@[simp] theorem modThread_pool (k : Nat) (f : Thread → Thread) : (s.modThread k f).pool = s.pool := by unfold State.modThread; split <;> rfl
@[simp] theorem modThread_coh (k : Nat) (f : Thread → Thread) : (s.modThread k f).coh = s.coh := by unfold State.modThread; split <;> rfl
@[simp] theorem modThread_grp (k : Nat) (f : Thread → Thread) : (s.modThread k f).grp = s.grp := by unfold State.modThread; split <;> rfl
@[simp] theorem modThread_grids (k : Nat) (f : Thread → Thread) : (s.modThread k f).grids = s.grids := by unfold State.modThread; split <;> rfl
@[simp] theorem modThread_cls (k : Nat) (f : Thread → Thread) : (s.modThread k f).cls = s.cls := by unfold State.modThread; split <;> rfl
@[simp] theorem modThread_dies (k : Nat) (f : Thread → Thread) : (s.modThread k f).dies = s.dies := by unfold State.modThread; split <;> rfl
@[simp] theorem modThread_net (k : Nat) (f : Thread → Thread) : (s.modThread k f).net = s.net := by unfold State.modThread; split <;> rfl
@[simp] theorem modThread_links (k : Nat) (f : Thread → Thread) : (s.modThread k f).links = s.links := by unfold State.modThread; split <;> rfl
@[simp] theorem modThread_saves (k : Nat) (f : Thread → Thread) : (s.modThread k f).saves = s.saves := by unfold State.modThread; split <;> rfl
@[simp] theorem modThread_rejects (k : Nat) (f : Thread → Thread) : (s.modThread k f).rejects = s.rejects := by unfold State.modThread; split <;> rfl
@[simp] theorem modThread_resumed (k : Nat) (f : Thread → Thread) : (s.modThread k f).resumed = s.resumed := by unfold State.modThread; split <;> rfl
@[simp] theorem modThread_restores (k : Nat) (f : Thread → Thread) : (s.modThread k f).restores = s.restores := by unfold State.modThread; split <;> rfl
@[simp] theorem modThread_installs (k : Nat) (f : Thread → Thread) : (s.modThread k f).installs = s.installs := by unfold State.modThread; split <;> rfl
@[simp] theorem modThread_swaits (k : Nat) (f : Thread → Thread) : (s.modThread k f).swaits = s.swaits := by unfold State.modThread; split <;> rfl
@[simp] theorem modThread_hist (k : Nat) (f : Thread → Thread) : (s.modThread k f).hist = s.hist := by unfold State.modThread; split <;> rfl
@[simp] theorem modThread_plat (k : Nat) (f : Thread → Thread) : (s.modThread k f).plat = s.plat := by unfold State.modThread; split <;> rfl

/-! ### `State.modGroup` -/

@[simp] theorem modGroup_clk (k : Nat) (f : Group → Group) : (s.modGroup k f).clk = s.clk := by unfold State.modGroup; split <;> rfl
@[simp] theorem modGroup_time (k : Nat) (f : Group → Group) : (s.modGroup k f).time = s.time := by unfold State.modGroup; split <;> rfl
@[simp] theorem modGroup_phase (k : Nat) (f : Group → Group) : (s.modGroup k f).phase = s.phase := by unfold State.modGroup; split <;> rfl
@[simp] theorem modGroup_issued (k : Nat) (f : Group → Group) : (s.modGroup k f).issued = s.issued := by unfold State.modGroup; split <;> rfl
@[simp] theorem modGroup_committed (k : Nat) (f : Group → Group) : (s.modGroup k f).committed = s.committed := by unfold State.modGroup; split <;> rfl
@[simp] theorem modGroup_loaded (k : Nat) (f : Group → Group) : (s.modGroup k f).loaded = s.loaded := by unfold State.modGroup; split <;> rfl
@[simp] theorem modGroup_samples (k : Nat) (f : Group → Group) : (s.modGroup k f).samples = s.samples := by unfold State.modGroup; split <;> rfl
@[simp] theorem modGroup_fresh (k : Nat) (f : Group → Group) : (s.modGroup k f).fresh = s.fresh := by unfold State.modGroup; split <;> rfl
@[simp] theorem modGroup_uid (k : Nat) (f : Group → Group) : (s.modGroup k f).uid = s.uid := by unfold State.modGroup; split <;> rfl
@[simp] theorem modGroup_cur (k : Nat) (f : Group → Group) : (s.modGroup k f).cur = s.cur := by unfold State.modGroup; split <;> rfl
@[simp] theorem modGroup_agenda (k : Nat) (f : Group → Group) : (s.modGroup k f).agenda = s.agenda := by unfold State.modGroup; split <;> rfl
@[simp] theorem modGroup_dev (k : Nat) (f : Group → Group) : (s.modGroup k f).dev = s.dev := by unfold State.modGroup; split <;> rfl
@[simp] theorem modGroup_reach (k : Nat) (f : Group → Group) : (s.modGroup k f).reach = s.reach := by unfold State.modGroup; split <;> rfl
@[simp] theorem modGroup_hbm (k : Nat) (f : Group → Group) : (s.modGroup k f).hbm = s.hbm := by unfold State.modGroup; split <;> rfl
@[simp] theorem modGroup_host (k : Nat) (f : Group → Group) : (s.modGroup k f).host = s.host := by unfold State.modGroup; split <;> rfl
@[simp] theorem modGroup_pool (k : Nat) (f : Group → Group) : (s.modGroup k f).pool = s.pool := by unfold State.modGroup; split <;> rfl
@[simp] theorem modGroup_coh (k : Nat) (f : Group → Group) : (s.modGroup k f).coh = s.coh := by unfold State.modGroup; split <;> rfl
@[simp] theorem modGroup_thr (k : Nat) (f : Group → Group) : (s.modGroup k f).thr = s.thr := by unfold State.modGroup; split <;> rfl
@[simp] theorem modGroup_grids (k : Nat) (f : Group → Group) : (s.modGroup k f).grids = s.grids := by unfold State.modGroup; split <;> rfl
@[simp] theorem modGroup_cls (k : Nat) (f : Group → Group) : (s.modGroup k f).cls = s.cls := by unfold State.modGroup; split <;> rfl
@[simp] theorem modGroup_dies (k : Nat) (f : Group → Group) : (s.modGroup k f).dies = s.dies := by unfold State.modGroup; split <;> rfl
@[simp] theorem modGroup_net (k : Nat) (f : Group → Group) : (s.modGroup k f).net = s.net := by unfold State.modGroup; split <;> rfl
@[simp] theorem modGroup_links (k : Nat) (f : Group → Group) : (s.modGroup k f).links = s.links := by unfold State.modGroup; split <;> rfl
@[simp] theorem modGroup_saves (k : Nat) (f : Group → Group) : (s.modGroup k f).saves = s.saves := by unfold State.modGroup; split <;> rfl
@[simp] theorem modGroup_rejects (k : Nat) (f : Group → Group) : (s.modGroup k f).rejects = s.rejects := by unfold State.modGroup; split <;> rfl
@[simp] theorem modGroup_resumed (k : Nat) (f : Group → Group) : (s.modGroup k f).resumed = s.resumed := by unfold State.modGroup; split <;> rfl
@[simp] theorem modGroup_restores (k : Nat) (f : Group → Group) : (s.modGroup k f).restores = s.restores := by unfold State.modGroup; split <;> rfl
@[simp] theorem modGroup_installs (k : Nat) (f : Group → Group) : (s.modGroup k f).installs = s.installs := by unfold State.modGroup; split <;> rfl
@[simp] theorem modGroup_swaits (k : Nat) (f : Group → Group) : (s.modGroup k f).swaits = s.swaits := by unfold State.modGroup; split <;> rfl
@[simp] theorem modGroup_hist (k : Nat) (f : Group → Group) : (s.modGroup k f).hist = s.hist := by unfold State.modGroup; split <;> rfl
@[simp] theorem modGroup_plat (k : Nat) (f : Group → Group) : (s.modGroup k f).plat = s.plat := by unfold State.modGroup; split <;> rfl

/-! ### `State.modBlock` -/

@[simp] theorem modBlock_clk (r : BRef) (f : Block → Block) : (s.modBlock r f).clk = s.clk := modThread_clk s _ _
@[simp] theorem modBlock_time (r : BRef) (f : Block → Block) : (s.modBlock r f).time = s.time := modThread_time s _ _
@[simp] theorem modBlock_phase (r : BRef) (f : Block → Block) : (s.modBlock r f).phase = s.phase := modThread_phase s _ _
@[simp] theorem modBlock_issued (r : BRef) (f : Block → Block) : (s.modBlock r f).issued = s.issued := modThread_issued s _ _
@[simp] theorem modBlock_committed (r : BRef) (f : Block → Block) : (s.modBlock r f).committed = s.committed := modThread_committed s _ _
@[simp] theorem modBlock_loaded (r : BRef) (f : Block → Block) : (s.modBlock r f).loaded = s.loaded := modThread_loaded s _ _
@[simp] theorem modBlock_samples (r : BRef) (f : Block → Block) : (s.modBlock r f).samples = s.samples := modThread_samples s _ _
@[simp] theorem modBlock_fresh (r : BRef) (f : Block → Block) : (s.modBlock r f).fresh = s.fresh := modThread_fresh s _ _
@[simp] theorem modBlock_uid (r : BRef) (f : Block → Block) : (s.modBlock r f).uid = s.uid := modThread_uid s _ _
@[simp] theorem modBlock_cur (r : BRef) (f : Block → Block) : (s.modBlock r f).cur = s.cur := modThread_cur s _ _
@[simp] theorem modBlock_agenda (r : BRef) (f : Block → Block) : (s.modBlock r f).agenda = s.agenda := modThread_agenda s _ _
@[simp] theorem modBlock_dev (r : BRef) (f : Block → Block) : (s.modBlock r f).dev = s.dev := modThread_dev s _ _
@[simp] theorem modBlock_reach (r : BRef) (f : Block → Block) : (s.modBlock r f).reach = s.reach := modThread_reach s _ _
@[simp] theorem modBlock_hbm (r : BRef) (f : Block → Block) : (s.modBlock r f).hbm = s.hbm := modThread_hbm s _ _
@[simp] theorem modBlock_host (r : BRef) (f : Block → Block) : (s.modBlock r f).host = s.host := modThread_host s _ _
@[simp] theorem modBlock_pool (r : BRef) (f : Block → Block) : (s.modBlock r f).pool = s.pool := modThread_pool s _ _
@[simp] theorem modBlock_coh (r : BRef) (f : Block → Block) : (s.modBlock r f).coh = s.coh := modThread_coh s _ _
@[simp] theorem modBlock_grp (r : BRef) (f : Block → Block) : (s.modBlock r f).grp = s.grp := modThread_grp s _ _
@[simp] theorem modBlock_grids (r : BRef) (f : Block → Block) : (s.modBlock r f).grids = s.grids := modThread_grids s _ _
@[simp] theorem modBlock_cls (r : BRef) (f : Block → Block) : (s.modBlock r f).cls = s.cls := modThread_cls s _ _
@[simp] theorem modBlock_dies (r : BRef) (f : Block → Block) : (s.modBlock r f).dies = s.dies := modThread_dies s _ _
@[simp] theorem modBlock_net (r : BRef) (f : Block → Block) : (s.modBlock r f).net = s.net := modThread_net s _ _
@[simp] theorem modBlock_links (r : BRef) (f : Block → Block) : (s.modBlock r f).links = s.links := modThread_links s _ _
@[simp] theorem modBlock_saves (r : BRef) (f : Block → Block) : (s.modBlock r f).saves = s.saves := modThread_saves s _ _
@[simp] theorem modBlock_rejects (r : BRef) (f : Block → Block) : (s.modBlock r f).rejects = s.rejects := modThread_rejects s _ _
@[simp] theorem modBlock_resumed (r : BRef) (f : Block → Block) : (s.modBlock r f).resumed = s.resumed := modThread_resumed s _ _
@[simp] theorem modBlock_restores (r : BRef) (f : Block → Block) : (s.modBlock r f).restores = s.restores := modThread_restores s _ _
@[simp] theorem modBlock_installs (r : BRef) (f : Block → Block) : (s.modBlock r f).installs = s.installs := modThread_installs s _ _
@[simp] theorem modBlock_swaits (r : BRef) (f : Block → Block) : (s.modBlock r f).swaits = s.swaits := modThread_swaits s _ _
@[simp] theorem modBlock_hist (r : BRef) (f : Block → Block) : (s.modBlock r f).hist = s.hist := modThread_hist s _ _
@[simp] theorem modBlock_plat (r : BRef) (f : Block → Block) : (s.modBlock r f).plat = s.plat := modThread_plat s _ _

/-! ### What an update makes of the part it names -/

@[simp] theorem post_agenda (l : List Instr) : (s.post l).agenda = s.agenda ++ l := rfl
theorem modGrid_grid (g k : Nat) (f : Grid → Grid) : (s.modGrid g f).grid k = if k = g then f (s.grid g) else s.grid k := by
  simp only [State.grid, State.modGrid, tget_tput]
  split <;> simp
theorem modCl_cl (c k : Nat) (f : Cluster → Cluster) : (s.modCl c f).cl k = if k = c then f (s.cl c) else s.cl k := by
  simp only [State.cl, State.modCl, tget_tput]
  split <;> simp
theorem modDie_die (d k : Nat) (f : Die → Die) : (s.modDie d f).die k = if k = d then f (s.die d) else s.die k := by
  simp only [State.die, State.modDie, tget_tput]
  split <;> simp
theorem modPort_port (p k : Nat) (f : Port → Port) : (s.modPort p f).port k = if k = p then f (s.port p) else s.port k := by
  simp only [State.port, State.modPort, tget_tput]
  split <;> simp
theorem modQueue_queue (d q : Nat) (f : Queue → Queue) (e k : Nat) :
    (s.modQueue d q f).queue e k = if e = d ∧ k = q then f (s.queue d q) else s.queue e k := by
  simp only [State.queue, State.modQueue, modDie_die]
  by_cases h : e = d
  · subst h
    simp only [if_true, Die.queue, Die.modQueue, tget_tput, true_and]
    split <;> simp
  · simp [h]
theorem modThread_thr (k j : Nat) (f : Thread → Thread) :
    tget (s.modThread k f).thr j = if j = k then (tget s.thr k).map f else tget s.thr j := by
  unfold State.modThread
  split
  · rename_i h
    split
    · rename_i h'
      rw [h', h]
      rfl
    · rfl
  · rename_i t h
    simp only [tget_tput, h, Option.map_some]
theorem modGroup_grp (k j : Nat) (f : Group → Group) :
    tget (s.modGroup k f).grp j = if j = k then (tget s.grp k).map f else tget s.grp j := by
  unfold State.modGroup
  split
  · rename_i h
    split
    · rename_i h'
      rw [h', h]
      rfl
    · rfl
  · rename_i t h
    simp only [tget_tput, h, Option.map_some]
theorem modBlock_thr (r : BRef) (f : Block → Block) (j : Nat) :
    tget (s.modBlock r f).thr j = if j = r.slot then (tget s.thr r.slot).map fun t => t.modBlock r.seq r.ic f else tget s.thr j :=
  modThread_thr s _ _ _

end Sys2Proof.Machine
end

