-- ==== Sys2Proof/Laws/Fire.lean ====
section
/-! SUPPORT. What the shared parts of a firing can do: each leaves everything architectural as it was (R33), and a form that fires either
absorbs or does what it does from the marked state. -/

namespace Sys2Proof.Machine

/-! ### `SameArch` -/

theorem SameArch.refl (s : State) : SameArch s s :=
  ⟨rfl, rfl, rfl, rfl, rfl, rfl, rfl, rfl, rfl, fun _ => rfl, fun _ => rfl⟩

theorem SameArch.trans {s t u : State} (h : SameArch s t) (k : SameArch t u) : SameArch s u :=
  ⟨k.l2.trans h.l2, k.hbm.trans h.hbm, k.host.trans h.host, k.pool.trans h.pool, k.grp.trans h.grp, k.plat.trans h.plat,
   k.net.trans h.net, k.clk.trans h.clk, k.time.trans h.time, fun i => (k.thr i).trans (h.thr i), fun i => (k.sys i).trans (h.sys i)⟩

/-- A change of tables that are not architectural. -/
theorem SameArch.of_eq {s t : State} (h1 : t.coh.l2 = s.coh.l2) (h2 : t.hbm = s.hbm) (h3 : t.host = s.host) (h4 : t.pool = s.pool)
    (h5 : t.grp = s.grp) (h6 : t.plat = s.plat) (h7 : t.net = s.net) (h8 : t.clk = s.clk) (h9 : t.time = s.time) (h10 : t.thr = s.thr) :
    SameArch s t :=
  ⟨h1, h2, h3, h4, h5, h6, h7, h8, h9, fun _ => by rw [h10], fun _ => by rw [h10]⟩

/-- A thread changes only in what is not architectural. -/
theorem sameArch_modThread (s : State) (k : Nat) (f : Thread → Thread)
    (h : ∀ z, ((f z).pc, (f z).ic, (f z).regs, (f z).msgs, (f z).asleep, (f z).ending) = (z.pc, z.ic, z.regs, z.msgs, z.asleep, z.ending))
    (h' : ∀ z, ({ (f z).sys with perf := [] } : SysRegs) = { z.sys with perf := [] }) : SameArch s (s.modThread k f) := by
  refine ⟨by simp, by simp, by simp, by simp, by simp, by simp, by simp, by simp, by simp, fun slot => ?_, fun slot => ?_⟩
  · rw [modThread_thr]
    split
    · rename_i e
      subst e
      cases tget s.thr slot <;> simp [h]
    · rfl
  · rw [modThread_thr]
    split
    · rename_i e
      subst e
      cases tget s.thr slot <;> simp [h']
    · rfl

theorem sameArch_modBlock (s : State) (r : BRef) (f : Block → Block) : SameArch s (s.modBlock r f) :=
  sameArch_modThread s _ _ (fun _ => rfl) (fun _ => rfl)
theorem sameArch_post (s : State) (l : List Instr) : SameArch s (s.post l) := .of_eq rfl rfl rfl rfl rfl rfl rfl rfl rfl rfl
theorem sameArch_modGrid (s : State) (g : Nat) (f : Grid → Grid) : SameArch s (s.modGrid g f) := .of_eq rfl rfl rfl rfl rfl rfl rfl rfl rfl rfl
theorem sameArch_modCl (s : State) (c : Nat) (f : Cluster → Cluster) : SameArch s (s.modCl c f) := .of_eq rfl rfl rfl rfl rfl rfl rfl rfl rfl rfl
theorem sameArch_modDie (s : State) (d : Nat) (f : Die → Die) : SameArch s (s.modDie d f) := .of_eq rfl rfl rfl rfl rfl rfl rfl rfl rfl rfl

/-! ### What the debug units see -/

theorem sameArch_toTrace (s : State) (c : Nat) (sh : Shaving) : SameArch s (s.toTrace c sh) := by
  unfold State.toTrace
  split
  · exact sameArch_modCl _ _ _
  · exact (sameArch_modDie _ _ _).trans (sameArch_modCl _ _ _)

theorem sameArch_endRun (s : State) (c : Nat) : SameArch s (s.endRun c) := by
  simp only [State.endRun]
  split
  · exact .refl _
  · have h := fun f g => (sameArch_modDie s (clusterDie c) f).trans (sameArch_modCl _ c g)
    split
    · exact (h _ _).trans (sameArch_toTrace _ _ _)
    · exact h _ _

theorem sameArch_shave (s : State) (c ty gslot tag info : Nat) (addr value : W64) : SameArch s (s.shave c ty gslot tag info addr value) := by
  unfold State.shave
  extract_lets sh d m
  have h0 : SameArch s m := by
    show SameArch s (if _ then _ else _)
    split
    · exact sameArch_modDie _ _ _
    · exact .refl _
  clear_value m
  refine h0.trans ?_
  split
  · split
    · exact (sameArch_endRun _ _).trans (sameArch_toTrace _ _ _)
    · exact sameArch_toTrace _ _ _
  · exact .refl _

theorem sameArch_freeze (s : State) (g cause : Nat) (j : Option Nat) : SameArch s (s.freeze g cause j) := by
  simp only [State.freeze]
  split
  · split
    · exact sameArch_modGrid _ _ _
    · exact .refl _
  · exact (sameArch_modGrid _ _ _).trans (sameArch_shave _ _ _ _ _ _ _ _)

theorem sameArch_observe (s : State) (r : BRef) (tg : Target) (tok : Token) : SameArch s (s.observe r tg tok) := by
  simp only [State.observe]
  split
  · exact .refl _
  · split
    · exact (sameArch_shave _ _ _ _ _ _ _ _).trans (sameArch_freeze _ _ _ _)
    · exact sameArch_shave _ _ _ _ _ _ _ _

theorem sameArch_countEntry (s : State) (g i : Nat) (e : Entry) : SameArch s (s.countEntry g i e) := by
  simp only [State.countEntry]
  split
  · split
    · exact .of_eq rfl rfl rfl rfl rfl rfl rfl rfl rfl rfl
    · exact .of_eq rfl rfl rfl rfl rfl rfl rfl rfl rfl rfl
  · exact .refl _

theorem sameArch_countWait (s : State) (g i : Nat) (b : Block) (e : Entry) : SameArch s (s.countWait g i b e) := by
  unfold State.countWait
  split
  · exact sameArch_countEntry _ _ _ _
  · exact .refl _

theorem sameArch_countLate (s : State) (r : BRef) (tg : Target) (b : Block) : SameArch s (s.countLate r tg b) := by
  unfold State.countLate
  split
  · split
    · split
      · exact sameArch_countEntry _ _ _ _
      · exact .refl _
    · exact .refl _
  · exact .refl _

/-! ### The parts of a firing -/

theorem sameArch_deliver1 (s : State) (r : BRef) (tg : Target) (tok : Token) : SameArch s (s.deliver1 r tg tok) := by
  unfold State.deliver1
  split
  · exact .refl _
  · split
    · exact .refl _
    · exact ((sameArch_modBlock _ _ _).trans (sameArch_countLate _ _ _ _)).trans (sameArch_observe _ _ _ _)

theorem sameArch_deliver (s : State) (r : BRef) (h : Hdr) (x y : Token) : SameArch s (s.deliver r h x y) :=
  (sameArch_deliver1 _ _ _ _).trans (sameArch_deliver1 _ _ _ _)

theorem sameArch_mark (s : State) (x : Site) (st : EState) : SameArch s (s.mark x st) := by
  have h : SameArch s { s with cur := none } := .of_eq rfl rfl rfl rfl rfl rfl rfl rfl rfl rfl
  exact (h.trans (sameArch_countWait _ _ _ _ _)).trans (sameArch_modBlock _ _ _)

theorem sameArch_absorb (s : State) (x : Site) (l : Option Nat) : SameArch s (s.absorb x l) := by
  cases l with
  | none => exact sameArch_mark _ _ _
  | some l => exact (sameArch_mark _ _ _).trans (sameArch_modBlock _ _ _)

theorem sameArch_holdAt (s : State) (x : Site) (c : Cause) (v : W64) (l : Option Nat) : SameArch s (s.holdAt x c v l) := sameArch_modBlock _ _ _

theorem sameArch_raise (s : State) (x : Site) (fl : BitVec 5) : SameArch s (s.raise x fl) := by
  unfold State.raise
  split
  · exact .refl _
  · exact sameArch_modBlock _ _ _

theorem sameArch_recordAt (s : State) (x : Site) (i : Instr) (l : List Byte) (w : Option WLoc) (ps : List Piece) :
    SameArch s (s.recordAt x i l w ps) := sameArch_modBlock _ _ _
theorem sameArch_record (s : State) (x : Site) (i : Instr) (l : List Byte) : SameArch s (s.record x i l) := sameArch_modBlock _ _ _
theorem sameArch_resolve (s : State) (x : Site) (l : Nat) (r : Resolved) : SameArch s (s.resolve x l r) := sameArch_modBlock _ _ _

/-! ### Firing -/

/-- What a form does: nothing unless an entry stands at the cursor; it waits for its predicate and operands, absorbs them when the
predicate has the other value, and else acts from the marked state. -/
theorem fireWhen_next {pm : Pm} {l : Option Nat} {ready : Site → State → Bool} {k : Site → State → State} {s t : State}
    (h : fireWhen pm l ready k s = .next t) :
    ∃ x, s.site = some x ∧ ((pmMatches pm x.e.p = some false ∧ t = s.absorb x l)
      ∨ (pmMatches pm x.e.p = some true ∧ ready x s = true ∧ t = k x (s.mark x .fired))) := by
  simp only [fireWhen] at h
  split at h
  · cases h
  · rename_i x hx
    refine ⟨x, hx, ?_⟩
    split at h
    · cases h
    · rename_i hp
      cases h
      exact .inl ⟨hp, rfl⟩
    · rename_i hp
      split at h
      · rename_i hr
        cases h
        exact .inr ⟨hp, hr, rfl⟩
      · cases h

theorem fireWhen_sameArch {pm : Pm} {l : Option Nat} {ready : Site → State → Bool} {k : Site → State → State} {s t : State}
    (hk : ∀ x m, SameArch m (k x m)) (h : fireWhen pm l ready k s = .next t) : SameArch s t := by
  obtain ⟨x, -, ⟨-, rfl⟩ | ⟨-, -, rfl⟩⟩ := fireWhen_next h
  · exact sameArch_absorb _ _ _
  · exact (sameArch_mark _ _ _).trans (hk _ _)

theorem fire_sameArch {pm : Pm} {l : Option Nat} {need : Site → List Nat} {k : Site → State → State} {s t : State}
    (hk : ∀ x m, SameArch m (k x m)) (h : fire pm l need k s = .next t) : SameArch s t := fireWhen_sameArch hk h

theorem compute_sameArch {h : Hdr} {need : Site → List Nat} {f : Site → Token × Token} {s t : State} (e : compute h need f s = .next t) :
    SameArch s t := by
  refine fire_sameArch (fun x m => ?_) e
  show SameArch m (if x.anyNull (need x) then m.deliver x.ref h .null .null else m.deliver x.ref h (f x).1 (f x).2)
  split <;> exact sameArch_deliver _ _ _ _ _

theorem compute1_sameArch {h : Hdr} {f : W64 → Token} {s t : State} (e : compute1 h f s = .next t) : SameArch s t := compute_sameArch e
theorem compute2_sameArch {n : Nat} {h : Hdr} {b : Option (BitVec n)} {f : W64 → W64 → Token} {s t : State} (e : compute2 h b f s = .next t) :
    SameArch s t := compute_sameArch e
theorem compute3_sameArch {h : Hdr} {f : W64 → W64 → W64 → Token} {s t : State} (e : compute3 h f s = .next t) : SameArch s t :=
  compute_sameArch e

theorem computeFp_sameArch {h : Hdr} {need : Site → List Nat} {f : Site → Token × BitVec 5} {s t : State} (e : computeFp h need f s = .next t) :
    SameArch s t := by
  refine fireWhen_sameArch (fun x m => ?_) e
  show SameArch m (if x.anyNull (need x) then m.deliver x.ref h .null .null else (m.raise x (f x).2).deliver x.ref h (f x).1 (f x).1)
  split
  · exact sameArch_deliver _ _ _ _ _
  · exact (sameArch_raise _ _ _).trans (sameArch_deliver _ _ _ _ _)

end Sys2Proof.Machine
end

