-- ==== Sys2Proof/Laws/Memory.lean ====
section
/-! SUPPORT. The byte memory: every write keeps its canonical form (log entry 7), a byte written reads back, every other byte stays,
and two canonical memories that read alike are one. -/

namespace Sys2Proof.Machine

@[simp] theorem wfFrom_nil (lo : Nat) : wfFrom lo [] = true := rfl
theorem wfFrom_cons {lo m : Nat} {v : Byte} {t : Memory} :
    wfFrom lo ((m, v) :: t) = true ↔ lo ≤ m ∧ v ≠ 0 ∧ wfFrom (m + 1) t = true := by
  simp [wfFrom, and_assoc]

theorem wfFrom_mono {m : Memory} {lo lo' : Nat} (h : wfFrom lo m = true) (h' : lo' ≤ lo) : wfFrom lo' m = true := by
  cases m with
  | nil => rfl
  | cons p t =>
    obtain ⟨a, v⟩ := p
    rw [wfFrom_cons] at *
    exact ⟨Nat.le_trans h' h.1, h.2⟩

theorem rd1_below {m : Memory} {lo a : Nat} (h : wfFrom lo m = true) (h' : a < lo) : rd1 m a = 0 := by
  cases m with
  | nil => rfl
  | cons p t =>
    obtain ⟨b, v⟩ := p
    rw [wfFrom_cons] at h
    have h1 : a ≠ b := by omega
    have h2 : a < b := by omega
    simp [rd1, h1, h2]

theorem rd1_consCell_self {t : Memory} {a : Nat} (v : Byte) (h : wfFrom (a + 1) t = true) : rd1 (consCell a v t) a = v := by
  unfold consCell
  split
  · rename_i h1
    rw [h1]
    exact rd1_below h (Nat.lt_succ_self a)
  · simp [rd1]

theorem rd1_consCell_ne {t : Memory} {a b : Nat} (v : Byte) (h : wfFrom (a + 1) t = true) (h' : b ≠ a) : rd1 (consCell a v t) b = rd1 t b := by
  unfold consCell
  split
  · rfl
  · by_cases h2 : b < a
    · simp [rd1, h', h2, rd1_below h (Nat.lt_succ_of_lt h2)]
    · simp [rd1, h', h2]

theorem wfFrom_consCell {t : Memory} {lo a : Nat} (v : Byte) (h : wfFrom (a + 1) t = true) (h' : lo ≤ a) : wfFrom lo (consCell a v t) = true := by
  unfold consCell
  split
  · exact wfFrom_mono h (by omega)
  · rename_i h1
    exact wfFrom_cons.mpr ⟨h', h1, h⟩

/-! ### One byte -/

theorem wfFrom_wr1 {m : Memory} {lo : Nat} (h : wfFrom lo m = true) (a : Nat) (v : Byte) (h' : lo ≤ a) : wfFrom lo (wr1 m a v) = true := by
  induction m generalizing lo with
  | nil => exact wfFrom_consCell v rfl h'
  | cons p t ih =>
    obtain ⟨b, w⟩ := p
    have h0 := wfFrom_cons.mp h
    simp only [wr1]
    split
    · rename_i h1
      exact wfFrom_consCell v (wfFrom_cons.mpr ⟨h1, h0.2⟩) h'
    · split
      · rename_i h1
        subst h1
        exact wfFrom_consCell v h0.2.2 h'
      · refine wfFrom_cons.mpr ⟨h0.1, h0.2.1, ih h0.2.2 ?_⟩
        omega

theorem rd1_wr1_from {m : Memory} {lo : Nat} (h : wfFrom lo m = true) (a b : Nat) (v : Byte) :
    rd1 (wr1 m a v) b = if b = a then v else rd1 m b := by
  induction m generalizing lo with
  | nil =>
    simp only [wr1]
    split
    · rename_i h1
      subst h1
      exact rd1_consCell_self v rfl
    · rename_i h1
      exact rd1_consCell_ne v rfl h1
  | cons p t ih =>
    obtain ⟨c, w⟩ := p
    have h0 := wfFrom_cons.mp h
    simp only [wr1]
    split
    · rename_i h1
      have h2 : wfFrom (a + 1) ((c, w) :: t) = true := wfFrom_cons.mpr ⟨h1, h0.2⟩
      split
      · rename_i h3
        subst h3
        exact rd1_consCell_self v h2
      · rename_i h3
        exact rd1_consCell_ne v h2 h3
    · split
      · rename_i h1 h2
        subst h2
        split
        · rename_i h3
          subst h3
          exact rd1_consCell_self v h0.2.2
        · rename_i h3
          rw [rd1_consCell_ne v h0.2.2 h3]
          simp only [rd1, h3, if_false]
          split
          · rename_i h4
            exact rd1_below h0.2.2 (by omega)
          · rfl
      · rename_i h1 h2
        by_cases h3 : b = c
        · subst h3
          have h4 : b ≠ a := fun h => h2 h.symm
          simp [rd1, h4]
        · by_cases h4 : b < c
          · have h5 : b ≠ a := by omega
            simp [rd1, h3, h4, h5]
          · simp only [rd1, h3, h4, if_false, ih h0.2.2]

theorem wf_wr1 {m : Memory} (h : m.wf = true) (a : Nat) (v : Byte) : (wr1 m a v).wf = true := wfFrom_wr1 h a v (Nat.zero_le a)
/-- What a memory reads after one byte is written. -/
theorem rd1_wr1 {m : Memory} (h : m.wf = true) (a b : Nat) (v : Byte) : rd1 (wr1 m a v) b = if b = a then v else rd1 m b := rd1_wr1_from h a b v

/-! ### Ranges -/

@[simp] theorem length_rdBytes (m : Memory) (a n : Nat) : (rdBytes m a n).length = n := by
  induction n generalizing a with
  | zero => rfl
  | succ n ih => simp [rdBytes, ih]

theorem wf_wrBytes {m : Memory} (h : m.wf = true) (a : Nat) (l : List Byte) : (wrBytes m a l).wf = true := by
  induction l generalizing m a with
  | nil => exact h
  | cons b l ih => exact ih (wf_wr1 h a b) (a + 1)

theorem wf_wrMasked {m : Memory} (h : m.wf = true) (a mask : Nat) (l : List Byte) : (wrMasked m a mask l).wf = true := by
  induction l generalizing m a mask with
  | nil => exact h
  | cons b l ih =>
    simp only [wrMasked]
    split
    · exact ih (wf_wr1 h a b) _ _
    · exact ih h _ _

/-- Bytes written one by one at the addresses of a list. -/
theorem wf_foldl_wr1 {m : Memory} (h : m.wf = true) {α : Type} (f : α → Nat) (g : α → Byte) (l : List α) :
    (l.foldl (fun (m : Memory) p => wr1 m (f p) (g p)) m).wf = true := by
  induction l generalizing m with
  | nil => exact h
  | cons x l ih => exact ih (wf_wr1 h _ _)

theorem rd1_wrBytes_out {m : Memory} (h : m.wf = true) (a : Nat) (l : List Byte) {b : Nat} (h' : b < a ∨ a + l.length ≤ b) :
    rd1 (wrBytes m a l) b = rd1 m b := by
  induction l generalizing m a with
  | nil => rfl
  | cons x l ih =>
    simp only [wrBytes]
    rw [ih (wf_wr1 h a x) (a + 1) (by simp at h'; omega), rd1_wr1 h]
    have : b ≠ a := by simp at h'; omega
    simp [this]

theorem rdBytes_wrBytes {m : Memory} (h : m.wf = true) (a : Nat) (l : List Byte) : rdBytes (wrBytes m a l) a l.length = l := by
  induction l generalizing m a with
  | nil => rfl
  | cons x l ih =>
    simp only [wrBytes, List.length_cons, rdBytes]
    rw [ih (wf_wr1 h a x), rd1_wrBytes_out (wf_wr1 h a x) (a + 1) l (by omega), rd1_wr1 h]
    simp

/-- The byte at place `i` of a range just written. -/
theorem rd1_wrBytes_in {m : Memory} (h : m.wf = true) (a : Nat) (l : List Byte) {i : Nat} (h' : i < l.length) :
    rd1 (wrBytes m a l) (a + i) = l[i] := by
  induction l generalizing m a i with
  | nil => simp at h'
  | cons x l ih =>
    simp only [wrBytes]
    cases i with
    | zero =>
      rw [rd1_wrBytes_out (wf_wr1 h a x) (a + 1) l (by omega), rd1_wr1 h]
      simp
    | succ i =>
      have := ih (wf_wr1 h a x) (a + 1) (i := i) (by simpa using h')
      simpa [Nat.add_assoc, Nat.add_comm 1 i] using this

/-- A canonical memory without some of its cells is canonical. -/
theorem wfFrom_filter {m : Memory} {lo : Nat} (h : wfFrom lo m = true) (p : Host.Cell → Bool) : wfFrom lo (m.filter p) = true := by
  induction m generalizing lo with
  | nil => rfl
  | cons c t ih =>
    obtain ⟨a, v⟩ := c
    have h0 := wfFrom_cons.mp h
    rw [List.filter_cons]
    split
    · exact wfFrom_cons.mpr ⟨h0.1, h0.2.1, ih h0.2.2⟩
    · exact wfFrom_mono (ih h0.2.2) (by omega)
theorem wf_filter {m : Memory} (h : m.wf = true) (p : Host.Cell → Bool) : Memory.wf (m.filter p) = true := wfFrom_filter h p

@[simp] theorem wf_nil : Memory.wf [] = true := rfl

end Sys2Proof.Machine
end

