-- ==== Sys2Proof/Laws/Home.lean ====
section
/-! SUPPORT. The canonical form of the memories and of the L2 (`State.MemInv`): what leaves them as they were keeps it, and so does every
write of the shared operations: a home's write, a pool's, the host's, and the operations on a sync word. -/

namespace Sys2Proof.Machine

/-- The three memories and the L2 are as they were. -/
structure SameMem (s t : State) : Prop where
  hbm : t.hbm = s.hbm
  host : t.host = s.host
  pool : t.pool = s.pool
  l2 : t.coh.l2 = s.coh.l2

theorem SameMem.refl (s : State) : SameMem s s := ⟨rfl, rfl, rfl, rfl⟩
theorem SameMem.trans {s t u : State} (h : SameMem s t) (k : SameMem t u) : SameMem s u :=
  ⟨k.hbm.trans h.hbm, k.host.trans h.host, k.pool.trans h.pool, k.l2.trans h.l2⟩
theorem SameArch.sameMem {s t : State} (h : SameArch s t) : SameMem s t := ⟨h.hbm, h.host, h.pool, h.l2⟩
theorem SameMem.memInv {s t : State} (h : SameMem s t) (i : s.MemInv) : t.MemInv := by
  unfold State.MemInv at *
  rw [h.hbm, h.host, h.pool, h.l2]
  exact i
/-- A fold of steps that leave the memories. -/
theorem sameMem_foldl {α : Type} {f : State → α → State} (h : ∀ s x, SameMem s (f s x)) (l : List α) (s : State) : SameMem s (l.foldl f s) := by
  induction l generalizing s with
  | nil => exact .refl s
  | cons x l ih => exact (h s x).trans (ih _)
/-- A fold of steps that keep the canonical form. -/
theorem memInv_foldl {α : Type} {f : State → α → State} (h : ∀ s x, s.MemInv → (f s x).MemInv) (l : List α) {s : State} (i : s.MemInv) :
    (l.foldl f s).MemInv := by
  induction l generalizing s with
  | nil => exact i
  | cons x l ih => exact ih (h s x i)

theorem memInv_reset : State.reset.MemInv := ⟨rfl, rfl, rfl, .nil⟩

/-! ### Updates that leave the memories -/

theorem sameMem_modThread (s : State) (k : Nat) (f : Thread → Thread) : SameMem s (s.modThread k f) := ⟨by simp, by simp, by simp, by simp⟩
theorem sameMem_modGroup (s : State) (k : Nat) (f : Group → Group) : SameMem s (s.modGroup k f) := ⟨by simp, by simp, by simp, by simp⟩
theorem sameMem_modBlock (s : State) (r : BRef) (f : Block → Block) : SameMem s (s.modBlock r f) := sameMem_modThread _ _ _
theorem sameMem_modGrid (s : State) (g : Nat) (f : Grid → Grid) : SameMem s (s.modGrid g f) := ⟨rfl, rfl, rfl, rfl⟩
theorem sameMem_modCl (s : State) (c : Nat) (f : Cluster → Cluster) : SameMem s (s.modCl c f) := ⟨rfl, rfl, rfl, rfl⟩
theorem sameMem_modDie (s : State) (d : Nat) (f : Die → Die) : SameMem s (s.modDie d f) := ⟨rfl, rfl, rfl, rfl⟩
theorem sameMem_modQueue (s : State) (d q : Nat) (f : Queue → Queue) : SameMem s (s.modQueue d q f) := ⟨rfl, rfl, rfl, rfl⟩
theorem sameMem_modPort (s : State) (p : Nat) (f : Port → Port) : SameMem s (s.modPort p f) := ⟨rfl, rfl, rfl, rfl⟩
theorem sameMem_post (s : State) (l : List Instr) : SameMem s (s.post l) := ⟨rfl, rfl, rfl, rfl⟩
theorem sameMem_modDir (s : State) (y : Nat) (f : DirEnt → DirEnt) : SameMem s (s.modDir y f) := ⟨rfl, rfl, rfl, rfl⟩
theorem sameMem_await (s : State) (d a line : Nat) (stamp : BitVec 8) : SameMem s (s.await d a line stamp) := ⟨rfl, rfl, rfl, rfl⟩
theorem sameMem_tellHost (s : State) (p : Nat) (m : HostMsg) : SameMem s (s.tellHost p m) := ⟨rfl, rfl, rfl, rfl⟩
theorem sameMem_dropCopies (s : State) (c key : Nat) : SameMem s (s.dropCopies c key) := ⟨rfl, rfl, rfl, rfl⟩
theorem sameMem_shave (s : State) (c ty gslot tag info : Nat) (addr value : W64) : SameMem s (s.shave c ty gslot tag info addr value) :=
  (sameArch_shave _ _ _ _ _ _ _ _).sameMem
theorem sameMem_shaveDie (s : State) (d ty info : Nat) (addr value : W64) : SameMem s (s.shaveDie d ty info addr value) := sameMem_shave _ _ _ _ _ _ _ _
theorem sameMem_deliver (s : State) (r : BRef) (h : Hdr) (x y : Token) : SameMem s (s.deliver r h x y) := (sameArch_deliver _ _ _ _ _).sameMem

theorem sameMem_setAgent (s : State) (d a st : Nat) : SameMem s (s.setAgent d a st) := by
  unfold State.setAgent
  split
  · exact .refl _
  · exact (sameMem_modDie _ _ _).trans (sameMem_shaveDie _ _ _ _ _ _)

theorem sameMem_clusterAgent (s : State) (c st : Nat) : SameMem s (s.clusterAgent c st) :=
  sameMem_foldl (fun s d => by split <;> first | exact .refl _ | exact sameMem_setAgent _ _ _ _) _ _

theorem sameMem_wakeCluster (s : State) (c : Nat) : SameMem s (s.wakeCluster c) := by
  unfold State.wakeCluster
  split
  · exact (sameMem_modCl _ _ _).trans (sameMem_clusterAgent _ _ _)
  · exact .refl _

theorem sameMem_cross (s : State) (p : Nat) (m : Msg) : SameMem s (s.cross p m) := ⟨rfl, rfl, rfl, rfl⟩

theorem sameMem_transmit (s : State) (p : Nat) (m : Msg) : SameMem s (s.transmit p m) := by
  unfold State.transmit
  split
  · exact sameMem_modPort _ _ _
  · split
    · exact .refl _
    · dsimp only
      split
      · exact sameMem_cross _ _ _
      · exact sameMem_modPort _ _ _

theorem sameMem_request (s : State) (who : ReqWho) (port dev cls : Nat) (aux : BitVec 16) (pa : Nat) (addr : W64) (beats : List (BitVec 128)) :
    SameMem s (s.request who port dev cls aux pa addr beats) :=
  SameMem.trans (t := { s.newUid.2 with
      links := { s.newUid.2.links with tagNext := (s.newUid.2.links.tagNext + 1) % 8192 }
      coh := { s.newUid.2.coh with reqs := s.newUid.2.coh.reqs ++
        [⟨s.newUid.1, port, BitVec.ofNat 13 s.newUid.2.links.tagNext, who, pa, s.newUid.2.ns9, none⟩] } })
    ⟨rfl, rfl, rfl, rfl⟩ (sameMem_transmit _ _ _)

theorem sameMem_respond (s : State) (port : Nat) (m : Msg) (cls : Nat) (aux : BitVec 16) (beats : List (BitVec 128)) :
    SameMem s (s.respond port m cls aux beats) := sameMem_transmit _ _ _

theorem sameMem_poisonLine (s : State) (y : Nat) : SameMem s (s.poisonLine y) := by
  unfold State.poisonLine
  split
  · exact .refl _
  · exact ⟨rfl, rfl, rfl, rfl⟩

theorem sameMem_poisonPage (s : State) (pg : Nat) : SameMem s (s.poisonPage pg) := by
  unfold State.poisonPage
  have h := sameMem_foldl (fun s i => sameMem_poisonLine s (32 * pg + i)) (List.range 32) s
  generalize (List.range 32).foldl (fun (s : State) i => s.poisonLine (32 * pg + i)) s = t at h ⊢
  dsimp only
  split
  · exact h
  · exact h.trans ⟨rfl, rfl, rfl, rfl⟩

/-! ### Discarding, probes and revocations -/

theorem sameMem_sweep (s : State) (slot : Nat) : SameMem s (s.sweep slot) := by
  unfold State.sweep
  split
  · exact .refl _
  · exact ⟨rfl, rfl, rfl, rfl⟩

theorem sameMem_dropShadow (s : State) (slot reason : Nat) : SameMem s (s.dropShadow slot reason) := by
  unfold State.dropShadow
  split
  · exact .refl _
  · exact (sameMem_shave _ _ _ _ _ _ _ _).trans ((sameMem_modThread _ _ _).trans (sameMem_sweep _ _))

theorem sameMem_discardFrom (s : State) (slot k reason : Nat) : SameMem s (s.discardFrom slot k reason) := by
  unfold State.discardFrom
  split
  · exact .refl _
  · dsimp only
    split
    · exact .refl _
    · have h := fun l f => (sameMem_foldl (fun s b => sameMem_shave s (slotCluster slot) 0x04 slot (blockTag slot b) reason b.addr 0) l s).trans
        ((sameMem_modThread _ slot f).trans (sameMem_sweep _ slot))
      have e (m : State) (c : Bool) (g : SameMem s m) : SameMem s (if c then m else m.dropShadow slot reason) := by
        split
        · exact g
        · exact g.trans (sameMem_dropShadow _ _ _)
      exact e _ _ (h _ _)

theorem sameMem_discardAll (s : State) (slot reason : Nat) : SameMem s (s.discardAll slot reason) :=
  (sameMem_discardFrom _ _ _ _).trans (sameMem_dropShadow _ _ _)

theorem sameMem_replay (s : State) (slot k : Nat) : SameMem s (s.replay slot k) := by
  unfold State.replay
  split
  · exact .refl _
  · split
    · exact (sameMem_discardFrom _ _ _ _).trans (sameMem_modThread _ _ _)
    · exact .refl _

theorem sameMem_takeTrap (s : State) (slot : Nat) (a : Bool) (pc : W64) (x : Trap) : SameMem s (s.takeTrap slot a pc x) := by
  unfold State.takeTrap
  dsimp only
  exact (sameMem_modThread _ _ _).trans ((sameMem_discardAll _ _ _).trans ((sameMem_modThread _ _ _).trans (sameMem_shave _ _ _ _ _ _ _ _)))

theorem sameMem_takeAsync (s : State) (slot : Nat) : SameMem s (s.takeAsync slot) := by
  unfold State.takeAsync
  split
  · exact .refl _
  · split
    · exact .refl _
    · exact (sameMem_takeTrap _ _ _ _ _).trans (sameMem_modThread _ _ _)

theorem sameMem_wakeAsync (s : State) (slot : Nat) : SameMem s (s.wakeAsync slot) := by
  unfold State.wakeAsync
  split
  · exact .refl _
  · split
    · split
      · exact sameMem_modThread _ _ _
      · exact sameMem_takeAsync _ _
    · exact .refl _

theorem sameMem_raisePoison (s : State) (slot : Nat) (v : W64) : SameMem s (s.raisePoison slot v) :=
  (sameMem_modThread _ _ _).trans (sameMem_wakeAsync _ _)
theorem sameMem_raiseReject (s : State) (slot : Nat) (v : W64) : SameMem s (s.raiseReject slot v) :=
  (sameMem_modThread _ _ _).trans (sameMem_wakeAsync _ _)

theorem sameMem_replayLoads (s : State) (c key : Nat) (w : Option Nat) : SameMem s (s.replayLoads c key w) := by
  unfold State.replayLoads
  split
  · exact .refl _
  · refine sameMem_foldl (fun s p => ?_) _ _
    split
    · split
      · exact sameMem_replay _ _ _
      · exact .refl _
    · exact .refl _

theorem sameMem_applyProbe (s : State) (c key : Nat) (stamp : BitVec 8) (w : Option Nat) : SameMem s (s.applyProbe c key stamp w) := by
  unfold State.applyProbe
  extract_lets held m
  have h : SameMem s m := by
    show SameMem s (if _ then _ else if _ then _ else _)
    split
    · exact sameMem_replayLoads _ _ _ _
    · split
      · exact (sameMem_dropCopies _ _ _).trans (sameMem_replayLoads _ _ _ _)
      · exact .refl _
  exact h.trans ⟨rfl, rfl, rfl, rfl⟩

theorem sameMem_probe (s : State) (y c : Nat) (w : Option Nat) : SameMem s (s.probe y c w) := by
  unfold State.probe
  dsimp only
  split
  · exact sameMem_modDir _ _ _
  · split
    · exact ((sameMem_modDir _ _ _).trans (sameMem_wakeCluster _ _)).trans (sameMem_applyProbe _ _ _ _ _)
    · exact (((sameMem_modDir _ _ _).trans (sameMem_modDir _ _ _)).trans (sameMem_await _ _ _ _ _)).trans (sameMem_post _ _)

theorem sameMem_probeAll (s : State) (y : Nat) (w : Option Nat) : SameMem s (s.probeAll y w) :=
  by
  have h := sameMem_foldl (fun s c => sameMem_probe s y c w) (s.dirEnt y).sharers s
  exact h.trans ⟨rfl, rfl, rfl, rfl⟩
theorem sameMem_probeDie (s : State) (y : Nat) (w : Option Nat) : SameMem s (s.probeDie y w) :=
  by
  have h := sameMem_foldl (fun s c => sameMem_probe s y c w) ((s.dirEnt y).sharers.filter fun c => clusterDie c == homeDie (128 * y)) s
  exact h.trans ⟨rfl, rfl, rfl, rfl⟩

theorem sameMem_clearLine (s : State) (y : Nat) : SameMem s (s.clearLine y) := by
  have h := sameMem_foldl (f := fun (s : State) c =>
    let stamp := (s.dirEnt y).seq + 1
    let s := s.modDir y fun e => { e with seq := stamp }
    if (s.die (homeDie (128 * y))).agent c = 2 then s else (s.wakeCluster c).applyProbe c (s.ownKey y) stamp none)
    (fun s c => by
      dsimp only
      split
      · exact sameMem_modDir _ _ _
      · exact ((sameMem_modDir _ _ _).trans (sameMem_wakeCluster _ _)).trans (sameMem_applyProbe _ _ _ _ _)) (s.dirEnt y).sharers s
  exact h.trans ⟨rfl, rfl, rfl, rfl⟩

theorem sameMem_pageMsg (s : State) (pg cls holder : Nat) : SameMem s (s.pageMsg pg cls holder) := by
  unfold State.pageMsg
  split
  · exact .refl _
  · dsimp only
    split
    · exact .refl _
    · refine SameMem.trans ?_ (sameMem_transmit _ _ _)
      exact ⟨rfl, rfl, rfl, rfl⟩

theorem sameMem_revokeHolders (s : State) (pg : Nat) (keep : Option Nat) : SameMem s (s.revokeHolders pg keep) := by
  unfold State.revokeHolders
  split
  · exact .refl _
  · dsimp only
    have h := sameMem_foldl (fun s h => sameMem_pageMsg s pg 0x10 h) ((s.holdersOf ‹_›).filter fun h => some h != keep) s
    split
    · exact h
    · exact h.trans ⟨rfl, rfl, rfl, rfl⟩

/-! ### Waking the SWAITs at a word -/

theorem sameMem_acquire (s : State) (slot : Nat) : SameMem s (s.acquire slot) := sameMem_modThread _ _ _
theorem sameMem_meetWord (s : State) (slot : Nat) (w : WLoc) : SameMem s (s.meetWord slot w) := sameMem_modThread _ _ _

theorem sameMem_swaitEnd (s : State) (b : BRef) (idx : Nat) (h : Hdr) (l : Nat) (t : Bool) (r : W64) (w : SyncWord) :
    SameMem s (s.swaitEnd b idx h l t r w) := by
  unfold State.swaitEnd
  dsimp only
  split
  · exact ((sameMem_modBlock _ _ _).trans (sameMem_acquire _ _)).trans (sameMem_modBlock _ _ _)
  · exact ((sameMem_modBlock _ _ _).trans (sameMem_acquire _ _)).trans (sameMem_deliver _ _ _ _ _)

theorem sameMem_wakeOne (s : State) (x : SWaiter) : SameMem s (s.wakeOne x) := by
  unfold State.wakeOne
  dsimp only
  split
  · exact .refl _
  · have h : SameMem s { s with swaits := s.swaits.filter (· != x) } := ⟨rfl, rfl, rfl, rfl⟩
    split
    · exact h
    · split
      · exact h
      · split
        · exact h.trans ((sameMem_meetWord _ _ _).trans (sameMem_swaitEnd _ _ _ _ _ _ _ _))
        · exact h

theorem sameMem_wakeWhere (s : State) (p : WLoc → Bool) : SameMem s (s.wakeWhere p) := sameMem_foldl sameMem_wakeOne _ _

/-! ### The L2 and HBM of a home -/

/-- HBM and the L2 replaced by canonical ones. -/
theorem memInv_of {s t : State} (i : s.MemInv) (h : t.hbm.wf = true) (h1 : t.host = s.host) (h2 : t.pool = s.pool) (h3 : Rising t.coh.l2) :
    t.MemInv := ⟨h, h1 ▸ i.2.1, h2 ▸ i.2.2.1, h3⟩

theorem State.MemInv.rising {s : State} (i : s.MemInv) : Rising s.coh.l2 := i.2.2.2

theorem memInv_setL2 {s : State} (i : s.MemInv) {l : Table L2Line} (h : Rising l) : State.MemInv { s with coh := { s.coh with l2 := l } } :=
  ⟨i.1, i.2.1, i.2.2.1, h⟩

theorem memInv_set {s : State} (i : s.MemInv) {h : Memory} (hw : h.wf = true) {l : Table L2Line} (hl : Rising l) :
    State.MemInv { s with hbm := h, coh := { s.coh with l2 := l } } := ⟨hw, i.2.1, i.2.2.1, hl⟩

theorem memInv_hbmPut {s : State} (i : s.MemInv) (y : Nat) (l : List (Nat × Byte)) : (s.hbmPut y l).MemInv := by
  unfold State.hbmPut
  exact ⟨wf_foldl_wr1 i.1 (fun p : Nat × Byte => 128 * y + p.1) (fun p => p.2) l, i.2.1, i.2.2.1, i.2.2.2⟩

theorem memInv_l2Put {s : State} (i : s.MemInv) (y : Nat) (l : List (Nat × Byte)) (d : Bool) : (s.l2Put y l d).MemInv := by
  unfold State.l2Put
  split
  · exact memInv_hbmPut i _ _
  · exact memInv_setL2 i (i.rising.tput _ _)

theorem memInv_writeBack {s : State} (i : s.MemInv) (y : Nat) : (s.writeBack y).MemInv := by
  unfold State.writeBack
  split
  · rename_i l _
    split
    · exact i
    · have j := memInv_setL2 i (i.rising.tput y { l with dirty := false })
      split
      · generalize wideBytes l.data = b
        exact memInv_set i (wf_wrBytes i.1 _ b) j.rising
      · exact (sameMem_transmit _ _ _).memInv j
  · exact i

theorem sameMem_clearPeer (s : State) (y : Nat) : SameMem s (s.clearPeer y) := by
  unfold State.clearPeer
  split
  · exact ⟨rfl, rfl, rfl, rfl⟩
  · exact .refl _

theorem memInv_dropLine {s : State} (i : s.MemInv) (y : Nat) : (s.dropLine y).MemInv := by
  have j := (sameMem_clearPeer _ y).memInv (memInv_writeBack i y)
  exact memInv_setL2 j (j.rising.tdel _)

theorem sameMem_useL2 (s : State) (y : Nat) : SameMem s (s.useL2 y) := by
  unfold State.useL2
  split
  · exact .refl _
  · dsimp only
    split
    · exact ⟨rfl, rfl, rfl, rfl⟩
    · exact .refl _

theorem memInv_placeL2 {s : State} (i : s.MemInv) (d vc y : Nat) : (s.placeL2 d vc y).1.MemInv := by
  unfold State.placeL2
  dsimp only
  split
  · exact i
  · split
    · exact i
    · exact memInv_setL2 (memInv_foldl (fun m k j => memInv_dropLine j k) _ i)
        (memInv_foldl (fun m k j => memInv_dropLine j k) _ i).rising

theorem memInv_allocate {s : State} (i : s.MemInv) (y vc : Nat) : (s.allocate y vc).MemInv := by
  unfold State.allocate
  split
  · exact (sameMem_useL2 _ _).memInv i
  · dsimp only
    have j := memInv_placeL2 i (homeDie (128 * y)) vc y
    split
    · exact j
    · refine memInv_foldl (fun m k j => ?_) _ j
      split
      · exact j
      · exact memInv_setL2 j (j.rising.tput _ _)

theorem memInv_allocatePeer {s : State} (i : s.MemInv) (d key : Nat) (data : WideBits) : (s.allocatePeer d key data).MemInv := by
  unfold State.allocatePeer
  dsimp only
  have j := memInv_placeL2 i d 0 (peerKey key)
  split
  · exact j
  · exact memInv_setL2 j (j.rising.tput _ _)

theorem memInv_policyWrite {s : State} (i : s.MemInv) (y vc : Nat) (l : List (Nat × Byte)) : (s.policyWrite y vc l).MemInv := by
  unfold State.policyWrite
  dsimp only
  split
  · have j := (sameMem_useL2 s y).memInv i
    split
    · exact memInv_hbmPut (memInv_l2Put j _ _ _) _ _
    · exact memInv_l2Put j _ _ _
  · split
    · exact memInv_hbmPut i _ _
    · split
      · exact memInv_hbmPut (memInv_l2Put (memInv_allocate i _ _) _ _ _) _ _
      · exact memInv_l2Put (memInv_allocate i _ _) _ _ _

theorem sameMem_forgetData (s : State) (key : Nat) (w : Option Nat) : SameMem s (s.forgetData key w) := by
  unfold State.forgetData
  split
  · exact .refl _
  · exact ⟨rfl, rfl, rfl, rfl⟩

theorem memInv_homeWrite {s : State} (i : s.MemInv) (y vc : Nat) (l : List (Nat × Byte)) (src : WrSrc) : (s.homeWrite y vc l src).MemInv := by
  unfold State.homeWrite
  split
  · exact (sameMem_shaveDie _ _ _ _ _ _).memInv i
  · have h := (sameMem_probeAll s y src.grid).trans ((sameMem_forgetData _ (s.ownKey y) src.grid).trans (sameMem_revokeHolders _ (y / 32) none))
    exact (sameMem_wakeWhere _ _).memInv (memInv_policyWrite (h.memInv i) _ _ _)

theorem memInv_writeLa {s : State} (i : s.MemInv) (la vc : Nat) (l : List Byte) (src : WrSrc) : (s.writeLa la vc l src).MemInv :=
  memInv_homeWrite i _ _ _ _

/-! ### The host and the pools -/

theorem sameMem_dropLoose (s : State) (key : Nat) (w : Option Nat) : SameMem s (s.dropLoose key w) := by
  unfold State.dropLoose
  extract_lets cls m
  have h : SameMem s m :=
    (sameMem_foldl (fun s c => (sameMem_dropCopies s c key).trans (sameMem_replayLoads _ c key w)) cls s).trans (sameMem_forgetData _ _ _)
  clear_value m
  exact h.trans ⟨rfl, rfl, rfl, rfl⟩

theorem memInv_writeHost {s : State} (i : s.MemInv) (la : Nat) (l : List Byte) (src : WrSrc) : (s.writeHost la l src).MemInv := by
  unfold State.writeHost
  extract_lets key m m' half m''
  have h0 : m.MemInv := ⟨i.1, wf_wrBytes i.2.1 _ _, i.2.2⟩
  have h1 : SameMem m m' := sameMem_dropLoose _ _ _
  clear_value m'
  have h2 : SameMem m' m'' := sameMem_foldl (fun s h => sameMem_tellHost s 0 _) _ m'
  clear_value m'' m
  exact (h1.trans (h2.trans (sameMem_wakeWhere _ _))).memInv h0

theorem memInv_poolWrite {s : State} (i : s.MemInv) (a : Nat) (l : List Byte) : (s.poolWrite a l).MemInv := by
  refine (sameMem_wakeWhere _ _).memInv ?_
  exact ⟨i.1, i.2.1, wf_wrBytes i.2.2.1 _ _, i.2.2.2⟩

/-! ### Gates: what a home sends before an access may go on leaves the memories -/

/-- What a gate has done leaves the memories. -/
def Gate.Keeps (s : State) : Gate → Prop
  | .act t => SameMem s t
  | _ => True

theorem keeps_pageGate (s : State) (pg : Nat) (keep : Option Nat) : (s.pageGate pg keep).Keeps s := by
  unfold State.pageGate
  split
  · split
    · split
      · trivial
      · split
        · trivial
        · split
          · trivial
          · exact sameMem_pageMsg _ _ _ _
    · trivial
  · trivial

theorem sameMem_snoopHost (s : State) (w : Bool) (l : List Nat) : SameMem s (s.snoopHost w l) := by
  unfold State.snoopHost
  split
  · exact .refl _
  · exact sameMem_tellHost _ _ _
  · exact sameMem_tellHost _ _ _

theorem keeps_gateFor (s : State) (y : Nat) (w : Bool) (keep : Option Nat) : (s.gateFor y w keep).Keeps s := by
  simp only [State.gateFor]
  split
  · trivial
  · trivial
  · exact keeps_pageGate _ _ _
  · split
    · exact keeps_pageGate _ _ _
    · split
      · trivial
      · split
        · exact keeps_pageGate _ _ _
        · exact (sameMem_foldl (fun s k => sameMem_await s _ hostAgent k _) _ s).trans (sameMem_snoopHost _ _ _)

theorem keeps_gate (s : State) (y : Nat) (w : Bool) (who : Option DevWho) : (s.gate y w who).Keeps s := by
  simp only [State.gate]
  split
  · exact keeps_gateFor _ _ _ _
  · split
    · exact keeps_gateFor _ _ _ _
    · split
      · trivial
      · exact ⟨rfl, rfl, rfl, rfl⟩

theorem keeps_opGate (s : State) (w : WLoc) : (s.opGate w).Keeps s := by
  unfold State.opGate
  split
  · split
    · exact keeps_gate _ _ _ _
    · trivial
  · trivial

/-! ### Sync words -/

theorem memInv_setSync {s : State} (i : s.MemInv) (w : WLoc) (old new : SyncWord) : (s.setSync w old new).MemInv := by
  unfold State.setSync
  extract_lets bytes m m'
  have h : SameMem m m' := by
    show SameMem m (if _ then _ else _)
    split
    · exact sameMem_shave _ _ _ _ _ _ _ _
    · exact .refl _
  have i' : m'.MemInv := h.memInv i
  clear_value m'
  cases w with
  | mem dev la vc ref =>
    dsimp only
    split
    · exact memInv_writeLa ((sameMem_clearLine _ _).memInv i') _ _ _ _
    · split
      · exact memInv_writeHost i' _ _ _
      · exact i'
  | pool a ref => exact memInv_poolWrite i' _ _

theorem memInv_wordOp {s : State} (i : s.MemInv) (w : WLoc) (o : WordOp) : (s.wordOp w o).MemInv := by
  unfold State.wordOp
  split
  · exact i
  · have h := keeps_opGate s w
    split
    · exact memInv_setSync i _ _ _
    · rename_i t e
      rw [e] at h
      exact memInv_of (t := t.holdWord w o) i (h.hbm ▸ i.1) h.host h.pool (h.l2 ▸ i.rising)
    · exact i

theorem memInv_arrive {s : State} (i : s.MemInv) (w : WLoc) (n : Nat) : (s.arrive w n).MemInv := memInv_wordOp i _ _
theorem memInv_setErr {s : State} (i : s.MemInv) (w : WLoc) (code : Nat) : (s.setErr w code).MemInv := memInv_wordOp i _ _
theorem memInv_sarmAt {s : State} (i : s.MemInv) (w : WLoc) (b : W64) : (s.sarmAt w b).MemInv := memInv_wordOp i _ _

end Sys2Proof.Machine
end

