-- ==== Sys2Proof/Tests/Slice0.lean ====
section
/-! SUPPORT. The model's own tests: ill-formed terms that WellFormed refuses, words written out from the encodings of the spec, worked
examples of the spec, and for every statement with hypotheses a state and operands that meet them. -/

namespace Sys2Proof.Tests

open Sys2Proof.Machine

-- one theorem after another: hundreds of evaluations at once would exhaust the threads of one compilation
set_option Elab.async false

/-! ### Small states -/

/-- A header that delivers to write slot 0. -/
def hd : Hdr := ⟨.always, .slot 0, .none⟩
def nar (v : W64) : Option Token := some (.narrow v)
def wid (d : WideBits) : Option Token := some (unscaled d)

/-- An entry with its operands. -/
def ent (w : W64) (a b c : Option Token) : Entry := { Entry.fresh w with a := a, b := b, c := c }
/-- A block of one entry in FIRE, with one write slot, for g1. -/
def blk (e : Entry) : Block := { wordBlock 0 with addr := 0x10000, entries := [e], writes := [⟨1, none, false⟩] }
def thread (b : Block) : Thread := { Thread.launch 16 0 0 with blocks := [b] }
/-- A group of one grid with a scratchpad of 4,096 bytes. -/
def group : Group := { wordGroup with members := [⟨0, [], [0], []⟩], partw := 0x100 }
/-- A state in which entry 0 of the only block of slot 0 is about to fire. -/
def firing (s : State) (t : Thread) : State := { s with thr := [(0, t)], grp := [(0, group)], cur := some ⟨0, 0, 0, 0⟩ }
def siteOf (e : Entry) : Site := ⟨⟨0, 0, 0, 0⟩, thread (blk e), blk e, e⟩
/-- The state of an entry on a reset machine. -/
def probe (e : Entry) : State := firing State.reset (thread (blk e))

/-- What a gate and a test of several steps answer. -/
def gateKind (g : Gate) : Nat := match g with | .go => 0 | .wait => 1 | .act _ => 2
theorem go_of {g : Gate} (h : gateKind g = 0) : g = .go := by
  cases g with
  | go => rfl
  | wait => cases h
  | act _ => cases h

/-! ### Witnesses: computing forms -/

theorem ready_probe (w : W64) (a b c : Option Token) (need : List Nat)
    (h : (siteOf (ent w a b c)).has need = true) : Ready (probe (ent w a b c)) (siteOf (ent w a b c)) .always need :=
  ⟨rfl, rfl, h⟩

theorem fires1 (p : W64) : ∃ s x, Fires1 s x .always p := ⟨_, _, ready_probe 0 (nar p) none none [0] rfl, rfl⟩
theorem fires2 (n : Nat) (p q : W64) : ∃ s x, Fires2 s x .always (none : Option (BitVec n)) p q :=
  ⟨_, _, ready_probe 0 (nar p) (nar q) none [0, 1] rfl, rfl, rfl⟩
theorem fires2_imm {n : Nat} (p : W64) (i : BitVec n) : ∃ s x, Fires2 s x .always (some i) p (i.signExtend 64) :=
  ⟨_, _, ready_probe 0 (nar p) none none [0] rfl, rfl, rfl⟩
theorem fires3 (p q r : W64) : ∃ s x, Fires3 s x .always p q r :=
  ⟨_, _, ready_probe 0 (nar p) (nar q) (nar r) [0, 1, 2] rfl, rfl, rfl, rfl⟩
theorem firesV1 (p : WideBits) : ∃ s x, FiresV1 s x .always p := ⟨_, _, ready_probe 0 (wid p) none none [0] rfl, rfl⟩
theorem firesV2 (p q : WideBits) : ∃ s x, FiresV2 s x .always p q :=
  ⟨_, _, ready_probe 0 (wid p) (wid q) none [0, 1] rfl, rfl, rfl⟩
theorem firesV3 (p q r : WideBits) : ∃ s x, FiresV3 s x .always p q r :=
  ⟨_, _, ready_probe 0 (wid p) (wid q) (wid r) [0, 1, 2] rfl, rfl, rfl, rfl⟩
/-- Any three operands. -/
theorem ready3 (a b c : Token) : ∃ s x, Ready s x .always [0, 1, 2] ∧ x.e.a = some a ∧ x.e.b = some b ∧ x.e.c = some c
    ∧ x.b.fp.isSome = true :=
  ⟨_, _, ready_probe 0 (some a) (some b) (some c) [0, 1, 2] rfl, rfl, rfl, rfl, rfl⟩

/-! ### Witnesses: memory forms -/

/-- A page at 0x10000 of the address space, mapped to a local address with a cache mode. -/
def leaf (cmode : BitVec 2) : Leaf := { img := 0, vc := 0, cmode := cmode, g := false, u := true, x := true, w := true, r := true, d := true }
def page (cmode : BitVec 2) (la : Nat) : TlbEnt := ⟨0, 0x10, 12, 0, la, leaf cmode⟩
/-- A machine whose grid 0 has that page, and whose cluster 0 holds its first line. -/
def mapped (cmode : BitVec 2) (la : Nat) : State :=
  { State.reset with grids := [(0, { Grid.reset with tlb := [page cmode la] })]
                     coh := { Coh.reset with l1 := [⟨0, la / 128, 0x8877665544332211, 0⟩] } }
/-- Operand A leads into the page. -/
def at8 : Entry := ent 0x5030810000000000 (nar 0x10008) (nar 7) (nar 9)
def memState (cmode : BitVec 2) (la : Nat) (e : Entry) : State := firing (mapped cmode la) (thread (blk e))

theorem fires_mem (s : State) (a b c : Option Token) (need : List Nat) (h : (siteOf (ent 0x5030810000000000 a b c)).has need = true)
    (h' : (siteOf (ent 0x5030810000000000 a b c)).anyNull need = false) :
    Fires (firing s (thread (blk (ent 0x5030810000000000 a b c)))) (siteOf (ent 0x5030810000000000 a b c)) .always need :=
  ⟨⟨rfl, rfl, h⟩, h'⟩
theorem fires_at8 (s : State) (need : List Nat) (h : (siteOf at8).has need = true) (h' : (siteOf at8).anyNull need = false) :
    Fires (firing s (thread (blk at8))) (siteOf at8) .always need := fires_mem s _ _ _ need h h'

theorem witness_IntegerWrap :
    (∃ s x, Fires2 s x .always (none : Option (BitVec 29)) 0xFFFFFFFFFFFFFFFF 1) ∧ (∃ s x, Fires3 s x .always 3 5 0xFFFFFFFFFFFFFFFF)
    ∧ (∃ s x, Ready s x .always [0, 1, 2] ∧ x.e.a = some (.narrow 0xFFFFFFFFFFFFFFFF) ∧ x.e.b = some (.narrow 0)
        ∧ x.e.c = some (.pred true) ∧ x.b.fp.isSome = true)
    ∧ ∃ s x, Ready s x .always [0, 1, 2] ∧ x.e.a = some (.narrow 1) ∧ x.e.b = some (.narrow 2) ∧ x.e.c = some (.narrow 3)
        ∧ x.b.fp.isSome = true :=
  ⟨fires2 .., fires3 .., ready3 .., ready3 ..⟩

theorem witness_IntegerSaturation :
    (∃ s x, Fires2 s x .always (some (0x10000000 : BitVec 29)) 0x8000000000000000 ((0x10000000 : BitVec 29).signExtend 64))
    ∧ ∃ s x, Fires3 s x .always 0x7FFFFFFFFFFFFFFF 2 1 := ⟨fires2_imm .., fires3 ..⟩

theorem witness_IntegerQuotients :
    (∃ s x, Fires2 s x .always (none : Option (BitVec 29)) 7 0)
    ∧ ∃ s x, Fires2 s x .always (none : Option (BitVec 29)) 0x8000000000000000 0xFFFFFFFFFFFFFFFF := ⟨fires2 .., fires2 ..⟩

theorem witness_LogicAndShifts : ∃ s x, Fires2 s x .always (none : Option (BitVec 29)) 0x80000001 64 := fires2 ..

theorem witness_MinMaxAbsNeg :
    (∃ s x, Fires2 s x .always (none : Option (BitVec 29)) 0x8000000000000000 1) ∧ ∃ s x, Fires1 s x .always 0x8000000000000000 :=
  ⟨fires2 .., fires1 ..⟩

theorem witness_BitCounts : ∃ s x, Fires1 s x .always 0 := fires1 ..

theorem witness_BitFields :
    (∃ s x, Fires2 s x .always (none : Option (BitVec 29)) 0xABCD 0x83F)
    ∧ (∃ s x, Ready s x .always [0, 1, 2] ∧ x.e.a = some (.narrow 0) ∧ x.e.b = some (.narrow 5) ∧ x.e.c = some (.narrow 0x4004)
        ∧ x.b.fp.isSome = true)
    ∧ (∃ s x, Ready s x .always [0, 2] ∧ x.e.a = some (.narrow 0) ∧ x.e.c = some (.narrow 0x4004))
    ∧ ∃ s x, Fires1 s x .always 0x80 :=
  ⟨fires2 .., ready3 .., ⟨_, _, ready_probe 0 (nar 0) none (nar 0x4004) [0, 2] rfl, rfl, rfl⟩, fires1 ..⟩

theorem witness_CompareAndTest :
    (∃ s x, Fires2 s x .always (none : Option (BitVec 28)) 0x8000000000000000 0) ∧ (∃ s x, Fires2 s x .always (none : Option (BitVec 29)) 1 64)
    ∧ ∃ s x, Ready s x .always [0] ∧ x.e.a = some (.pred true) :=
  ⟨fires2 .., fires2 .., ⟨_, _, ready_probe 0 (some (.pred true)) none none [0] rfl, rfl⟩⟩

theorem witness_PredicatesAndSelection :
    (∃ s x, Ready s x .always [0, 1] ∧ x.e.a = some (.pred true) ∧ x.e.b = some (.pred false))
    ∧ (∃ s x, Ready s x .always [0] ∧ x.e.a = some (.pred false))
    ∧ (∃ s x, Ready s x .always [0, 1, 2] ∧ x.e.a = some .null ∧ x.e.b = some (.narrow 4) ∧ x.e.c = some (.pred false) ∧ x.b.fp.isSome = true)
    ∧ (∃ s x, Ready s x .always [0, 1] ∧ x.e.a = some (unscaled 9) ∧ x.e.b = some (.pred true))
    ∧ (∃ s x, State.site s = some x ∧ x.e.a = some (.narrow 1) ∧ x.e.b = none)
    ∧ (∃ s x, State.site s = some x ∧ x.e.a = none ∧ x.e.b = some .null)
    ∧ ∃ s x, State.site s = some x ∧ x.e.a = some (.narrow 1) ∧ x.e.b = some (.narrow 2) :=
  ⟨⟨_, _, ready_probe 0 (some (.pred true)) (some (.pred false)) none [0, 1] rfl, rfl, rfl⟩,
   ⟨_, _, ready_probe 0 (some (.pred false)) none none [0] rfl, rfl⟩, ready3 ..,
   ⟨_, _, ready_probe 0 (wid 9) (some (.pred true)) none [0, 1] rfl, rfl, rfl⟩,
   ⟨probe (ent 0 (nar 1) none none), _, rfl, rfl, rfl⟩, ⟨probe (ent 0 none (some .null) none), _, rfl, rfl, rfl⟩,
   ⟨probe (ent 0 (nar 1) (nar 2) none), _, rfl, rfl, rfl⟩⟩

/-- A block that reads q3 for its one entry, alone or behind one that writes it. -/
def argBlk : Block := blk (ent 0x0300000020000003 none none none)
def argBehind : Thread := { thread argBlk with
  blocks := [{ argBlk with entries := [], writes := [⟨0x33, some (.narrow 9), false⟩] }, { argBlk with seq := 1, pos := 1 }] }

theorem witness_MovesAndConstants :
    (∃ t b, ∃ g : Group, (firing State.reset (thread argBlk)).group 0 = some g ∧ (firing State.reset (thread argBlk)).block ⟨0, 0, 0⟩ = some (t, b)
      ∧ b.state = .fire ∧ t.mayIterate b = false ∧ b.args = [(0, 3)] ∧ (∀ e ∈ b.reads, e.done = true) ∧ b.fp.isSome = true
      ∧ t.olderMapped b = true ∧ State.readsPoison (firing State.reset (thread argBlk)) 0 t b 0x33 = false
      ∧ forwardFrom 0x33 (t.older b).reverse = .committed ∧ (t.regWait.any fun x => x.1 == 0x33) = false ∧ t.qHeld 3 0 = false)
    ∧ (∃ t b tok, (firing State.reset argBehind).block ⟨0, 1, 0⟩ = some (t, b) ∧ b.state = .fire ∧ t.mayIterate b = false ∧ b.args = [(0, 3)]
      ∧ (∀ e ∈ b.reads, e.done = true) ∧ b.fp.isSome = true ∧ t.olderMapped b = true
      ∧ State.readsPoison (firing State.reset argBehind) 0 t b 0x33 = false ∧ forwardFrom 0x33 (t.older b).reverse = .got tok)
    ∧ (∃ s x, Ready s x .always [0] ∧ x.e.a = some (unscaled 5)) ∧ ∃ s x, Ready s x .always [] :=
  ⟨⟨_, _, group, rfl, rfl, rfl, by decide +kernel, by decide +kernel, by decide, rfl, by decide +kernel, by decide +kernel, by decide +kernel, rfl, rfl⟩,
   ⟨_, _, .narrow 9, rfl, rfl, by decide +kernel, by decide +kernel, by decide, rfl, by decide +kernel, by decide +kernel, by decide +kernel⟩,
   ⟨_, _, ready_probe 0 (wid 5) none none [0] rfl, rfl⟩, ⟨_, _, ready_probe 0 none none none [] rfl⟩⟩

/-- A block in which an exit has fired already. -/
def leftBlk (e : Entry) : Block := { blk e with exit := some ⟨1, 0x20000, false⟩ }
def leftSite (e : Entry) : Site := ⟨⟨0, 0, 0, 0⟩, thread (leftBlk e), leftBlk e, e⟩
theorem ready_left (e : Entry) (need : List Nat) (h : e.st = .idle) (h' : (leftSite e).has need = true) :
    Ready (firing State.reset (thread (leftBlk e))) (leftSite e) .always need :=
  ⟨by simp [State.site, firing, tget, Thread.findBlock, thread, leftBlk, blk, wordBlock, h, leftSite], rfl, h'⟩

theorem witness_ExitsFire :
    (∃ s x, Ready s x .always (trigger x) ∧ x.b.exit = none) ∧ (∃ s x, Ready s x .always (trigger x) ∧ x.b.exit ≠ none)
    ∧ (∃ s x, Fires1 s x .always 0x40 ∧ (0x40 : W64).toNat % 64 = 0 ∧ x.b.exit = none)
    ∧ (∃ s x, Fires1 s x .always 0x40 ∧ (0x40 : W64).toNat % 64 = 0 ∧ x.b.exit ≠ none)
    ∧ ∃ s x, Fires1 s x .always 0x41 ∧ (0x41 : W64).toNat % 64 ≠ 0 :=
  ⟨⟨_, _, ready_probe 0x0500000000000002 none none none _ (by decide), rfl⟩,
   ⟨_, leftSite (ent 0x0500000000000002 none none none), ready_left _ _ rfl (by decide), by decide⟩,
   ⟨_, _, ⟨ready_probe 0 (nar 0x40) none none [0] rfl, rfl⟩, by decide, rfl⟩,
   ⟨_, leftSite (ent 0 (nar 0x40) none none), ⟨ready_left _ [0] rfl rfl, rfl⟩, by decide, by decide⟩,
   ⟨_, _, ⟨ready_probe 0 (nar 0x41) none none [0] rfl, rfl⟩, by decide⟩⟩

theorem witness_NarrowFloat :
    (∃ s x, Ready s x .always [0, 1, 2] ∧ x.e.a = some (.narrow 0x3F800000) ∧ x.e.b = some (.narrow 0x7F800001)
      ∧ x.e.c = some (.narrow 1) ∧ x.b.fp.isSome = true)
    ∧ (∃ s x, Ready s x .always [0, 1] ∧ x.e.a = some (.narrow 0x3F800000) ∧ x.e.b = some (.narrow 1) ∧ x.b.fp.isSome = true)
    ∧ (∃ s x, Fires3 s x .always 0x3F800000 1 0 ∧ x.b.fp.isSome = true)
    ∧ ∃ s x, Fires1 s x .always 0x7FF0000000000001 ∧ x.b.fp.isSome = true :=
  ⟨ready3 .., ⟨_, _, ready_probe 0 (nar 0x3F800000) (nar 1) none [0, 1] rfl, rfl, rfl, rfl⟩,
   ⟨_, _, ⟨ready_probe 0 (nar 0x3F800000) (nar 1) (nar 0) [0, 1, 2] rfl, rfl, rfl, rfl⟩, rfl⟩,
   ⟨_, _, ⟨ready_probe 0 (nar 0x7FF0000000000001) none none [0] rfl, rfl⟩, rfl⟩⟩

theorem witness_RoundOfExact : 0x7E < 2 ^ fmtE4M3.width ∧ (fmtE4M3.decode 0x7E).isNan = false := by decide +kernel

theorem witness_WideArithmetic : ETy.i8.isInt = true ∧ (∃ s x, FiresV2 s x .always 0x80FF 0x8001) ∧ ∃ s x, FiresV1 s x .always 0x80 :=
  ⟨rfl, firesV2 .., firesV1 ..⟩

theorem witness_WideBitwise :
    ETy.i64.isInt = true ∧ (∃ s x, FiresV2 s x .always 0x80FF 64) ∧ (63 : BitVec 7).toNat < ETy.i64.width ∧ (∃ s x, FiresV1 s x .always 1)
    ∧ ∃ s x, Ready s x .always [0, 1, 2] ∧ x.e.a = some (.wide ⟨1, true, 0x80⟩) ∧ x.e.b = some (.wide ⟨2, true, 0x80⟩)
        ∧ x.e.c = some (unscaled 3) ∧ x.b.fp.isSome = true :=
  ⟨rfl, firesV2 .., by decide, firesV1 .., ready3 ..⟩

theorem witness_WideMoves :
    (∃ s x, Fires1 s x .always 0x1FF)
    ∧ ((127 : BitVec 7).toNat < ETy.i8.lanes ∧ ∃ s x, Ready s x .always [0] ∧ x.e.a = some (.wide ⟨1, true, 1⟩))
    ∧ (∃ s x, Ready s x .always [0, 1] ∧ x.e.a = some (.wide ⟨1, true, 1⟩) ∧ x.e.b = some (.narrow 128))
    ∧ (∃ s x, Ready s x .always [0, 1, 2] ∧ x.e.a = some (.wide ⟨1, true, 1⟩) ∧ x.e.b = some (.narrow 7) ∧ x.e.c = some (.narrow 129)
        ∧ x.b.fp.isSome = true)
    ∧ (∃ s x, Ready s x .always [0, 1] ∧ x.e.a = some (.wide ⟨1, true, 1⟩) ∧ x.e.b = some (unscaled 0xFF))
    ∧ ∃ s x, Ready s x .always [] :=
  ⟨fires1 .., ⟨by decide, _, _, ready_probe 0 (some (.wide ⟨1, true, 1⟩)) none none [0] rfl, rfl⟩,
   ⟨_, _, ready_probe 0 (some (.wide ⟨1, true, 1⟩)) (nar 128) none [0, 1] rfl, rfl, rfl⟩, ready3 ..,
   ⟨_, _, ready_probe 0 (some (.wide ⟨1, true, 1⟩)) (wid 0xFF) none [0, 1] rfl, rfl, rfl⟩,
   ⟨_, _, ready_probe 0 none none none [] rfl⟩⟩

theorem witness_WideReductions :
    ETy.i32.isInt = true ∧ (∃ s x, FiresV1 s x .always 0x80000000) ∧ ∃ s x, FiresV3 s x .always 0xFF 0x80 0x7FFFFFFF :=
  ⟨rfl, firesV1 .., firesV3 ..⟩

theorem witness_ScaledOperand :
    (∃ s x, Ready s x .always [0, 1] ∧ x.e.a = some (.wide ⟨1, true, 0x80⟩) ∧ (∃ w, x.e.b = some (.wide w)) ∧ x.b.fp.isSome = true)
    ∧ (∃ s x, Ready s x .always [0, 1] ∧ x.e.a = some (unscaled 1) ∧ x.e.b = some (.wide ⟨1, true, 0⟩) ∧ x.b.fp.isSome = true)
    ∧ (∃ s x, Ready s x .always [0] ∧ x.e.a = some (.wide ⟨1, true, 0x7F⟩) ∧ x.b.fp.isSome = true)
    ∧ (∃ s x, Ready s x .always [0, 1, 2] ∧ x.e.a = some (.wide ⟨1, true, 0⟩) ∧ x.e.b = some (unscaled 2) ∧ x.e.c = some (unscaled 3)
        ∧ x.b.fp.isSome = true)
    ∧ ∃ s x, Ready s x .always [0, 1, 2] ∧ x.e.a = some (unscaled 1) ∧ x.e.b = some (unscaled 2) ∧ x.e.c = some (.wide ⟨3, true, 0⟩)
        ∧ x.b.fp.isSome = true :=
  ⟨⟨_, _, ready_probe 0 (some (.wide ⟨1, true, 0x80⟩)) (wid 0) none [0, 1] rfl, rfl, ⟨_, rfl⟩, rfl⟩,
   ⟨_, _, ready_probe 0 (wid 1) (some (.wide ⟨1, true, 0⟩)) none [0, 1] rfl, rfl, rfl, rfl⟩,
   ⟨_, _, ready_probe 0 (some (.wide ⟨1, true, 0x7F⟩)) none none [0] rfl, rfl, rfl⟩, ready3 .., ready3 ..⟩

theorem witness_WideFloat :
    ETy.fp32.isArith = true
    ∧ (∃ s x, Ready s x .always [0, 1] ∧ x.e.a = some (.wide ⟨0x3F800000, true, 0x7F⟩) ∧ x.e.b = some (unscaled 0x7F800001) ∧ x.b.fp.isSome = true)
    ∧ (∃ s x, Ready s x .always [0, 1, 2] ∧ x.e.a = some (unscaled 1) ∧ x.e.b = some (unscaled 2) ∧ x.e.c = some (unscaled 3)
        ∧ x.b.fp.isSome = true)
    ∧ ∃ s x, Ready s x .always [0] ∧ x.e.a = some (unscaled 0x40800000) ∧ x.b.fp.isSome = true :=
  ⟨rfl, ⟨_, _, ready_probe 0 (some (.wide ⟨0x3F800000, true, 0x7F⟩)) (wid 0x7F800001) none [0, 1] rfl, rfl, rfl, rfl⟩, ready3 ..,
   ⟨_, _, ready_probe 0 (wid 0x40800000) none none [0] rfl, rfl, rfl⟩⟩

theorem witness_WideConversions :
    ((∃ s x, Ready s x .always [0] ∧ x.e.a = some (.wide ⟨1, true, 0x7F⟩) ∧ x.b.fp.isSome = true) ∧ ETy.fp16.isFloat = true
      ∧ (Instr.vfcvt hd .e4m3 .fp32 .rne false true false 3).wf = true ∧ (Instr.vfcvt hd .i8 .fp32 .rne false false true 0).wf = true
      ∧ (Instr.vpackUnpack hd .fp16 .e5m2 false false true).wf = true ∧ (Instr.vpackUnpack hd .i16 .i8 false true true).wf = true)
    ∧ (-128 : Int) ≤ 127 + (-255 : Int) ∧ (127 : Int) < 127 + (1 : Int)
    ∧ (∃ s x, Ready s x .always [0, 1] ∧ x.e.a = some (unscaled 1) ∧ x.e.b = some (.narrow 0xFFFFFFFFFFFFFF80) ∧ x.b.fp.isSome = true)
    ∧ (∃ s x, Ready s x .always [0, 1] ∧ x.e.a = some (unscaled 1) ∧ x.e.b = some (unscaled 2) ∧ x.b.fp.isSome = true)
    ∧ (Instr.vpackPack hd .e4m3 .fp16 .rtz false true false).wf = true ∧ (Instr.vpackPack hd .i8 .i16 .fpcsr false true true).wf = true :=
  ⟨⟨⟨_, _, ready_probe 0 (some (.wide ⟨1, true, 0x7F⟩)) none none [0] rfl, rfl, rfl⟩, rfl, by decide, by decide, by decide, by decide⟩,
   by decide, by decide, ⟨_, _, ready_probe 0 (wid 1) (nar 0xFFFFFFFFFFFFFF80) none [0, 1] rfl, rfl, rfl, rfl⟩,
   ⟨_, _, ready_probe 0 (wid 1) (wid 2) none [0, 1] rfl, rfl, rfl, rfl⟩, by decide, by decide⟩

/-- A watchpoint on every load and store of the page. -/
def watched (b : Block) : Thread :=
  { thread b with sys := { (thread b).sys with dbg := (List.replicate 24 0).set 0 0x10000 |>.set 1 0x0C07 } }

theorem witness_Loads :
    (∃ s x, Fires s x .always [0] ∧ x.e.a = some (.narrow 0x10008)
      ∧ State.loadGate s x.slot x.t x.b 31 = true ∧ State.storeWaits s x.slot x.t x.b 31 = false
      ∧ ∃ ps, Reaches s x .load 0x10008 8 ps ∧ (∀ q ∈ ps, q.leaf.cmode ≠ 3)
        ∧ (State.gather s x.ref x.idx x.t x.b 31 ps).wait = false ∧ (State.gather s x.ref x.idx x.t x.b 31 ps).missing = []
        ∧ (State.gather s x.ref x.idx x.t x.b 31 ps).loose = false)
    ∧ (∃ s x, Fires s x .always [0] ∧ x.e.a = some (.narrow 0x10008)
      ∧ State.loadGate s x.slot x.t x.b 0 = true ∧ State.storeWaits s x.slot x.t x.b 0 = false
      ∧ ∃ ps, Reaches s x .load 0x10008 8 ps ∧ (∃ q ∈ ps, q.leaf.cmode = 3) ∧ x.t.isOldest x.b = true
        ∧ State.uncachedBefore s x.slot x.t x.b 0 = false ∧ s.bytesHome x.slot x.t x.b 0 ps = true
        ∧ s.loadStopped x.slot x.t x.b .mem 0x10008 8 = none
        ∧ ∀ q ∈ ps, paLa q.pa < 2 ^ 40 ∧ s.gate (paLa q.pa / 128) false (some (.load x.ref x.idx)) = .go)
    ∧ (∃ s x, Fires s x .always [0] ∧ x.e.a = some (.narrow 0x10008)
      ∧ State.loadGate s x.slot x.t x.b 0 = true ∧ State.storeWaits s x.slot x.t x.b 0 = false
      ∧ ∃ ps, Reaches s x .load 0x10008 8 ps ∧ (∃ q ∈ ps, q.leaf.cmode = 3) ∧ x.t.isOldest x.b = true
        ∧ State.uncachedBefore s x.slot x.t x.b 0 = false ∧ s.bytesHome x.slot x.t x.b 0 ps = true
        ∧ (s.loadStopped x.slot x.t x.b .mem 0x10008 8).isSome = true)
    ∧ (∃ s x, Fires s x .always [0] ∧ x.e.a = some (.narrow 0x10008)
      ∧ State.loadGate s x.slot x.t x.b 0 = true ∧ State.storeWaits s x.slot x.t x.b 0 = false
      ∧ ∃ q, Reaches s x .load 0x10008 8 [q] ∧ q.leaf.cmode = 3 ∧ x.t.isOldest x.b = true
        ∧ State.uncachedBefore s x.slot x.t x.b 0 = false ∧ s.bytesHome x.slot x.t x.b 0 [q] = true
        ∧ s.loadStopped x.slot x.t x.b .mem 0x10008 8 = none ∧ 2 ^ 40 ≤ paLa q.pa ∧ paLa q.pa < 2 ^ 41)
    ∧ (∃ s x, Fires s x .always [0] ∧ x.e.a = some (.narrow 0x10008)
      ∧ State.loadGate s x.slot x.t x.b 0 = true ∧ State.storeWaits s x.slot x.t x.b 0 = false
      ∧ ∃ q, Reaches s x .load 0x10008 8 [q] ∧ q.leaf.cmode = 3 ∧ x.t.isOldest x.b = true
        ∧ State.uncachedBefore s x.slot x.t x.b 0 = false ∧ s.bytesHome x.slot x.t x.b 0 [q] = true
        ∧ s.loadStopped x.slot x.t x.b .mem 0x10008 8 = none ∧ 2 ^ 41 ≤ paLa q.pa)
    ∧ ∃ s x, ∃ g : Group, Fires s x .always [0] ∧ x.e.a = some (.narrow 4088)
      ∧ State.loadGate s x.slot x.t x.b 0 = true ∧ State.storeWaits s x.slot x.t x.b 0 = false ∧ s.group x.t.gid = some g
      ∧ 4088 % 8 = 0 ∧ 4088 + 8 ≤ g.spadSize ∧ x.t.spadOpaque x.b 0 4088 8 = false ∧ s.noPlace x [] = false
      ∧ (4088 + 1) % 8 ≠ 0 ∧ (4088 + 8) % 8 = 0 ∧ g.spadSize < 4088 + 8 + 8 :=
  ⟨⟨memState 0 0x10000 at8, siteOf at8, fires_at8 _ [0] rfl rfl, rfl, by decide +kernel, by decide +kernel,
    [⟨0x10008, 8, leaf 0⟩], ⟨by decide +kernel, by decide +kernel, by decide +kernel⟩, by decide, by decide +kernel, by decide +kernel, by decide +kernel⟩,
   ⟨memState 3 0x10000 at8, siteOf at8, fires_at8 _ [0] rfl rfl, rfl, by decide +kernel, by decide +kernel,
    [⟨0x10008, 8, leaf 3⟩], ⟨by decide +kernel, by decide +kernel, by decide +kernel⟩, ⟨_, .head _, rfl⟩, by decide +kernel, by decide +kernel,
    by decide +kernel, by decide +kernel, by intro q hq; cases List.mem_singleton.1 hq; exact ⟨by decide, go_of (by decide +kernel)⟩⟩,
   ⟨firing (mapped 3 0x10000) (watched (blk at8)), ⟨⟨0, 0, 0, 0⟩, watched (blk at8), blk at8, at8⟩, ⟨⟨rfl, rfl, rfl⟩, rfl⟩, rfl,
    by decide +kernel, by decide +kernel, [⟨0x10008, 8, leaf 3⟩], ⟨by decide +kernel, by decide +kernel, by decide +kernel⟩, ⟨_, .head _, rfl⟩,
    by decide +kernel, by decide +kernel, by decide +kernel, by decide +kernel⟩,
   ⟨memState 3 (2 ^ 40) at8, siteOf at8, fires_at8 _ [0] rfl rfl, rfl, by decide +kernel, by decide +kernel,
    ⟨2 ^ 40 + 8, 8, leaf 3⟩, ⟨by decide +kernel, by decide +kernel, by decide +kernel⟩, rfl, by decide +kernel, by decide +kernel,
    by decide +kernel, by decide +kernel, by decide, by decide⟩,
   ⟨memState 3 (2 ^ 41) at8, siteOf at8, fires_at8 _ [0] rfl rfl, rfl, by decide +kernel, by decide +kernel,
    ⟨2 ^ 41 + 8, 8, leaf 3⟩, ⟨by decide +kernel, by decide +kernel, by decide +kernel⟩, rfl, by decide +kernel, by decide +kernel,
    by decide +kernel, by decide +kernel, by decide⟩,
   ⟨_, _, group, fires_mem State.reset (nar 4088) none none [0] rfl rfl, rfl, by decide +kernel, by decide +kernel, rfl, by decide,
    by decide, by decide +kernel, by decide +kernel, by decide, by decide, by decide⟩⟩

theorem witness_Stores :
    (∃ s x, Fires s x .always [0, 1] ∧ x.e.a = some (.narrow 0x10008) ∧ x.e.b = some (.narrow 7)
      ∧ s.fenceGate x.slot x.t x.b = true ∧ (∃ ps, Reaches s x .store 0x10008 8 ps) ∧ x.t.watch x.b false true 0x10008 8 = none)
    ∧ (∃ s x, Fires s x .always [0, 1] ∧ x.e.a = some (.narrow 0x10008) ∧ x.e.b = some (.narrow 7)
      ∧ s.fenceGate x.slot x.t x.b = true ∧ (∃ ps, Reaches s x .store 0x10008 8 ps) ∧ x.t.watch x.b false true 0x10008 8 = some 0x10008)
    ∧ (∃ s x, ∃ g : Group, Fires s x .always [0, 1] ∧ x.e.a = some (.narrow 4088) ∧ x.e.b = some (.narrow 7) ∧ s.group x.t.gid = some g
      ∧ s.noPlace x [] = false ∧ 4088 % 8 = 0 ∧ 4088 + 8 ≤ g.spadSize ∧ 4089 % 8 ≠ 0 ∧ 4096 % 8 = 0 ∧ g.spadSize < 4096 + 8)
    ∧ (∃ s x, Fires s x .always [0, 1] ∧ x.e.a = some (.narrow 0x10008) ∧ x.e.b = some (.wide ⟨7, false, 0⟩)
      ∧ s.fenceGate x.slot x.t x.b = true ∧ ∃ ps, Reaches s x .store 0x10008 128 ps)
    ∧ ∃ s x, Fires s x .always [0, 1] ∧ x.e.a = some (.narrow 0x10008) ∧ x.e.b = some (.wide ⟨7, true, 1⟩) :=
  ⟨⟨memState 0 0x10000 at8, siteOf at8, fires_at8 _ [0, 1] rfl rfl, rfl, rfl, by decide +kernel, ⟨_, by decide +kernel, rfl, by decide +kernel⟩, by decide +kernel⟩,
   ⟨firing (mapped 0 0x10000) (watched (blk at8)), ⟨⟨0, 0, 0, 0⟩, watched (blk at8), blk at8, at8⟩, ⟨⟨rfl, rfl, rfl⟩, rfl⟩, rfl, rfl,
    by decide +kernel, ⟨_, by decide +kernel, rfl, by decide +kernel⟩, by decide +kernel⟩,
   ⟨_, _, group, fires_mem State.reset (nar 4088) (nar 7) none [0, 1] rfl rfl, rfl, rfl, rfl, by decide +kernel, by decide, by decide, by decide, by decide, by decide⟩,
   ⟨_, _, fires_mem (mapped 0 0x10000) (nar 0x10008) (wid 7) none [0, 1] rfl rfl, rfl, rfl, by decide +kernel, _, by decide +kernel, rfl, by decide +kernel⟩,
   ⟨_, _, fires_mem (mapped 0 0x10000) (nar 0x10008) (some (.wide ⟨7, true, 1⟩)) none [0, 1] rfl rfl, rfl, rfl⟩⟩

theorem witness_Atomics :
    (∃ s x, Fires s x .always [0, 1, 2] ∧ Fires s x .always [0, 1] ∧ x.e.a = some (.narrow 0x10008) ∧ 0x10008 % 8 = 0
      ∧ s.fenceGate x.slot x.t x.b = true ∧ (∃ ps, Reaches s x .store 0x10008 8 ps) ∧ x.t.watch x.b true true 0x10008 8 = none)
    ∧ (∃ s x, Fires s x .always [0, 1] ∧ x.e.a = some (.narrow 0x10008) ∧ s.fenceGate x.slot x.t x.b = true
      ∧ (∃ ps, Reaches s x .store 0x10008 8 ps) ∧ x.t.watch x.b true true 0x10008 8 = some 0x10008)
    ∧ ∃ s x, Fires s x .always [0, 1] ∧ x.e.a = some (.narrow 0x10004) ∧ 0x10004 % 8 ≠ 0 :=
  ⟨⟨memState 0 0x10000 at8, siteOf at8, fires_at8 _ [0, 1, 2] rfl rfl, fires_at8 _ [0, 1] rfl rfl, rfl, by decide, by decide +kernel, ⟨_, by decide +kernel, rfl, by decide +kernel⟩,
    by decide +kernel⟩,
   ⟨firing (mapped 0 0x10000) (watched (blk at8)), ⟨⟨0, 0, 0, 0⟩, watched (blk at8), blk at8, at8⟩, ⟨⟨rfl, rfl, rfl⟩, rfl⟩, rfl,
    by decide +kernel, ⟨_, by decide +kernel, rfl, by decide +kernel⟩, by decide +kernel⟩,
   ⟨_, _, fires_mem (mapped 0 0x10000) (nar 0x10004) (nar 7) none [0, 1] rfl rfl, rfl, by decide⟩⟩

theorem witness_PrefetchFenceLine :
    (∃ s x, Fires s x .always [0] ∧ x.e.a = some (.narrow 0x10008) ∧ s.prefRoom x 0 = true) ∧ (∃ s x, Ready s x .always (trigger x))
    ∧ (∃ s x, ∃ (q : Piece) (ps : List Piece), Fires s x .always [0] ∧ s.fenceGate x.slot x.t x.b = true ∧ x.e.a = some (.narrow 0x10008) ∧ Reaches s x .load 0x10008 1 (q :: ps)
      ∧ x.t.watch x.b true false 0x10000 (s.lineBytes q) = none)
    ∧ ∃ s x, ∃ (q : Piece) (ps : List Piece), Fires s x .always [0] ∧ s.fenceGate x.slot x.t x.b = true ∧ x.e.a = some (.narrow 0x10008)
      ∧ Reaches s x .store 0x10008 1 (q :: ps)
      ∧ x.t.watch x.b false true 0x10000 (s.lineBytes q) = none :=
  ⟨⟨_, _, fires_at8 State.reset [0] rfl rfl, rfl, by decide +kernel⟩, ⟨_, _, ready_probe 0 none none none _ (by decide)⟩,
   ⟨memState 0 0x10000 at8, siteOf at8, ⟨0x10008, 1, leaf 0⟩, [], fires_at8 _ [0] rfl rfl, by decide +kernel, rfl, ⟨by decide +kernel, by decide +kernel, by decide +kernel⟩, by decide +kernel⟩,
   ⟨memState 0 0x10000 at8, siteOf at8, ⟨0x10008, 1, leaf 0⟩, [], fires_at8 _ [0] rfl rfl, by decide +kernel, rfl, ⟨by decide +kernel, by decide +kernel, by decide +kernel⟩, by decide +kernel⟩⟩

/-- Operand A names the sync word at 0x10010 of the page, B is 7. -/
def atWord : Entry := ent 0x5030810000000000 (nar 0x10010) (nar 7) none
/-- Operand A names the sync word at 16 of the scratchpad. -/
def spWord : Entry := ent 0x5030810000000000 (nar 0x11) (nar 7) none
/-- A word whose generation has passed 7: field GEN is 8. -/
def passed : Memory := [(0x1001A, 8)]

theorem witness_SyncForms :
    (∃ s x l ps, Fires s x .always [0, 1] ∧ s.fenceGate x.slot x.t x.b = true ∧ x.e.a = some (.narrow 0x10010) ∧ Refers s x true 0x10010 l ps
      ∧ x.t.watch x.b false true (refBase 0x10010) 16 = none)
    ∧ (∃ s x l dev la vc r bs ps, Fires s x .always [0] ∧ Fires s x .always [0, 1] ∧ x.e.a = some (.narrow 0x10010) ∧ x.e.b = some (.narrow 7)
      ∧ State.loadGate s x.slot x.t x.b 0 = true ∧ Refers s x false 0x10010 l ps ∧ s.wordTurn x 0 ps = true ∧ s.wordGate x l = .go
      ∧ l = .mem dev la vc r ∧ s.wordMem x 0 (dev * 2 ^ 52 + la) = some bs ∧ s.wordFault x l 0x10010 = none
      ∧ s.wordClear x l 0x10010 = true ∧ (s.syncWord l).wakes 7 = false)
    ∧ (∃ s x l ps, Fires s x .always [0, 1] ∧ x.e.a = some (.narrow 0x10010) ∧ x.e.b = some (.narrow 7)
      ∧ State.loadGate s x.slot x.t x.b 0 = true ∧ Refers s x false 0x10010 l ps ∧ s.wordTurn x 0 ps = true ∧ s.wordGate x l = .go
      ∧ s.wordClear x l 0x10010 = true ∧ s.wordFault x l 0x10010 = none ∧ (s.syncWord l).wakes 7 = true)
    ∧ (∃ s x l dev la vc r bs ps c v, Fires s x .always [0] ∧ x.e.a = some (.narrow 0x10010) ∧ State.loadGate s x.slot x.t x.b 0 = true
      ∧ Refers s x false 0x10010 l ps ∧ s.wordTurn x 0 ps = true ∧ s.wordGate x l = .go
      ∧ l = .mem dev la vc r ∧ s.wordMem x 0 (dev * 2 ^ 52 + la) = some bs ∧ s.wordFault x l 0x10010 = some (c, v))
    ∧ ∃ s x l a r ps, ∃ g : Group, Fires s x .always [0] ∧ x.e.a = some (.narrow 0x11) ∧ State.loadGate s x.slot x.t x.b 0 = true
      ∧ Refers s x false 0x11 l ps ∧ s.wordTurn x 0 ps = true ∧ s.wordGate x l = .go ∧ l = .pool a r ∧ s.group x.t.gid = some g
      ∧ s.wordFault x l 0x11 = none ∧ x.t.spadOpaque x.b 0 (refBase 0x11).toNat 16 = false :=
  ⟨⟨firing (mapped 0 0x10000) (thread (blk atWord)), siteOf atWord, .mem 0 0x10010 0 0x10010, [⟨0x10010, 16, leaf 0⟩], ⟨⟨rfl, rfl, rfl⟩, rfl⟩,
    by decide +kernel, rfl, ⟨by decide +kernel, by decide +kernel, by decide +kernel⟩, by decide +kernel⟩,
   ⟨firing (mapped 0 0x10000) (thread (blk atWord)), siteOf atWord, .mem 0 0x10010 0 0x10010, 0, 0x10010, 0, 0x10010, List.replicate 16 0,
    [⟨0x10010, 16, leaf 0⟩], ⟨⟨rfl, rfl, rfl⟩, rfl⟩, ⟨⟨rfl, rfl, rfl⟩, rfl⟩, rfl, rfl, by decide +kernel,
    ⟨by decide +kernel, by decide +kernel, by decide +kernel⟩, by decide +kernel, go_of (by decide +kernel), rfl,
    by decide +kernel, by decide +kernel, by decide +kernel, by decide +kernel⟩,
   ⟨firing { mapped 0 0x10000 with hbm := passed } (thread (blk atWord)), siteOf atWord, .mem 0 0x10010 0 0x10010, [⟨0x10010, 16, leaf 0⟩],
    ⟨⟨rfl, rfl, rfl⟩, rfl⟩, rfl, rfl, by decide +kernel, ⟨by decide +kernel, by decide +kernel, by decide +kernel⟩, by decide +kernel,
    go_of (by decide +kernel), by decide +kernel, by decide +kernel, by decide +kernel⟩,
   ⟨firing { mapped 0 0x10000 with coh := { Coh.reset with poisonLines := [512] } } (thread (blk atWord)), siteOf atWord, .mem 0 0x10010 0 0x10010,
    0, 0x10010, 0, 0x10010, List.replicate 16 0, [⟨0x10010, 16, leaf 0⟩], .poison, 0x10010,
    ⟨⟨rfl, rfl, rfl⟩, rfl⟩, rfl, by decide +kernel, ⟨by decide +kernel, by decide +kernel, by decide +kernel⟩, by decide +kernel,
    go_of (by decide +kernel), rfl, by decide +kernel, by decide +kernel⟩,
   ⟨firing State.reset (thread (blk spWord)), siteOf spWord, .pool 16 0x11, 16, 0x11, [], group, ⟨⟨rfl, rfl, rfl⟩, rfl⟩, rfl, by decide +kernel,
    ⟨by decide +kernel, by decide +kernel, by decide +kernel⟩, by decide +kernel, go_of (by decide +kernel), rfl, rfl, by decide +kernel,
    by decide +kernel⟩⟩

/-- Any three narrow operands, none a null, in slot 0 of a group of one grid with a scratchpad; the page is mapped. -/
theorem fires_abc (cm : BitVec 2) (a b c : W64) (need : List Nat) (h : need = [0, 1, 2] ∨ need = [0, 1] ∨ need = [0] ∨ need = [])
    (hf : (firing (mapped cm 0x10000) (thread (blk (ent 0x5030810000000000 (nar a) (nar b) (nar c))))).formFull
      (siteOf (ent 0x5030810000000000 (nar a) (nar b) (nar c))) = false) :
    ∃ x, Fires (firing (mapped cm 0x10000) (thread (blk (ent 0x5030810000000000 (nar a) (nar b) (nar c))))) x .always need
      ∧ x.e.a = some (.narrow a) ∧ x.e.b = some (.narrow b) ∧ x.e.c = some (.narrow c)
      ∧ (firing (mapped cm 0x10000) (thread (blk (ent 0x5030810000000000 (nar a) (nar b) (nar c))))).group x.t.gid = some group
      ∧ (firing (mapped cm 0x10000) (thread (blk (ent 0x5030810000000000 (nar a) (nar b) (nar c))))).formFull x = false := by
  refine ⟨siteOf (ent 0x5030810000000000 (nar a) (nar b) (nar c)), ⟨⟨rfl, rfl, ?_⟩, ?_⟩, rfl, rfl, rfl, rfl, hf⟩ <;>
    rcases h with h | h | h | h <;> subst h <;> rfl

theorem witness_NamedForms :
    (∃ s x, Fires s x .always [0, 1] ∧ s.formFull x = false)
    ∧ (∃ s x, ∃ g : Group, Fires s x .always [0, 1, 2] ∧ x.e.b = some (.narrow 0x10001) ∧ x.e.c = some (.narrow 0x20) ∧ s.group x.t.gid = some g
      ∧ (0x10001 : W64).toNat % 16 ≠ 0)
    ∧ (∃ s x, ∃ g : Group, Fires s x .always [0, 1, 2] ∧ x.e.b = some (.narrow 0x10000) ∧ x.e.c = some (.narrow 0x11) ∧ s.group x.t.gid = some g
      ∧ (0x10000 : W64).toNat % 16 = 0 ∧ g.maskBeyond 2 = true ∧ g.maskBeyond 1 = false ∧ (1 : BitVec 4) ≠ 0
      ∧ (0x10000 : W64).toNat % 16 = 0 ∧ ((0x11 : W64).toNat % 16 = 1 ∧ g.part ≠ 0) ∧ s.formFull x = false)
    ∧ (∃ s x l ps, Fires s x .always [0, 1, 2] ∧ x.e.b = some (.narrow 0x10000) ∧ x.e.c = some (.narrow 0x10010)
      ∧ Refers s x true 0x10010 l ps)
    ∧ (∃ s x, Fires s x .always [0, 1, 2] ∧ x.e.b = some (.narrow 0x10000) ∧ x.e.c = some (.narrow 65536) ∧ s.formFull x = false)
    ∧ ∃ s x, Fires s x .always [0, 1, 2] ∧ x.e.b = some (.narrow 0x10000) ∧ x.e.c = some (.narrow 65552) ∧ 65536 < (65552 : W64).toNat := by
  obtain ⟨x1, h1⟩ := fires_abc 0 0 0x10001 0x20 [0, 1, 2] (by simp) (by decide +kernel)
  obtain ⟨x2, h2⟩ := fires_abc 0 0 0x10000 0x11 [0, 1, 2] (by simp) (by decide +kernel)
  obtain ⟨x4, h4⟩ := fires_abc 0 0 0x10000 65536 [0, 1, 2] (by simp) (by decide +kernel)
  obtain ⟨x5, h5⟩ := fires_abc 0 0 0x10000 65552 [0, 1, 2] (by simp) (by decide +kernel)
  obtain ⟨x6, h6⟩ := fires_abc 0 0 0 0 [0, 1] (by simp) (by decide +kernel)
  exact ⟨⟨_, x6, h6.1, h6.2.2.2.2.2⟩, ⟨_, x1, group, h1.1, h1.2.2.1, h1.2.2.2.1, h1.2.2.2.2.1, by decide⟩,
    ⟨_, x2, group, h2.1, h2.2.2.1, h2.2.2.2.1, h2.2.2.2.2.1, by decide, by decide, by decide, by decide, by decide, by decide, h2.2.2.2.2.2⟩,
    ⟨firing (mapped 0 0x10000) (thread (blk (ent 0 (nar 0) (nar 0x10000) (nar 0x10010)))), siteOf (ent 0 (nar 0) (nar 0x10000) (nar 0x10010)),
     .mem 0 0x10010 0 0x10010, [⟨0x10010, 16, leaf 0⟩], ⟨⟨rfl, rfl, rfl⟩, rfl⟩, rfl, rfl, ⟨by decide +kernel, by decide +kernel, by decide +kernel⟩⟩,
    ⟨_, x4, h4.1, h4.2.2.1, h4.2.2.2.1, h4.2.2.2.2.2⟩, ⟨_, x5, h5.1, h5.2.2.1, h5.2.2.2.1, by decide⟩⟩

theorem witness_MatrixForms :
    (∃ s x, Fires s x .always [0, 1, 2] ∧ x.e.a = some (.wide ⟨1, true, 3⟩) ∧ x.e.b = some (.wide ⟨1, false, 0⟩))
    ∧ (∃ s x, Fires s x .always [0, 1] ∧ x.e.b = some (.wide ⟨1, true, 0⟩))
    ∧ (∃ s x, ∃ l : WLoc, ∃ ps : List Piece, Fires s x .always [0, 1] ∧ x.e.b = some (.narrow 0x10010) ∧ Refers s x true 0x10010 l ps)
    ∧ (∃ s x, Fires s x .always [0]) ∧ ∃ s x, Fires s x .always [] :=
  ⟨⟨_, _, fires_mem State.reset (some (.wide ⟨1, true, 3⟩)) (wid 1) (nar 0) [0, 1, 2] rfl rfl, rfl, rfl⟩,
   ⟨_, _, fires_mem State.reset (nar 0) (some (.wide ⟨1, true, 0⟩)) none [0, 1] rfl rfl, rfl⟩,
   ⟨firing (mapped 0 0x10000) (thread (blk (ent 0 (nar 0) (nar 0x10010) none))), siteOf (ent 0 (nar 0) (nar 0x10010) none),
    .mem 0 0x10010 0 0x10010, [⟨0x10010, 16, leaf 0⟩], ⟨⟨rfl, rfl, rfl⟩, rfl⟩, rfl, ⟨by decide +kernel, by decide +kernel, by decide +kernel⟩⟩,
   ⟨_, _, fires_mem State.reset (nar 0) none none [0] rfl rfl⟩, ⟨_, _, fires_mem State.reset none none none [] rfl rfl⟩⟩

theorem witness_EngineForms :
    (∃ s x, ∃ g : Group, Fires s x .always [0, 1, 2] ∧ x.e.a = some (.narrow 0x10000) ∧ x.e.b = some (.narrow 0x20000)
      ∧ x.e.c = some (.narrow 0x80000040) ∧ s.group x.t.gid = some g)
    ∧ ∃ s x, Fires s x .always [] := by
  obtain ⟨x1, h1⟩ := fires_abc 0 0x10000 0x20000 0x80000040 [0, 1, 2] (by simp) (by decide +kernel)
  exact ⟨⟨_, x1, group, h1.1, h1.2.1, h1.2.2.1, h1.2.2.2.1, h1.2.2.2.2.1⟩, ⟨_, _, fires_mem State.reset none none none [] rfl rfl⟩⟩

/-- A thread whose ports 0 are bound to a pattern, with a FIFO and a place in the pattern. -/
def pattern : Pattern := ⟨0x10000, 0x10000, 0, 4, [(16, 2)], none⟩
def ports (b : Block) (fifo : List Elem) (pos : Nat) : Thread :=
  { thread b with inp := [{ InPort.reset with pat := some pattern, fifo := fifo, pos := pos }]
                  outp := [{ OutPort.reset with pat := some pattern, next := pos }] }
def portSite (e : Entry) (fifo : List Elem) (pos : Nat) : Site := ⟨⟨0, 0, 0, 0⟩, ports (blk e) fifo pos, blk e, e⟩
/-- A pattern record of one dimension at offset 0 of the scratchpad: count 2, stride 16. -/
def record16 : Memory := [(0, 2), (8, 16)]

theorem witness_StreamForms :
    (∃ s x, ∃ g : Group, Fires s x .always [0, 1, 2] ∧ x.e.a = some (.narrow 0x10000) ∧ x.e.b = some (.narrow 0) ∧ x.e.c = some (.narrow 8)
      ∧ x.t.isOldest x.b = true ∧ s.group x.t.gid = some g ∧ bitsOf (8 : W64).toNat 34 5 = 0 ∧ 0 + 16 * 1 ≤ g.spadSize
      ∧ x.t.spadOpaque x.b 0 0 16 = false ∧ s.rangeLocked (slotCluster x.slot) .spad x.t.gid 0 16 false = false
      ∧ s.spadPoison g 0 16 = none ∧ patternBad ((List.range 16).map fun j => s.spadByte x.t x.b g 0 (0 + j)) 1 = none)
    ∧ (∃ s x w rest, Fires s x .always [] ∧ x.t.portBusy x.b (bindsIn 0) (usesIn 0) = false ∧ x.b.used (usesIn 0) = false
      ∧ (x.t.inPort 0).pat = some pattern ∧ (x.t.inPort 0).fifo = .ok w :: rest)
    ∧ (∃ s x f v rest, Fires s x .always [] ∧ x.t.portBusy x.b (bindsIn 0) (usesIn 0) = false ∧ x.b.used (usesIn 0) = false
      ∧ (x.t.inPort 0).pat = some pattern ∧ (x.t.inPort 0).fifo = .failed f v :: rest)
    ∧ (∃ s x, Fires s x .always [] ∧ x.t.portBusy x.b (bindsIn 0) (usesIn 0) = false ∧ x.b.used (usesIn 0) = false
      ∧ (x.t.inPort 0).pat = some pattern ∧ (x.t.inPort 0).fifo = [] ∧ pattern.total ≤ (x.t.inPort 0).pos)
    ∧ (∃ s x, Fires s x .always [0] ∧ x.e.a = some (.wide ⟨5, true, 0⟩))
    ∧ (∃ s x, Fires s x .always [0] ∧ x.e.a = some (.wide ⟨5, false, 0⟩) ∧ x.t.portBusy x.b (bindsOut 0) (usesOut 0) = false
      ∧ x.b.used (usesOut 0) = false ∧ (x.t.outPort 0).waiting = none ∧ (x.t.outPort 0).pat = some pattern
      ∧ (x.t.outPort 0).next < pattern.total ∧ (x.t.outPort 0).pend.length + (x.t.outPort 0).out.length < 16)
    ∧ (∃ s x, Fires s x .always [0] ∧ x.e.a = some (.wide ⟨5, false, 0⟩) ∧ x.t.portBusy x.b (bindsOut 0) (usesOut 0) = false
      ∧ x.b.used (usesOut 0) = false ∧ (x.t.outPort 0).waiting = none ∧ (x.t.outPort 0).pat = some pattern
      ∧ pattern.total ≤ (x.t.outPort 0).next)
    ∧ ∃ s x, Fires s x .always [0] ∧ x.e.a = some (.wide ⟨5, false, 0⟩) ∧ x.t.portBusy x.b (bindsOut 0) (usesOut 0) = false
      ∧ x.b.used (usesOut 0) = false ∧ (x.t.outPort 0).waiting = none ∧ (x.t.outPort 0).pat = none :=
  ⟨⟨firing { State.reset with pool := record16 } (thread (blk (ent 0 (nar 0x10000) (nar 0) (nar 8)))), siteOf (ent 0 (nar 0x10000) (nar 0) (nar 8)),
    group, ⟨⟨rfl, rfl, rfl⟩, rfl⟩, rfl, rfl, rfl, by decide +kernel, rfl, by decide, by decide, by decide +kernel, by decide +kernel,
    by decide +kernel, by decide +kernel⟩,
   ⟨firing State.reset (ports (blk (ent 0 none none none)) [.ok 5] 1), portSite (ent 0 none none none) [.ok 5] 1, 5, [], ⟨⟨rfl, rfl, rfl⟩, rfl⟩,
    by decide +kernel, by decide +kernel, rfl, rfl⟩,
   ⟨firing State.reset (ports (blk (ent 0 none none none)) [.failed .prot 5] 1), portSite (ent 0 none none none) [.failed .prot 5] 1, .prot, 5, [],
    ⟨⟨rfl, rfl, rfl⟩, rfl⟩, by decide +kernel, by decide +kernel, rfl, rfl⟩,
   ⟨firing State.reset (ports (blk (ent 0 none none none)) [] 2), portSite (ent 0 none none none) [] 2, ⟨⟨rfl, rfl, rfl⟩, rfl⟩,
    by decide +kernel, by decide +kernel, rfl, rfl, by decide +kernel⟩,
   ⟨_, _, fires_mem State.reset (some (.wide ⟨5, true, 0⟩)) none none [0] rfl rfl, rfl⟩,
   ⟨firing State.reset (ports (blk (ent 0 (wid 5) none none)) [] 1), portSite (ent 0 (wid 5) none none) [] 1, ⟨⟨rfl, rfl, rfl⟩, rfl⟩, rfl,
    by decide +kernel, by decide +kernel, rfl, rfl, by decide +kernel, by decide +kernel⟩,
   ⟨firing State.reset (ports (blk (ent 0 (wid 5) none none)) [] 2), portSite (ent 0 (wid 5) none none) [] 2, ⟨⟨rfl, rfl, rfl⟩, rfl⟩, rfl,
    by decide +kernel, by decide +kernel, rfl, rfl, by decide +kernel⟩,
   ⟨firing State.reset (thread (blk (ent 0 (wid 5) none none))), siteOf (ent 0 (wid 5) none none), ⟨⟨rfl, rfl, rfl⟩, rfl⟩, rfl,
    by decide +kernel, by decide +kernel, rfl, rfl⟩⟩

theorem witness_ThreadForms :
    (∃ s x, Fires s x .always (trigger x))
    ∧ (∃ s x, Fires s x .always [0, 1, 2] ∧ Fires s x .always [0] ∧ x.e.a = some (.narrow 0x10000) ∧ (0x10000 : W64).toNat % 64 = 0
      ∧ ∃ ps, Reaches s x .load 0x10000 64 ps)
    ∧ ∃ s x, Fires s x .always [0, 1, 2] ∧ x.e.a = some (.narrow 0x10001) ∧ (0x10001 : W64).toNat % 64 ≠ 0 :=
  ⟨⟨_, _, ready_probe 0 none none none _ (by decide), by decide⟩,
   ⟨firing (mapped 0 0x10000) (thread (blk (ent 0 (nar 0x10000) (nar 0) (nar 0)))), siteOf (ent 0 (nar 0x10000) (nar 0) (nar 0)),
    ⟨⟨rfl, rfl, rfl⟩, rfl⟩, ⟨⟨rfl, rfl, rfl⟩, rfl⟩, rfl, by decide, _, by decide +kernel, rfl, by decide +kernel⟩,
   ⟨_, _, fires_mem State.reset (nar 0x10001) (nar 0) (nar 0) [0, 1, 2] rfl rfl, rfl, by decide⟩⟩

theorem witness_SystemForms :
    (∃ s x, Fires s x .always (trigger x) ∧ x.t.isOldest x.b = true) ∧ (∃ s x, Fires s x .always [0])
    ∧ (∃ s x, ∃ w : Option WLoc, ∃ ps : List Piece, Fires s x .always [0, 1, 2] ∧ x.e.a = some (.narrow 0x33F) ∧ x.e.b = some (.narrow 0x10000)
      ∧ x.e.c = some (.narrow 0x11) ∧ (0x33F : W64) &&& ~~~(0x33F : W64) = 0 ∧ NamesWord s x 0x11 w ∧ Reaches s x .load 0x10000 64 ps)
    ∧ (∃ s x, Fires s x .always [0, 1, 2] ∧ x.e.a = some (.narrow 0x4000) ∧ x.e.b = some (.narrow 0x10001) ∧ x.e.c = some (.narrow 0)
      ∧ (0x4000 : W64) &&& ~~~(0x3FFF : W64) ≠ 0 ∧ (0x10001 : W64).toNat % 64 ≠ 0)
    ∧ ∃ s x, ∃ w : Option WLoc, ∃ ps : List Piece, Fires s x .always [0, 1] ∧ x.e.a = some (.narrow 0x10000) ∧ x.e.b = some (.narrow 0x10010)
      ∧ NamesWord s x 0x10010 w ∧ Reaches s x .store 0x10000 1 ps :=
  ⟨⟨_, _, ⟨ready_probe 0 none none none _ (by decide), by decide⟩, by decide⟩, ⟨_, _, fires_mem State.reset (nar 1) none none [0] rfl rfl⟩,
   ⟨firing (mapped 0 0x10000) (thread (blk (ent 0 (nar 0x33F) (nar 0x10000) (nar 0x11)))), siteOf (ent 0 (nar 0x33F) (nar 0x10000) (nar 0x11)),
    some (.pool 16 0x11), [⟨0x10000, 16, leaf 0⟩, ⟨0x10010, 16, leaf 0⟩, ⟨0x10020, 16, leaf 0⟩, ⟨0x10030, 16, leaf 0⟩], ⟨⟨rfl, rfl, rfl⟩, rfl⟩,
    rfl, rfl, rfl, by decide, ⟨group, rfl, by decide +kernel, by decide +kernel⟩, ⟨by decide +kernel, by decide +kernel, by decide +kernel⟩⟩,
   ⟨_, _, fires_mem State.reset (nar 0x4000) (nar 0x10001) (nar 0) [0, 1, 2] rfl rfl, rfl, rfl, rfl, by decide, by decide⟩,
   ⟨firing (mapped 0 0x10000) (thread (blk (ent 0 (nar 0x10000) (nar 0x10010) none))), siteOf (ent 0 (nar 0x10000) (nar 0x10010) none),
    some (.mem 0 0x10010 0 0x10010), [⟨0x10000, 1, leaf 0⟩], ⟨⟨rfl, rfl, rfl⟩, rfl⟩, rfl, rfl,
    ⟨by decide, .mem 0 0x10010 0 0x10010, [⟨0x10010, 16, leaf 0⟩], ⟨by decide +kernel, by decide +kernel, by decide +kernel⟩, rfl⟩, ⟨by decide +kernel, by decide +kernel, by decide +kernel⟩⟩⟩

/-! ### Witnesses: events of threads -/

def withThread (t : Thread) : State := { State.reset with thr := [(0, t)], grp := [(0, group)] }
/-- The image of block clip (Table 3-6). -/
def clip : List W64 :=
  [0xB708208000000000, 0x200, 0, 0, 0, 0, 0, 0, 0x0480104002402040, 0x200,
   0x3041822050000000, 0x0102038100000000, 0x3502800000000000, 0x0504000000000008, 0x050800000800000A]
def fetching : Block := (Thread.launch 16 0 0).newFrame 0x10000
def inMap (image : List W64) : Block := { fetching with state := .map, image := image }
/-- A block in FIRE in which nothing is left to fire. -/
def empty : Block := { blk (ent 0 none none none) with entries := [] }
/-- A complete block whose exit leads to 0x20000. -/
def complete (resident : Bool) : Block :=
  { empty with state := .complete, resident := resident, writes := [⟨1, some (.narrow 5), false⟩], exit := some ⟨0, 0x20000, false⟩, image := [0] }
/-- An iteration of a resident block whose self-exit has fired. -/
def iterating : Block := { empty with resident := true, addr := 0x10000, exit := some ⟨0, 0x10000, false⟩ }
/-- A block that reads g1. -/
def reading : Block := { empty with reads := [⟨1, .slot 0, .none, false⟩] }

/-- A leaf of an uncached page of image 2. -/
def tagged : Leaf := { leaf 3 with img := 2 }

/-- Has a step a next state? -/
def runs (o : Out) : Bool := match o with | .next _ => true | .fault _ => false | .refused _ => false

theorem witness_FrameEvents :
    (∃ s t a red sh, tget (State.thr s) 0 = some t ∧ (∀ y ∈ t.blocks ++ t.shadow.toList, y.fetching a = false) ∧ t.wanted = some (a, red, sh)
      ∧ s.groupStarted t.gid = true ∧ (s.grid (blockGrid 0 t (t.newFrame a))).dbg.frozen = false ∧ (sh = true ∨ s.frameFree 0 t (blockGrid 0 t (t.newFrame a)) = true))
    ∧ (∃ s t b ps l, tget (State.thr s) 0 = some t ∧ b ∈ t.blocks ∧ b.fetching b.addr = true
      ∧ (∀ y ∈ t.blocks ++ t.shadow.toList, y.fetching b.addr = true → y = b)
      ∧ s.translate (t.who 0 (blockGrid 0 t b)) .fetch b.addr 64 = .ok (ps.take 4)
      ∧ ((∀ p ∈ ps.take 4, ∀ k ∈ p.keys, s.stale 0 k s.ns9 = false) ∧ s.gates 0 false none (s.codeLines (ps.take 4)) = .go)
      ∧ s.codeBytes 0 b.addr (ps.take 4) = .bytes (l.take 64) ∧ t.wrongImage b.addr (ps.take 4) = false
      ∧ s.translate (t.who 0 (blockGrid 0 t b)) .fetch b.addr (imageBytes ((words64 (l.take 64)).getD 0 0)) = .ok ps
      ∧ ((∀ p ∈ ps, ∀ k ∈ p.keys, s.stale 0 k s.ns9 = false) ∧ s.gates 0 false none (s.codeLines ps) = .go)
      ∧ s.codeBytes 0 b.addr ps = .bytes l)
    ∧ (∃ (s : State) (t : Thread) (b : Block) (ps : List Piece) (l : List Byte), tget s.thr 0 = some t ∧ b ∈ t.blocks ∧ b.fetching b.addr = true
      ∧ s.translate (t.who 0 (blockGrid 0 t b)) .fetch b.addr 64 = .ok (ps.take 4)
      ∧ ((∀ p ∈ ps.take 4, ∀ k ∈ p.keys, s.stale 0 k s.ns9 = false) ∧ s.gates 0 false none (s.codeLines (ps.take 4)) = .go)
      ∧ s.codeBytes 0 b.addr (ps.take 4) = .bytes (l.take 64) ∧ t.wrongImage b.addr (ps.take 4) = true)
    ∧ (∃ t b f, (withThread (thread (inMap [0]))).block ⟨0, 0, 0⟩ = some (t, b) ∧ b.state = .map ∧ b.held = [] ∧ mapFail t.mapFor b = some f)
    ∧ (∃ t b, (withThread (thread (inMap clip))).block ⟨0, 0, 0⟩ = some (t, b) ∧ b.state = .map ∧ b.held = [] ∧ mapFail t.mapFor b = none)
    ∧ (∃ t b, (withThread (thread iterating)).block ⟨0, 0, 0⟩ = some (t, b) ∧ t.mayIterate b = true)
    ∧ (∃ t b t' y, (withThread (thread reading)).block ⟨0, 0, 0⟩ = some (t, b) ∧ t.mayIterate b = false ∧ b.state = .fire
      ∧ ((withThread (thread reading)).takeReads ⟨0, 0, 0⟩).block ⟨0, 0, 0⟩ = some (t', y) ∧ y.reads ≠ b.reads)
    ∧ ∃ t b, (withThread (thread empty)).block ⟨0, 0, 0⟩ = some (t, b) ∧ b.quiet = true :=
  ⟨⟨withThread { Thread.launch 16 0 0 with pc := 0x10000 }, _, 0x10000, true, false, rfl, by decide +kernel, by decide +kernel, rfl, rfl, .inr (by decide +kernel)⟩,
   ⟨{ mapped 3 0x10000 with thr := [(0, thread fetching)], grp := [(0, group)] }, thread fetching, fetching,
    [⟨0x10000, 16, leaf 3⟩, ⟨0x10010, 16, leaf 3⟩, ⟨0x10020, 16, leaf 3⟩, ⟨0x10030, 16, leaf 3⟩], List.replicate 64 0, rfl, .head _, by decide +kernel,
    fun y hy _ => by simpa [thread, Thread.launch] using hy, by decide +kernel,
    ⟨by decide +kernel, go_of (by decide +kernel)⟩, by rfl, by decide +kernel, by decide +kernel, ⟨by decide +kernel, go_of (by decide +kernel)⟩, by rfl⟩,
   ⟨{ State.reset with grids := [(0, { Grid.reset with tlb := [⟨0, 0x10, 12, 0, 0x10000, tagged⟩] })]
                       thr := [(0, { thread fetching with first := some (0x10000, 1) })], grp := [(0, group)] }, _, fetching,
    [⟨0x10000, 16, tagged⟩, ⟨0x10010, 16, tagged⟩, ⟨0x10020, 16, tagged⟩, ⟨0x10030, 16, tagged⟩], List.replicate 64 0, rfl, .head _, by decide +kernel,
    by decide +kernel, ⟨by decide +kernel, go_of (by decide +kernel)⟩, by rfl, by decide +kernel⟩,
   ⟨_, _, _, rfl, rfl, rfl, rfl⟩, ⟨_, _, rfl, rfl, rfl, by decide +kernel⟩, ⟨_, _, rfl, by decide +kernel⟩,
   ⟨_, _, _, _, rfl, by decide +kernel, rfl, rfl, by decide +kernel⟩, ⟨_, _, rfl, by decide +kernel⟩⟩

theorem witness_CommitEvents :
    (∃ t b l x, tget (withThread (thread (complete false))).thr 0 = some t ∧ t.blocks = b :: l ∧ b.exit = some x
      ∧ (withThread (thread (complete false))).mayCommit 0 t b = true ∧ b.resident = false)
    ∧ (∃ t b l x, tget (withThread (thread (complete true))).thr 0 = some t ∧ t.blocks = b :: l ∧ b.exit = some x
      ∧ (withThread (thread (complete true))).mayCommit 0 t b = true ∧ b.resident = true)
    ∧ (∃ t, tget (withThread (thread (complete false))).thr 0 = some t ∧ ∃ w ∈ (complete false).writes, w.tok = some (.narrow 5) ∧ 1 ≤ w.reg.toNat
      ∧ w.reg.toNat < 24 ∧ t.regs.g.length = 24 ∧ ∀ y ∈ (complete false).writes, y.reg = w.reg → y = w)
    ∧ ∃ t x, tget (withThread { thread empty with tail := [⟨5, 0, 0, 0, (thread empty).sender 0, .fence .full .slot⟩] }).thr 0 = some t ∧ t.tail ≠ []
      ∧ (withThread { thread empty with tail := [⟨5, 0, 0, 0, (thread empty).sender 0, .fence .full .slot⟩] }).nextItem 0 t = some x :=
  ⟨⟨_, _, _, _, rfl, rfl, rfl, by decide +kernel, rfl⟩, ⟨_, _, _, _, rfl, rfl, rfl, by decide +kernel, rfl⟩,
   ⟨_, rfl, _, .head _, rfl, by decide, by decide, rfl, by decide⟩, ⟨_, _, rfl, by decide, by rfl⟩⟩

theorem next_of_runs {o : Out} (h : runs o = true) : ∃ n, o = .next n := by
  cases o with
  | next n => exact ⟨n, rfl⟩
  | fault _ => cases h
  | refused _ => cases h

theorem witness_CommitFrame :
    ∃ t b l, tget (withThread (thread (complete false))).thr 0 = some t ∧ t.blocks = b :: l
      ∧ (∃ n, exec (.blockCommit 0) (withThread (thread (complete false))) = .next n)
      ∧ (b.writes.filter fun y => y.reg == (1 : BitVec 7)) = [⟨1, some (.narrow 5), false⟩] ∧ t.regs.g.length = 24 ∧ b.effs = [] :=
  ⟨_, _, _, rfl, rfl, next_of_runs (by decide +kernel), by decide +kernel, by decide, rfl⟩

/-- A block that holds a failure. -/
def failing : Block := { empty with held := [⟨.fire, 0, ⟨.align, 3, 0⟩⟩] }

theorem witness_TrapEntryAndReturn :
    (∃ t b l x, tget (withThread (thread failing)).thr 0 = some t ∧ (withThread (thread failing)).frozenFor 0 t = false
      ∧ t.saving = false ∧ t.boundary = false ∧ t.blocks = b :: l ∧ (withThread (thread failing)).blockFault 0 t b = some x)
    ∧ (∃ t x pc, tget (withThread { thread empty with boundary := true, postTrap := some (⟨.trap, 1, 0⟩, 0x40) }).thr 0 = some t
      ∧ (withThread { thread empty with boundary := true, postTrap := some (⟨.trap, 1, 0⟩, 0x40) }).frozenFor 0 t = false ∧ t.saving = false ∧ t.boundary = true ∧ t.postTrap = some (x, pc))
    ∧ ∃ t x, tget (withThread { thread empty with boundary := true, latPoison := ⟨true, 5, false⟩ }).thr 0 = some t
      ∧ (withThread { thread empty with boundary := true, latPoison := ⟨true, 5, false⟩ }).frozenFor 0 t = false ∧ t.saving = false ∧ t.boundary = true ∧ t.postTrap = none ∧ t.asyncTrap = some x :=
  ⟨⟨_, _, _, _, rfl, by decide +kernel, rfl, rfl, rfl, rfl⟩, ⟨_, _, _, rfl, by decide +kernel, rfl, rfl, rfl⟩, ⟨_, _, rfl, by decide +kernel, rfl, rfl, rfl, rfl⟩⟩

theorem witness_SystemRegisters :
    SysRegs.launch.perf.length = 16 ∧ SysRegs.launch.dbg.length = 24 ∧ 0x030 ≤ 0x030 ∧ 0x03F ≤ 0x03F ∧ 0x047 ≤ 0x047 ∧ 0x04F ≤ 0x04F
      ∧ 0x057 ≤ 0x057 ∧ 0x057 < 0x058
      ∧ 0x058 ≤ 0x058 ∧ 0x05F ≤ 0x05F ∧ (0x2000 : W64).getLsbD 13 = true := by decide

theorem witness_BoundaryEvents :
    (∃ t m rest, tget (withThread { thread empty with boundary := true, msgs := [⟨0x40, 1, 2, 3⟩] }).thr 0 = some t ∧ t.msgs = m :: rest
      ∧ t.boundary = true ∧ t.sys.handler = false ∧ t.postTrap = none ∧ t.asyncTrap = none ∧ t.saving = false ∧ t.ending = false
      ∧ (withThread { thread empty with boundary := true, msgs := [⟨0x40, 1, 2, 3⟩] }).frozenFor 0 t = false ∧ t.regs.g.length = 24 ∧ (∀ y ∈ t.regWait, y.1 ≠ 1 ∧ y.1 ≠ 2))
    ∧ ∃ t e, tget (withThread { thread empty with asleep := true, sleepUntil := some 0 }).thr 0 = some t ∧ t.asleep = true
      ∧ t.sleepUntil = some e ∧ e ≤ (withThread { thread empty with asleep := true, sleepUntil := some 0 }).ns9 :=
  ⟨⟨_, _, _, rfl, rfl, rfl, rfl, rfl, rfl, rfl, rfl, by decide +kernel, rfl, by decide⟩, ⟨_, _, rfl, rfl, rfl, by decide⟩⟩

/-! ### Witnesses: loads, buffers, atomics, the directory, the memories -/

def ld8 : Entry := { at8 with st := .waiting }
/-- A block whose load of 8 bytes at 0x10008 waits for its line. -/
def loading : Block := { blk ld8 with accs := [⟨0, 0, false, .mem, 0x10008, 8, [⟨0x10008, 8, leaf 0⟩], [], []⟩] }
def loadState : State := { mapped 0 0x10000 with thr := [(0, thread loading)], grp := [(0, group)] }
def walking (who : WalkFor) : State :=
  { firing State.reset (thread (blk at8)) with coh := { Coh.reset with walks := [⟨7, 0, 0, 0, 0, 0x10008, false, who, none⟩] } }
def ref0 : BRef := ⟨0, 0, 0⟩
def acc8 : Access := ⟨0, 0, false, .mem, 0x10008, 8, [], List.replicate 8 0, []⟩
/-- The thread watches the byte at 0x10008. -/
def watching : Thread := { thread (blk at8) with
  sys := { SysRegs.launch with dbg := [0x10008, 0x3] ++ List.replicate 22 0 } }

/-- A walk that may end now. -/
def MayWalk (s : State) (w : Walk) : Prop :=
  s.openWalks.find? (·.id == 7) = some w ∧ s.walkRuns w = true ∧ (∀ y ∈ s.openWalks, y.miss = w.miss → s.walkHeld y = false) ∧ s.walkGate w = .go

theorem witness_LoadReturnsAndOutcome :
    (∃ t b e a i h lsid len k, loadState.block ref0 = some (t, b) ∧ b.entries[0]? = some e ∧ e.st = .waiting
      ∧ b.accs.find? (fun a => a.idx == 0) = some a ∧ decode e.word = .ok i ∧ loadForm i = some (h, lsid, len, k)
      ∧ (loadState.gather ref0 0 t b lsid a.pieces).wait = false ∧ (loadState.gather ref0 0 t b lsid a.pieces).missing = []
      ∧ (loadState.gather ref0 0 t b lsid a.pieces).loose = false)
    ∧ (∃ (s : State) (w : Walk), MayWalk s w ∧ w.who = .access ref0 0) ∧ (∃ (s : State) (w : Walk), MayWalk s w ∧ w.who = .prefetch 0 ref0 0)
    ∧ (∃ (s : State) (w : Walk), MayWalk s w ∧ w.who = .engine false 0)
    ∧ (∃ (s : State) (w : Walk) (t : Thread), MayWalk s w ∧ w.who = .fetch 0 0x10000 ∧ tget s.thr 0 = some t)
    ∧ (∃ s t b, State.block s ref0 = some (t, b) ∧ s.rangeLocked (slotCluster 0) .mem t.sys.asid.toNat 0x10008 8 false = true)
    ∧ (∃ s t b v, State.block s ref0 = some (t, b) ∧ s.rangeLocked (slotCluster 0) .mem t.sys.asid.toNat 0x10008 8 false = false
      ∧ t.watch b true false 0x10008 8 = some v)
    ∧ ∃ s t b, State.block s ref0 = some (t, b) ∧ s.rangeLocked (slotCluster 0) .mem t.sys.asid.toNat 0x10008 8 false = false
      ∧ t.watch b true false 0x10008 8 = none :=
  ⟨⟨_, _, _, _, _, _, _, _, _, rfl, rfl, rfl, rfl, by rfl, rfl, by decide +kernel, by decide +kernel, by decide +kernel⟩,
   ⟨walking (.access ref0 0), _, ⟨rfl, by decide +kernel, by decide +kernel, go_of (by decide +kernel)⟩, rfl⟩,
   ⟨walking (.prefetch 0 ref0 0), _, ⟨rfl, by decide +kernel, by decide +kernel, go_of (by decide +kernel)⟩, rfl⟩,
   ⟨walking (.engine false 0), _, ⟨rfl, by decide +kernel, by decide +kernel, go_of (by decide +kernel)⟩, rfl⟩,
   ⟨walking (.fetch 0 0x10000), _, _, ⟨rfl, by decide +kernel, by decide +kernel, go_of (by decide +kernel)⟩, rfl, rfl⟩,
   ⟨{ probe at8 with cls := [(0, { Cluster.reset with chuck := [⟨3, .mem, 0, 0, 0x10000, 0x100, true⟩] })] }, _, _, rfl, by decide +kernel⟩,
   ⟨firing State.reset watching, _, _, 0x10008, rfl, by decide +kernel, by decide +kernel⟩,
   ⟨probe at8, _, _, rfl, by decide +kernel, by decide +kernel⟩⟩

/-- A drain unit of one piece of 8 bytes. -/
def unit8 (op : DrainOp) (pa : Nat) : Machine.Unit := ⟨1, 0, 0, 0, op, .plain, 0x10008, 0, [⟨pa, 8, leaf 0⟩], [1, 2, 3, 4, 5, 6, 7, 8]⟩
/-- A store of 8 bytes of which four lie in each of two lines. -/
def straddling : Machine.Unit := ⟨1, 0, 0, 0, .store, .plain, 0x1007C, 0, [⟨0x1007C, 4, leaf 0⟩, ⟨0x10080, 4, leaf 0⟩], [1, 2, 3, 4, 5, 6, 7, 8]⟩
def buffered (op : DrainOp) : State := { State.reset with grids := [(0, { Grid.reset with sb := [unit8 op 0x10008] })] }
def inFlight (pa : Nat) (done : Bool) : State :=
  { probe at8 with coh := { Coh.reset with flying := [⟨unit8 (.atomic .w64 .add 5) pa, 0, done, 9, false⟩] } }

theorem witness_DrainEvents :
    (∃ u rest, ((buffered (.atomic .w64 .add 5)).grid 0).sb = u :: rest ∧ (buffered (.atomic .w64 .add 5)).unitHeld 0 u = false
      ∧ u.op.isAtomic = true)
    ∧ (∃ u rest, ((buffered .store).grid 0).sb = u :: rest ∧ (buffered .store).unitHeld 0 u = false ∧ u.op.isAtomic = false
      ∧ (∀ k ∈ u.lines, (buffered .store).refuses (gridCluster 0) k.1 = false)
      ∧ (buffered .store).wordBusy u = false ∧ (u.part 0 0).2 = none ∧ (buffered .store).unitGate (gridDie 0) (u.part 0 0).1 = .go
      ∧ (((buffered .store).modGrid 0 fun x => { x with sb := rest }).drainUnit 0 (u.part 0 0).1).asked (· == ReqWho.unit u.uid) = false)
    ∧ (∃ s u v rest, (State.grid s 0).sb = u :: rest ∧ s.unitHeld 0 u = false ∧ u.op.isAtomic = false
      ∧ (∀ k ∈ u.lines, s.refuses (gridCluster 0) k.1 = false) ∧ s.wordBusy u = false ∧ (u.part s.dev s.clk).2 = some v ∧ v.pieces ≠ []
      ∧ s.unitGate (gridDie 0) (u.part s.dev s.clk).1 = .go)
    ∧ (∃ f p ps, (inFlight 0x10008 false).coh.flying.find? (fun f => f.u.uid == 1 && f.u.op.isAtomic && !f.performed) = some f
      ∧ (inFlight 0x10008 false).behindAtomic f.grid f.u = false ∧ f.u.pieces = p :: ps ∧ paDev p.pa = (inFlight 0x10008 false).dev
      ∧ paLa p.pa < 2 ^ 40 ∧ (inFlight 0x10008 false).biasOf (paLa p.pa / 4096) ≠ .host
      ∧ (inFlight 0x10008 false).poisoned (paLa p.pa / 128) = false
      ∧ (inFlight 0x10008 false).refuses (gridCluster f.grid) (keyOf p.pa) = false
      ∧ (inFlight 0x10008 false).lineGate (gridDie f.grid) (keyOf p.pa) true (some (.unit 1)) = .go)
    ∧ (∃ (s : State) (f : Flying) (p : Piece) (ps : List Piece), s.coh.flying.find? (fun f => f.u.uid == 1 && f.u.op.isAtomic && !f.performed) = some f
      ∧ s.behindAtomic f.grid f.u = false ∧ f.u.pieces = p :: ps ∧ paDev p.pa = s.dev ∧ paLa p.pa < 2 ^ 40
      ∧ s.poisoned (paLa p.pa / 128) = true)
    ∧ (∃ f p ps, (inFlight (2 ^ 40 + 8) false).coh.flying.find? (fun f => f.u.uid == 1 && f.u.op.isAtomic && !f.performed) = some f
      ∧ (inFlight (2 ^ 40 + 8) false).behindAtomic f.grid f.u = false ∧ f.u.pieces = p :: ps
      ∧ paDev p.pa = (inFlight (2 ^ 40 + 8) false).dev ∧ 2 ^ 40 ≤ paLa p.pa ∧ paLa p.pa < 2 ^ 41)
    ∧ (∃ f t, (inFlight 0x10008 true).coh.flying.find? (fun f => f.u.uid == 1 && f.u.op.isAtomic) = some f ∧ f.performed = true
      ∧ tget (inFlight 0x10008 true).thr f.u.slot = some t)
    ∧ (∃ w n, SyncWord.count w < 2 ^ 40 ∧ w.count + n < 2 ^ 40 ∧ w.armed = false)
    ∧ (∃ w n, SyncWord.count w < 2 ^ 40 ∧ w.count + n < 2 ^ 40 ∧ w.armed = true ∧ w.count + n < w.target)
    ∧ (∃ w n, SyncWord.count w < 2 ^ 40 ∧ w.count + n < 2 ^ 40 ∧ w.armed = true ∧ w.count + n = w.target)
    ∧ (∃ w n, SyncWord.count w < 2 ^ 40 ∧ w.count + n < 2 ^ 40 ∧ w.armed = true ∧ w.target < w.count + n)
    ∧ (∃ w n, SyncWord.count w < 2 ^ 40 ∧ 2 ^ 40 ≤ w.count + n ∧ w.armed = false)
    ∧ (∃ w n, SyncWord.count w < 2 ^ 40 ∧ 2 ^ 40 ≤ w.count + n ∧ w.armed = true ∧ w.target < 2 ^ 40)
    ∧ ∃ b c : W64, b.getLsbD 63 = false ∧ c.getLsbD 63 = true :=
  ⟨⟨_, _, rfl, by decide +kernel, rfl⟩,
   ⟨_, _, rfl, by decide +kernel, rfl, by decide +kernel, by decide +kernel, by rfl, go_of (by decide +kernel), by decide +kernel⟩,
   ⟨{ State.reset with grids := [(0, { Grid.reset with sb := [straddling] })] }, straddling, _, [], rfl, by decide +kernel, rfl, by decide +kernel,
    by decide +kernel, by rfl, by decide, go_of (by decide +kernel)⟩,
   ⟨_, _, _, rfl, by decide +kernel, rfl, by decide +kernel, by decide +kernel, by decide +kernel, by decide +kernel, by decide +kernel,
    go_of (by decide +kernel)⟩,
   ⟨let s := inFlight 0x10008 false; { s with coh := { s.coh with poisonLines := [512] } }, _, _, _, rfl, by decide +kernel, rfl, by decide +kernel,
    by decide +kernel, by decide +kernel⟩,
   ⟨_, _, _, rfl, by decide +kernel, rfl, by decide +kernel, by decide +kernel, by decide +kernel⟩,
   ⟨_, _, rfl, rfl, rfl⟩,
   ⟨⟨0, false, false, false, false, 0, 0, 0, 0⟩, 2, by decide +kernel⟩, ⟨⟨0, false, false, false, true, 0, 0, 3, 0⟩, 2, by decide +kernel⟩,
   ⟨⟨0, false, false, false, true, 0, 0, 2, 0⟩, 2, by decide +kernel⟩, ⟨⟨0, false, false, false, true, 0, 0, 1, 0⟩, 2, by decide +kernel⟩,
   ⟨⟨0, false, false, false, false, 0, 0, 0, 1099511627775⟩, 1, by decide +kernel⟩,
   ⟨⟨0, false, false, false, true, 0, 0, 1099511627775, 1099511627775⟩, 1, by decide +kernel⟩, ⟨1, 0x8000000000000000, rfl, rfl⟩⟩

theorem gate_acts {g : Gate} (h : gateKind g = 2) : ∃ m, g = .act m := by
  cases g with
  | go => cases h
  | wait => cases h
  | act m => exact ⟨m, rfl⟩
def tried (r : Tried α) (p : α → Bool) : Bool := match r with | .done _ a => p a | _ => false
theorem done_with {r : Tried α} {p : α → Bool} (h : tried r p = true) : ∃ m a, r = .done m a ∧ p a = true := by
  cases r with
  | done m a => exact ⟨m, a, rfl, h⟩
  | wait => cases h
  | act _ => cases h
theorem done_eq [DecidableEq α] {r : Tried α} {v : α} (h : tried r (fun a => decide (a = v)) = true) : ∃ m, r = .done m v := by
  obtain ⟨m, a, rfl, ha⟩ := done_with h
  exact ⟨m, by rw [of_decide_eq_true ha]⟩

def key0 : Nat := 512
def asked (keep : Bool) : Fill := ⟨0, key0, 0, 0, keep, none, [.hint 0], 0, none, false, false⟩
def withCoh (c : Coh) : State := { State.reset with coh := c }
def dirOf (l : List Nat) : State := withCoh { Coh.reset with dir := [(key0, ⟨l, 3, 0⟩)] }
def awaited (w : Await) : State := withCoh { Coh.reset with awaits := [w] }

theorem witness_DirectoryEvents :
    (∃ (s : State) (f : Fill), s.openFill 0 key0 = some f ∧ (∀ g ∈ s.coh.grants, (g.cl == 0 && g.line == key0) = false) ∧ lineDev key0 = s.dev
      ∧ lineLa key0 < 2 ^ 40 ∧ (s.die (homeDie (128 * (lineLa key0 / 128)))).agent 0 ≠ 2 ∧ s.gate (lineLa key0 / 128) false (some (.fill 0 key0)) = .go
      ∧ s.lineLoad (lineLa key0 / 128) < 127 ∧ s.poisoned (lineLa key0 / 128) = false ∧ s.biasOf (lineLa key0 / 128 / 32) ≠ .host)
    ∧ (∃ s : State, key0 < 2 ^ 33 ∧ s.lineGate (homeDie (128 * key0)) (s.ownKey key0) true none = .go)
    ∧ (∃ (s : State) (e : DirEnt), tget s.coh.dir key0 = some e ∧ (∀ g ∈ s.coh.grants, (g.line == s.ownKey key0) = false) ∧ e.sharers ≠ [] ∧ s.probeGate key0 = .go)
    ∧ (∃ (s : State) (e : DirEnt), tget s.coh.dir key0 = some e ∧ (∀ g ∈ s.coh.grants, (g.line == s.ownKey key0) = false) ∧ e.sharers ≠ []
      ∧ ∃ m, s.probeGate key0 = .act m)
    ∧ (∃ s : State, (s.cl 0).power = .retention)
    ∧ (∃ (s : State) (e : DirEnt), tget s.coh.dir key0 = some e ∧ (∀ g ∈ s.coh.grants, (g.line == s.ownKey key0) = false) ∧ e.sharers = []
      ∧ e.unacked = 0)
    ∧ (∃ (s : State) (g : Grant), s.coh.grants.find? (fun g => g.cl == 0 && g.line == key0) = some g)
    ∧ (∃ s : State, (s.die (homeDie (128 * key0))).agent 0 = 2)
    ∧ (∃ s : State, (s.die (homeDie (128 * key0))).agent 0 ≠ 2 ∧ s.awaiting 0 key0 = true)
    ∧ (∃ (s : State) (w : Await), w ∈ s.coh.awaits ∧ w.die = 0 ∧ w.agent = 0 ∧ w.sent + w.limit ≤ s.ns9)
    ∧ ∃ (s : State) (r : Req), s.coh.reqs.find? (·.id == 1) = some r ∧ r.issued + 450000 ≤ s.ns9 :=
  ⟨⟨withCoh { Coh.reset with fills := [asked true] }, _, rfl, by decide +kernel, by decide +kernel, by decide +kernel, by decide +kernel,
    go_of (by decide +kernel), by decide +kernel, by decide +kernel, by decide +kernel⟩,
   ⟨State.reset, by decide +kernel, go_of (by decide +kernel)⟩,
   ⟨dirOf [0, 1], _, rfl, by decide +kernel, by decide, go_of (by decide +kernel)⟩,
   ⟨dirOf (List.range 200 |>.map (128 + ·)), _, rfl, by decide +kernel, by decide, gate_acts (by decide +kernel)⟩,
   ⟨{ State.reset with cls := [(0, { Cluster.reset with power := .retention })] }, rfl⟩, ⟨dirOf [], _, rfl, by decide +kernel, rfl, rfl⟩,
   ⟨withCoh { Coh.reset with grants := [⟨0, key0, 3, 0, false⟩] }, _, rfl⟩,
   ⟨{ State.reset with dies := (List.range 4).map fun d => (d, { Die.reset with agents := [(0, 2)] }) }, by decide +kernel⟩,
   ⟨awaited ⟨0, 0, key0, 3, 0, 90⟩, by decide +kernel, by decide +kernel⟩,
   ⟨{ awaited ⟨0, 0, key0, 3, 0, 90⟩ with time := 100 }, _, .head _, rfl, rfl, by decide +kernel⟩,
   ⟨{ withCoh { Coh.reset with reqs := [⟨1, 0, 0, .unit 4, 0, 0, none⟩] } with time := 90000 }, _, rfl, by decide +kernel⟩⟩

theorem witness_MemoryLaws :
    (∃ m : Memory, m.wf = true ∧ rd1 m 7 = 9)
    ∧ ∃ (s : State) (l : List Byte), s.MemInv ∧ s.Clean ∧ 0x78 % 128 + l.length ≤ 128 ∧ 0x78 + l.length ≤ 2 ^ 40 ∧ l ≠ [] ∧ s.poisoned (0x78 / 128) = false :=
  ⟨⟨[(7, 9)], by decide, by decide⟩, State.reset, [1, 2, 3, 4, 5, 6, 7, 8], ⟨rfl, rfl, rfl, .nil⟩,
    fun _ _ h => by simp [State.reset, Coh.reset, tget] at h, by decide, by decide, by decide, rfl⟩

def tileHandle : Handle := ⟨0, 0, 0, .f32, false, 0⟩
/-- ACCZ of handle 0 in context 0. -/
def accz : MCmd := ⟨1, 1, 0, 0, .accz hd 0 0, 0, 0, 0, none, tileHandle, none, false, false, none, none, none, 0, false, 0, 0⟩
def matrixState (c : MCmd) (g : Table Group) : State :=
  { firing State.reset (thread (blk at8)) with grids := [(0, { Grid.reset with mx := [[c], [], [], []] })], grp := g }
/-- A block whose only entry, with the word w, waits. -/
def waitsOn (w : W64) (a : Option Token) (m : List MRec) (c : List CRec) : Thread :=
  { thread (blk { ent w a none none with st := .waiting }) with mrecs := m, crecs := c, regs := { (thread (blk at8)).regs with h := some tileHandle :: List.replicate 7 none } }

theorem witness_MatrixCommandsAndWaits :
    (∃ c g, (matrixState accz [(0, group)]).mxHead 0 0 = some c ∧ c.started = false ∧ (matrixState accz [(0, group)]).group c.gid = some g
      ∧ (∀ d ∈ (matrixState accz [(0, group)]).allMx, (decide (d.order < c.order) && d.overlaps c g && (mxWrites c.ins || mxWrites d.ins)) = false)
      ∧ (matrixState accz [(0, group)]).storesPending c.slot c.order = false)
    ∧ (∃ (s : State) (c : MCmd), s.mxHead 0 0 = some c ∧ c.started = true ∧ c.fslot = none ∧ s.group c.gid = none)
    ∧ (∃ (s : State) (c : MCmd) (g : Group) (m : State) (w : Option WLoc) (n n' : State) (f fl : Flags), s.mxHead 0 0 = some c ∧ c.started = true ∧ c.fslot = none
      ∧ s.group c.gid = some g ∧ s.engWord c.who g c.handle.sync = .done m w ∧ c.quit = false ∧ c.landing = none ∧ m.matrixTry c true = .done n f
      ∧ m.matrixTry c false = .done n' fl ∧ n'.engLanding c.id = false)
    ∧ (∃ (s : State) (c : MCmd) (g : Group) (m : State) (w : Option WLoc) (fl : Flags), s.mxHead 0 0 = some c ∧ c.started = true ∧ c.fslot = none
      ∧ s.group c.gid = some g ∧ s.engWord c.who g c.handle.sync = .done m w ∧ c.quit = false ∧ c.landing = some fl ∧ m.engLanding c.id = false)
    ∧ (∃ (s : State) (c : MCmd) (g : Group) (m : State) (w : Option WLoc), s.mxHead 0 0 = some c ∧ c.started = true ∧ c.fslot = none
      ∧ s.group c.gid = some g ∧ s.engWord c.who g c.handle.sync = .done m w ∧ c.quit = true)
    ∧ (∃ (s : State) (c : MCmd) (g : Group) (m : State) (w : Option WLoc) (n : State) (code : Nat) (k : Cause) (v : W64), s.mxHead 0 0 = some c ∧ c.started = true
      ∧ c.fslot = none ∧ s.group c.gid = some g ∧ s.engWord c.who g c.handle.sync = .done m w ∧ c.quit = false ∧ c.landing = none ∧ m.matrixTry c true = .err n code k v)
    ∧ (∃ (s : State) (t : Thread) (b : Block) (e : Entry) (all : Bool) (h : Hdr) (ctx : BitVec 2), s.block ref0 = some (t, b) ∧ b.entries[0]? = some e
      ∧ e.st = .waiting ∧ t.isOldest b = true ∧ decode e.word = .ok (.mwait all h ctx) ∧ ∀ q ∈ t.mcovered all ctx, q.done = true)
    ∧ (∃ (s : State) (t : Thread) (b : Block) (e : Entry) (h : Hdr), s.block ref0 = some (t, b) ∧ b.entries[0]? = some e
      ∧ e.st = .waiting ∧ t.isOldest b = true ∧ decode e.word = .ok (.cwait h) ∧ ∀ q ∈ t.crecs, q.done = true)
    ∧ ∃ (s : State) (t : Thread) (b : Block) (e : Entry) (h : Hdr) (acc : BitVec 3) (hd : Handle) (g : Group), s.block ref0 = some (t, b)
      ∧ b.entries[0]? = some e ∧ e.st = .waiting ∧ t.isOldest b = true ∧ decode e.word = .ok (.accrd h acc)
      ∧ handleView t b 0 acc = some hd ∧ s.group t.gid = some g ∧ (∀ c ∈ s.allMx, c.gid ≠ t.gid)
      ∧ (e.a.getD .null).word.toNat % 65536 < hd.tileRows ∧ bitsOf (e.a.getD .null).word.toNat 31 16 < hd.tileCols :=
  ⟨⟨_, _, rfl, rfl, rfl, by decide +kernel, by decide +kernel⟩,
   ⟨matrixState { accz with started := true } [], _, rfl, rfl, rfl, rfl⟩,
   ⟨matrixState { accz with started := true } [(0, group)], _, _, _, _, _, _, _, _, rfl, rfl, rfl, rfl, rfl, rfl, rfl, rfl, rfl, by decide +kernel⟩,
   ⟨matrixState { accz with started := true, landing := some 0 } [(0, group)], _, _, _, _, _, rfl, rfl, rfl, rfl, rfl, rfl, rfl, by rfl⟩,
   ⟨matrixState { accz with started := true, quit := true } [(0, group)], _, _, _, _, rfl, rfl, rfl, rfl, rfl, rfl⟩,
   ⟨matrixState { accz with started := true, ins := .accld true hd 0 0, a := 0x10000 } [(0, group)], _, _, _, _, _, _, _, _, rfl, rfl, rfl, rfl, by rfl, rfl, rfl, by rfl⟩,
   ⟨withThread (waitsOn 0xA902800000000000 none [⟨1, 0, true, 0, 0⟩] []), _, _, _, _, _, _, rfl, rfl, rfl, by decide +kernel, by rfl, by decide +kernel⟩,
   ⟨withThread (waitsOn 0xB702800000000000 none [] [⟨1, true, 0, 0⟩]), _, _, _, _, rfl, rfl, rfl, by decide +kernel, by rfl, by decide +kernel⟩,
   ⟨withThread (waitsOn 0xA702800000000000 (nar 0) [] []), _, _, _, _, _, _, _, rfl, rfl, rfl, by decide +kernel, by rfl, by rfl, by rfl, by decide +kernel, by decide +kernel, by decide +kernel⟩⟩

/-- A GATHER of one row within the scratchpad, with the 32-bit index list at 0x200. -/
def gather : CopyCmd := ⟨1, 1, 0, 0, .gather false true, 0, 0x10000000200, 0x10001, .queued, none, none, 0, false, 0, 0⟩
def offer : CopyCmd := { gather with op := .offer true (.byCount 1), a := 0x1000, b := 0, c := 16, st := .running }
/-- A COPY from memory that no page maps. -/
def faulting (f : Option Nat) : CopyCmd := { gather with op := .copy .mm 0, a := 0x10000, b := 0x20000, c := 16, st := .running, fslot := f }
/-- The walk that the command asked for, which found no page. -/
def unmapped : Walk := ⟨7, 0, 0, 0, 0, 0x10000, false, .engine false 0, some (1, false)⟩
def copyState (c : CopyCmd) (l : List (Nat × BitVec 512)) (d : Die) : State :=
  { probe at8 with cls := [(0, { Cluster.reset with copyQ := [c] })], dies := [(0, { d with handlers := l })] }
/-- One element of 16 bytes of the scratchpad. -/
def points : Pattern := ⟨0x10000, 0x100, 0, 0x11, [(16, 1)], none⟩
def streaming : Thread := { thread (blk at8) with
  inp := [{ InPort.reset with pat := some points }], outp := [{ OutPort.reset with out := [(points, 0, 7)] }] }

theorem witness_CopyAndStreamEvents :
    (∃ (s : State) (c : CopyCmd), (s.cl 0).cmd 1 = some c ∧ c.st = .queued ∧ (∀ x ∈ (s.cl 0).copyQ.takeWhile (·.id != 1), x.st ≠ .queued)
      ∧ ((s.cl 0).copyQ.filter fun x => x.st.runs).length < 4 ∧ s.storesPending c.slot c.order = false)
    ∧ (∃ (s : State) (c : CopyCmd), (s.cl 0).cmd 1 = some c ∧ c.st = .queued ∧ (∃ a b, c.op = .offer a b) ∧ s.offerWaits c = false)
    ∧ (∃ (s : State) (c : CopyCmd) (k code : Nat), (s.cl 0).cmd 1 = some c ∧ c.st = .landing k code ∧ s.engLanding 1 = false)
    ∧ (∃ (s : State) (c : CopyCmd) (m : State) (q : Nat × Nat × List Byte) (n : State) (k code : Nat) (tile : List Byte),
      (s.cl 0).cmd 1 = some c ∧ c.st = .running ∧ c.fslot = none ∧ s.copyTry 0 c true none = .done m q
      ∧ s.copyTry 0 c false none = .done n (k, code, tile) ∧ (∀ a b, c.op ≠ .offer a b) ∧ n.engLanding c.id = false)
    ∧ (∃ (s : State) (c : CopyCmd) (m : State) (q : Nat × Nat × List Byte) (n : State) (k code : Nat) (tile : List Byte) (sp : Bool) (ret : Retention),
      (s.cl 0).cmd 1 = some c ∧ c.st = .running ∧ c.fslot = none ∧ s.copyTry 0 c true none = .done m q
      ∧ s.copyTry 0 c false none = .done n (k, code, tile) ∧ c.op = .offer sp ret)
    ∧ (∃ (s : State) (c : CopyCmd) (va : W64) (m : State) (q : Nat × Nat × List Byte) (n : State) (k code : Nat) (tile : List Byte),
      (s.cl 0).cmd 1 = some c ∧ c.st = .quitting va false ∧ (∀ a b, c.op ≠ .offer a b) ∧ s.copyTry 0 c true (some ⟨va, false⟩) = .done m q
      ∧ s.copyTry 0 c false (some ⟨va, false⟩) = .done n (k, code, tile) ∧ n.engLanding c.id = false)
    ∧ (∃ (s : State) (t : Thread) (pat : Pattern) (m n : State) (k l : List Byte), tget s.thr 0 = some t ∧ (t.inPort 0).pat = some pat
      ∧ (t.inPort 0).stopped = false ∧ (t.inPort 0).pos < pat.total ∧ (t.inPort 0).fifo.length + (t.inPort 0).taken.length < 16 ∧ (t.inPort 0).fslot = none
      ∧ s.storesPending 0 (t.inPort 0).order = false ∧ s.portRead 0 t pat (t.inPort 0).pos true = .done m k
      ∧ s.portRead 0 t pat (t.inPort 0).pos false = .done n l)
    ∧ ∃ (s : State) (t : Thread) (pat : Pattern) (i : Nat) (w : WideBits) (rest : List (Pattern × Nat × WideBits)) (m n : State) (j k : Nat), tget s.thr 0 = some t
      ∧ (t.outPort 0).out = (pat, i, w) :: rest ∧ (t.outPort 0).landing = none ∧ (t.outPort 0).fslot = none ∧ ctlSv pat.ctl = false
      ∧ s.portWrite 0 t pat i ((wideBytes w).take pat.elen) 0 true = .done m j
      ∧ s.newUid.2.portWrite 0 t pat i ((wideBytes w).take pat.elen) s.newUid.1 false = .done n k
      ∧ n.engLanding s.newUid.1 = false ∧ n.engLost s.newUid.1 = 0 :=
  ⟨⟨copyState gather [] Die.reset, _, rfl, rfl, by decide +kernel, by decide +kernel, by decide +kernel⟩,
   ⟨copyState { offer with st := .queued } [] Die.reset, _, rfl, rfl, ⟨true, .byCount 1, rfl⟩, by decide +kernel⟩,
   ⟨copyState { gather with st := .landing 4 0 } [] Die.reset, _, _, _, rfl, rfl, by decide +kernel⟩,
   ⟨copyState { gather with st := .running } [] Die.reset, _, _, _, _, _, _, _, rfl, rfl, rfl, by rfl, by rfl, fun _ _ => CopyOp.noConfusion, by rfl⟩,
   ⟨copyState offer [] Die.reset, _, _, _, _, _, _, _, _, _, rfl, rfl, rfl, by rfl, by rfl, rfl⟩,
   ⟨copyState { faulting none with st := .quitting 0x10000 false } [] Die.reset, _, _, _, _, _, _, _, _, rfl, rfl, fun _ _ => CopyOp.noConfusion, by rfl, by rfl, by rfl⟩,
   ⟨withThread streaming, _, _, _, _, _, _, rfl, rfl, rfl, by decide +kernel, by decide +kernel, rfl, by decide +kernel, by rfl, by rfl⟩,
   ⟨withThread streaming, _, _, _, _, _, _, _, _, _, rfl, rfl, rfl, rfl, by decide +kernel, by rfl, by rfl, by rfl, by rfl⟩⟩

/-- A slot of the pager that the copy command of cluster 0 holds. -/
def faultState (l : List (Nat × BitVec 512)) (d : Die) : State :=
  { copyState (faulting none) l d with coh := { Coh.reset with walks := [unmapped] }, clk := 1 }
def slot0 (gen : Nat) : Table FSlot := [(0, ⟨.copy 0 1, 0x10000, false, .pool 0 0, gen, 0, 0⟩)]
def tlbinv (bound : Option Nat) : State := withCoh { Coh.reset with tlbinvs := [⟨1, .tlbinvAll .always, 0, 0, 0, 0, 0, bound, []⟩] }
def installs (i : Instr) : State := { State.reset with installs := [⟨1, i, 0, 0, 0, ⟨0x10000, 64, leaf 0⟩, none⟩] }
def migrates (m : Migration) : State := { State.reset with dies := [(0, { Die.reset with migs := [m] })] }

/-- The VCDEF of the cache `idx` with a record of control word `ctl`, all banks and nearest bank 0 acts next. -/
def defines (idx : Nat) (r : BitVec 512) : State :=
  { State.reset with installs := [⟨1, .vcdef .always, 0, 0, idx, ⟨0x10000, 64, leaf 0⟩, none⟩], hbm := wrBytes [] 0x10000 (leBytes r.toNat 64) }
def Defines (idx : Nat) (r : BitVec 512) : Prop :=
  ∃ (s k : State) (x : Install) (pm : Pm), s.installs.find? (·.id == 1) = some x ∧ s.storesPending x.slot 1 = false ∧ x.form = .vcdef pm ∧ x.idx = idx
    ∧ s.recordRead x.die x.piece = .done k (some r) ∧ (s.die x.die).migs = [] ∧ ∀ y ∈ s.installs, y.id < 1 → y.die = x.die → ∀ p, y.form ≠ .vcdef p
/-- All 128 banks, and a control word. -/
def vcRec (ctl : W64) : BitVec 512 := BitVec.ofNat 512 (2 ^ 128 - 1 + 2 ^ 256 * ctl.toNat)
theorem defines_of (idx : Nat) (r : BitVec 512)
    (h : tried ((defines idx r).recordRead 0 ⟨0x10000, 64, leaf 0⟩) (fun a => decide (a = some r)) = true) : Defines idx r := by
  obtain ⟨m, hm⟩ := done_eq h
  exact ⟨defines idx r, m, _, .always, rfl, rfl, rfl, rfl, hm, rfl, by intro y hy h; cases List.mem_singleton.1 hy; exact absurd h (Nat.lt_irrefl 1)⟩

theorem witness_PagerAndTableEvents :
    (∃ (s : State) (e : EngRef) (v : EngView) (x : EngFault), s.engView e = some v ∧ v.fslot = none ∧ s.engFault e = some x
      ∧ hV ((s.die 0).handler 4095) = false)
    ∧ (∃ (s : State) (e : EngRef) (v : EngView) (x : EngFault), s.engView e = some v ∧ v.fslot = none ∧ s.engFault e = some x
      ∧ hV ((s.die 0).handler 4095) = true ∧ s.ns9 - v.first.getD s.ns9 < pagerLimit ((s.die 0).handler 4095) ∧ ∃ k, (s.die 0).freeSlot = some k
      ∧ ∃ m, s.postFault 0 k e v x (v.first.getD s.ns9) = .done m false)
    ∧ (∃ (s : State) (e : EngRef) (v : EngView) (x : EngFault), s.engView e = some v ∧ v.fslot = none ∧ s.engFault e = some x
      ∧ ∃ k, (s.die 0).freeSlot = some k ∧ ∃ m, s.postFault 0 k e v x (v.first.getD s.ns9) = .done m true)
    ∧ (∃ (s : State) (x : FSlot) (v : EngView), tget (s.die 0).fslots 0 = some x ∧ s.engView x.eng = some v ∧ v.fslot = some 0
      ∧ (s.syncWord x.word).gen ≠ x.gen)
    ∧ (∃ (s : State) (x : FSlot), tget (s.die 0).fslots 0 = some x ∧ (s.syncWord x.word).error = true)
    ∧ (∃ (s : State) (x : FSlot), tget (s.die 0).fslots 0 = some x ∧ x.limit ≤ s.ns9 - x.first)
    ∧ (∃ (s : State) (x : TlbInv), s.coh.tlbinvs.find? (·.id == 1) = some x ∧ x.bound = none ∧ s.storesPending x.slot 1 = false)
    ∧ (∃ (s : State) (x : TlbInv) (k : Nat), s.coh.tlbinvs.find? (·.id == 1) = some x ∧ x.bound = some k
      ∧ (∀ g ∈ s.grids, ∀ u ∈ g.2.sb, u.uid < k → x.hitsUnit u = false) ∧ (∀ f ∈ s.coh.flying, f.u.uid < k → x.hitsUnit f.u = false)
      ∧ (∀ w ∈ s.openWalks, k ≤ w.id) ∧ s.engineUses x k = false)
    ∧ (∃ (s : State) (x : TlbInv) (k : Nat), s.coh.tlbinvs.find? (·.id == 1) = some x ∧ x.bound = some k
      ∧ ∃ g ∈ s.grids, ∃ u ∈ g.2.sb, u.uid < k ∧ x.hitsUnit u = true)
    ∧ (∃ (s : State) (x : TlbInv) (k : Nat), s.coh.tlbinvs.find? (·.id == 1) = some x ∧ x.bound = some k
      ∧ ∃ r ∈ s.coh.reqs, r.id < k ∧ s.goneHolds x r.pa = true ∧ ∃ i n, r.who = .engine i n)
    ∧ (∃ (s k : State) (x : Install) (pm : Pm) (r : BitVec 512), s.installs.find? (·.id == 1) = some x ∧ s.storesPending x.slot 1 = false
      ∧ x.form = .namedef pm ∧ s.recordRead x.die x.piece = .done k (some r))
    ∧ (∃ (s k : State) (x : Install) (pm : Pm) (r : BitVec 512), s.installs.find? (·.id == 1) = some x ∧ s.storesPending x.slot 1 = false
      ∧ x.form = .htdef pm ∧ s.recordRead x.die x.piece = .done k (some r))
    ∧ (∃ r, Defines 0 r ∧ vc0Valid r (Vc.reset 0) = true) ∧ (∃ r, Defines 0 r ∧ vc0Valid r (Vc.reset 0) = false)
    ∧ (∃ r, Defines 5 r ∧ vcValid r = false) ∧ (∃ r, Defines 5 r ∧ vcValid r = true ∧ (vcOf r).state = .disabled)
    ∧ (∃ r, Defines 5 r ∧ vcValid r = true ∧ (vcOf r).state ≠ .disabled)
    ∧ (∃ (s : State) (m : Migration), (s.die 0).migs.find? (·.vc == 5) = some m ∧ m.started = false)
    ∧ (∃ (s : State) (m : Migration), (s.die 0).migs.find? (·.vc == 5) = some m ∧ m.started = true ∧ m.walk = [])
    ∧ ∃ (s : State) (m : Migration), (s.die (s.walkDie key0)).migs.find? (fun m => m.walk.contains key0) = some m :=
  ⟨⟨faultState [] Die.reset, .copy 0 1, _, _, rfl, rfl, by rfl, by decide +kernel⟩,
   ⟨faultState [(4095, 1 <<< 111)] Die.reset, .copy 0 1, _, _, rfl, rfl, by rfl, by decide +kernel, by decide +kernel, 0, by decide +kernel,
    done_eq (by decide +kernel)⟩,
   ⟨{ faultState [(4095, (1 <<< 111) ||| (3 <<< 107) ||| (1 <<< 128) ||| (0x101 <<< 160))]
        { Die.reset with queues := [(0, { Queue.reset with qw := [0xC000000000000004, 0x1000, 0, 0, 0, 0, 0] })] } with
      hbm := [(0x1000, 1), (0x1001, 0x20), (0x2000, 1), (0x2001, 0x30), (0x3000, 0xC7)] }, .copy 0 1, _, _, rfl, rfl, by rfl,
    0, by decide +kernel, done_eq (by decide +kernel)⟩,
   ⟨copyState (faulting (some 0)) [] { Die.reset with fslots := slot0 1 }, _, _, rfl, rfl, rfl, by decide +kernel⟩,
   ⟨{ copyState (faulting (some 0)) [] { Die.reset with fslots := slot0 0 } with pool := [(13, 2)] }, _, rfl, by decide +kernel⟩,
   ⟨copyState (faulting (some 0)) [] { Die.reset with fslots := slot0 0 }, _, rfl, by decide +kernel⟩,
   ⟨tlbinv none, _, rfl, rfl, by decide +kernel⟩, ⟨tlbinv (some 4), _, _, rfl, rfl, by decide +kernel, by decide +kernel, by decide +kernel, by decide +kernel⟩,
   ⟨{ tlbinv (some 4) with grids := [(0, { Grid.reset with sb := [unit8 .store 0x10008] })]
                           coh := { Coh.reset with tlbinvs := [⟨1, .tlbinvAll .always, 0, 0, 0, 0, 0, some 4, [page 0 0x10000]⟩] } },
    _, _, rfl, rfl, _, .head _, _, .head _, by decide, by decide +kernel⟩,
   ⟨withCoh { Coh.reset with tlbinvs := [⟨1, .tlbinvAll .always, 0, 0, 0, 0, 0, some 4, [page 2 0x10000]⟩]
                             reqs := [⟨1, 0, 0, .engine 3 8, globalPa 0 2 0x10000, 0, none⟩] }, _, _, rfl, rfl, _, .head _, by decide,
    by decide +kernel, 3, 8, rfl⟩,
   ⟨installs (.namedef .always), _, _, _, _, rfl, by decide +kernel, rfl, by rfl⟩, ⟨installs (.htdef .always), _, _, _, _, rfl, by decide +kernel, rfl, by rfl⟩,
   ⟨vcRec 0x1400, defines_of _ _ (by decide +kernel), by decide +kernel⟩, ⟨vcRec 0, defines_of _ _ (by decide +kernel), by decide +kernel⟩,
   ⟨vcRec 0x3000, defines_of _ _ (by decide +kernel), by decide +kernel⟩, ⟨vcRec 4, defines_of _ _ (by decide +kernel), by decide +kernel⟩,
   ⟨vcRec 0x1004, defines_of _ _ (by decide +kernel), by decide +kernel⟩,
   ⟨migrates ⟨5, Vc.reset 5, { Vc.reset 5 with bmask := 1 }, none, [], false⟩, _, rfl, rfl⟩,
   ⟨migrates ⟨5, Vc.reset 5, { Vc.reset 5 with bmask := 1 }, none, [], true⟩, _, rfl, rfl, rfl⟩,
   ⟨let d := { Die.reset with migs := [⟨5, Vc.reset 5, { Vc.reset 5 with bmask := 1 }, none, [key0], true⟩] }
    { State.reset with dies := [(0, d), (1, d), (2, d), (3, d)] }, _, by rfl⟩⟩

/-! ### Witnesses: named data, scheduling, the host -/

def endPath (spad : Bool) : EndPath := ⟨0, 0, spad, 0x100, 0, 0, none, 0, false, 0⟩
def tile (st : TsState) (ret : TsRet) : TsEnt := ⟨0, 0, 0x40, st, ret, [1, 2], .engine 0 0, 0⟩
def packet : NdPacket := ⟨0, 0, 0x40, 1, 9, .lookup⟩
def placement : Placement := ⟨.engine 0 0, .byCount 1, []⟩
def withNet (n : Net) : State := { probe at8 with net := n }
/-- A TILE about the name has reached stop 0. -/
def arrived : State := { probe at8 with agenda := [.tile 0 0 0x40 []] }
def withTile (t : TsEnt) : State := withNet ⟨[], [], [t], [], []⟩
def deposit : Deposit := ⟨1, 0, 0, endPath true, List.replicate 16 7, 0, none, none, none⟩

theorem witness_NamedDataEvents :
    (∃ (s : State) (t : TsEnt), s.ndEnt 0 0 0x40 = none ∧ s.tileAt 0 0 0x40 = some t ∧ t.st = .held)
    ∧ (∃ s : State, s.ndEnt 0 0 0x40 = none ∧ s.tileAt 0 0 0x40 = none)
    ∧ hopOf 0 0x40 (.rendezvous 0) = none
    ∧ (∃ d, hopOf 0 0x40 (.rendezvous 5) = some (.dir d))
    ∧ (∃ n : W64, 0 = lookupStop (0 / 128) n ∧ State.reset.resolveName (0 / 128) 0 n = none)
    ∧ (∃ (s : State) (r : PitRec), (s.ndRecs 0 0 0x40).find? (fun r => decide (r.deadline * 576 ≤ s.ns9)) = some r
      ∧ s.ndEarlier 0 64 = false)
    ∧ (∃ s : State, s.ndEarlier 0 (3 + inputPort (.dir .east)) = false ∧ s.ndEarlier 0 2 = false ∧ s.ndEarlier 0 1 = false)
    ∧ (∃ (s : State) (e : PitEnt), s.ndEnt 0 0 0x40 = some e ∧ e.fwd = none ∧ s.ndEarlier 0 3 = false)
    ∧ (∃ (s : State) (t : TsEnt), s.tileAt 0 0 0x40 = some t ∧ t.st = .filling
      ∧ (((s.modTile 0 0 0x40 fun t => { t with st := .held }).placed t.origin 0x40 0).ndEnt 0 0 0x40) = none)
    ∧ (∃ (s : State) (t : TsEnt) (e : Nat), s.tileAt 0 0 0x40 = some t ∧ t.st = .held ∧ t.ret = .until e ∧ e ≤ s.ns9)
    ∧ (∃ (s : State) (t : TsEnt), s.tileAt 0 0 0x40 = some t ∧ t.st = .draining ∧ t.readers = 0)
    ∧ (∃ (s m n : State) (d : Deposit) (q : Nat × Nat) (k code : Nat), s.net.deposits.find? (·.id == 1) = some d ∧ d.landing = none ∧ d.fslot = none
      ∧ (∃ r ∈ (s.cl d.stop).chuck, r.owner = 1) ∧ s.depositTry d true = .done m q ∧ s.depositTry d false = .done n (k, code)
      ∧ n.engLanding 1 = false)
    ∧ ∃ (s : State) (d : Deposit) (k code : Nat), s.net.deposits.find? (·.id == 1) = some d ∧ d.landing = some (k, code) ∧ s.engLanding 1 = false :=
  ⟨⟨withTile (tile .held (.count 3)), _, rfl, rfl, rfl⟩, ⟨State.reset, rfl, rfl⟩, by decide +kernel, ⟨.east, by decide +kernel⟩,
   ⟨0, by decide +kernel, rfl⟩,
   ⟨withNet ⟨[⟨0, 0, 0x40, .endp (endPath true), 0⟩], [], [], [], []⟩, _, by rfl, by decide +kernel⟩,
   ⟨State.reset, by decide +kernel, by decide +kernel, by decide +kernel⟩,
   ⟨withNet ⟨[], [⟨0, 0, 0x40, none, .lookup, 1, 9⟩], [], [], []⟩, _, rfl, rfl, by decide +kernel⟩,
   ⟨withTile (tile .filling (.count 3)), _, rfl, rfl, by rfl⟩, ⟨withTile (tile .held (.until 0)), _, _, rfl, rfl, rfl, by decide⟩,
   ⟨withTile (tile .draining (.count 0)), _, rfl, rfl, rfl⟩,
   ⟨{ withNet ⟨[], [], [], [deposit], []⟩ with cls := [(0, { Cluster.reset with chuck := [⟨1, .spad, 0, 0, 0x100, 16, true⟩] })] }, _, _, _, _, _, _,
    rfl, rfl, rfl, ⟨_, .head _, rfl⟩, by rfl, by rfl, by rfl⟩,
   ⟨withNet ⟨[], [], [], [{ deposit with landing := some (16, 0) }], []⟩, _, _, _, rfl, rfl, by decide +kernel⟩⟩

/-- A launch record of one group of one thread with a scratchpad unit. -/
def record : BitVec 512 := (1 <<< 448) ||| (0x101 <<< 160)
def qrec (r : BitVec 512) : QRec := ⟨r, [], [], 0, false⟩
def queueState (q : Queue) : State := { probe at8 with dies := [(0, { Die.reset with queues := [(0, q)] })], clk := 1 }
/-- Queue 0 enabled for host stores, with room for four records. -/
def openQ : Queue := { Queue.reset with qw := [0xC000000000000004, 0, 0, 0, 0, 0, 0] }
def window (r : BitVec 512) : Submission := ⟨0, .window, .inr r, some []⟩
def withGroup (g : Group) : State := { probe at8 with grp := [(0, g)] }

def biased (b : Bias) (fl : List Flip) : State := withCoh { Coh.reset with bias := [(1, b)], flips := fl }
/-- A machine of which every home has found an agent DEAD. -/
def deadTo (a : Nat) : State :=
  let d := { Die.reset with agents := [(a, 2)] }
  { State.reset with dies := [(0, d), (1, d), (2, d), (3, d)] }

theorem witness_BiasAndHostEvents :
    (∃ s : State, s.biasOf 1 = .host) ∧ (∃ s : State, s.biasOf 1 = .device)
    ∧ (∃ (s : State) (f : Flip), s.flipOf 1 true = some f ∧ ∀ y ∈ pageLines 1, (s.dirEnt y).sharers = [] ∧ s.lineAwaits y = false)
    ∧ (∃ (s : State) (f : Flip), s.flipOf 1 true = some f ∧ ∃ y ∈ pageLines 1, s.canProbe y = true)
    ∧ (∃ (s : State) (f : Flip), s.flipOf 1 false = some f ∧ ∀ w ∈ s.coh.awaits, w.agent ≠ hostAgent ∨ w.line / 64 ≠ 1)
    ∧ (∃ s : State, s.hostDead (hdm 0x1000) = true)
    ∧ (∃ s : State, s.hostDead (hdm 0x1000) = false ∧ s.parkedAt (hdm 0x1000 / 4096) = false ∧ s.pageHeld (hdm 0x1000 / 4096) = false)
    ∧ (∃ s : State, s.hostDead (hdm 0x1000) = false ∧ s.pageHeld (hdm 0x1000 / 4096) = true)
    ∧ (∃ s : State, s.hostDead (hdm 0x1000) = false ∧ s.parkedAt (hdm 0x1000 / 4096) = true)
    ∧ (∃ s n m : State, s.hostDead (hdm 0x1000) = false ∧ s.parkedAt (hdm 0x1000 / 4096) = false ∧ s.biasOf (hdm 0x1000 / 4096) ≠ .recalling
      ∧ s.serveHostRead 0 (hdm 0x1000) false = .done n ∧ s.serveHostWrite 0 (hdm 0x1000) 5 1 = .done m)
    ∧ (∃ s : State, s.hostDead (hdm 0x1000) = false ∧ s.parkedAt (hdm 0x1000 / 4096) = false ∧ s.biasOf (hdm 0x1000 / 4096) ≠ .recalling
      ∧ s.serveHostRead 0 (hdm 0x1000) false = .wait ∧ s.serveHostWrite 0 (hdm 0x1000) 5 1 = .wait)
    ∧ (∃ s : State, ∀ w ∈ s.coh.awaits, w.agent ≠ hostAgent ∨ w.line ≠ hdm 0x1000 / 64)
    ∧ (∃ (s : State) (w : Await) (m : BitVec 64), s.coh.awaits.find? (fun w => w.agent == hostAgent && w.line == hdm 0x1000 / 64) = some w
      ∧ s.hostDead (hdm 0x1000) = false ∧ w.stamp ≠ 1 ∧ tget (s.answered hostAgent (hdm 0x1000 / 64)).coh.filter (hdm 0x1000 / 64 / 64) = some m
      ∧ m &&& ~~~((1 : BitVec 64) <<< (hdm 0x1000 / 64 % 64)) ≠ 0) :=
  ⟨⟨biased .host [], rfl⟩, ⟨State.reset, rfl⟩, ⟨biased .flushing [⟨1, true, none⟩], _, rfl, by decide +kernel⟩,
   ⟨let s := biased .flushing [⟨1, true, none⟩]; { s with coh := { s.coh with dir := [(32, ⟨[129], 3, 0⟩)] } }, _, rfl, 32, by decide +kernel, by decide +kernel⟩,
   ⟨biased .recalling [⟨1, false, none⟩], _, rfl, by decide +kernel⟩, ⟨deadTo hostAgent, by decide +kernel⟩,
   ⟨State.reset, by decide +kernel, by decide +kernel, by decide +kernel⟩,
   ⟨biased .flushing [⟨1, true, none⟩], by decide +kernel, by decide +kernel⟩,
   ⟨withCoh { Coh.reset with parked := [(1, .hostRead 0 0x1000 false)] }, by decide +kernel, by decide +kernel⟩,
   ⟨State.reset, _, _, by decide +kernel, rfl, by decide +kernel, by rfl, by rfl⟩,
   ⟨biased .flushing [], by decide +kernel, by decide +kernel, by decide +kernel, by rfl, by rfl⟩, ⟨State.reset, by decide +kernel⟩,
   ⟨withCoh { Coh.reset with awaits := [⟨0, hostAgent, 64, 0, 0, 0⟩], filter := [(1, 3)] }, _, _, rfl, by decide +kernel, by decide +kernel, by rfl, by decide +kernel⟩⟩

/-! ### Witnesses: observation, power, messages, links, resets -/

theorem witness_ObservationEvents :
    (∃ (s : State) (c : Nat), s.traceStop 0 = some c)
    ∧ (∃ s : State, (s.grid 0).dbg.frozen = true ∧ (s.grid 0).dbg.cause = 1 ∧ (s.grid 0).dbg.since = s.clk)
    ∧ (∃ s : State, s.plat.frozen = false ∧ (s.grid 5).dbg.frozen = false)
    ∧ (∃ s : State, s.samples.find? (fun x => x.1 == 0 && x.2.1 == 2) = none) ∧ ∃ (s : State) (l : List (Nat × Nat × Nat)), s.samples = (0, 2, 7) :: l :=
  ⟨⟨{ State.reset with cls := [(0, { Cluster.reset with trace := [⟨0, 0, 0, 0, 0, 0, 0⟩] })] }, 0, by decide +kernel⟩,
   ⟨State.reset.freeze 0 1 none, by decide +kernel, by decide +kernel, by decide +kernel⟩, ⟨State.reset, rfl, rfl⟩, ⟨State.reset, rfl⟩,
   ⟨{ State.reset with samples := [(0, 2, 7)] }, [], rfl⟩⟩

def powered (p : ClPower) (t : Nat) : State :=
  { State.reset with time := t, cls := [(0, { Cluster.reset with power := p })] }

/-- Cluster 0 is about to be gated, with one trace record left. -/
def draining (t : Nat) (due : Option Nat) : State :=
  { State.reset with time := t, cls := [(0, { Cluster.reset with power := .retention, trace := [⟨0, 0, 0, 0, 0, 0, 0⟩], drainBy := due })] }
/-- A sensor at a temperature, with a clamp. -/
def sensed (deg thrm t : Nat) : State := { State.reset with time := t, plat := { Plat.reset with sensors := [(0, deg)], thrm := thrm } }

theorem witness_PowerAndErrorEvents :
    (∃ s : State, (s.cl 0).power = .on ∧ s.clusterIdle 0 = true ∧ (s.cl 0).since + 900000 ≤ s.ns9)
    ∧ (∃ s : State, (s.cl 0).power = .retention ∧ s.clusterIdle 0 = true ∧ (s.cl 0).since + 90000000 ≤ s.ns9 ∧ (s.cl 0).trace = [])
    ∧ (∃ s : State, (s.cl 0).power = .retention ∧ s.clusterIdle 0 = true ∧ (s.cl 0).since + 90000000 ≤ s.ns9
      ∧ ∃ t, (s.cl 0).drainBy = some t ∧ t ≤ s.ns9)
    ∧ (∃ s : State, (s.cl 0).power = .retention ∧ s.clusterIdle 0 = true ∧ (s.cl 0).since + 90000000 ≤ s.ns9 ∧ (s.cl 0).trace ≠ []
      ∧ (s.cl 0).drainBy = none)
    ∧ (∃ s : State, (s.cl 0).power ≠ .on)
    ∧ (∃ s : State, (∃ x ∈ s.plat.sensors, 95 < x.2) ∧ s.plat.thrm < 4 ∧ s.plat.thermAt + 9000000 ≤ s.ns9)
    ∧ (∃ s : State, (∀ x ∈ s.plat.sensors, x.2 < 90) ∧ s.plat.sensors ≠ [] ∧ 0 < s.plat.thrm ∧ s.plat.thermAt + 90000000 ≤ s.ns9)
    ∧ (∃ s : State, ∃ x ∈ s.plat.sensors, 90 ≤ x.2) ∧ ∃ s : State, ∃ x ∈ s.plat.sensors, 105 < x.2 :=
  ⟨⟨powered .on 180000, by decide +kernel⟩, ⟨powered .retention 18000000, by decide +kernel⟩,
   ⟨draining 18000000 (some 9), by decide +kernel, by decide +kernel, by decide +kernel, 9, rfl, by decide +kernel⟩,
   ⟨draining 18000000 none, by decide +kernel⟩, ⟨powered .gated 0, by decide +kernel⟩,
   ⟨sensed 96 0 18000000, ⟨_, .head _, by decide⟩, by decide, by decide +kernel⟩, ⟨sensed 89 2 18000000, by decide, by decide, by decide, by decide +kernel⟩,
   ⟨sensed 90 0 0, _, .head _, by decide⟩, ⟨sensed 106 0 0, _, .head _, by decide⟩⟩

/-- How a request is served: done, made to wait, or made to wait for what it starts. -/
def kind (r : Served) : Nat := match r with | .done _ => 0 | .wait => 1 | .act _ => 2
theorem done_of {r : Served} (h : kind r = 0) : ∃ n, r = .done n := by
  cases r with
  | done n => exact ⟨n, rfl⟩
  | wait => cases h
  | act n => cases h
theorem wait_of {r : Served} (h : kind r = 1) : r = .wait := by
  cases r with
  | done n => cases h
  | wait => rfl
  | act n => cases h
theorem act_of {r : Served} (h : kind r = 2) : ∃ n, r = .act n := by
  cases r with
  | done n => cases h
  | wait => cases h
  | act n => exact ⟨n, rfl⟩

/-- A message of module 3 about the line at 0x1000. -/
def msg : Msg := ⟨0, 3, 0, 0, 0, 0x1000, [0x40, 0, 0, 0, 0, 0, 0, 0]⟩
/-- Page 1 is held exclusively by die 3 of module 5. -/
def exclusive (holder : Nat) : State := withCoh { Coh.reset with pages := [(1, ⟨.excl, [holder], false, 4, none, []⟩)] }

theorem witness_HomeMessages :
    (∃ s : State, s.parkedAt (msgLa msg / 4096) = true)
    ∧ (∃ s : State, s.parkedAt (msgLa msg / 4096) = false ∧ (∃ n, s.serveRd 0 msg = .done n) ∧ (∃ n, s.serveWr 0 { msg with cls := 0x03 } = .done n)
      ∧ (∃ n, s.serveAtom 0 { msg with cls := 0x04 } = .done n) ∧ (∃ n, s.servePgs 0 { msg with cls := 0x05 } = .done n)
      ∧ ∃ n, s.servePgx 0 { msg with cls := 0x06 } = .done n)
    ∧ (∃ s : State, s.parkedAt (msgLa msg / 4096) = false ∧ s.serveRd 0 msg = .wait ∧ s.serveWr 0 { msg with cls := 0x03 } = .wait
      ∧ s.serveAtom 0 { msg with cls := 0x04 } = .wait ∧ s.servePgs 0 { msg with cls := 0x05 } = .wait
      ∧ s.servePgx 0 { msg with cls := 0x06 } = .wait)
    ∧ (∃ s : State, s.parkedAt (msgLa msg / 4096) = false ∧ (∃ n, s.serveRd 0 msg = .act n) ∧ (∃ n, s.serveWr 0 { msg with cls := 0x03 } = .act n)
      ∧ (∃ n, s.serveAtom 0 { msg with cls := 0x04 } = .act n) ∧ (∃ n, s.servePgs 0 { msg with cls := 0x05 } = .act n)
      ∧ ∃ n, s.servePgx 0 { msg with cls := 0x06 } = .act n)
    ∧ (∃ s : State, (s.pageProbe (msg.tag.toNat % 4) (msgPage msg) (msg.aux.setWidth 8)).2 = false)
    ∧ (∃ s : State, s.awaiting (dieAgent msg.src.toNat (msg.tag.toNat % 4)) (msgLa msg / 4096) = false)
    ∧ (∃ (s : State) (e : PageEnt), (s.die (homeDie (msgLa msg))).agent (dieAgent msg.src.toNat (msg.tag.toNat % 4)) ≠ 2
      ∧ s.awaiting (dieAgent msg.src.toNat (msg.tag.toNat % 4)) (msgLa msg / 4096) = true
      ∧ tget (s.answered (dieAgent msg.src.toNat (msg.tag.toNat % 4)) (msgLa msg / 4096)).coh.pages (msgLa msg / 4096) = some e
      ∧ e.st = .excl ∧ e.holders = [4 * msg.src.toNat + msg.tag.toNat % 4])
    ∧ (∃ s : State, s.poisoned (msgLa msg / 128) = true)
    ∧ (∃ s : State, (s.die (homeDie (msgLa msg))).agent (dieAgent msg.src.toNat (msg.tag.toNat % 4)) ≠ 2 ∧ msgLa msg < 2 ^ 40
      ∧ s.poisoned (msgLa msg / 128) = false) ∧ (msg.aux.getLsbD 15 = false ∧ ({ msg with aux := 0x8000 } : Msg).aux.getLsbD 15 = true) :=
  ⟨⟨withCoh { Coh.reset with parked := [(1, .hostRead 0 0x1000 false)] }, by decide +kernel⟩,
   ⟨State.reset, by decide +kernel, done_of (by decide +kernel), done_of (by decide +kernel), done_of (by decide +kernel), done_of (by decide +kernel),
    done_of (by decide +kernel)⟩,
   ⟨biased .flushing [], by decide +kernel, wait_of (by decide +kernel), wait_of (by decide +kernel), wait_of (by decide +kernel),
    wait_of (by decide +kernel), wait_of (by decide +kernel)⟩,
   ⟨exclusive 23, by decide +kernel, act_of (by decide +kernel), act_of (by decide +kernel), act_of (by decide +kernel), act_of (by decide +kernel),
    act_of (by decide +kernel)⟩,
   ⟨State.reset, by decide +kernel⟩, ⟨State.reset, by decide +kernel⟩,
   ⟨withCoh { Coh.reset with awaits := [⟨0, 1036, 1, 4, 0, 0⟩], pages := [(1, ⟨.excl, [12], false, 4, none, []⟩)] }, _, by decide +kernel,
    by decide +kernel, by rfl, rfl, by decide⟩,
   ⟨withCoh { Coh.reset with poisonLines := [32] }, by decide +kernel⟩, ⟨State.reset, by decide +kernel⟩, by decide⟩

def requesting (w : ReqWho) : State :=
  { probe at8 with coh := { Coh.reset with reqs := [⟨1, 0, 0, w, 0x1000, 0, none⟩] }, cls := [(0, { Cluster.reset with copyQ := [offer] })] }
/-- Handler entry 0 permits launches in queue 0 and handlers, of one thread at address space 0. -/
def entry0 (l : List Queue) : State :=
  { State.reset with dies := [(0, { Die.reset with handlers := [(0, (1 <<< 111) ||| (3 <<< 107) ||| (1 <<< 128) ||| (0x101 <<< 160))]
                                                   queues := l.map fun q => (0, q) })] }
def invoking (aux : BitVec 16) : Msg := ⟨0, 3, 0x08, 0, aux, 0, [0, 0]⟩
def messaged (n : Nat) : State :=
  { entry0 [] with thr := [(0, { thread (blk at8) with msgs := List.replicate n ⟨0, 0, 0, 0⟩ })] }

theorem witness_AnswerMessages :
    (∃ s : State, s.reqOf msg = none) ∧ (∃ (s : State) (r : Req) (uid : Nat), s.reqOf msg = some r ∧ r.who = .unit uid)
    ∧ (∃ (s : State) (r : Req) (cl line : Nat), s.reqOf msg = some r ∧ r.who = .fill cl line ∧ line < 2 ^ 60)
    ∧ (∃ (s : State) (r : Req) (cl cmd : Nat) (c : CopyCmd), s.reqOf msg = some r ∧ r.who = .place cl cmd ∧ ((s.dropReq r.id).cl cl).cmd cmd = some c)
    ∧ (∃ (s : State) (r : Req) (q dev : Nat) (tag : BitVec 13) (name : W64), s.reqOf msg = some r ∧ r.who = .relay q dev tag name)
    ∧ (∃ (s : State) (r : Req) (slot th hidx : Nat) (tr : Bool), s.coh.reqs.find? (fun r => r.tag == msg.tag) = some r ∧ r.who = .invoke slot th hidx tr)
    ∧ (∃ s : State, s.preempted 0 = true)
    ∧ (∃ (s : State) (r : Req) (die pg : Nat) (x : Bool), s.reqOf msg = some r ∧ r.who = .page die pg x ∧ r.probe = none)
    ∧ (∃ s : State, ∀ r ∈ s.coh.reqs, r.tag ≠ msg.tag)
    ∧ (∃ (s : State) (r : Req) (d q : Nat), s.coh.reqs.find? (fun r => r.tag == msg.tag) = some r ∧ r.who = .report d q ∧ msg.aux = 0)
    ∧ (∃ (s : State) (m : Msg), hV ((s.die (twDie m.addr)).handler (invHidx m)) = true ∧ hQok ((s.die (twDie m.addr)).handler (invHidx m)) = true
      ∧ m.aux ≠ hAsid ((s.die (twDie m.addr)).handler (invHidx m)))
    ∧ (∃ (s : State) (m : Msg), hV ((s.die (twDie m.addr)).handler (invHidx m)) = true ∧ hQok ((s.die (twDie m.addr)).handler (invHidx m)) = true
      ∧ m.aux = hAsid ((s.die (twDie m.addr)).handler (invHidx m))
      ∧ (s.queue (twDie m.addr) (hQueue ((s.die (twDie m.addr)).handler (invHidx m)))).asid = hAsid ((s.die (twDie m.addr)).handler (invHidx m)))
    ∧ (∃ (s : State) (m : Msg), hV ((s.die (twDie m.addr)).handler (invHidx m)) = true ∧ hQok ((s.die (twDie m.addr)).handler (invHidx m)) = true
      ∧ m.aux = hAsid ((s.die (twDie m.addr)).handler (invHidx m))
      ∧ (s.queue (twDie m.addr) (hQueue ((s.die (twDie m.addr)).handler (invHidx m)))).asid ≠ hAsid ((s.die (twDie m.addr)).handler (invHidx m)))
    ∧ (∃ (s : State) (m : Msg), hV ((s.die (twDie m.addr)).handler (invHidx m)) = false)
    ∧ (∃ (s : State) (m : Msg), hV ((s.die (twDie m.addr)).handler (invHidx m)) = true ∧ hHok ((s.die (twDie m.addr)).handler (invHidx m)) = true
      ∧ m.aux = hAsid ((s.die (twDie m.addr)).handler (invHidx m)) ∧ tget s.thr (twSlot m.addr) = none)
    ∧ (∃ (s : State) (m : Msg) (t : Thread), hV ((s.die (twDie m.addr)).handler (invHidx m)) = true
      ∧ hHok ((s.die (twDie m.addr)).handler (invHidx m)) = true ∧ m.aux = hAsid ((s.die (twDie m.addr)).handler (invHidx m))
      ∧ tget s.thr (twSlot m.addr) = some t ∧ t.ending = false ∧ t.sys.asid = hAsid ((s.die (twDie m.addr)).handler (invHidx m))
      ∧ 4 ≤ t.msgs.length)
    ∧ (∃ (s : State) (m : Msg) (t : Thread), hV ((s.die (twDie m.addr)).handler (invHidx m)) = true
      ∧ hHok ((s.die (twDie m.addr)).handler (invHidx m)) = true ∧ m.aux = hAsid ((s.die (twDie m.addr)).handler (invHidx m))
      ∧ tget s.thr (twSlot m.addr) = some t ∧ t.ending = false ∧ t.sys.asid = hAsid ((s.die (twDie m.addr)).handler (invHidx m))
      ∧ t.msgs.length < 4) :=
  ⟨⟨State.reset, rfl⟩, ⟨requesting (.unit 4), _, _, rfl, rfl⟩, ⟨requesting (.fill 0 32), _, _, _, rfl, rfl, by decide +kernel⟩,
   ⟨requesting (.place 0 1), _, _, _, _, rfl, rfl, by rfl⟩, ⟨requesting (.relay 0 5 0 0x40), _, _, _, _, _, rfl, rfl⟩,
   ⟨requesting (.invoke 0 0 0 true), _, _, _, _, _, rfl, rfl⟩, ⟨withGroup { group with live := [], saved := [0] }, by decide +kernel⟩,
   ⟨requesting (.page 0 1 true), _, _, _, _, rfl, rfl, rfl⟩,
   ⟨State.reset, by decide +kernel⟩, ⟨requesting (.report 0 0), _, _, _, rfl, rfl, rfl⟩,
   ⟨entry0 [], invoking 4, by decide +kernel⟩, ⟨entry0 [openQ], invoking 0, by decide +kernel⟩,
   ⟨entry0 [{ openQ with qw := [0xC000000500000004, 0, 0, 0, 0, 0, 0] }], invoking 0, by decide +kernel⟩, ⟨State.reset, invoking 0, by decide +kernel⟩,
   ⟨entry0 [], invoking 0, by decide +kernel⟩,
   ⟨messaged 4, invoking 0, _, by decide +kernel, by decide +kernel, by decide +kernel, by rfl, rfl, by decide +kernel, by decide +kernel⟩,
   ⟨messaged 0, invoking 0, _, by decide +kernel, by decide +kernel, by decide +kernel, by rfl, rfl, by decide +kernel, by decide +kernel⟩⟩

theorem witness_LinkAndWindowEvents :
    (∃ s : State, (s.port 0).up = true ∧ (s.port 0).wantReplay = false)
    ∧ (∃ s : State, (s.port 0).up = true ∧ (s.port 0).wantReplay = true)
    ∧ ∃ (s : State) (l : List (BitVec 128)), flitOk l = false ∧ (s.port 0).up = true :=
  ⟨⟨State.reset, rfl, rfl⟩, ⟨State.reset.badFlit 0 true, by decide +kernel, by decide +kernel⟩, ⟨State.reset, [], by decide +kernel, rfl⟩⟩

theorem witness_ResetAndSpdm :
    (∃ s : State, s.plat.trip = true) ∧ (∃ s : State, s.plat.bootFail ≠ none)
    ∧ (∃ s : State, s.plat.trip = false ∧ s.plat.bootFail = none ∧ s.MemInv ∧ s.Clean) ∧ (∃ s : State, s.coh.l2 ≠ [])
    ∧ ∃ s : State, s.plat.doe < s.plat.spdm.length :=
  ⟨⟨{ State.reset with plat := { Plat.reset with trip := true } }, rfl⟩, ⟨{ State.reset with plat := { Plat.reset with bootFail := some 1 } }, by decide⟩,
   ⟨State.reset, rfl, rfl, ⟨rfl, rfl, rfl, .nil⟩, fun _ _ h => by simp [State.reset, Coh.reset, tget] at h⟩,
   ⟨State.reset.allocate 5 0, by decide +kernel⟩, ⟨State.reset, by decide⟩⟩

/-! ### Witnesses: the whole machine -/

def sreadI : Instr := .sread .count hd 0 .plain 0
def addI : Instr := .add .w64 .wrap ⟨.always, .slot 0, .none⟩ none
/-- ADD that asks for a true predicate. -/
def addT (p : Option Bool) : Entry := { ent 0 (nar 1) (nar 2) none with p := p }

theorem witness_RoundTrip : ∃ (i : Instr) (w : W64), i.wf = true ∧ encode i = some w := ⟨addI, _, rfl, rfl⟩

theorem witness_PredicatesAndNulls :
    (∃ (s : State) (x : Site) (i : Instr) (f : Fields), encodeFields i = some f ∧ i.wf = true ∧ s.site = some x ∧ f.pm ≠ 0 ∧ x.e.p = none)
    ∧ (∃ (s : State) (x : Site) (i : Instr) (f : Fields), encodeFields i = some f ∧ i.wf = true ∧ s.site = some x ∧ f.pm ≠ 0 ∧ x.e.p = some (f.pm == 2))
    ∧ ∃ (s : State) (x : Site) (i : Instr) (f : Fields), encodeFields i = some f ∧ i.wf = true ∧ s.site = some x ∧ ((0x10 ≤ f.op.toNat ∧ f.op.toNat < 0x50)
        ∨ (0x70 ≤ f.op.toNat ∧ f.op.toNat < 0xA0)) ∧ f.op ≠ 0x35 ∧ f.op ≠ 0x36 ∧ f.op ≠ 0x37
      ∧ (f.pm = 0 ∨ x.e.p = some (f.pm == 1)) ∧ (∀ k < 3, f.hasOperand k = true → x.e.operand k ≠ none)
      ∧ (∃ k < 3, f.hasOperand k = true ∧ x.e.operand k = some .null) ∧ x.b.fp.isSome = true :=
  ⟨⟨probe (addT none), _, .add .w64 .wrap ⟨.onTrue, .slot 0, .none⟩ none, _, rfl, rfl, rfl, by decide, rfl⟩,
   ⟨probe (addT (some false)), _, .add .w64 .wrap ⟨.onTrue, .slot 0, .none⟩ none, _, rfl, rfl, rfl, by decide, by decide⟩,
   ⟨probe (ent 0 (nar 1) (some .null) none), _, addI, _, rfl, rfl, rfl, by decide, by decide, by decide, by decide, by decide, by decide, by decide, rfl⟩⟩

theorem witness_FiringFrame :
    (∃ (s : State) (x : Site) (i : Instr) (f : Fields) (t : State), encodeFields i = some f ∧ s.site = some x ∧ Cached s x i ∧ exec i s = .next t)
    ∧ ∃ (s : State) (x : Site) (i : Instr) (f : Fields) (t : State), encodeFields i = some f ∧ s.site = some x ∧ exec i s = .next t ∧ s.MemInv ∧ s.Clean
      ∧ ∃ fl h l o off, i = .sread fl h l o off :=
  ⟨⟨probe (ent 0 (nar 1) (nar 2) none), _, addI, _, _, rfl, rfl, trivial, rfl⟩,
   (by
    obtain ⟨n, h⟩ := next_of_runs (o := exec sreadI (firing (mapped 0 0x10000) (thread (blk atWord)))) (by decide +kernel)
    exact ⟨firing (mapped 0 0x10000) (thread (blk atWord)), siteOf atWord, sreadI, _, n, rfl, rfl, h, ⟨rfl, rfl, rfl, .nil⟩,
      fun _ _ h => by simp [firing, mapped, State.reset, Coh.reset, tget] at h, _, _, _, _, _, rfl⟩)⟩

/-- ADD waits in slot 0. -/
def ready : State := State.reset.placeWord 0x1012800000000000

theorem witness_StepRunsDecoded :
    (∃ (s : State) (x : Nat × Cursor) (w : W64) (i : Instr), s.plat.frozen = false ∧ s.plat.inReset = false
      ∧ s.readyEntries = [x] ∧ s.wordAt x.2 = some w ∧ decode w = .ok i ∧ ∃ n, exec i { s with cur := some x.2 } = .next n)
    ∧ (∃ s n : State, s.plat.frozen = false ∧ s.plat.inReset = false ∧ s.issueNext = none ∧ s.commitNext = some n)
    ∧ (∃ (s : State) (i : Instr) (l : List Instr), s.plat.frozen = false ∧ s.plat.inReset = false ∧ s.issueNext = none ∧ s.commitNext = none
      ∧ s.agenda = i :: l ∧ ∃ n, exec i { s with agenda := l } = .next n) :=
  ⟨⟨ready, (0, ⟨0, 0, 0, 0⟩), 0x1012800000000000, addI, rfl, rfl, by decide +kernel, by decide +kernel, by rfl, next_of_runs (by decide +kernel)⟩,
   (by
    obtain ⟨n, h⟩ := Option.isSome_iff_exists.mp (show (withThread (thread (complete false))).commitNext.isSome = true by decide +kernel)
    exact ⟨withThread (thread (complete false)), n, rfl, rfl, Option.isNone_iff_eq_none.mp (by decide +kernel), h⟩),
   ⟨{ State.reset with agenda := [.patrolScrub 0] }, _, _, rfl, rfl, Option.isNone_iff_eq_none.mp (by decide +kernel),
    Option.isNone_iff_eq_none.mp (by decide +kernel), rfl, next_of_runs (by decide +kernel)⟩⟩

theorem reset_memInv : State.reset.MemInv := ⟨rfl, rfl, rfl, .nil⟩
theorem witness_StepKeepsMemory : ∃ s n : State, s.MemInv ∧ step s = .next n := ⟨State.reset, _, reset_memInv, rfl⟩

/-! ### Words written out from Tables 2-6 to 2-12 and 5-5, one of every form: operand B of instruction 5 and write slot 2 as
targets, predicated where the form may be. -/

/-- The header of those words. -/
def wh : Hdr := ⟨.onTrue, .opB 5, .slot 2⟩
/-- What the decoder reads. -/
def reads (w : W64) : Option Instr := (decode w).toOption

theorem test_decode_block_control :
    reads 0x010505A080000000 = some (.mov wh)
    ∧ reads 0x021505A0BFFFFFFB = some (.movi .sh29 wh (-5))
    ∧ reads 0x030505A0A000000D = some (.arg wh 13)
    ∧ reads 0x040505A080000000 = some (.null wh)
    ∧ reads 0x050800001FFFFFF9 = some (.br .onFalse 3 (-7))
    ∧ reads 0x0608000028000000 = some (.bri .onFalse 5)
    ∧ reads 0x070505A088000009 = some (.call wh 1 9)
    ∧ reads 0x0808000010000000 = some (.ret .onFalse 2)
    ∧ reads 0x090505A080000000 = some (.iter wh)
    ∧ reads 0x0A08000038000000 = some (.halt .onFalse 7) := by
  decide +kernel

theorem test_decode_narrow_integer_1 :
    reads 0x107505A0BFFFFFFD = some (.add .w64 .usat wh (some (-3)))
    ∧ reads 0x114505A080000000 = some (.sub .w32 .ssat wh none)
    ∧ reads 0x121505A0BFFFFFFD = some (.mul .w64 .wrap wh (some (-3)))
    ∧ reads 0x132505A080000000 = some (.mulh .w32 true wh none)
    ∧ reads 0x143505A0BFFFFFFD = some (.div .w64 true wh (some (-3)))
    ∧ reads 0x150505A080000000 = some (.rem .w32 false wh none)
    ∧ reads 0x166505A080000000 = some (.madd .w32 .usat wh)
    ∧ reads 0x170505A0BFFFFFFD = some (.and .w32 wh (some (-3)))
    ∧ reads 0x181505A0BFFFFFFD = some (.or .w64 wh (some (-3)))
    ∧ reads 0x190505A0BFFFFFFD = some (.xor .w32 wh (some (-3)))
    ∧ reads 0x1A1505A0BFFFFFFD = some (.andn .w64 wh (some (-3)))
    ∧ reads 0x1B0505A080000000 = some (.shl .w32 wh none) := by
  decide +kernel

theorem test_decode_narrow_integer_2 :
    reads 0x1C1505A080000000 = some (.shr .w64 wh none)
    ∧ reads 0x1D0505A080000000 = some (.sra .w32 wh none)
    ∧ reads 0x1E1505A080000000 = some (.rotl .w64 wh none)
    ∧ reads 0x1F2505A0BFFFFFFD = some (.min .w32 true wh (some (-3)))
    ∧ reads 0x201505A080000000 = some (.max .w64 false wh none)
    ∧ reads 0x215505A080000000 = some (.abs .w64 true wh)
    ∧ reads 0x220505A080000000 = some (.neg .w32 false wh)
    ∧ reads 0x230505A080000000 = some (.clz .w32 wh)
    ∧ reads 0x241505A080000000 = some (.ctz .w64 wh)
    ∧ reads 0x250505A080000000 = some (.popc .w32 wh)
    ∧ reads 0x261505A080000000 = some (.brev .w64 wh)
    ∧ reads 0x270505A080000000 = some (.bswap .w32 wh) := by
  decide +kernel

theorem test_decode_narrow_integer_3 :
    reads 0x283505A0BFFFFFFD = some (.extr .w64 true wh (some (-3)))
    ∧ reads 0x290505A080000000 = some (.insb .w32 wh none)
    ∧ reads 0x2A1505A080000000 = some (.sext .b16 wh)
    ∧ reads 0x2B2505A080000000 = some (.zext .b32 wh)
    ∧ reads 0x2C3505A0BFFFFFFD = some (.lea 3 wh (some (-3)))
    ∧ reads 0x2D1505A080000000 = some (.addx .w64 wh) := by
  decide +kernel

theorem test_decode_compare_and_predicate :
    reads 0x309505A0BFFFFFFD = some (.cmp .geu wh .w64 (some (-3)))
    ∧ reads 0x311505A0BFFFFFFD = some (.tstb true wh (some (-3)))
    ∧ reads 0x321505A080000000 = some (.pand true false wh)
    ∧ reads 0x332505A080000000 = some (.por false true wh)
    ∧ reads 0x340505A080000000 = some (.pnot wh)
    ∧ reads 0x350505A080000000 = some (.sel wh)
    ∧ reads 0x360505A080000000 = some (.steer wh)
    ∧ reads 0x370105A080000000 = some (.merge (.opB 5) (.slot 2))
    ∧ reads 0x380505A080000000 = some (.pget wh) := by
  decide +kernel

theorem test_decode_narrow_float_1 :
    reads 0x400505A080000000 = some (.fadd ⟨false, .fpcsr⟩ wh)
    ∧ reads 0x419505A080000000 = some (.fsub ⟨true, .rne⟩ wh)
    ∧ reads 0x422505A080000000 = some (.fmul ⟨false, .rtz⟩ wh)
    ∧ reads 0x43B505A080000000 = some (.ffma ⟨true, .rup⟩ wh)
    ∧ reads 0x444505A080000000 = some (.fdiv ⟨false, .rdn⟩ wh)
    ∧ reads 0x458505A080000000 = some (.fsqrt ⟨true, .fpcsr⟩ wh)
    ∧ reads 0x468505A080000000 = some (.fmin true wh)
    ∧ reads 0x470505A080000000 = some (.fmax false wh)
    ∧ reads 0x48E505A080000000 = some (.fcmp true .un wh)
    ∧ reads 0x49A505A080000000 = some (.fcvt ⟨true, .rtz⟩ wh)
    ∧ reads 0x4A1505A090000000 = some (.fcvti ⟨false, .rne⟩ wh true false)
    ∧ reads 0x4BC505A088000000 = some (.icvtf ⟨true, .rdn⟩ wh false true) := by
  decide +kernel

theorem test_decode_narrow_float_2 :
    reads 0x4C8505A080000000 = some (.fabs true wh)
    ∧ reads 0x4D0505A080000000 = some (.fneg false wh)
    ∧ reads 0x4E8505A080000000 = some (.fclass true wh) := by
  decide +kernel

theorem test_decode_memory_1 :
    reads 0x505505A0AF3FFFF8 = some (.ld .s16 wh 23 .acqSys (-8))
    ∧ reads 0x512800000A80000C = some (.st .b32 .onFalse 5 .rel 12)
    ∧ reads 0x523505A082400080 = some (.ldw .b128 wh 1 .acq 128)
    ∧ reads 0x53080000057FFFF0 = some (.stw .b16 .onFalse 2 .relSys (-16))
    ∧ reads 0x546505A086000004 = some (.lds .s32 wh 3 4)
    ∧ reads 0x5538000008000008 = some (.sts .b64 .onFalse 4 8)
    ∧ reads 0x561505A08C000020 = some (.ldsw .b32 wh 6 32)
    ∧ reads 0x572800000E000040 = some (.stsw .b64 .onFalse 7 64)
    ∧ reads 0x58E681A090C00008 = some (.atom .w64 .minu ⟨.onTrue, .slot 1, .slot 2⟩ 8 .acqRel 8)
    ∧ reads 0x592681A093800004 = some (.cas .w32 true ⟨.onTrue, .slot 1, .slot 2⟩ 9 .acqRelSys 4)
    ∧ reads 0x5AA681A094000008 = some (.fatom true .fmax ⟨.onTrue, .slot 1, .slot 2⟩ 10 .plain 8)
    ∧ reads 0x5B180000163FFFC0 = some (.pref .l2 .onFalse 11 (-64)) := by
  decide +kernel

theorem test_decode_memory_2 :
    reads 0x5C38000019400000 = some (.fence .ss .onFalse 12 .sys)
    ∧ reads 0x5D0800001A000080 = some (.clineClean .onFalse 13 128)
    ∧ reads 0x5D1800001C000080 = some (.clineInval .onFalse 14 128)
    ∧ reads 0x5D2800001E000080 = some (.clineFlush .onFalse 15 128)
    ∧ reads 0x5D38000020000080 = some (.clineZero .onFalse 16 128)
    ∧ reads 0x5D48000022000080 = some (.clineReclaim .onFalse 17 128) := by
  decide +kernel

theorem test_decode_sync_and_named_data :
    reads 0x6008000000800010 = some (.sarm .onFalse 0 .rel 16)
    ∧ reads 0x611505A0827FFFF0 = some (.swait true wh 1 .acq (-16))
    ∧ reads 0x6208000005400020 = some (.sadd .onFalse 2 .relSys 32)
    ∧ reads 0x632505A087000030 = some (.sread .target wh 3 .acqSys 48)
    ∧ reads 0x6418000008191200 = some (.want true .onFalse 4 200 9)
    ∧ reads 0x652800000A09A000 = some (.offer false (.byLife 77) .onFalse 5)
    ∧ reads 0x660800000C000000 = some (.wdrop .onFalse 6) := by
  decide +kernel

theorem test_decode_wide_integer_1 :
    reads 0x700505A084300000 = some (.vadd wh .i16 .usat)
    ∧ reads 0x710505A088200000 = some (.vsub wh .i32 .ssat)
    ∧ reads 0x720505A08C000000 = some (.vmul wh .i64 .wrap)
    ∧ reads 0x730505A080100000 = some (.vmulh wh .i8 true)
    ∧ reads 0x740505A084000000 = some (.vmin wh .i16 false)
    ∧ reads 0x750505A088100000 = some (.vmax wh .i32 true)
    ∧ reads 0x760505A08C200000 = some (.vabs wh .i64 true)
    ∧ reads 0x770505A084000000 = some (.vand wh .i16)
    ∧ reads 0x780505A088000000 = some (.vor wh .i32)
    ∧ reads 0x790505A08C000000 = some (.vxor wh .i64)
    ∧ reads 0x7A1505A08C07E000 = some (.vshl wh .i64 (some 63))
    ∧ reads 0x7B0505A084000000 = some (.vshr wh .i16 none) := by
  decide +kernel

theorem test_decode_wide_integer_2 :
    reads 0x7C1505A08000A000 = some (.vsra wh .i8 (some 5))
    ∧ reads 0x7D8505A088000000 = some (.vcmp .gtu wh .i32)
    ∧ reads 0x7E0505A080000000 = some (.vsel wh)
    ∧ reads 0x7F0505A0A0000000 = some (.vrep wh .fp32)
    ∧ reads 0x801505A0801FE000 = some (.vext wh .i8 true (some 127))
    ∧ reads 0x810505A098000000 = some (.vins wh .fp16 none)
    ∧ reads 0x820505A094000000 = some (.vperm wh .e5m2)
    ∧ reads 0x832505A084100000 = some (.vredi .max wh .i16 true)
    ∧ reads 0x840505A088001FF7 = some (.viota wh .i32 (-9))
    ∧ reads 0x853505A088200000 = some (.vdp4 .us wh true) := by
  decide +kernel

theorem test_decode_wide_float_1 :
    reads 0x900505A098800000 = some (.vfadd wh .fp16 .rne false)
    ∧ reads 0x910505A09D400000 = some (.vfsub wh .bf16 .rtz true)
    ∧ reads 0x920505A0A1800000 = some (.vfmul wh .fp32 .rup false)
    ∧ reads 0x930505A09A400000 = some (.vffma wh .fp16 .rdn true)
    ∧ reads 0x940505A09C400000 = some (.vfmin wh .bf16 true)
    ∧ reads 0x950505A0A0000000 = some (.vfmax wh .fp32 false)
    ∧ reads 0x960505A0A0800000 = some (.vfdiv wh .rne false)
    ∧ reads 0x970505A0A1400000 = some (.vfsqrt wh .rtz true)
    ∧ reads 0x980505A0A1800000 = some (.vfrsq wh .rup false)
    ∧ reads 0x990505A0A2400000 = some (.vfexp2 wh .rdn true)
    ∧ reads 0x9A3505A098400000 = some (.vfcmp .le wh .fp16 true)
    ∧ reads 0x9B0505A091610003 = some (.vfcvt wh .e4m3 .fp32 .rtz true true false 3) := by
  decide +kernel

theorem test_decode_wide_float_2 :
    reads 0x9C0505A0A0800000 = some (.vfreda wh .fp32 .rne false)
    ∧ reads 0x9D1505A098400000 = some (.vfredm true wh .fp16 true)
    ∧ reads 0x9E0505A090001F80 = some (.vscaleImm wh .e4m3 (-128))
    ∧ reads 0x9E1505A09C000000 = some (.vscaleReg wh .bf16)
    ∧ reads 0x9E2505A095A00000 = some (.vscaleClear wh .e5m2 .rup true)
    ∧ reads 0x9F0505A080302000 = some (.vpackPack wh .i8 .i16 .fpcsr false true true)
    ∧ reads 0x9F1505A09840A001 = some (.vpackUnpack wh .fp16 .e5m2 true false true) := by
  decide +kernel

theorem test_decode_matrix :
    reads 0xA01505A094F80D00 = some (.mma true false wh ⟨2, 4, 31, .e4m3, .e4m3, false, true, true, 1⟩)
    ∧ reads 0xA11505A09904B200 = some (.mmar true wh ⟨3, 1, 0, .s8, .u8, true, false, false, 2⟩)
    ∧ reads 0xA20505A0A23A7F00 = some (.mmac false wh ⟨4, 2, 7, .fp16, .bf16, true, true, true, 3⟩)
    ∧ reads 0xA31505A0AB481000 = some (.accset true wh 5 3 9 true)
    ∧ reads 0xA40505A0B0000100 = some (.accz wh 6 1)
    ∧ reads 0xA51505A0B8000200 = some (.accld true wh 7 2)
    ∧ reads 0xA60505A088000300 = some (.accst false wh 1 3)
    ∧ reads 0xA70505A090000000 = some (.accrd wh 2)
    ∧ reads 0xA80505A098000100 = some (.accwr wh 3 1)
    ∧ reads 0xA90505A080000200 = some (.mwait false wh 2) := by
  decide +kernel

theorem test_decode_engines_and_streams :
    reads 0xB01505A084800000 = some (.copy .ms wh 9)
    ∧ reads 0xB11505A080000000 = some (.gather true false wh)
    ∧ reads 0xB22505A080000000 = some (.scatter false true wh)
    ∧ reads 0xB30505A098400000 = some (.strin wh 3 2)
    ∧ reads 0xB40505A088600000 = some (.strout wh 1 3)
    ∧ reads 0xB50505A090000000 = some (.srecv wh 2)
    ∧ reads 0xB60505A088000000 = some (.ssend wh 1)
    ∧ reads 0xB70505A080000000 = some (.cwait wh) := by
  decide +kernel

theorem test_decode_threads :
    reads 0xC008000000FC0000 = some (.launch .onFalse 63)
    ∧ reads 0xC12800003FFC0000 = some (.invokeQ true .onFalse 4095)
    ∧ reads 0xC118000000340000 = some (.invokeH false .onFalse 13)
    ∧ reads 0xC208000000000000 = some (.hret .onFalse)
    ∧ reads 0xC308000000000000 = some (.yield .onFalse)
    ∧ reads 0xC408000000000000 = some (.fuse .onFalse)
    ∧ reads 0xC508000000000000 = some (.split .onFalse)
    ∧ reads 0xC65505A080000000 = some (.widf 5 wh)
    ∧ reads 0xC708000000000000 = some (.wake .onFalse)
    ∧ reads 0xC808000000000000 = some (.sleep .onFalse) := by
  decide +kernel

theorem test_decode_system_1 :
    reads 0xD008000001900000 = some (.trap .onFalse 100)
    ∧ reads 0xD108000000000000 = some (.eret .onFalse)
    ∧ reads 0xD20505A080440000 = some (.mfsr wh 0x11)
    ∧ reads 0xD308000000200000 = some (.mtsr .onFalse 0x8)
    ∧ reads 0xD408000000000000 = some (.tlbinvVa .onFalse)
    ∧ reads 0xD418000000000000 = some (.tlbinvAsid .onFalse)
    ∧ reads 0xD428000000000000 = some (.tlbinvAll .onFalse)
    ∧ reads 0xD508000000000000 = some (.tlbsync .onFalse)
    ∧ reads 0xD608000000000000 = some (.vcdef .onFalse)
    ∧ reads 0xD708000000000000 = some (.biasHost .onFalse)
    ∧ reads 0xD718000000000000 = some (.biasDev .onFalse)
    ∧ reads 0xD808000000000000 = some (.namedef .onFalse) := by
  decide +kernel

theorem test_decode_system_2 :
    reads 0xD908000000000000 = some (.htdef .onFalse)
    ∧ reads 0xDA080000001C0000 = some (.bkpt .onFalse 7)
    ∧ reads 0xDB08000000001000 = some (.preempt .onFalse true) := by
  decide +kernel

/-! ### Ill-formed terms that WellFormed refuses, one for each check -/

def badT : Hdr := ⟨.always, .opA 120, .none⟩
def notSlot : Hdr := ⟨.always, .opA 3, .none⟩

theorem test_wf_targets :
    (Instr.mov badT).wf = false ∧ (Instr.mov ⟨.always, .none, .slot 24⟩).wf = false ∧ (Instr.mov ⟨.always, .opB 127, .none⟩).wf = false
    ∧ (Instr.mov ⟨.always, .opC 121, .none⟩).wf = false ∧ (Instr.merge (.pred 122) .none).wf = false
    ∧ (Instr.merge .none (.pred 122)).wf = false ∧ (Instr.mov ⟨.always, .pred 119, .slot 23⟩).wf = true := by decide
theorem test_wf_lsid_order :
    (Instr.ld .u8 hd 24 .plain 0).wf = false ∧ (Instr.ld .u8 hd 0 .rel 0).wf = false ∧ (Instr.ldw .b16 hd 0 .acqRel 0).wf = false
    ∧ (Instr.st .b8 .always 31 .plain 0).wf = false ∧ (Instr.st .b8 .always 0 .acq 0).wf = false ∧ (Instr.lds .u8 hd 25 0).wf = false
    ∧ (Instr.sarm .always 0 .acqSys 0).wf = false ∧ (Instr.swait false hd 0 .relSys 0).wf = false
    ∧ (Instr.fence .full .always 24 .slot).wf = false ∧ (Instr.clineZero .always 30 0).wf = false
    ∧ (Instr.ld .u8 hd 23 .acqSys 0).wf = true := by decide
theorem test_wf_atomics :
    (Instr.atom .w64 .add notSlot 0 .plain 0).wf = false ∧ (Instr.cas .w64 false notSlot 0 .plain 0).wf = false
    ∧ (Instr.fatom true .fadd notSlot 0 .plain 0).wf = false ∧ (Instr.atom .w64 .add hd 0 .acqRelSys 0).wf = true := by decide
theorem test_wf_named :
    (Instr.want true .always 0 0 0).wf = false ∧ (Instr.want false .always 0 1 1).wf = false ∧ (Instr.offer false (.byCount 0) .always 0).wf = false
    ∧ (Instr.offer false (.byLife 0) .always 0).wf = false ∧ (Instr.want true .always 0 1 1).wf = true := by decide
theorem test_wf_wide :
    (Instr.vadd hd .fp32 .wrap).wf = false ∧ (Instr.vshl hd .i8 (some 8)).wf = false ∧ (Instr.vext hd .fp16 true none).wf = false
    ∧ (Instr.vext hd .i32 false (some 32)).wf = false ∧ (Instr.vins hd .i64 (some 16)).wf = false ∧ (Instr.vfadd hd .e4m3 .rne false).wf = false
    ∧ (Instr.vfreda hd .i32 .rne false).wf = false ∧ (Instr.vscaleImm hd .fp16 128).wf = false ∧ (Instr.vscaleImm hd .fp16 (-128)).wf = true := by decide
theorem test_wf_conversions :
    (Instr.vfcvt hd .fp32 .fp32 .rne false false false 0).wf = false ∧ (Instr.vfcvt hd .i32 .i8 .rne false false false 0).wf = false
    ∧ (Instr.vfcvt hd .i64 .fp32 .rne false false false 0).wf = false ∧ (Instr.vfcvt hd .fp16 .fp32 .rne false true false 0).wf = false
    ∧ (Instr.vfcvt hd .fp16 .fp32 .rne false false true 0).wf = false ∧ (Instr.vfcvt hd .fp16 .fp32 .rne false false false 2).wf = false
    ∧ (Instr.vpackPack hd .fp16 .i32 .rne false false false).wf = false ∧ (Instr.vpackPack hd .i8 .i16 .rne false false true).wf = false
    ∧ (Instr.vpackPack hd .i8 .i32 .rne false true false).wf = false ∧ (Instr.vpackPack hd .fp16 .fp32 .rne false true false).wf = false
    ∧ (Instr.vpackUnpack hd .i16 .i32 false false false).wf = false ∧ (Instr.vpackUnpack hd .fp16 .e4m3 false true false).wf = false := by decide
theorem test_wf_matrix :
    (Instr.mma false false hd ⟨0, 5, 0, .fp16, .fp16, false, false, false, 0⟩).wf = false
    ∧ (Instr.mma false false hd ⟨0, 0, 0, .fp16, .s8, false, false, false, 0⟩).wf = false
    ∧ (Instr.mma false false hd ⟨0, 0, 0, .s8, .s8, false, false, true, 0⟩).wf = false
    ∧ (Instr.mma true false hd ⟨0, 0, 0, .e5m2, .e4m3, false, false, false, 0⟩).wf = false
    ∧ (Instr.mma false true hd ⟨0, 0, 0, .e4m3, .e5m2, false, false, false, 0⟩).wf = false
    ∧ (Instr.mmar false hd ⟨0, 1, 0, .s8, .s8, false, false, false, 0⟩).wf = false
    ∧ (Instr.mmar true hd ⟨0, 0, 1, .s8, .s8, false, false, false, 0⟩).wf = false
    ∧ (Instr.mmac true hd ⟨0, 0, 0, .s8, .s8, false, false, false, 0⟩).wf = false
    ∧ (Instr.accset false hd 0 5 0 false).wf = false ∧ (Instr.mwait true hd 1).wf = false := by decide
theorem test_wf_engines_threads_system :
    (Instr.copy .mm hd 1).wf = false ∧ (Instr.strin hd 4 0).wf = false ∧ (Instr.strout hd 2 0).wf = false ∧ (Instr.srecv hd 4).wf = false
    ∧ (Instr.ssend hd 2).wf = false ∧ (Instr.launch .always 64).wf = false ∧ (Instr.widf 6 hd).wf = false ∧ (Instr.mfsr hd 0x006).wf = false
    ∧ (Instr.mtsr .always 0x022).wf = false ∧ (Instr.copy .ms hd 15).wf = true := by decide
theorem test_wf_events :
    (Instr.blockCommit 16384).wf = false ∧ (Instr.mapTimeCheck ⟨16384, 0, 0⟩).wf = false ∧ (Instr.storeDrain 2048).wf = false
    ∧ (Instr.matrixCommandStart 0 4).wf = false ∧ (Instr.copyCommandStart 512 0).wf = false ∧ (Instr.streamPrefetch 0 4).wf = false
    ∧ (Instr.outputElementWrite 0 2).wf = false ∧ (Instr.pagerRetry 4 0).wf = false ∧ (Instr.pagerAbandon 0 64).wf = false
    ∧ (Instr.vcMigrationStart 0 64).wf = false ∧ (Instr.linkDown 32).wf = false ∧ (Instr.birsp 2 0).wf = false
    ∧ (Instr.dependenceReady 0 64).wf = false ∧ (Instr.monitorSample 0 16).wf = false ∧ (Instr.histogramBinOverflow 0 20 0).wf = false
    ∧ (Instr.histogramBinOverflow 0 0 16).wf = false ∧ (Instr.hostMeasurementRequest 8 0).wf = false := by decide

/-! ### Words and worked numbers of the spec -/

/-- Words of the spec's own examples (Tables 3-6, 5-5, 13-3). -/
theorem test_decode_spec_examples :
    (decode 0x3041822050000000).toOption = some (.cmp .gt ⟨.always, .opC 2, .opA 1⟩ .w64 none)
    ∧ (decode 0x6410000000190000).toOption = some (.want true .always 0 200 0)
    ∧ (decode 0xA000800008001E00).toOption = some (.mma false false ⟨.always, .opA 0, .none⟩ ⟨1, 0, 0, .e4m3, .e4m3, true, true, true, 2⟩)
    ∧ (decode 0).toOption = none := by decide +kernel
theorem test_decode_refuses :
    (decode 0x0B00000000000000).toOption = none ∧ (decode 0x1020000000000000).toOption = none ∧ (decode 0x010C000000000000).toOption = none
    ∧ (decode 0x0103000000000000).toOption = none ∧ (decode 0x5030000030000000).toOption = none ∧ (decode 0x2F00000000000000).toOption = none := by
  decide +kernel

/-- The word that `withFetchWord` places runs as the first instruction after reset. -/
def placed (w : Nat) : State := State.reset.withFetchWord 64 w
theorem test_fetched_word_fires :
    (match step (placed 0x0200000020000007) with
      | .next n => (tget n.thr 0).map (fun t : Thread => t.blocks.map fun b => b.entries.map (·.st)) | _ => none) = some [[.fired]] := by decide +kernel
theorem test_table_word : decodeTableWord 64 0x0202800020000007 = some (.movi .none ⟨.always, .slot 0, .none⟩ 7) := by decide +kernel

/-- What write slot 0 holds and the flags that the block has raised after an instruction has fired on narrow operands. -/
def got (i : Instr) (a : W64) (b c : Option Token) : Option (Option Token × BitVec 5) :=
  match exec i (probe (ent 0 (nar a) b c)) with
  | .next n => (tget n.thr 0).bind fun t : Thread => (t.blocks.head?).bind fun y => (y.writes.head?).map fun w => (w.tok, y.flags)
  | .fault _ => none
  | .refused _ => none
def val (v : W64) (fl : BitVec 5) : Option (Option Token × BitVec 5) := some (nar v, fl)

/-- Table 3-5, row by row. -/
theorem test_integer_limits :
    got (.add .w32 .wrap hd none) 0x7FFFFFFF (nar 1) none = val 0xFFFFFFFF80000000 0
    ∧ got (.add .w64 .ssat hd none) 0x7FFFFFFFFFFFFFFF (nar 1) none = val 0x7FFFFFFFFFFFFFFF 0
    ∧ got (.sub .w32 .usat hd none) 3 (nar 5) none = val 0 0
    ∧ got (.mul .w32 .ssat hd none) 0x10000 (nar 0x10000) none = val 0x7FFFFFFF 0
    ∧ got (.mulh .w64 true hd none) 0xFFFFFFFFFFFFFFFF (nar 2) none = val 1 0
    ∧ got (.div .w64 false hd none) 7 (nar 0) none = val 0xFFFFFFFFFFFFFFFF 0
    ∧ got (.rem .w64 false hd none) 7 (nar 0) none = val 7 0
    ∧ got (.div .w64 false hd none) 0x8000000000000000 (nar 0xFFFFFFFFFFFFFFFF) none = val 0x8000000000000000 0 := by decide +kernel
theorem test_integer_limits_2 :
    got (.div .w64 false hd none) 0xFFFFFFFFFFFFFFF9 (nar 2) none = val 0xFFFFFFFFFFFFFFFD 0
    ∧ got (.rem .w64 false hd none) 0xFFFFFFFFFFFFFFF9 (nar 2) none = val 0xFFFFFFFFFFFFFFFF 0
    ∧ got (.abs .w64 false hd) 0x8000000000000000 none none = val 0x8000000000000000 0
    ∧ got (.abs .w64 true hd) 0x8000000000000000 none none = val 0x7FFFFFFFFFFFFFFF 0
    ∧ got (.shl .w32 hd none) 1 (nar 33) none = val 2 0
    ∧ got (.sra .w32 hd none) 0x80000000 (nar 4) none = val 0xFFFFFFFFF8000000 0
    ∧ got (.clz .w64 hd) 0 none none = val 64 0 ∧ got (.ctz .w32 hd) 0 none none = val 32 0
    ∧ got (.extr .w64 false hd none) 0xF00 (nar 0x408) none = val 0xFFFFFFFFFFFFFFFF 0 := by decide +kernel

/-- Table 3-8, row by row, with the flags NV 16, DZ 8, OF 4, UF 2 and NX 1 (R105). -/
theorem test_float_limits :
    got (.fadd ⟨false, .fpcsr⟩ hd) 0x7F800000 (nar 0xFF800000) none = val 0x7FC00000 16
    ∧ got (.fdiv ⟨false, .fpcsr⟩ hd) 0x3F800000 (nar 0) none = val 0x7F800000 8
    ∧ got (.fmul ⟨false, .rtz⟩ hd) 0x7F7FFFFF (nar 0x40000000) none = val 0x7F7FFFFF 5
    ∧ got (.fsqrt ⟨false, .fpcsr⟩ hd) 0x80000000 none none = val 0x80000000 0
    ∧ got (.fmin false hd) 0x7FC00000 (nar 0x3F800000) none = val 0x3F800000 0 := by decide +kernel
theorem test_float_limits_2 :
    got (.fcvti ⟨false, .rtz⟩ hd true false) 0x7149F2CA none none = val 0x7FFFFFFFFFFFFFFF 16
    ∧ got (.fcvti ⟨false, .rtz⟩ hd false false) 0xC0200000 none none = val 0xFFFFFFFFFFFFFFFE 1
    ∧ got (.fcvti ⟨false, .rne⟩ hd false false) 0x40200000 none none = val 2 1
    ∧ got (.icvtf ⟨false, .rne⟩ hd false false) 16777217 none none = val 0x4B800000 1
    ∧ got (.fneg false hd) 0x7FC00001 none none = val 0x7FC00000 0 := by decide +kernel

/-- The map-time pass of the block clip of Table 3-6 finds nothing wrong. -/
theorem test_clip_maps : mapFail (thread (inMap clip)).mapFor (inMap clip) = none := by decide +kernel

/-- A machine in which the save of group 0 is under way, with tables that map the first GiB of the address space at 0x1000 to itself. -/
def saveState (l : Table Thread) (g : Group) : State :=
  { State.reset with
    thr := l, grp := [(0, g)], saves := [⟨true, 0, [none], none⟩]
    hbm := [(0x1000, 1), (0x1001, 0x20), (0x2000, 1), (0x2001, 0x30), (0x3000, 0xC7)] }
/-- A group without threads or units, with a save area. -/
def areaGroup : Group := { group with members := [], n := 0, live := [], save := 0x10000, ptbase := 0x1000 }
/-- Has a write been done, every home having answered? -/
def wrote (id : Nat) (r : Tried Bool) : Bool :=
  match r with
  | .done m true => !m.engLanding id && (m.engSettled id 0 0).2.2 == 0
  | _ => false
theorem wrote_of {id : Nat} {r : Tried Bool} (h : wrote id r = true) :
    ∃ m, r = .done m true ∧ m.engLanding id = false ∧ (m.engSettled id 0 0).2.2 = 0 := by
  unfold wrote at h
  split at h
  · exact ⟨_, rfl, by simpa using h⟩
  · cases h
theorem save_writes :
    let s := saveState [] areaGroup
    wrote s.newUid.1 (s.newUid.2.dieWrite 0 0x1000 s.newUid.1 (s.saveParts areaGroup (s.groupSlots 0) [])) = true := by decide +kernel

/-- Does an attempt wait for what it starts? -/
def acted (r : Tried α) : Bool := match r with | .act _ => true | _ => false
theorem acted_of {r : Tried α} (h : acted r = true) : ∃ m, r = .act m := by
  cases r with
  | act m => exact ⟨m, rfl⟩
  | wait => cases h
  | done _ _ => cases h
theorem word_of {r : State × (Cause ⊕ WLoc)} (h : r.2.isRight = true) : ∃ n w, r = (n, .inr w) := by
  obtain ⟨n, c | w⟩ := r
  · cases h
  · exact ⟨n, w, rfl⟩
def doneGroup : Group := { areaGroup with save := 0, donew := 0x10010 }

theorem witness_SchedulingEvents :
    (∃ s m : State, s.accept 0 0 (window record) = .done m .accepted)
    ∧ (∃ (s : State) (code : Nat) (datum : W64), ∃ m, s.accept 0 0 (window 0) = .done m (.invalid code datum))
    ∧ (∃ (s : State) (reason : Nat), ∃ m, s.accept 0 0 ⟨0, .thread 0 0 0 false, .inr record, none⟩ = .done m (.refused reason))
    ∧ (∃ (s m : State) (reason port : Nat) (p : Msg), s.accept 0 0 ⟨0, .invoke port p, .inr record, none⟩ = .done m (.refused reason))
    ∧ (∃ (s m : State) (reason : Nat), s.accept 0 0 (window record) = .done m (.refused reason))
    ∧ (∃ (s m : State) (reason : Nat), s.accept 0 0 ⟨0, .pager, .inr record, none⟩ = .done m (.refused reason))
    ∧ (∃ s m : State, s.accept 0 0 ⟨0, .window, .inl ⟨globalPa 5 0 0x10000, 0, 1⟩, none⟩ = .act m)
    ∧ (∃ s : State, s.submitsBefore 0 0 (window record) = false ∧ (s.queue 0 0).en = false)
    ∧ (∃ (s : State) (r : QRec), (s.queue 0 0).readyAt = none ∧ (s.queue 0 0).resume = [] ∧ (s.queue 0 0).record = some r ∧ recDepw r.bits = 0)
    ∧ (∃ (s : State) (r : QRec) (w : WLoc), (s.queue 0 0).readyAt = none ∧ (s.queue 0 0).resume = [] ∧ (s.queue 0 0).record = some r
      ∧ recDepw r.bits ≠ 0 ∧ (s.queue 0 0).depLoc = some w ∧ genPassed (s.syncWord w).gen (recDepgen r.bits) = true)
    ∧ (∃ (s : State) (r : QRec) (w : WLoc), (s.queue 0 0).readyAt = none ∧ (s.queue 0 0).resume = [] ∧ (s.queue 0 0).record = some r
      ∧ recDepw r.bits ≠ 0 ∧ (s.queue 0 0).depLoc = some w ∧ genPassed (s.syncWord w).gen (recDepgen r.bits) = false
      ∧ ((s.syncWord w).error = true ∨ (s.syncWord w).never = true) ∧ recDonew r.bits = 0)
    ∧ (∃ (s : State) (r : QRec) (w : WLoc), (s.queue 0 0).readyAt = none ∧ (s.queue 0 0).resume = [] ∧ (s.queue 0 0).record = some r
      ∧ recDepw r.bits ≠ 0 ∧ (s.queue 0 0).depLoc = some w ∧ genPassed (s.syncWord w).gen (recDepgen r.bits) = false
      ∧ ((s.syncWord w).error = true ∨ (s.syncWord w).never = true) ∧ recDonew r.bits ≠ 0
      ∧ s.dieGate (s.queue 0 0).ptb (recDonew r.bits) true = .go)
    ∧ (∃ (s : State) (ptb donew : W64) (n : State) (w : WLoc), donew ≠ 0 ∧ s.dieWord ptb donew .store = (n, .inr w))
    ∧ (∃ s : State, (s.die 0).held = none ∧ ∃ n, s.select 0 = some n)
    ∧ (∃ (s : State) (h : HeldSel), (s.die 0).held = some h ∧ ∃ n, s.place 0 h = some n)
    ∧ (∃ (s : State) (g : Group), s.group 0 = some g ∧ g.started = false ∧ (s.cl (128 * g.die + g.cl)).power = .on)
    ∧ (∃ (s : State) (g : Group), s.group 0 = some g ∧ g.live = [] ∧ g.saved = [] ∧ s.spadInterests 0 = false ∧ g.donew = 0)
    ∧ (∃ (s : State) (g : Group) (n : State) (w : WLoc), s.group 0 = some g ∧ g.live = [] ∧ g.saved = [] ∧ s.spadInterests 0 = false ∧ g.donew ≠ 0
      ∧ s.dieGate g.ptbase g.donew true = .go ∧ ((s.freeGroup 0 g).dropRejects fun t => t / 64 == 0).dieWord g.ptbase g.donew .store = (n, .inr w))
    ∧ (∃ (s : State) (g : Group), s.group 0 = some g ∧ s.saveOf true 0 = none ∧ g.save = 0)
    ∧ (∃ (s : State) (t : Thread), tget s.thr 0 = some t ∧ t.ending = true ∧ t.saving = false ∧ s.drained 0 t = true)
    ∧ (∃ s : State, tget s.thr 0 = none)
    ∧ (∃ (s : State) (t : Thread) (g : Group), tget s.thr 0 = some t ∧ t.ending = false ∧ s.group t.gid = some g ∧ s.saveOf false 0 = none
      ∧ s.saveOf true t.gid = none ∧ g.save = 0)
    ∧ (∃ (s : State) (t : Thread) (g : Group), tget s.thr 0 = some t ∧ t.ending = false ∧ s.group t.gid = some g ∧ s.saveOf false 0 = none
      ∧ s.saveOf true t.gid = none ∧ g.save ≠ 0 ∧ (s.grid (slotGrid 0)).dbg.frozen = false)
    ∧ (∃ s : State, s.group 0 = none ∧ s.saveOf true 0 = none)
    ∧ (∃ (s : State) (g : Group), s.group 0 = some g ∧ s.saveOf true 0 = none ∧ g.save ≠ 0
      ∧ ∀ p ∈ s.groupSlots 0, (s.grid (slotGrid p.1)).dbg.frozen = false)
    ∧ (∃ (s : State) (g : Group) (x : Save), s.group 0 = some g ∧ s.saveOf true 0 = some x
      ∧ (∀ p ∈ s.groupSlots 0, p.2.saving = true ∧ p.2.ending = false ∧ s.saveReady p.1 p.2 = true ∧ s.saveOf false p.1 = none)
      ∧ s.spadInterests 0 = false ∧ s.groupPoison g = true)
    ∧ (∃ (s : State) (g : Group) (x : Save) (m : State), s.group 0 = some g ∧ s.saveOf true 0 = some x
      ∧ (∀ p ∈ s.groupSlots 0, p.2.saving = true ∧ p.2.ending = false ∧ s.saveReady p.1 p.2 = true ∧ s.saveOf false p.1 = none)
      ∧ s.spadInterests 0 = false ∧ s.groupPoison g = false ∧ x.landing = none
      ∧ s.newUid.2.dieWrite g.die g.ptbase s.newUid.1 (s.saveParts g (s.groupSlots 0) (g.saved ++ (s.groupSlots 0).map fun p => p.2.tidx))
          = .done m true ∧ m.engLanding s.newUid.1 = false ∧ (m.engSettled s.newUid.1 0 0).2.2 = 0)
    ∧ (∃ (s m : State) (r : Restore) (g : Group) (l : List Byte), s.restores.find? (fun r => r.die == 0 && r.q == 0) = some r
      ∧ s.group r.item.gid = some g ∧ (s.cl (128 * g.die + g.cl)).power = .on ∧ s.dieRead g.die g.ptbase (r.item.ranges g) = .done m (some l))
    ∧ ∃ (s m : State) (r : Restore) (g : Group), s.restores.find? (fun r => r.die == 0 && r.q == 0) = some r
      ∧ s.group r.item.gid = some g ∧ (s.cl (128 * g.die + g.cl)).power = .on ∧ s.dieRead g.die g.ptbase (r.item.ranges g) = .done m none
      ∧ g.donew = 0 :=
  ⟨⟨queueState openQ, done_eq (by decide +kernel)⟩, ⟨queueState openQ, 1, 0, done_eq (by decide +kernel)⟩,
   ⟨queueState Queue.reset, 7, done_eq (by decide +kernel)⟩,
   ⟨queueState Queue.reset, (done_eq (v := Accept.refused 7) (by decide +kernel)).imp fun _ h => ⟨7, 0, msg, h⟩⟩,
   ⟨queueState Queue.reset, (done_eq (v := Accept.refused 7) (by decide +kernel)).imp fun _ h => ⟨7, h⟩⟩,
   ⟨queueState Queue.reset, (done_eq (v := Accept.refused 7) (by decide +kernel)).imp fun _ h => ⟨7, h⟩⟩,
   ⟨queueState openQ, acted_of (by decide +kernel)⟩,
   ⟨queueState Queue.reset, by decide +kernel, by decide +kernel⟩,
   ⟨queueState { openQ with store := [qrec record] }, _, rfl, rfl, rfl, by decide +kernel⟩,
   ⟨{ queueState { openQ with store := [qrec (record ||| (16 <<< 192))], depLoc := some (.pool 0 0) } with pool := [(10, 1)] }, _, _, rfl, rfl, rfl,
    by decide +kernel, rfl, by decide +kernel⟩,
   ⟨{ queueState { openQ with store := [qrec (record ||| (16 <<< 192))], depLoc := some (.pool 0 0) } with pool := [(13, 2)] }, _, _, rfl, rfl, rfl,
    by decide +kernel, rfl, by decide +kernel, by decide +kernel, by decide +kernel⟩,
   ⟨{ queueState { openQ with store := [qrec (record ||| (16 <<< 192) ||| (0x10010 <<< 256))], depLoc := some (.pool 0 0) } with pool := [(13, 4)] }, _, _,
    rfl, rfl, rfl, by decide +kernel, rfl, by decide +kernel, by decide +kernel, by decide +kernel, go_of (by decide +kernel)⟩,
   (by
    obtain ⟨n, w, h⟩ := word_of (r := (saveState [] areaGroup).dieWord 0x1000 0x10010 .store) (by decide +kernel)
    exact ⟨saveState [] areaGroup, 0x1000, 0x10010, n, w, by decide, h⟩),
   ⟨queueState { openQ with store := [qrec record], readyAt := some 0 }, rfl, Option.isSome_iff_exists.mp (by decide +kernel)⟩,
   ⟨{ State.reset with dies := [(0, { Die.reset with held := some ⟨0, .group (qrec record) 0, 0, 0⟩ })] }, _, rfl, Option.isSome_iff_exists.mp (by decide +kernel)⟩,
   ⟨withGroup { group with started := false }, _, rfl, rfl, rfl⟩, ⟨withGroup { group with live := [] }, _, rfl, rfl, rfl, rfl, rfl⟩,
   (by
    obtain ⟨n, w, h⟩ := word_of (r := (((saveState [] doneGroup).freeGroup 0 doneGroup).dropRejects fun t => t / 64 == 0).dieWord 0x1000 0x10010 .store)
      (by decide +kernel)
    exact ⟨saveState [] doneGroup, doneGroup, n, w, rfl, rfl, rfl, by decide +kernel, by decide, go_of (by decide +kernel), h⟩),
   ⟨withGroup group, _, rfl, rfl, rfl⟩, ⟨withThread { Thread.launch 16 0 0 with ending := true }, _, rfl, rfl, rfl, by decide +kernel⟩,
   ⟨State.reset, rfl⟩, ⟨withGroup group, _, _, rfl, rfl, rfl, rfl, rfl, rfl⟩,
   ⟨withGroup { group with save := 0x10000 }, _, _, rfl, rfl, rfl, rfl, rfl, by decide +kernel, rfl⟩, ⟨State.reset, rfl, rfl⟩,
   ⟨withGroup { group with save := 0x10000 }, _, rfl, rfl, by decide +kernel, by decide +kernel⟩,
   ⟨{ saveState [(0, { thread empty with blocks := [], saving := true })] group with coh := { Coh.reset with poisonPool := [0] } }, _, _, rfl, rfl,
    by decide +kernel, by decide +kernel, by decide +kernel⟩,
   (by
    obtain ⟨m, h⟩ := wrote_of save_writes
    exact ⟨saveState [] areaGroup, areaGroup, _, m, rfl, rfl, by decide +kernel, by decide +kernel, by decide +kernel, rfl, h⟩),
   ⟨{ probe at8 with restores := [⟨0, 0, ⟨0, false, false, 0, 0, []⟩, []⟩] }, _, _, _, _, rfl, rfl, rfl, by rfl⟩,
   ⟨{ probe at8 with restores := [⟨0, 0, ⟨0, false, false, 0, 0, [⟨0, 0, 0, [], none, [], []⟩]⟩, [1]⟩] }, _, _, _, rfl, rfl, rfl, by rfl, rfl⟩⟩

end Sys2Proof.Tests
end

section
/-! SUPPORT. What the events of the directory do, one lemma a branch (14 R373 to R386, 09 R283), and the settlement of `Obligations.DirectoryEvents`. -/

namespace Sys2Proof.Machine

/-! ### What the black box and the trace path leave of a cluster: its power (R374) -/

/-- Every cluster has the power state that it had. -/
def SamePower (s t : State) : Prop := ∀ c, (t.cl c).power = (s.cl c).power

theorem SamePower.refl (s : State) : SamePower s s := fun _ => rfl
theorem SamePower.trans {s t u : State} (h : SamePower s t) (k : SamePower t u) : SamePower s u := fun c => (k c).trans (h c)

theorem samePower_modDie (s : State) (d : Nat) (f : Die → Die) : SamePower s (s.modDie d f) := fun _ => rfl

theorem samePower_modCl (s : State) (c : Nat) {f : Cluster → Cluster} (h : ∀ x, (f x).power = x.power) : SamePower s (s.modCl c f) := by
  intro k
  rw [modCl_cl]
  split
  · next e => rw [h, e]
  · rfl

theorem samePower_toTrace (s : State) (c : Nat) (sh : Shaving) : SamePower s (s.toTrace c sh) := by
  unfold State.toTrace
  split
  · exact samePower_modCl _ _ fun _ => rfl
  · exact (samePower_modDie _ _ _).trans (samePower_modCl _ _ fun _ => rfl)

theorem samePower_endRun (s : State) (c : Nat) : SamePower s (s.endRun c) := by
  simp only [State.endRun]
  split
  · exact .refl _
  · have closed : ∀ f, SamePower s ((s.modDie (clusterDie c) f).modCl c fun x => { x with lossRun := 0 }) := fun _ =>
      (samePower_modDie _ _ _).trans (samePower_modCl _ _ fun _ => rfl)
    split
    · exact (closed _).trans (samePower_toTrace _ _ _)
    · exact closed _

theorem samePower_shave (s : State) (c ty gslot tag info : Nat) (addr value : W64) :
    SamePower s (s.shave c ty gslot tag info addr value) := by
  unfold State.shave
  extract_lets sh d boxed
  have hbox : SamePower s boxed := by
    unfold boxed
    split
    · exact samePower_modDie _ _ _
    · exact .refl _
  refine hbox.trans ?_
  split
  · split
    · exact (samePower_endRun _ _).trans (samePower_toTrace _ _ _)
    · exact samePower_toTrace _ _ _
  · exact .refl _

theorem samePower_setAgent (s : State) (d a st : Nat) : SamePower s (s.setAgent d a st) := by
  unfold State.setAgent
  split
  · exact .refl _
  · exact (samePower_modDie _ _ _).trans (samePower_shave _ _ _ _ _ _ _ _)

theorem samePower_clusterAgent (s : State) (c st : Nat) : SamePower s (s.clusterAgent c st) := by
  refine List.foldlRecOn (motive := SamePower s) _ _ (.refl s) fun m hm d _ => ?_
  split
  · exact hm
  · exact hm.trans (samePower_setAgent _ _ _ _)

/-- R374: a cluster in RETENTION that a probe reaches is on. -/
theorem wakeCluster_power {s : State} {c : Nat} (h : (s.cl c).power = .retention) : ((s.wakeCluster c).cl c).power = .on := by
  rw [State.wakeCluster, if_pos h, samePower_clusterAgent, modCl_cl, if_pos rfl]

/-! ### A read miss at the home (R377) -/

section Events
variable {s : State} {cl line : Nat}

/-- A fill that no grant is on its way to, of a line of the module's HBM, is served by the line's directory slice. -/
theorem exec_directoryReadMiss_own {f : Fill} (hf : s.openFill cl line = some f)
    (hg : ∀ g ∈ s.coh.grants, (g.cl == cl && g.line == line) = false) (hd : lineDev line = s.dev) (hla : lineLa line < 2 ^ 40) :
    exec (.directoryReadMiss cl line) s = s.serveOwn cl line f := by
  have hany : (s.coh.grants.any fun g => g.cl == cl && g.line == line) = false := by simpa using hg
  show execDirectoryReadMiss cl line s = _
  simp only [execDirectoryReadMiss, hf, hany, hd, if_pos hla, ne_eq, not_true_eq_false, Bool.false_eq_true, if_false]

/-- Outside HOST bias a line that is not poisoned is allocated, its sharer added, and its bytes granted as its home holds them. -/
theorem serveOwn_grants {f : Fill} (y : Nat) (hy : y = lineLa line / 128) (ha : (s.die (homeDie (128 * y))).agent cl ≠ 2)
    (hgo : s.gate y false (some (.fill cl line)) = .go) (hl : s.lineLoad y < 127) (hp : s.poisoned y = false) (hb : s.biasOf (y / 32) ≠ .host) :
    let n := (s.allocate y f.vc.toNat).addSharer y (some cl)
    s.serveOwn cl line f = .next (n.sendGrant cl line (n.dirEnt y).seq (n.homeLine y) false) := by
  subst hy
  have hload : ¬ 127 ≤ s.lineLoad (lineLa line / 128) := Nat.not_le.mpr hl
  have hloose : (s.biasOf (lineLa line / 128 / 32) == Bias.host) = false := beq_eq_false_iff_ne.mpr hb
  simp only [State.serveOwn, if_neg ha, hgo, if_neg hload, hp, hloose, Bool.false_eq_true, if_false]

/-! ### Writes and evictions at a slice (R378, R283) -/

theorem exec_directoryWrite_of_go (data : WideBits) (mask : BitVec 128) (hline : line < 2 ^ 33)
    (hgo : s.lineGate (homeDie (128 * line)) (s.ownKey line) true none = .go) :
    exec (.directoryWrite line data mask) s = .next (s.homeWrite line 0 (maskedBytes data mask) .engine) := by
  show execDirectoryWrite line data mask s = _
  simp only [execDirectoryWrite, if_neg (Nat.not_le.mpr hline), hgo]

section Eviction
variable {e : DirEnt} (he : tget s.coh.dir line = some e) (hg : ∀ g ∈ s.coh.grants, (g.line == s.ownKey line) = false)
include he hg

/-- An entry with sharers sends a round of probes, or as much of it as the bound of R379 lets go, and is tried again. -/
theorem exec_directoryEntryEviction_shared (hs : e.sharers ≠ []) :
    exec (.directoryEntryEviction line) s =
      match s.probeGate line with
      | .wait => .fault .notReady
      | .act m => .next (m.post [.directoryEntryEviction line])
      | .go => .next ((s.probeAll line none).post [.directoryEntryEviction line]) := by
  have hany : (s.coh.grants.any fun g => g.line == s.ownKey line) = false := by simpa using hg
  have hempty : (!e.sharers.isEmpty) = true := by simpa using hs
  show execDirectoryEntryEviction line s = _
  cases hgate : s.probeGate line <;>
    simp only [execDirectoryEntryEviction, he, hany, hempty, hgate, Bool.false_eq_true, if_false, if_true]

/-- An entry whose probes are all answered is freed, its line written back if it is dirty. -/
theorem exec_directoryEntryEviction_freed (hs : e.sharers = []) (hu : e.unacked = 0) :
    exec (.directoryEntryEviction line) s =
      .next { s.dropLine line with coh := { (s.dropLine line).coh with dir := tdel (s.dropLine line).coh.dir line } } := by
  have hany : (s.coh.grants.any fun g => g.line == s.ownKey line) = false := by simpa using hg
  show execDirectoryEntryEviction line s = _
  simp [execDirectoryEntryEviction, he, hany, hs, hu]

end Eviction

/-! ### Grants and answers at their ends (R379, Table 14-2) -/

theorem exec_grantArrival_of_find {g : Grant} (hg : s.coh.grants.find? (fun g => g.cl == cl && g.line == line) = some g) :
    let m : State := { s with coh := { s.coh with grants := (takeFirst (fun (x : Grant) => x.cl == cl && x.line == line) s.coh.grants).2 } }
    exec (.grantArrival cl line) s = .next (match s.openFill cl line with | none => m | some f => m.fillWith f g) := by
  show execGrantArrival cl line s = _
  simp only [execGrantArrival, hg]
  rfl

/-- R375: a late answer of a DEAD agent changes nothing. -/
theorem exec_probeResponse_dead (h : (s.die (homeDie (128 * line))).agent cl = 2) : exec (.probeResponse cl line) s = .next s :=
  if_pos h

theorem exec_probeResponse_awaited (h : (s.die (homeDie (128 * line))).agent cl ≠ 2) (ha : s.awaiting cl line = true) :
    exec (.probeResponse cl line) s = .next ((s.answered cl line).modDir line fun e => { e with unacked := e.unacked - 1 }) :=
  (if_neg h).trans (if_pos ha)

/-! ### Deadlines (R374, R376, R385) -/

/-- One answer of an agent that is overdue at a die makes the agent DEAD there. -/
theorem exec_homeTimeout_of_overdue {w : Await} (hw : w ∈ s.coh.awaits) (hlate : w.sent + w.limit ≤ s.ns9) :
    let m := s.setAgent w.die w.agent 2
    exec (.homeTimeout w.die w.agent) s = .next (if w.agent < 1024 then m.deadCluster w.die w.agent
      else if w.agent = hostAgent then m.deadHost w.die else m.deadModule w.die ((w.agent - 1024) / 4)) := by
  have hmem : w ∈ s.coh.awaits.filter fun x => x.die == w.die && x.agent == w.agent := List.mem_filter.mpr ⟨hw, by simp⟩
  have hany : ((s.coh.awaits.filter fun x => x.die == w.die && x.agent == w.agent).any fun x => decide (x.sent + x.limit ≤ s.ns9)) = true :=
    List.any_eq_true.mpr ⟨w, hmem, decide_eq_true hlate⟩
  show execHomeTimeout w.die w.agent s = _
  unfold execHomeTimeout
  split
  · next hnil => exact absurd (hnil ▸ hmem) List.not_mem_nil
  · exact if_pos hany

theorem exec_requesterDeadlineExpiry_of_overdue {id : Nat} {r : Req} (hr : s.coh.reqs.find? (·.id == id) = some r)
    (hlate : r.issued + 450000 ≤ s.ns9) : exec (.requesterDeadlineExpiry id) s = .next (s.failReq r) := by
  show execRequesterDeadlineExpiry id s = _
  simp only [execRequesterDeadlineExpiry, hr, if_pos hlate]

end Events

/-- Settles O39: each clause is the lemma of its event's branch; that a woken cluster is on rests on `samePower_clusterAgent`. -/
theorem directoryEvents : Obligations.DirectoryEvents := by
  intro s cl line
  refine ⟨?readMiss, fun data mask => exec_directoryWrite_of_go data mask, ?eviction, fun _ => rfl, wakeCluster_power,
    fun _ => exec_grantArrival_of_find, exec_probeResponse_dead, exec_probeResponse_awaited, ?homeTimeout,
    fun _ _ => exec_requesterDeadlineExpiry_of_overdue⟩
  case readMiss =>
    intro f hf hg hd hla y ha hgo hl hp hb
    exact (exec_directoryReadMiss_own hf hg hd hla).trans (serveOwn_grants y rfl ha hgo hl hp hb)
  case eviction =>
    refine fun e he hg => ⟨fun hs => ⟨fun hgo => ?_, fun m hact => ?_⟩, exec_directoryEntryEviction_freed he hg⟩
    · rw [exec_directoryEntryEviction_shared he hg hs, hgo]
    · rw [exec_directoryEntryEviction_shared he hg hs, hact]
  case homeTimeout =>
    rintro _ _ w hw rfl rfl hlate
    exact exec_homeTimeout_of_overdue hw hlate

end Sys2Proof.Machine
end

section
/-! SUPPORT. What the events of the link, of the invocation pages and of the configuration blocks do, one lemma a branch (14 R392 to R395, 11 R315,
R316, R319), and the settlement of `Obligations.LinkAndWindowEvents`. -/

namespace Sys2Proof.Machine

/-! ### A flit at a port that is up (R392, R393, R395) -/

section Flits
variable {s : State} {port : Nat} {beats : List (BitVec 128)} (hup : (s.port port).up = true)
include hup

theorem exec_flitReceive_damaged (hok : flitOk beats = false) : exec (.flitReceive port beats) s = .next (s.badFlit port true) := by
  show execFlitReceive port beats s = _
  simp only [execFlitReceive, hup, hok, Bool.true_eq_false, Bool.not_false, if_false, if_true]

variable (hok : flitOk beats = true)
include hok

/-- While a replay is awaited, a whole flit of another type than the one that carries messages changes nothing. -/
theorem exec_flitReceive_awaitingReplay (hwant : (s.port port).wantReplay = true) (htype : flitType (beats.headD 0) ≠ 1) :
    exec (.flitReceive port beats) s = .next s := by
  have hheld : ((s.port port).wantReplay && flitType (beats.headD 0) != 1) = true := by
    rw [hwant, Bool.true_and]
    exact bne_iff_ne.mpr htype
  show execFlitReceive port beats s = _
  simp only [execFlitReceive, hup, hok, hheld, Bool.true_eq_false, Bool.not_true, Bool.false_eq_true, if_false, if_true]

variable (hpass : (s.port port).wantReplay = false ∨ flitType (beats.headD 0) = 1)
include hpass

theorem exec_flitReceive_outOfSequence (hseq : flitSeq (beats.headD 0) ≠ (s.port port).rxNext) :
    exec (.flitReceive port beats) s = .next (s.badFlit port false) := by
  have hheld : ((s.port port).wantReplay && flitType (beats.headD 0) != 1) = false :=
    Bool.and_eq_false_iff.mpr (hpass.imp_right bne_eq_false_iff_eq.mpr)
  show execFlitReceive port beats s = _
  simp only [execFlitReceive, hup, hok, hheld, hseq, ne_eq, not_false_eq_true, Bool.true_eq_false, Bool.not_true, Bool.false_eq_true,
    if_false, if_true]

/-- A flit in sequence gives its message beats, if its type carries them, then its credits; one that asks for a replay then gets it. -/
theorem exec_flitReceive_inSequence (hseq : flitSeq (beats.headD 0) = (s.port port).rxNext) :
    let h := beats.headD 0
    let good (s : State) : State := (s.modPort port fun p => p.takeCredits h).sendHeld port
    exec (.flitReceive port beats) s = .next (
      if flitType h = 1 then
        good (s.modPort port fun p => (beats.drop 1).zipIdx.foldl (fun (p : Port) b => p.takeBeat (flitSom h b.2) b.1)
          { p with rxNext := p.rxNext + 1, rxSeen := flitSeq h, wantReplay := false, fails := 0 })
      else if flitType h = 2 then (good s).modPort port fun p => p.replayFrom (flitAck h + 1)
      else good s) := by
  have hheld : ((s.port port).wantReplay && flitType (beats.headD 0) != 1) = false :=
    Bool.and_eq_false_iff.mpr (hpass.imp_right bne_eq_false_iff_eq.mpr)
  intro h good
  show execFlitReceive port beats s = _
  simp only [execFlitReceive, hup, hok, hheld, hseq, ne_eq, not_true_eq_false, Bool.true_eq_false, Bool.not_true, Bool.false_eq_true, if_false]
  split
  · next htype => rw [if_pos htype, ← hseq]
  · next htype => rw [if_neg (by rw [htype]; decide), if_pos htype]
  · next hmsg hask => rw [if_neg hmsg, if_neg hask]

end Flits

theorem exec_queueConfigWrite_queue (s : State) (die q : Nat) (word : BitVec 3) (v : W64) :
    ∃ n, exec (.queueConfigWrite die q word v) s = .next n ∧ n.queue die q = (s.queue die q).write word.toNat v :=
  ⟨_, rfl, (modQueue_queue ..).trans (if_pos ⟨rfl, rfl⟩)⟩

/-- Settles O51: a flit goes through the tests of R393 in order, each of them a lemma; the other events are their own definitions. -/
theorem linkAndWindowEvents : Obligations.LinkAndWindowEvents := by
  intro s port
  refine ⟨fun _ => rfl, rfl, fun beats hup => ⟨exec_flitReceive_damaged hup, fun hok => ⟨exec_flitReceive_awaitingReplay hup hok,
    fun hpass => ⟨exec_flitReceive_outOfSequence hup hok hpass, exec_flitReceive_inSequence hup hok hpass⟩⟩⟩,
    fun _ _ _ => rfl, exec_queueConfigWrite_queue s⟩

end Sys2Proof.Machine
end

section
/-! SUPPORT. What the events of the scheduler do, one lemma a branch (11 R313 to R334), and the settlement of `Obligations.SchedulingEvents`. -/

namespace Sys2Proof.Machine

/-! ### The end of a submission (R313, R317, R319, R322) -/

section Acceptance
variable {s m : State} {die q : Nat} {r : Submission}

theorem exec_recordAcceptance_accepted (h : s.accept die q r = .done m .accepted) :
    exec (.recordAcceptance die q r) s = .next (match r.src with | .invoke port p => m.respond port p 0x26 0 [] | _ => m) := by
  show execRecordAcceptance die q r s = _
  cases hsrc : r.src <;> simp only [execRecordAcceptance, h, hsrc]

theorem exec_recordAcceptance_invalid {code : Nat} {datum : W64} (h : s.accept die q r = .done m (.invalid code datum)) :
    exec (.recordAcceptance die q r) s = .next (match r.src with
      | .invoke port p => (m.report die q 2 p.src.toNat (BitVec.ofNat 64 (invHidx p))).respond port p 0x26 0 []
      | _ => m.report die q code 0 datum) := by
  show execRecordAcceptance die q r s = _
  cases hsrc : r.src <;> simp only [execRecordAcceptance, h, hsrc]

/-- A refusal goes back to where the submission came from; the pager's has no one to tell. -/
theorem exec_recordAcceptance_refused {reason : Nat} (h : s.accept die q r = .done m (.refused reason)) :
    (∀ slot va a sup, r.src = .thread slot va a sup →
      exec (.recordAcceptance die q r) s = .next (m.modThread slot (·.reject reason q s.dev)))
    ∧ (∀ port p, r.src = .invoke port p →
      exec (.recordAcceptance die q r) s = .next (m.respond port p 0x26 (BitVec.ofNat 16 reason) []))
    ∧ (r.src = .window → exec (.recordAcceptance die q r) s = .next (m.report die q 6 reason (BitVec.ofNat 64 q)))
    ∧ (r.src = .pager → exec (.recordAcceptance die q r) s = .next m) := by
  refine ⟨fun _ _ _ _ hsrc => ?_, fun _ _ hsrc => ?_, fun hsrc => ?_, fun hsrc => ?_⟩ <;>
    (show execRecordAcceptance die q r s = _; simp only [execRecordAcceptance, h, hsrc])

theorem exec_recordAcceptance_act (h : s.accept die q r = .act m) :
    exec (.recordAcceptance die q r) s = .next { m with agenda := .recordAcceptance die q r :: m.agenda } := by
  show execRecordAcceptance die q r s = _
  simp only [execRecordAcceptance, h]

/-- The first test of R317: a queue with EN = 0 takes nothing. -/
theorem accept_disabled (hb : s.submitsBefore die q r = false) (hen : (s.queue die q).en = false) :
    s.accept die q r = .done s (.refused 7) := by
  simp only [State.accept, hb, hen, Bool.not_false, Bool.false_eq_true, if_false, if_true]

end Acceptance

/-! ### Operations on a completion word (R323, R330, R334) -/

theorem doneGate_of_reached {s : State} {ptb donew : W64} (h : donew = 0 ∨ s.dieGate ptb donew true = .go) (r : Out) :
    s.doneGate ptb donew r = r := by
  unfold State.doneGate
  split
  · rfl
  · next hne => rw [h.resolve_left hne, Gate.out]

theorem setErrDone_none (s : State) {ptb donew : W64} (code : Nat) (h : donew = 0) : s.setErrDone ptb donew code = s := if_pos h

theorem setErrDone_word {s n : State} {ptb donew : W64} {w : WLoc} (code : Nat) (h : donew ≠ 0) (hw : s.dieWord ptb donew .store = (n, .inr w)) :
    s.setErrDone ptb donew code = n.setErr w code := by
  simp only [State.setErrDone, if_neg h, hw]

/-! ### A queue's head (R323) -/

section Head
variable {s : State} {die q : Nat} {r : QRec}
  (hidle : (s.queue die q).readyAt = none) (hres : (s.queue die q).resume = []) (hrec : (s.queue die q).record = some r)
include hidle hres hrec

theorem exec_dependenceReady_free (hdep : recDepw r.bits = 0) :
    exec (.dependenceReady die q) s = .next (s.modQueue die q fun x => { x with readyAt := some s.ns9 }) := by
  show execDependenceReady die q s = _
  simp only [execDependenceReady, hidle, hres, hrec, Option.isSome_none, List.isEmpty_nil, Bool.not_true, Bool.false_eq_true, if_false,
    if_pos hdep]

variable {w : WLoc} (hdep : recDepw r.bits ≠ 0) (hloc : (s.queue die q).depLoc = some w)
include hdep hloc

theorem exec_dependenceReady_passed (hpass : genPassed (s.syncWord w).gen (recDepgen r.bits) = true) :
    exec (.dependenceReady die q) s = .next (s.modQueue die q fun x => { x with readyAt := some s.ns9 }) := by
  show execDependenceReady die q s = _
  simp only [execDependenceReady, hidle, hres, hrec, hloc, hpass, Option.isSome_none, List.isEmpty_nil, Bool.not_true, Bool.false_eq_true,
    if_false, if_neg hdep, if_true]

/-- A record whose dependence word shows ERROR or NEVER is abandoned, once its completion word can be reached. -/
theorem exec_dependenceReady_abandoned (hpass : genPassed (s.syncWord w).gen (recDepgen r.bits) = false)
    (hfail : (s.syncWord w).error = true ∨ (s.syncWord w).never = true)
    (hdone : recDonew r.bits = 0 ∨ s.dieGate (s.queue die q).ptb (recDonew r.bits) true = .go) :
    exec (.dependenceReady die q) s = .next (s.abandonHead die q r 0x04 (s.syncWord w).ecode) := by
  have hlost : ((s.syncWord w).error || (s.syncWord w).never) = true := by simpa using hfail
  show execDependenceReady die q s = _
  simp only [execDependenceReady, hidle, hres, hrec, hloc, hpass, hlost, Option.isSome_none, List.isEmpty_nil, Bool.not_true,
    Bool.false_eq_true, if_false, if_neg hdep, if_true, doneGate_of_reached hdone]

end Head

/-! ### The distributor (R324) -/

theorem exec_distributorStep_selects {s n : State} {die : Nat} (hheld : (s.die die).held = none) (hsel : s.select die = some n) :
    exec (.distributorStep die) s = .next n := by
  show execDistributorStep die s = _
  simp only [execDistributorStep, hheld, Option.bind_none, hsel]

/-- A held group that is placed is followed by a selection in the same step, where one can be made (log entry 72). -/
theorem exec_distributorStep_places {s n : State} {die : Nat} {h : HeldSel} (hheld : (s.die die).held = some h)
    (hplace : s.place die h = some n) :
    let m := n.modDie die fun y => { y with held := none }
    exec (.distributorStep die) s = .next ((m.select die).getD m) := by
  show execDistributorStep die s = _
  simp only [execDistributorStep, hheld, Option.bind_some, hplace]

/-! ### The first fetch of a group (R328): a grant leaves the groups as they are -/

@[simp] theorem toTrace_grp (s : State) (c : Nat) (sh : Shaving) : (s.toTrace c sh).grp = s.grp := by
  unfold State.toTrace
  split <;> rfl

@[simp] theorem endRun_grp (s : State) (c : Nat) : (s.endRun c).grp = s.grp := by
  simp only [State.endRun]
  split
  · rfl
  · split <;> simp

@[simp] theorem shave_grp (s : State) (c ty gslot tag info : Nat) (addr value : W64) :
    (s.shave c ty gslot tag info addr value).grp = s.grp := by
  unfold State.shave
  extract_lets sh d boxed
  have hbox : boxed.grp = s.grp := by
    unfold boxed
    split <;> rfl
  rw [← hbox]
  split
  · rw [toTrace_grp]
    split
    · exact endRun_grp _ _
    · rfl
  · rfl

@[simp] theorem grant_grp (s : State) (slot : Nat) (t : Thread) (addr : W64) (redirected shadow : Bool) :
    (s.grant slot t addr redirected shadow).grp = s.grp := by
  simp only [State.grant, shave_grp, modThread_grp]
  rfl

theorem group_of_grp_eq {s n : State} (h : n.grp = s.grp) (gid : Nat) : n.group gid = s.group gid := congrArg (tget · gid) h

theorem modGroup_group {s : State} {gid : Nat} {g : Group} (hg : s.group gid = some g) (f : Group → Group) :
    (s.modGroup gid f).group gid = some (f g) := by
  rw [State.group, modGroup_grp, if_pos rfl, show tget s.grp gid = some g from hg, Option.map_some]

theorem exec_firstBlockFetch_started {s : State} {gid : Nat} {g : Group} (hg : s.group gid = some g) (hst : g.started = false)
    (hon : (s.cl (128 * g.die + g.cl)).power = .on) :
    ∃ n, exec (.firstBlockFetch gid) s = .next n ∧ n.group gid = some { g with started := true } := by
  show ∃ n, execFirstBlockFetch gid s = .next n ∧ _
  simp only [execFirstBlockFetch, hg, hst, hon, ne_eq, not_true_eq_false, Bool.false_eq_true, if_false, Host.Outcome.next.injEq,
    exists_eq_left']
  refine (group_of_grp_eq ?grants gid).trans (modGroup_group hg fun g => { g with started := true })
  refine List.foldlRecOn (motive := fun n : State => n.grp = _) _ _ rfl fun n hn slot _ => ?_
  split
  · exact hn
  · split
    · exact (grant_grp ..).trans hn
    · exact hn

/-! ### Ends of threads and groups (R329, R330) -/

section GroupEnd
variable {s : State} {gid : Nat} {g : Group} (hg : s.group gid = some g) (hlive : g.live = []) (hsaved : g.saved = [])
  (hspad : s.spadInterests gid = false)
include hg hlive hsaved hspad

theorem exec_groupEnd_silent (hdone : g.donew = 0) :
    exec (.groupEnd gid) s = .next ((s.freeGroup gid g).dropRejects fun t => t / 64 == gid) := by
  show execGroupEnd gid s = _
  simp only [execGroupEnd, hg, hlive, hsaved, hspad, List.isEmpty_nil, Bool.not_true, Bool.or_self, Bool.false_eq_true, if_false,
    doneGate_of_reached (.inl hdone), if_pos hdone]

theorem exec_groupEnd_arrives {n : State} {w : WLoc} (hdone : g.donew ≠ 0) (hgo : s.dieGate g.ptbase g.donew true = .go)
    (hw : ((s.freeGroup gid g).dropRejects fun t => t / 64 == gid).dieWord g.ptbase g.donew .store = (n, .inr w)) :
    exec (.groupEnd gid) s = .next (n.arrive w 1) := by
  show execGroupEnd gid s = _
  simp only [execGroupEnd, hg, hlive, hsaved, hspad, List.isEmpty_nil, Bool.not_true, Bool.or_self, Bool.false_eq_true, if_false,
    doneGate_of_reached (.inr hgo), if_neg hdone, hw]

end GroupEnd

theorem exec_slotRelease_drained {s : State} {slot : Nat} {t : Thread} (ht : tget s.thr slot = some t) (hend : t.ending = true)
    (hsav : t.saving = false) (hdr : s.drained slot t = true) : exec (.slotRelease slot) s = .next (s.freeSlot slot t) := by
  show execSlotRelease slot s = _
  simp only [execSlotRelease, ht, hend, hsav, hdr, Bool.not_true, Bool.or_self, Bool.false_eq_true, if_false]

/-! ### The save of a slot (R331, R334) -/

theorem exec_slotSave_gone {s : State} {slot : Nat} (word : Option WLoc) (ht : tget s.thr slot = none) :
    exec (.slotSave slot word) s = .next (s.arriveOpt word 1) := by
  show execSlotSave slot word s = _
  simp only [execSlotSave, ht]

section SlotSave
variable {s : State} {slot : Nat} (word : Option WLoc) {t : Thread} {g : Group} (ht : tget s.thr slot = some t) (hend : t.ending = false)
  (hg : s.group t.gid = some g) (hone : s.saveOf false slot = none) (hall : s.saveOf true t.gid = none)
include ht hend hg hone hall

theorem exec_slotSave_refused (harea : g.save = 0) : exec (.slotSave slot word) s = .next (s.setErrOpt word 0x51) := by
  show execSlotSave slot word s = _
  simp only [execSlotSave, ht, hend, hg, hone, hall, Bool.false_eq_true, if_false, if_pos harea]

theorem exec_slotSave_begins (harea : g.save ≠ 0) (hfr : (s.grid (slotGrid slot)).dbg.frozen = false) :
    exec (.slotSave slot word) s =
      .next { s.stopThread slot with saves := (s.stopThread slot).saves ++ [⟨false, slot, [word], none⟩] } := by
  show execSlotSave slot word s = _
  simp only [execSlotSave, ht, hend, hg, hone, hall, hfr, Bool.false_eq_true, if_false, if_neg harea]

end SlotSave

/-! ### The save of a group (R332, R334) -/

theorem exec_groupSave_gone {s : State} {gid : Nat} (word : Option WLoc) (hg : s.group gid = none) (hall : s.saveOf true gid = none) :
    exec (.groupSave gid word) s = .next (s.arriveOpt word 1) := by
  show execGroupSave gid word s = _
  simp only [execGroupSave, hg, hall]

section GroupSave
variable {s : State} {gid : Nat} {g : Group} (hg : s.group gid = some g)
include hg

theorem exec_groupSave_refused (word : Option WLoc) (hall : s.saveOf true gid = none) (harea : g.save = 0) :
    exec (.groupSave gid word) s = .next (s.setErrOpt word 0x51) := by
  show execGroupSave gid word s = _
  simp only [execGroupSave, hg, hall, if_pos harea]

theorem exec_groupSave_begins (word : Option WLoc) (hall : s.saveOf true gid = none) (harea : g.save ≠ 0)
    (hfr : ∀ p ∈ s.groupSlots gid, (s.grid (slotGrid p.1)).dbg.frozen = false) :
    exec (.groupSave gid word) s =
      .next { s.stopGroup gid with saves := (s.stopGroup gid).saves ++ [⟨true, gid, [word], none⟩] } := by
  have hany : ((s.groupSlots gid).any fun p => (s.grid (slotGrid p.1)).dbg.frozen) = false :=
    List.any_eq_false.mpr fun p hp => by rw [hfr p hp]; exact Bool.false_ne_true
  show execGroupSave gid word s = _
  simp only [execGroupSave, hg, hall, hany, Bool.false_eq_true, if_false, if_neg harea]

variable {x : Save} (hx : s.saveOf true gid = some x)
include hx

/-- In the obligation this stands before the arrow of the clause about the save that goes on, as a premise of it; it always holds. -/
theorem exec_groupSave_joins (w : WLoc) :
    exec (.groupSave gid (some w)) s = .next (s.modSave x fun y => { y with words := y.words ++ [some w] }) := by
  show execGroupSave gid (some w) s = _
  simp only [execGroupSave, hg, hx, Option.isSome_some, if_true]

theorem exec_groupSave_goesOn : exec (.groupSave gid none) s = s.groupSaveOn x gid g := by
  show execGroupSave gid none s = _
  simp only [execGroupSave, hg, hx, Option.isSome_none, Bool.false_eq_true, if_false]

end GroupSave

@[simp] theorem addResume_resumed (s : State) (d q : Nat) (r : Resume) : (s.addResume d q r).resumed = s.resumed := rfl

theorem mem_addResume_resume (s : State) (d q : Nat) (r : Resume) : r ∈ ((s.addResume d q r).queue d q).resume := by
  rw [State.addResume, modQueue_queue, if_pos ⟨rfl, rfl⟩]
  exact List.mem_append_right _ (List.mem_singleton_self r)

/-- The bytes of a save are written at once where no home of another module is awaited. -/
theorem writeSave_written {s m : State} {x : Save} {g : Group} {l : List (W64 × List Byte)} (who : List Thread) (k : State → Bool → State)
    (hland : x.landing = none) (hw : s.newUid.2.dieWrite g.die g.ptbase s.newUid.1 l = .done m true)
    (hhome : m.engLanding s.newUid.1 = false) (hcode : (m.engSettled s.newUid.1 0 0).2.2 = 0) :
    s.writeSave x g who l k = .next (k ((m.engSettled s.newUid.1 0 0).1.dropSave x) true) := by
  simp only [State.writeSave, hland, hw, hhome, hcode, Bool.false_eq_true, if_false, beq_self_eq_true]

section Drained
variable {s : State} {x : Save} {gid : Nat} (g : Group)
  (hdrained : ∀ p ∈ s.groupSlots gid, p.2.saving = true ∧ p.2.ending = false ∧ s.saveReady p.1 p.2 = true ∧ s.saveOf false p.1 = none)
  (hspad : s.spadInterests gid = false)
include hdrained hspad

/-- Every thread of the group has stopped, none has ended, and none waits or is saved alone: both tests before the area is written pass. -/
theorem groupSaveOn_tests :
    ((s.groupSlots gid).any fun p => !p.2.saving && !p.2.ending) = false
    ∧ (((s.groupSlots gid).any fun p => p.2.ending || !s.saveReady p.1 p.2 || (s.saveOf false p.1).isSome) || s.spadInterests gid) = false := by
  refine ⟨List.any_eq_false.mpr fun p hp => ?_, Bool.or_eq_false_iff.mpr ⟨List.any_eq_false.mpr fun p hp => ?_, hspad⟩⟩ <;>
    (obtain ⟨hsav, hend, hready, halone⟩ := hdrained p hp; simp [hsav, hend, hready, halone])

theorem groupSaveOn_poisoned (hp : s.groupPoison g = true) : ∃ m : State, s.groupSaveOn x gid g = .next (m.setErrAll x.words 0x52) := by
  obtain ⟨hstopped, hready⟩ := groupSaveOn_tests hdrained hspad
  simp only [State.groupSaveOn, hstopped, hready, hp, Bool.false_eq_true, if_false, if_true]
  exact ⟨_, rfl⟩

theorem groupSaveOn_written {m : State} (hp : s.groupPoison g = false) (hland : x.landing = none)
    (hw : s.newUid.2.dieWrite g.die g.ptbase s.newUid.1
      (s.saveParts g (s.groupSlots gid) (g.saved ++ (s.groupSlots gid).map fun p => p.2.tidx)) = .done m true)
    (hhome : m.engLanding s.newUid.1 = false) (hcode : (m.engSettled s.newUid.1 0 0).2.2 = 0) :
    ∃ m : State, s.groupSaveOn x gid g = .next (m.arriveAll x.words) ∧ (tget m.resumed gid).isSome = true
      ∧ ∃ r ∈ (m.queue g.die g.queue).resume, r.gid = gid ∧ r.whole = true := by
  obtain ⟨hstopped, hready⟩ := groupSaveOn_tests hdrained hspad
  simp only [State.groupSaveOn, hstopped, hready, hp, Bool.false_eq_true, if_false, if_true, writeSave_written _ _ hland hw hhome hcode]
  refine ⟨_, rfl, ?_, _, mem_addResume_resume .., rfl, rfl⟩
  rw [addResume_resumed, tget_tput_self, Option.isSome_some]

end Drained

/-! ### Restoring (R333, R334) -/

section Restore
variable {s m : State} {die q : Nat} {r : Restore} {g : Group} (hr : s.restores.find? (fun r => r.die == die && r.q == q) = some r)
  (hg : s.group r.item.gid = some g) (hon : (s.cl (128 * g.die + g.cl)).power = .on)
include hr hg hon

theorem exec_resumeItemRestore_restored {l : List Byte} (hread : s.dieRead g.die g.ptbase (r.item.ranges g) = .done m (some l)) :
    exec (.resumeItemRestore die q) s =
      .next ({ m with restores := (takeFirst (fun x => x == r) m.restores).2 }.restoreItem g r (cutBytes ((r.item.ranges g).map Prod.snd) l)) := by
  show execResumeItemRestore die q s = _
  simp only [execResumeItemRestore, hr, hg, hon, hread, ne_eq, not_true_eq_false, if_false]

theorem exec_resumeItemRestore_dropped (hread : s.dieRead g.die g.ptbase (r.item.ranges g) = .done m none)
    (hdone : g.donew = 0 ∨ m.dieGate g.ptbase g.donew true = .go) :
    exec (.resumeItemRestore die q) s = .next ({ m with restores := (takeFirst (fun x => x == r) m.restores).2 }.dropItem g r) := by
  show execResumeItemRestore die q s = _
  simp only [execResumeItemRestore, hr, hg, hon, hread, ne_eq, not_true_eq_false, if_false, doneGate_of_reached hdone]

end Restore

/-! ### The obligation, its clauses by their event -/

/-- Settles O45: each clause is the lemma of its event's branch. That a held group which is placed is followed by another selection in the
same step is the model's reading of R324 (log entry 72). The premise of the last clause that requests join a save is not needed:
`exec_groupSave_joins` proves it. -/
theorem schedulingEvents : Obligations.SchedulingEvents := by
  refine ⟨fun s die q => ⟨fun r => ?acceptance, fun r => exec_dependenceReady_free, ?head, ?done,
      fun hheld n => exec_distributorStep_selects hheld, fun h n => exec_distributorStep_places, ?group,
      fun slot t => exec_slotRelease_drained, fun slot word => exec_slotSave_gone word, ?slotSave, ?restore⟩,
    fun s gid word => ⟨exec_groupSave_gone word, fun g hg => ⟨exec_groupSave_refused hg word, exec_groupSave_begins hg word,
      fun x hx ⟨_, hdrained⟩ hspad => ⟨?poisoned, ?written⟩⟩⟩⟩
  case acceptance =>
    refine ⟨fun m => exec_recordAcceptance_accepted, fun m code datum => exec_recordAcceptance_invalid,
      fun m reason slot va a sup h => (exec_recordAcceptance_refused h).1 slot va a sup, fun m reason h => (exec_recordAcceptance_refused h).2,
      fun m => exec_recordAcceptance_act, accept_disabled⟩
  case head =>
    exact fun r w hidle hres hrec hdep hloc => ⟨exec_dependenceReady_passed hidle hres hrec hdep hloc,
      exec_dependenceReady_abandoned hidle hres hrec hdep hloc⟩
  case done => exact fun ptb donew code => ⟨setErrDone_none s code, fun h n w => setErrDone_word code h⟩
  case group =>
    exact fun gid g hg => ⟨exec_firstBlockFetch_started hg, fun hlive hsaved hspad => ⟨exec_groupEnd_silent hg hlive hsaved hspad,
      fun hdone hgo n w => exec_groupEnd_arrives hg hlive hsaved hspad hdone hgo⟩⟩
  case slotSave =>
    exact fun slot word t g ht hend hg hone hall => ⟨exec_slotSave_refused word ht hend hg hone hall,
      exec_slotSave_begins word ht hend hg hone hall⟩
  case restore =>
    exact fun r g m hr hg hon => ⟨fun l => exec_resumeItemRestore_restored hr hg hon, exec_resumeItemRestore_dropped hr hg hon⟩
  case poisoned =>
    intro hp
    obtain ⟨m, hm⟩ := groupSaveOn_poisoned (x := x) g hdrained hspad hp
    exact ⟨_, (exec_groupSave_goesOn hg hx).trans hm, m, rfl⟩
  case written =>
    intro hp hland m hw hhome hcode
    obtain ⟨n, hn, hres, hitem⟩ := groupSaveOn_written g hdrained hspad hp hland hw hhome hcode
    exact ⟨_, (exec_groupSave_goesOn hg hx).trans hn, n, rfl, hres, hitem⟩

end Sys2Proof.Machine
end
